-- ==== Sys2Proof/Word.lean ====
section
/-! DEFINITION. The widths of the core's registers and memory entries (spec/10_state.md R29, R46). -/

namespace Sys2Proof

/-- A 32-bit register, a command word, an entry of `CE` or `CS`. -/
abbrev Word := BitVec 32

/-- A byte of `SRC` or `DST`, an entry of `CL`. -/
abbrev Byte := BitVec 8

/-- A 16-bit register, an entry of `AE`, a sub-entry of `AS`, a palette index. -/
abbrev Half := BitVec 16

end Sys2Proof
end

