-- ==== Sys2Proof/Syntax.lean ====
section
/-! DEFINITION. The instructions: one constructor for each row of spec/opcode_table.json. Operands are unsigned numbers
(spec/30_encoding.md R103, spec/00_scope.md R13). -/

namespace Sys2Proof

/-- The four formats of spec/opcode_table.json (30_encoding.md, opening paragraph). -/
inductive Fmt where
  /-- A 32-bit command word written to `CMD` (R91). -/
  | cw
  /-- A decoded bootstrap symbol, 5 bits (R109). -/
  | bootsym
  /-- One 2-bit field of a reference-group code (R114). -/
  | subcode
  /-- One 3-bit field of a chunk-encoding symbol (R112). -/
  | chunkenc
  deriving DecidableEq, Repr, Inhabited

/-- The bits of one field of a format. -/
def Fmt.width : Fmt → Nat
  | .cw => 32
  | .bootsym => 5
  | .subcode => 2
  | .chunkenc => 3

/-- The instructions. The first eleven are commands; the rest are the coded events of the streams (00_scope.md R3,
R19), which a command meets while it reads its stream. -/
inductive Instr where
  | brStart
  | getbits (n : Nat)
  | readbits (n : Nat)
  | huffBuild (s n : Nat)
  | huffDecode (s : Nat)
  | modelRx (s : Nat)
  | unpackChunk
  | unpackRefgrp
  | nop
  | clrErr
  | softReset
  | bootLiteral015 (v : Nat)
  | bootLiteral16
  | bootZeroRunSmall
  | bootZeroRunLarge
  | bootRepeatSmall
  | bootRepeatLarge
  | refFreshDelta
  | refFromAbove
  | refDiagonal
  | refKeepRunning
  | tilePattern0
  | tilePattern1
  | tilePattern2
  | tilePattern3
  | tilePattern4
  | tilePattern5
  | tilePattern6
  | tilePattern7
  deriving DecidableEq, Repr, Inhabited

/-- The format an instruction is coded in. -/
def Instr.fmt : Instr → Fmt
  | .brStart => .cw
  | .getbits _ => .cw
  | .readbits _ => .cw
  | .huffBuild _ _ => .cw
  | .huffDecode _ => .cw
  | .modelRx _ => .cw
  | .unpackChunk => .cw
  | .unpackRefgrp => .cw
  | .nop => .cw
  | .clrErr => .cw
  | .softReset => .cw
  | .bootLiteral015 _ => .bootsym
  | .bootLiteral16 => .bootsym
  | .bootZeroRunSmall => .bootsym
  | .bootZeroRunLarge => .bootsym
  | .bootRepeatSmall => .bootsym
  | .bootRepeatLarge => .bootsym
  | .refFreshDelta => .subcode
  | .refFromAbove => .subcode
  | .refDiagonal => .subcode
  | .refKeepRunning => .subcode
  | .tilePattern0 => .chunkenc
  | .tilePattern1 => .chunkenc
  | .tilePattern2 => .chunkenc
  | .tilePattern3 => .chunkenc
  | .tilePattern4 => .chunkenc
  | .tilePattern5 => .chunkenc
  | .tilePattern6 => .chunkenc
  | .tilePattern7 => .chunkenc

end Sys2Proof
end

