-- ==== Sys2Proof/WellFormed.lean ====
section
/-! DEFINITION. Which instructions an encoding can hold: each operand fits its field (spec/30_encoding.md R93 to R97,
R103, R109). An operand that fits its field and is out of the command's own range is well formed; the command raises
its error (R103). -/

namespace Sys2Proof

/-- Every operand fits the field the encoding gives it. -/
def Instr.wf : Instr → Bool
  | .brStart => true
  | .getbits n => decide (n < 64)
  | .readbits n => decide (n < 64)
  | .huffBuild s n => decide (s < 256) && decide (n < 16384)
  | .huffDecode s => decide (s < 256)
  | .modelRx s => decide (s < 256)
  | .unpackChunk => true
  | .unpackRefgrp => true
  | .nop => true
  | .clrErr => true
  | .softReset => true
  | .bootLiteral015 v => decide (v < 16)
  | .bootLiteral16 => true
  | .bootZeroRunSmall => true
  | .bootZeroRunLarge => true
  | .bootRepeatSmall => true
  | .bootRepeatLarge => true
  | .refFreshDelta => true
  | .refFromAbove => true
  | .refDiagonal => true
  | .refKeepRunning => true
  | .tilePattern0 => true
  | .tilePattern1 => true
  | .tilePattern2 => true
  | .tilePattern3 => true
  | .tilePattern4 => true
  | .tilePattern5 => true
  | .tilePattern6 => true
  | .tilePattern7 => true

end Sys2Proof
end

