-- ==== Sys2Proof/Decode.lean ====
section
/-! DEFINITION. Decoding and encoding: command words (spec/30_encoding.md R91 to R104), bootstrap symbols (R109),
sub-codes (R114) and chunk encodings (R112). The numbers are the spec's fields, taken whole (R103). -/

namespace Sys2Proof

/-- The field `OP`, bits 31:24 of a command word (30_encoding.md R91). -/
def opField (w : Nat) : Nat := w / 2 ^ 24

/-- The field `A`, bits 23:16 (30_encoding.md R91). -/
def aField (w : Nat) : Nat := w / 2 ^ 16 % 2 ^ 8

/-- The field `B`, bits 15:0 (30_encoding.md R91). -/
def bField (w : Nat) : Nat := w % 2 ^ 16

/-- An instruction whose must-be-zero bits are all zero, or nothing (30_encoding.md R91, R104). -/
def whenZero (bits : Nat) (i : Instr) : Option Instr := if bits = 0 then some i else none

/-- A command word (30_encoding.md R92 to R102). `none` is an illegal word (R104). -/
def decodeCommand (w : Nat) : Option Instr :=
  match opField w with
  | 0x01 => whenZero (aField w + bField w) .brStart
  | 0x02 => whenZero (aField w + bField w / 2 ^ 6) (.getbits (bField w % 2 ^ 6))
  | 0x03 => whenZero (aField w + bField w / 2 ^ 6) (.readbits (bField w % 2 ^ 6))
  | 0x04 => whenZero (bField w / 2 ^ 14) (.huffBuild (aField w) (bField w % 2 ^ 14))
  | 0x05 => whenZero (bField w) (.huffDecode (aField w))
  | 0x06 => whenZero (bField w) (.modelRx (aField w))
  | 0x07 => whenZero (aField w + bField w) .unpackChunk
  | 0x08 => whenZero (aField w + bField w) .unpackRefgrp
  | 0x0D => whenZero (aField w + bField w) .nop
  | 0x0E => whenZero (aField w + bField w) .clrErr
  | 0x0F => whenZero (aField w + bField w) .softReset
  | _ => none

/-- A decoded bootstrap symbol (30_encoding.md R109). The alphabet has 21 symbols (R116). -/
def decodeBootSym (c : Nat) : Option Instr :=
  if c < 16 then some (.bootLiteral015 c) else
  match c with
  | 16 => some .bootLiteral16
  | 17 => some .bootZeroRunSmall
  | 18 => some .bootZeroRunLarge
  | 19 => some .bootRepeatSmall
  | 20 => some .bootRepeatLarge
  | _ => none

/-- One 2-bit sub-code (30_encoding.md R114, 44_unpack_refgroup.md R266). -/
def decodeSubcode (k : Nat) : Option Instr :=
  match k with
  | 0 => some .refFreshDelta
  | 1 => some .refFromAbove
  | 2 => some .refDiagonal
  | 3 => some .refKeepRunning
  | _ => none

/-- One 3-bit chunk encoding (30_encoding.md R112, 43_unpack_chunk.md R226). -/
def decodeChunkEnc (e : Nat) : Option Instr :=
  match e with
  | 0 => some .tilePattern0
  | 1 => some .tilePattern1
  | 2 => some .tilePattern2
  | 3 => some .tilePattern3
  | 4 => some .tilePattern4
  | 5 => some .tilePattern5
  | 6 => some .tilePattern6
  | 7 => some .tilePattern7
  | _ => none

/-- What the number `w` means in a format, or nothing. Total: `w` is any number. -/
def decode (f : Fmt) (w : Nat) : Option Instr :=
  match f with
  | .cw => decodeCommand w
  | .bootsym => decodeBootSym w
  | .subcode => decodeSubcode w
  | .chunkenc => decodeChunkEnc w

/-- A command word from its fields (30_encoding.md R91). -/
def packWord (op a b : Nat) : Nat := op * 2 ^ 24 + a * 2 ^ 16 + b

/-- The number that stands for an instruction in its format: the whole word of a command (30_encoding.md R92 to R102),
the symbol, sub-code or chunk encoding of an event (R109, R114, R112). -/
def encode : Instr → Nat
  | .brStart => packWord 0x01 0 0
  | .getbits n => packWord 0x02 0 n
  | .readbits n => packWord 0x03 0 n
  | .huffBuild s n => packWord 0x04 s n
  | .huffDecode s => packWord 0x05 s 0
  | .modelRx s => packWord 0x06 s 0
  | .unpackChunk => packWord 0x07 0 0
  | .unpackRefgrp => packWord 0x08 0 0
  | .nop => packWord 0x0D 0 0
  | .clrErr => packWord 0x0E 0 0
  | .softReset => packWord 0x0F 0 0
  | .bootLiteral015 v => v
  | .bootLiteral16 => 16
  | .bootZeroRunSmall => 17
  | .bootZeroRunLarge => 18
  | .bootRepeatSmall => 19
  | .bootRepeatLarge => 20
  | .refFreshDelta => 0
  | .refFromAbove => 1
  | .refDiagonal => 2
  | .refKeepRunning => 3
  | .tilePattern0 => 0
  | .tilePattern1 => 1
  | .tilePattern2 => 2
  | .tilePattern3 => 3
  | .tilePattern4 => 4
  | .tilePattern5 => 5
  | .tilePattern6 => 6
  | .tilePattern7 => 7

/-- The 32-bit word of a command, as `ERRINFO` keeps it (60_exceptions.md R346). -/
def cmdWord (i : Instr) : Word := BitVec.ofNat 32 (encode i)

/-- Whether a table word of at most 8 bits is read as a bootstrap symbol. The three event formats share their values
and a byte does not say its format (log 16): 8 to 20 can only be bootstrap symbols; any other byte is read as a
chunk-encoding symbol, whose first encoding is in bits 2:0 (30_encoding.md R112). -/
def readAsBootSym (w : Nat) : Bool := decide (8 ≤ w) && decide (w ≤ 20)

/-- The instruction the decoder reads from a row of spec/opcode_table.json whose bits are `w`: a command word, or for a
row of at most 8 bits an event (log 16). -/
def decodeTableWord (nbits w : Nat) : Option Instr :=
  if 8 < nbits then decode .cw w
  else if readAsBootSym w then decode .bootsym w
  else decode .chunkenc (w % 2 ^ 3)

end Sys2Proof
end

