-- ==== Sys2Proof/Config.lean ====
section
/-! DEFINITION. What an implementation fixes: the constants of spec/00_scope.md R9 to R12, the parameters the spec
leaves to a model (spec/92_eei_decisions.md, "Open parameters in one list"), and the constants without a body that
stand for every value the spec leaves open. -/

namespace Sys2Proof

/-- Model slots in the model store (00_scope.md R12). -/
def numModels : Nat := 8

/-- Largest code length of any Huffman code (00_scope.md R9, `MAX_CODE_LEN`). -/
def maxCodeLen : Nat := 16

/-- Largest alphabet of any model (00_scope.md R9, `MAX_SYMS`); also the entries of `CL` (10_state.md R44). -/
def maxSyms : Nat := 8192

/-- Largest width of a direct lookup (00_scope.md R9, `MAX_TABLE_BITS`). -/
def maxTableBits : Nat := 11

/-- Size of the bootstrap alphabet (00_scope.md R9, `NUM_CL_SYMS`). -/
def numClSyms : Nat := 21

/-- Raw bits of the transmitted symbol count (00_scope.md R10, `COUNT_BITS`). -/
def countBits : Nat := 14

/-- Raw bits of `num_codelength_codes` (00_scope.md R9, `NUM_CL_CODES_BITS`). -/
def numClCodesBits : Nat := 5

/-- Raw bits of one bootstrap code length (00_scope.md R9, `CL_LEN_BITS`). -/
def clLenBits : Nat := 3

/-- Largest entry count of a palette (00_scope.md R12, `PAL_MAX`). -/
def palMax : Nat := 65535

/-- Entries of the column cache (00_scope.md R12, `COL_SIZE`). -/
def colSize : Nat := 16384

/-- The pixel formats of `FORMAT` (10_state.md R33). Codes 9 to 15 are reserved. -/
inductive Format where
  | dxt1 | dxt3 | dxt5 | dxt5a | dxn | etc1 | etc2 | etc2a | etc1s | reserved
  deriving DecidableEq, Repr, Inhabited

/-- A plane of a format: one endpoint palette and one selector palette with their running indices
(43_unpack_chunk.md R224). -/
inductive Plane where
  | c | a0 | a1
  deriving DecidableEq, Repr, Inhabited

/-- The two prediction schemes of the level unpacker (00_scope.md R2). -/
inductive Scheme where
  | chunk | refgrp
  deriving DecidableEq, Repr, Inhabited

/-- One 16-bit palette index for each plane: `EP[p]`, `SP[p]` (10_state.md R22), `COL[x].idx[p]` (R45). -/
structure PlaneRegs where
  c  : Half
  a0 : Half
  a1 : Half
  deriving DecidableEq, Repr, Inhabited

/-- One entry of the column cache `COL` (10_state.md R45). -/
structure ColEntry where
  idx  : PlaneRegs
  kind : BitVec 2
  deriving DecidableEq, Repr, Inhabited

/-- What the open parameter `DiagRule` is asked (44_unpack_refgroup.md R267). `DiagState` is coded as a natural number, 0
when it is reset (log 8). -/
structure DiagQuery where
  format : Format
  plane  : Plane
  x      : Nat
  y      : Nat
  ep     : PlaneRegs
  col    : List ColEntry
  diag   : Nat
  deriving DecidableEq, Repr, Inhabited

/-- The planes of each format the unpacker rebuilds, in stream order: the parameters `CHUNK_PLANES` and
`REFGRP_PLANES` (43_unpack_chunk.md R224, 44_unpack_refgroup.md R261). -/
structure PlaneTable where
  dxt1  : List Plane
  dxt5  : List Plane
  dxt5a : List Plane
  dxn   : List Plane
  deriving DecidableEq, Repr, Inhabited

/-- The parameters of one implementation. A state carries them (log 2); no step changes them. -/
structure Config where
  /-- `SRC_SIZE`, bytes of source memory (00_scope.md R12). -/
  srcSize : Nat
  /-- `DST_MEM_SIZE`, bytes of destination memory (00_scope.md R12). -/
  dstMemSize : Nat
  /-- `CL_ORDER`, the order of the bootstrap code lengths (42_model_rx.md R196). -/
  clOrder : List Nat
  /-- `TILE_COUNT[e]` (43_unpack_chunk.md R226). -/
  tileCount : List Nat
  /-- `TILE_PATTERN[e][k]` (43_unpack_chunk.md R226). -/
  tilePattern : List (List Nat)
  /-- `CHUNK_PLANES` (43_unpack_chunk.md R224). -/
  chunkPlanes : PlaneTable
  /-- `REFGRP_PLANES` (44_unpack_refgroup.md R261). -/
  refgrpPlanes : PlaneTable
  /-- `RG_SEL_DELTA` (44_unpack_refgroup.md R268). -/
  rgSelDelta : Bool
  /-- Whether a `DiagRule` is given (44_unpack_refgroup.md R267). -/
  diagRuleGiven : Bool
  /-- Whether an `EtcUnpack` is given (43_unpack_chunk.md R225). -/
  etcUnpackGiven : Bool
  deriving DecidableEq, Repr, Inhabited

namespace Config

/-- `CL_ORDER` as 42_model_rx.md R196 gives it. UNVERIFIED in entries 10 to 19 (log 10): unsafe. -/
def defaultClOrder : List Nat :=
  [17, 18, 19, 20, 0, 8, 7, 9, 6, 10, 5, 11, 4, 12, 3, 13, 2, 14, 1, 15, 16]

/-- `TILE_COUNT` as 43_unpack_chunk.md R226 gives it. UNVERIFIED (log 11): unsafe. -/
def defaultTileCount : List Nat := [1, 2, 2, 3, 3, 3, 3, 4]

/-- `TILE_PATTERN` as 43_unpack_chunk.md R226 gives it. UNVERIFIED (log 11): unsafe. -/
def defaultTilePattern : List (List Nat) :=
  [[0, 0, 0, 0], [0, 0, 1, 1], [0, 1, 0, 1], [0, 0, 1, 2],
   [1, 2, 0, 0], [0, 1, 0, 2], [1, 0, 2, 0], [0, 1, 2, 3]]

/-- `CHUNK_PLANES` as 43_unpack_chunk.md R224 gives it. UNVERIFIED order (log 12): unsafe. -/
def defaultChunkPlanes : PlaneTable := ⟨[.c], [.a0, .c], [.a0], [.a0, .a1]⟩

/-- `REFGRP_PLANES` as 44_unpack_refgroup.md R261 gives it. UNVERIFIED order (log 12): unsafe. -/
def defaultRefgrpPlanes : PlaneTable := ⟨[.c], [.c, .a0], [.a0], [.a0, .a1]⟩

/-- The parameters after reset: the spec's defaults, and where it has none a DESIGN CHOICE (log 2, 8, 9): both
memories as large as the spec allows, a `DiagRule` given, no `EtcUnpack` given. -/
def default : Config where
  srcSize := 2 ^ 32
  dstMemSize := 2 ^ 32
  clOrder := defaultClOrder
  tileCount := defaultTileCount
  tilePattern := defaultTilePattern
  chunkPlanes := defaultChunkPlanes
  refgrpPlanes := defaultRefgrpPlanes
  rgSelDelta := false
  diagRuleGiven := true
  etcUnpackGiven := false

/-- `l` lists exactly 0 to n-1, each once. -/
def isPermOfRange (l : List Nat) (n : Nat) : Bool :=
  l.length == n && (List.range n).all fun i => l.contains i

/-- Two lists hold the same planes, each once. -/
def samePlanes (l m : List Plane) : Bool :=
  l.length == m.length && m.all fun p => l.contains p

/-- A plane table holds the planes each format has, in any order (43_unpack_chunk.md R224). -/
def planesOk (t : PlaneTable) : Bool :=
  samePlanes t.dxt1 [.c] && samePlanes t.dxt5 [.a0, .c] && samePlanes t.dxt5a [.a0] && samePlanes t.dxn [.a0, .a1]

/-- What the spec asks of a choice of parameters: memory sizes (00_scope.md R12), `CL_ORDER` a permutation with the
eleven entries the document gives (42_model_rx.md R196), tile tables in range with an all-shared pattern
(43_unpack_chunk.md R226), the planes of each format (R224, 44_unpack_refgroup.md R261). Any encoding may have the
all-shared pattern, as R226 says; that it be encoding 0, as D20 of 92_eei_decisions.md can be read, is not asked (DESIGN
CHOICE, log 11). -/
def wf (c : Config) : Bool :=
  decide (c.srcSize ≤ 2 ^ 32) && decide (c.dstMemSize ≤ 2 ^ 32)
  && isPermOfRange c.clOrder 21
  && c.clOrder.take 10 == [17, 18, 19, 20, 0, 8, 7, 9, 6, 10] && c.clOrder.drop 20 == [16]
  && c.tileCount.length == 8 && c.tilePattern.length == 8
  && c.tileCount.all (fun t => decide (1 ≤ t) && decide (t ≤ 4))
  && (List.range 8).all (fun e =>
        (c.tilePattern.getD e []).length == 4
        && (c.tilePattern.getD e []).all fun t => decide (t < c.tileCount.getD e 0))
  && c.tilePattern.contains [0, 0, 0, 0]
  && planesOk c.chunkPlanes && planesOk c.refgrpPlanes

/-- The free values of the model (log 3): the `i`-th value of the `k`-th use, wherever the spec leaves a value unspecified.
No body: nothing can be proved of it. A free value of `w` bits is `BitVec.ofNat w (free k i)`. -/
opaque free : Nat → Nat → Nat

/-- The open parameter `DiagRule` (44_unpack_refgroup.md R267): an index and the next `DiagState` from what it is asked.
No body: it stands for every rule (log 8). -/
opaque diagRule : DiagQuery → Nat × Nat

/-- The planes (models and palettes) an ETC format needs, part of the open parameter `EtcUnpack` (43_unpack_chunk.md
R225; log 9). No body. -/
opaque etcPlanes : Scheme → Format → List Plane

end Config

end Sys2Proof
end

