-- ==== Sys2Proof/Machine/State.lean ====
section
/-! DEFINITION. The state of the machine (spec/10_state.md R20 and its sections) and its value after reset (R48). -/

namespace Sys2Proof.Machine

open Sys2Proof

/-- A memory: its written entries by address, addresses strictly rising (`Memory.wf`). An address that is not listed
holds no value (10_state.md R49; log 4). `Memory 8` is a list of `Host.Cell`. -/
abbrev Memory (w : Nat) := List (Nat × BitVec w)

/-- The memory spaces (20_memory.md R60); `aSel` is the alpha selector palette `AS`. -/
inductive Space where
  | reg | src | dst | cl | ce | cs | ae | aSel
  deriving DecidableEq, Repr, Inhabited

/-- The errors a command can raise (60_exceptions.md R341); `ErrCode.code` gives their numbers. -/
inductive ErrCode where
  | formatUnsupported | faces
  | modelEmpty | modelRunOverflow | modelCodelen | modelTable | modelRepeatNoPrev | modelNumClCodes | modelTooMany
  | symInvalid | symRange | srcEmpty | symValue
  | dstSize | rowPitch | operand | brNotStarted | modelNotBuilt | illegalCmd | paletteEmpty | dimensions
  deriving DecidableEq, Repr, Inhabited

/-- Why the machine stops. -/
inductive Fault where
  /-- The core read a memory location nothing has written since reset: a fault of the launch (10_state.md R49). Raised by
  every read of `SRC`, `CL` and the palettes. Safe: the hardware goes on with some value (log 4). -/
  | unwrittenRead (sp : Space) (addr : Nat)
  /-- An access to an address the space does not have (20_memory.md R60, R67). Raised by the host's accesses; by a write
  to `DST` only in states no run reaches (20_memory.md R72). Safe (log 17). -/
  | noSuchAddress (sp : Space) (addr : Nat)
  deriving DecidableEq, Repr, Inhabited

/-- Why the model gives a step no meaning. -/
inductive Refusal where
  /-- An instruction that has no meaning yet. Raised by exec's arms alone. Safe. -/
  | notModelled (mnemonic : String)
  /-- A host access of a width or alignment the spec does not define; "a model refuses it" (20_memory.md R67). Raised by
  the host's accesses. Safe. -/
  | hostAccessUndefined (sp : Space) (addr width : Nat)
  /-- A sub-code 2 and no `DiagRule` given: the model "must refuse such a run" (44_unpack_refgroup.md R267). Safe. -/
  | diagRuleNotGiven
  /-- A stream event while its command is not running, or a command where a stream event stands: the spec gives it no
  effect there (00_scope.md R19; log 15). No step raises it from a state that resets reach. Safe. -/
  | outOfContext
  deriving DecidableEq, Repr, Inhabited

/-- Why a piece of a command does not go on: an error of the core (60_exceptions.md R352), a fault or a refusal. -/
inductive Halt where
  | error (c : ErrCode)
  | fault (f : Fault)
  | refuse (r : Refusal)
  deriving DecidableEq, Repr, Inhabited

/-- A piece of a command: it goes on with a value, or halts. -/
abbrev Attempt := Except Halt

/-- The fields of a model that go by code length (10_state.md R41). -/
structure LenRow where
  count  : Nat
  first  : Option Nat
  last   : Option Nat
  max16  : Option Nat
  valPtr : Nat
  deriving DecidableEq, Repr, Inhabited

/-- A Huffman model (10_state.md R41). `rows` holds the row of length `L` at `L - 1`, for `L` in 1 to 16. -/
structure Model where
  n          : Nat
  lens       : List Nat
  rows       : List LenRow
  sorted     : List Nat
  used       : Nat
  minLen     : Option Nat
  maxLen     : Option Nat
  tableBits  : Nat
  table      : List Word
  tableMax16 : Option Nat
  deriving DecidableEq, Repr, Inhabited

/-- The bit reader (10_state.md R25). `atReset` is the model's own: nothing has touched the reader since reset (R39;
log 5). -/
structure BitReader where
  base    : Word
  len     : Word
  bitpos  : Nat
  valid   : Bool
  atReset : Bool
  deriving DecidableEq, Repr, Inhabited

/-- Where the chunk scan stands: face, chunk row, chunk column (10_state.md R23). -/
structure ChunkPos where
  f  : Nat
  cy : Nat
  cx : Nat
  deriving DecidableEq, Repr, Inhabited

/-- Where the block scan stands: face, block row, block column (10_state.md R23). -/
structure BlockPos where
  f : Nat
  y : Nat
  x : Nat
  deriving DecidableEq, Repr, Inhabited

/-- The transient state of `MODEL_RX` (10_state.md R23, R43). -/
structure RxState where
  slot : Nat
  n    : Nat
  boot : Model
  ofs  : Nat
  deriving DecidableEq, Repr, Inhabited

/-- `TEP[p][i]`, `i` in 0 to 3 (10_state.md R22). -/
structure TileRegs where
  c  : List Half
  a0 : List Half
  a1 : List Half
  deriving DecidableEq, Repr, Inhabited

/-- The transient state of `UNPACK_CHUNK` (10_state.md R22, R23). `scan` lists the positions still to visit, the one the
scan counters stand at first. -/
structure ChunkState where
  ceb  : BitVec 10
  ep   : PlaneRegs
  sp   : PlaneRegs
  tep  : TileRegs
  k    : Nat
  scan : List ChunkPos
  deriving DecidableEq, Repr, Inhabited

/-- The transient state of `UNPACK_REFGRP` (10_state.md R22, R23, R45); `diag` is the `DiagState` of
44_unpack_refgroup.md R267. -/
structure RefState where
  rg   : BitVec 8
  ep   : PlaneRegs
  sp   : PlaneRegs
  col  : List ColEntry
  diag : Nat
  scan : List BlockPos
  deriving DecidableEq, Repr, Inhabited

/-- The transient state, which exists only inside one command (10_state.md R22, R48). It is `idle` whenever the host can
look (20_memory.md R75). -/
inductive Activity where
  | idle
  | rx (r : RxState)
  | chunk (c : ChunkState)
  | refgrp (g : RefState)
  deriving DecidableEq, Repr, Inhabited

/-- What the host can do (00_scope.md R8, 20_memory.md R67, 70_reset_and_hazards.md R380): write or read one unit of
`width` bits, or assert hardware reset. An address of `reg` is a byte offset; of `aSel` it is `3 * i + j` for `AS[i][j]`
(log 17); of every other space it is the unit's number. -/
inductive HostAction where
  | write (sp : Space) (addr width : Nat) (value : Word)
  | read (sp : Space) (addr width : Nat)
  | hardReset
  deriving DecidableEq, Repr, Inhabited

/-- The state of the machine (10_state.md R20). -/
structure State where
  /-- The implementation's parameters (log 2). -/
  cfg : Config
  arg0 : Word
  arg1 : Word
  result : Word
  /-- `STATUS.ERR`. -/
  err : Bool
  errCode : Byte
  errInfo : Word
  format : BitVec 4
  faces : BitVec 3
  lvlW : Half
  lvlH : Half
  rowPitch : Word
  dstSize : Word
  ceCount : Half
  csCount : Half
  aeCount : Half
  asCount : Half
  clCount : BitVec 14
  br : BitReader
  /-- The model store; a slot that is not valid is empty. -/
  models : Vector (Option Model) 8
  cl : Memory 8
  ce : Memory 32
  cs : Memory 32
  ae : Memory 16
  aSel : Memory 16
  src : Memory 8
  dst : Memory 8
  activity : Activity
  /-- The host's coming accesses (log 1). -/
  pending : List HostAction
  /-- What the host's last read returned (log 18). -/
  busData : Word
  /-- How many free values have been used (log 3). -/
  freeCtr : Nat
  deriving DecidableEq, Repr, Inhabited

/-- The bit reader after reset (10_state.md R48). -/
def BitReader.reset : BitReader := ⟨0, 0, 0, false, true⟩

/-- The machine right after hardware reset (10_state.md R48, 70_reset_and_hazards.md R380): every register 0, every slot
empty, nothing written in any memory. The model's own fields: log 1, 2, 3, 18. -/
def State.reset : State where
  cfg := Config.default
  arg0 := 0
  arg1 := 0
  result := 0
  err := false
  errCode := 0
  errInfo := 0
  format := 0
  faces := 0
  lvlW := 0
  lvlH := 0
  rowPitch := 0
  dstSize := 0
  ceCount := 0
  csCount := 0
  aeCount := 0
  asCount := 0
  clCount := 0
  br := BitReader.reset
  models := Vector.replicate 8 none
  cl := []
  ce := []
  cs := []
  ae := []
  aSel := []
  src := []
  dst := []
  activity := .idle
  pending := []
  busData := 0
  freeCtr := 0

/-- The palettes an unpack command reads (10_state.md R46). -/
inductive Palette where
  | ce | cs | ae | aSel
  deriving DecidableEq, Repr, Inhabited

/-- What an `EtcUnpack` is told before it reads anything: the parameters and the configuration registers, the row of the
unpack commands in 10_state.md R50. DESIGN CHOICE (log 9). -/
structure EtcQuery where
  scheme : Scheme
  format : Format
  cfg : Config
  faces : BitVec 3
  lvlW : Half
  lvlH : Half
  rowPitch : Word
  dstSize : Word
  ceCount : Half
  csCount : Half
  aeCount : Half
  asCount : Half
  deriving DecidableEq, Repr, Inhabited

/-- The errors an `EtcUnpack` may raise: those that 43_unpack_chunk.md R238 and 44_unpack_refgroup.md R271 give an unpack
command after its checks. That an ETC format raises no other is a DESIGN CHOICE (log 9). -/
inductive EtcError where
  | symInvalid | symRange | symValue
  deriving DecidableEq, Repr, Inhabited

/-- A reconstruction as an `EtcUnpack` gives it: what it reads next and how it goes on from what it read. It reaches the
stream, slots 0 to 4 and the palettes, writes visible blocks, and ends or raises an error, and nothing else (10_state.md
R49, R50, 20_memory.md R60, R63). DESIGN CHOICE (log 9). So is that it may look inside a palette entry: how it goes on, and
the bytes of its blocks, may depend on the entry's value, where 10_state.md R46 says that the core copies an entry and
never looks inside it (log 9). -/
inductive EtcProgram where
  /-- The command ends without an error. -/
  | done
  /-- The command ends with an error. -/
  | fail (e : EtcError)
  /-- Decodes one symbol with the model of a slot (41_huffman_model.md R170). An empty slot raises `ERR_MODEL_NOT_BUILT`
  (log 9, 21). -/
  | decode (slot : Fin 5) (next : Nat → EtcProgram)
  /-- Looks at the next `n` bits (40_bit_reader.md R132). -/
  | peek (n : Nat) (next : Nat → EtcProgram)
  /-- Moves the cursor on by `n` bits. -/
  | skip (n : Nat) (next : EtcProgram)
  /-- Reads an entry of a palette; one of `AS` has the number `3 * i + j` (log 17). -/
  | entry (pal : Palette) (index : Nat) (next : Nat → EtcProgram)
  /-- Writes the block at column `x`, row `y` of face `f` if it is visible (20_memory.md R63, R72). -/
  | block (f x y : Nat) (bytes : Nat → Byte) (next : EtcProgram)
  deriving Inhabited

end Sys2Proof.Machine

/-- The open parameter `EtcUnpack` (spec/43_unpack_chunk.md R225). No body: it stands for every reconstruction of the
ETC formats that reads and writes what `EtcProgram` says (log 9). -/
opaque Sys2Proof.Config.etcUnpack : Sys2Proof.Machine.EtcQuery → Sys2Proof.Machine.EtcProgram
end

