-- ==== Sys2Proof/Machine/Flags.lean ====
section
/-! DEFINITION. The flags: the `STATUS` word (spec/10_state.md R27) and the numbers of the error codes
(spec/60_exceptions.md R341). The core has no arithmetic condition codes (R27). -/

namespace Sys2Proof.Machine

open Sys2Proof

/-- The number of an error code (60_exceptions.md R341). -/
def ErrCode.code : ErrCode → Byte
  | .formatUnsupported => 0x11
  | .faces => 0x12
  | .modelEmpty => 0x21
  | .modelRunOverflow => 0x22
  | .modelCodelen => 0x23
  | .modelTable => 0x24
  | .modelRepeatNoPrev => 0x25
  | .modelNumClCodes => 0x26
  | .modelTooMany => 0x27
  | .symInvalid => 0x31
  | .symRange => 0x32
  | .srcEmpty => 0x33
  | .symValue => 0x34
  | .dstSize => 0x41
  | .rowPitch => 0x42
  | .operand => 0x44
  | .brNotStarted => 0x45
  | .modelNotBuilt => 0x46
  | .illegalCmd => 0x47
  | .paletteEmpty => 0x48
  | .dimensions => 0x49

/-- The model in slot `k`, if the slot is valid (10_state.md R41). No slot has a number from 8 up. -/
def State.model (s : State) (k : Nat) : Option Model := s.models[k]?.join

/-- `STATUS.MODEL_VALID[k]` (10_state.md R27). -/
def State.modelValid (s : State) (k : Nat) : Bool := (s.model k).isSome

/-- `STATUS.MODEL_VALID[7:0]` as a number (10_state.md R27). -/
def State.modelValidBits (s : State) : Nat :=
  ((List.range numModels).map fun k => (s.modelValid k).toNat * 2 ^ k).sum

/-- The `STATUS` word (10_state.md R27): `ERR` in bit 0, `BR_VALID` in bit 1, `MODEL_VALID` in bits 15:8; every other bit
reads 0. -/
def State.status (s : State) : Word :=
  BitVec.ofNat 32 (s.err.toNat + s.br.valid.toNat * 2 + s.modelValidBits * 2 ^ 8)

end Sys2Proof.Machine
end

