-- ==== Sys2Proof/Machine/Ops.lean ====
section
/-! DEFINITION. The named operations: memories (spec/20_memory.md), raising an error and returning from it
(spec/60_exceptions.md R351 to R357), what a failed command leaves behind (R353 to R355), free values (log 3). -/

namespace Sys2Proof.Machine

open Sys2Proof

/-! ### Memories -/

/-- The entry at an address, if something wrote it. -/
def Memory.read {w : Nat} (m : Memory w) (a : Nat) : Option (BitVec w) :=
  match m with
  | [] => none
  | (b, v) :: rest => if b = a then some v else Memory.read rest a

/-- Writes one entry and keeps the addresses rising. -/
def Memory.write {w : Nat} (m : Memory w) (a : Nat) (v : BitVec w) : Memory w :=
  match m with
  | [] => [(a, v)]
  | (b, u) :: rest =>
    if a < b then (a, v) :: (b, u) :: rest
    else if a = b then (a, v) :: rest
    else (b, u) :: Memory.write rest a v

/-- Writes entries `a`, `a + 1`, ... in ascending order. -/
def Memory.writeList {w : Nat} (m : Memory w) (a : Nat) (vs : List (BitVec w)) : Memory w :=
  match vs with
  | [] => m
  | v :: rest => Memory.writeList (Memory.write m a v) (a + 1) rest

/-- Forgets every entry below `n`: those locations hold no specified value any more. -/
def Memory.forgetBelow {w : Nat} (m : Memory w) (n : Nat) : Memory w := m.filter fun e => decide (n ≤ e.1)

/-- Sets entries 0 to n-1, entry `i` to `f i`. -/
def Memory.fillBelow {w : Nat} (m : Memory w) (n : Nat) (f : Nat → BitVec w) : Memory w :=
  (List.range n).map (fun i => (i, f i)) ++ Memory.forgetBelow m n

/-- Every address of the list is above `a`, and they rise strictly. -/
def Memory.risesFrom {w : Nat} (a : Nat) (m : Memory w) : Bool :=
  match m with
  | [] => true
  | (b, _) :: rest => decide (a < b) && Memory.risesFrom b rest

/-- The canonical form: addresses rise strictly. An unlisted address reads as no value, so no entry equals it. -/
def Memory.wf {w : Nat} (m : Memory w) : Bool :=
  match m with
  | [] => true
  | (b, _) :: rest => Memory.risesFrom b rest

/-- Every listed address is below `size`. -/
def Memory.below {w : Nat} (m : Memory w) (size : Nat) : Bool := m.all fun e => decide (e.1 < size)

/-- A core read of one entry: a location nothing has written is a fault of the launch (10_state.md R49; log 4). -/
def readEntry {w : Nat} (sp : Space) (m : Memory w) (a : Nat) : Attempt (BitVec w) :=
  match Memory.read m a with
  | some v => .ok v
  | none => .error (.fault (.unwrittenRead sp a))

/-! ### Byte order of the output (20_memory.md R66) -/

/-- Two bytes of a 16-bit number, least significant first (00_scope.md R16). -/
def le16 (v : Half) : List Byte := [v.setWidth 8, (v >>> 8).setWidth 8]

/-- Four bytes of a 32-bit number, least significant first (00_scope.md R16). -/
def le32 (v : Word) : List Byte :=
  [v.setWidth 8, (v >>> 8).setWidth 8, (v >>> 16).setWidth 8, (v >>> 24).setWidth 8]

/-! ### Updates by name -/

/-- Writes `RESULT` (10_state.md R32). -/
def State.setResult (s : State) (v : Nat) : State := { s with result := BitVec.ofNat 32 v }

/-- Moves the bit cursor on by `n` bits (40_bit_reader.md R133). -/
def State.advance (s : State) (n : Nat) : State := { s with br := { s.br with bitpos := s.br.bitpos + n } }

/-- Puts a model into slot `k`, or empties it (10_state.md R41). -/
def State.setModel (s : State) (k : Nat) (m : Option Model) : State :=
  { s with models := s.models.setIfInBounds k m }

/-- Sets the transient state (10_state.md R22). -/
def State.setActivity (s : State) (a : Activity) : State := { s with activity := a }

/-- Sets the code-length memory. -/
def State.setCl (s : State) (m : Memory 8) : State := { s with cl := m }

/-- Sets the destination memory. -/
def State.setDst (s : State) (m : Memory 8) : State := { s with dst := m }

/-! ### Errors -/

/-- TAKING THE EXCEPTION (60_exceptions.md R352): `STATUS.ERR`, `ERRCODE` and `ERRINFO` are written, nothing else. -/
def State.raiseError (s : State) (word : Word) (c : ErrCode) : State :=
  { s with err := true, errCode := c.code, errInfo := word }

/-- RETURN from it (60_exceptions.md R357, 45_host_contract.md R322): the three error registers become 0. -/
def State.clearError (s : State) : State := { s with err := false, errCode := 0, errInfo := 0 }

/-- The error of a command that has changed nothing (60_exceptions.md R353, pre-checks). -/
def raiseBy (i : Instr) (c : ErrCode) (s : State) : Host.Outcome State Fault Refusal :=
  .next (s.raiseError (cmdWord i) c)

/-- The `ERR` gate (60_exceptions.md R351): while `ERR` = 1 a command is ignored and nothing changes. -/
def gate (s : State) (run : State → Host.Outcome State Fault Refusal) : Host.Outcome State Fault Refusal :=
  if s.err then .next s else run s

/-- A word that is no command (30_encoding.md R104). -/
def illegalCommand (w : Word) (s : State) : Host.Outcome State Fault Refusal :=
  gate s fun s => .next (s.raiseError w .illegalCmd)

/-! ### Free values (log 3) -/

/-- The next free value of `w` bits. -/
def State.freeBits (s : State) (w : Nat) : BitVec w := BitVec.ofNat w (Config.free s.freeCtr 0)

/-- Counts a use of free values. -/
def State.useFree (s : State) : State := { s with freeCtr := s.freeCtr + 1 }

/-! ### What a failed command leaves behind -/

/-- Poisoning the reader (60_exceptions.md R353): not valid, and the cursor unspecified. -/
def State.poison (s : State) : State :=
  { s with
    br := { s.br with valid := false, atReset := false, bitpos := Config.free s.freeCtr 0 }
    freeCtr := s.freeCtr + 1 }

/-- `CL` with entries 0 to 8191 free values of use `k`. -/
@[irreducible] def freeLengths (m : Memory 8) (k : Nat) : Memory 8 :=
  Memory.fillBelow m maxSyms fun i => BitVec.ofNat 8 (Config.free k i)

/-- `CL[0..8191]` unspecified (60_exceptions.md R354): every entry a free value (log 6). -/
def State.scrambleCl (s : State) : State :=
  { s with cl := freeLengths s.cl s.freeCtr, freeCtr := s.freeCtr + 1 }

/-- The bytes of all face regions of `DST`, which together are addresses 0 to `FACES × DST_SIZE - 1` (20_memory.md R72). -/
def State.faceBytes (s : State) : Nat := s.faces.toNat * s.dstSize.toNat

/-- The face regions unspecified (60_exceptions.md R355): no value is kept for them (log 7). -/
def State.forgetFaces (s : State) : State := { s with dst := Memory.forgetBelow s.dst s.faceBytes }

/-- A decode that failed in `HUFF_DECODE` (60_exceptions.md R353). -/
def failDecode (i : Instr) (s : State) (c : ErrCode) : State := s.poison.raiseError (cmdWord i) c

/-- A `MODEL_RX` that failed one of its two checks: the slot is invalid, if there is one of that number, and `CL`
unspecified, as after every failed `MODEL_RX` (60_exceptions.md R354); the reader is as it was (R353). 42_model_rx.md R191
can be read otherwise (DESIGN CHOICE, log 27). -/
def rejectModelRx (slot : Nat) (s : State) (c : ErrCode) : State :=
  ((s.setModel slot none).scrambleCl).raiseError (cmdWord (.modelRx slot)) c

/-- A `MODEL_RX` that failed after its pre-checks (60_exceptions.md R353, R354). -/
def failModelRx (slot : Nat) (s : State) (c : ErrCode) : State :=
  (((s.setModel slot none).setActivity .idle).scrambleCl.poison).raiseError (cmdWord (.modelRx slot)) c

/-- An unpack command that failed after its pre-checks (60_exceptions.md R353, R355). -/
def failUnpack (i : Instr) (s : State) (c : ErrCode) : State :=
  ((s.setActivity .idle).forgetFaces.poison).raiseError (cmdWord i) c

/-- The error of a running command, by what is running (60_exceptions.md R353 to R355). -/
def abortRunning (s : State) (c : ErrCode) : State :=
  match s.activity with
  | .idle => s.raiseError 0 c
  | .rx r => failModelRx r.slot s c
  | .chunk _ => failUnpack .unpackChunk s c
  | .refgrp _ => failUnpack .unpackRefgrp s c

/-- The outcome of a piece of a command: where it raises an error, the state `onError` makes of the code. -/
def settle (onError : ErrCode → State) (a : Attempt State) : Host.Outcome State Fault Refusal :=
  match a with
  | .ok s => .next s
  | .error (.error c) => .next (onError c)
  | .error (.fault f) => .fault f
  | .error (.refuse r) => .refused r

/-- Raises an error inside a piece of a command. -/
def failWith {α : Type} (c : ErrCode) : Attempt α := .error (.error c)

/-- Refuses inside a piece of a command. -/
def refuseWith {α : Type} (r : Refusal) : Attempt α := .error (.refuse r)

end Sys2Proof.Machine
end

