-- ==== Sys2Proof/Machine/Operands.lean ====
section
/-! DEFINITION. The operand forms: slot numbers (spec/30_encoding.md R95 to R97), the configuration registers as an
unpack command reads them: formats (spec/10_state.md R33), planes (spec/43_unpack_chunk.md R224,
spec/44_unpack_refgroup.md R261), geometry (R222) and destination addresses (spec/20_memory.md R72). -/

namespace Sys2Proof

/-! ### Planes -/

/-- The slot of a plane's endpoint model (10_state.md R42, 43_unpack_chunk.md R224). -/
def Plane.epSlot : Plane → Nat
  | .c => 1
  | .a0 => 3
  | .a1 => 3

/-- The slot of a plane's selector model. -/
def Plane.selSlot : Plane → Nat
  | .c => 2
  | .a0 => 4
  | .a1 => 4

/-- The register of a plane. -/
def PlaneRegs.get (r : PlaneRegs) : Plane → Half
  | .c => r.c
  | .a0 => r.a0
  | .a1 => r.a1

/-- Sets the register of a plane. -/
def PlaneRegs.set (r : PlaneRegs) (p : Plane) (v : Half) : PlaneRegs :=
  match p with
  | .c => { r with c := v }
  | .a0 => { r with a0 := v }
  | .a1 => { r with a1 := v }

/-- All planes at 0. -/
def PlaneRegs.zero : PlaneRegs := ⟨0, 0, 0⟩

end Sys2Proof

namespace Sys2Proof.Machine

open Sys2Proof

/-- A slot number in range (30_encoding.md R95 to R97). -/
def slotOk (k : Nat) : Bool := decide (k < numModels)

/-! ### Formats -/

/-- The format a code names (10_state.md R33). -/
def formatOf (code : BitVec 4) : Format :=
  match code.toNat with
  | 0 => .dxt1
  | 1 => .dxt3
  | 2 => .dxt5
  | 3 => .dxt5a
  | 4 => .dxn
  | 5 => .etc1
  | 6 => .etc2
  | 7 => .etc2a
  | 8 => .etc1s
  | _ => .reserved

/-- The format `FORMAT` selects. -/
def State.fmt (s : State) : Format := formatOf s.format

/-- `BPB`, the bytes of a block (10_state.md R33). A reserved code has none. -/
def bytesPerBlock : Format → Nat
  | .dxt1 => 8
  | .dxt3 => 16
  | .dxt5 => 16
  | .dxt5a => 8
  | .dxn => 16
  | .etc1 => 8
  | .etc2 => 8
  | .etc2a => 16
  | .etc1s => 8
  | .reserved => 0

/-- A format handed to the open parameter `EtcUnpack` (43_unpack_chunk.md R225). -/
def isEtc : Format → Bool
  | .dxt1 => false
  | .dxt3 => false
  | .dxt5 => false
  | .dxt5a => false
  | .dxn => false
  | .etc1 => true
  | .etc2 => true
  | .etc2a => true
  | .etc1s => true
  | .reserved => false

/-- Whether a format has unpack semantics (10_state.md R33, 43_unpack_chunk.md R225). -/
def hasUnpack (cfg : Config) : Format → Bool
  | .dxt1 => true
  | .dxt3 => false
  | .dxt5 => true
  | .dxt5a => true
  | .dxn => true
  | .etc1 => cfg.etcUnpackGiven
  | .etc2 => cfg.etcUnpackGiven
  | .etc2a => cfg.etcUnpackGiven
  | .etc1s => cfg.etcUnpackGiven
  | .reserved => false

/-- The plane table of a scheme (43_unpack_chunk.md R224, 44_unpack_refgroup.md R261). -/
def planeTable (cfg : Config) : Scheme → PlaneTable
  | .chunk => cfg.chunkPlanes
  | .refgrp => cfg.refgrpPlanes

/-- The planes of a format in stream order. Those of an ETC format are part of `EtcUnpack` (log 9). -/
def planesOf (cfg : Config) (sch : Scheme) (f : Format) : List Plane :=
  match f with
  | .dxt1 => (planeTable cfg sch).dxt1
  | .dxt3 => []
  | .dxt5 => (planeTable cfg sch).dxt5
  | .dxt5a => (planeTable cfg sch).dxt5a
  | .dxn => (planeTable cfg sch).dxn
  | .etc1 => Config.etcPlanes sch .etc1
  | .etc2 => Config.etcPlanes sch .etc2
  | .etc2a => Config.etcPlanes sch .etc2a
  | .etc1s => Config.etcPlanes sch .etc1s
  | .reserved => []

/-- The planes the current unpack works on. -/
def State.planes (s : State) (sch : Scheme) : List Plane := planesOf s.cfg sch s.fmt

/-- The entries of a plane's endpoint palette (43_unpack_chunk.md R224). -/
def State.epCount (s : State) : Plane → Nat
  | .c => s.ceCount.toNat
  | .a0 => s.aeCount.toNat
  | .a1 => s.aeCount.toNat

/-- The entries of a plane's selector palette. -/
def State.selCount (s : State) : Plane → Nat
  | .c => s.csCount.toNat
  | .a0 => s.asCount.toNat
  | .a1 => s.asCount.toNat

/-- The slots an unpack needs: slot 0 and those of its planes (43_unpack_chunk.md R224, 44_unpack_refgroup.md R261). The
spec does not say which slots an ETC format needs; that it needs slot 0 and those of `Config.etcPlanes` is a DESIGN CHOICE
(log 9). -/
def needSlots (ps : List Plane) : List Nat := 0 :: ps.flatMap fun p => [p.epSlot, p.selSlot]

/-- `TEP[p][i]` (10_state.md R22). -/
def TileRegs.get (r : TileRegs) (p : Plane) (i : Nat) : Half :=
  match p with
  | .c => r.c.getD i 0
  | .a0 => r.a0.getD i 0
  | .a1 => r.a1.getD i 0

/-- Sets `TEP[p][i]`. -/
def TileRegs.set (r : TileRegs) (p : Plane) (i : Nat) (v : Half) : TileRegs :=
  match p with
  | .c => { r with c := r.c.set i v }
  | .a0 => { r with a0 := r.a0.set i v }
  | .a1 => { r with a1 := r.a1.set i v }

/-- All tiles at 0 (log 19). -/
def TileRegs.zero : TileRegs := ⟨List.replicate 4 0, List.replicate 4 0, List.replicate 4 0⟩

/-- The delta law (43_unpack_chunk.md R231): `idx <- (idx + d) mod P`, the true remainder. -/
def deltaIndex (idx : Half) (d count : Nat) : Half := BitVec.ofNat 16 ((idx.toNat + d) % count)

/-! ### Geometry (43_unpack_chunk.md R222) -/

/-- `ceil(a / b)` (00_scope.md R13). -/
def ceilDiv (a b : Nat) : Nat := (a + b - 1) / b

/-- `BX`, block columns of the true image. -/
def State.bx (s : State) : Nat := ceilDiv s.lvlW.toNat 4

/-- `BY`, block rows of the true image. -/
def State.by' (s : State) : Nat := ceilDiv s.lvlH.toNat 4

/-- `CX`, chunk columns. -/
def State.cx (s : State) : Nat := ceilDiv s.bx 2

/-- `CY`, chunk rows. -/
def State.cy (s : State) : Nat := ceilDiv s.by' 2

/-- `W2`, padded block columns. -/
def State.w2 (s : State) : Nat := 2 * ceilDiv s.bx 2

/-- `H2`, padded block rows. -/
def State.h2 (s : State) : Nat := 2 * ceilDiv s.by' 2

/-- A block position inside the true image (43_unpack_chunk.md R222). -/
def State.visible (s : State) (bx by' : Nat) : Bool := decide (bx < s.bx) && decide (by' < s.by')

/-- `BPB` of the current format. -/
def State.bpb (s : State) : Nat := bytesPerBlock s.fmt

/-- `addr(f, bx, by)`, where a block is written (20_memory.md R72). -/
def State.blockAddr (s : State) (f bx by' : Nat) : Nat :=
  f * s.dstSize.toNat + by' * s.rowPitch.toNat + bx * s.bpb

end Sys2Proof.Machine
end

