-- ==== Sys2Proof/Machine/BitReader.lean ====
section
/-! DEFINITION. The bit reader and its commands `BR_START`, `GETBITS`, `READBITS` (spec/40_bit_reader.md). -/

namespace Sys2Proof.Machine

open Sys2Proof

/-! ### The stream -/

/-- `Bit(p)` (40_bit_reader.md R131): bit `7 - p mod 8` of byte `p div 8` of the buffer, and 0 past its end. -/
def streamBit (s : State) (p : Nat) : Attempt Nat :=
  if p / 8 < s.br.len.toNat then do
    let b ← readEntry .src s.src (s.br.base.toNat + p / 8)
    .ok (b.toNat / 2 ^ (7 - p % 8) % 2)
  else .ok 0

/-- The number of `n` bits from position `pos` on, first bit most significant (40_bit_reader.md R132). -/
def peekAt (s : State) (pos : Nat) : Nat → Attempt Nat
  | 0 => .ok 0
  | n + 1 => do
    let v ← peekAt s pos n
    let b ← streamBit s (pos + n)
    .ok (2 * v + b)

/-- `Peek(n)` (40_bit_reader.md R132). -/
def peek (s : State) (n : Nat) : Attempt Nat := peekAt s s.br.bitpos n

/-- `Take(n)` (40_bit_reader.md R133). -/
def take (s : State) (n : Nat) : Attempt (Nat × State) := do
  let v ← peek s n
  .ok (v, s.advance n)

/-- The read of `READBITS` (40_bit_reader.md R141): at most two reads of at most 16 bits, the higher part first. -/
def takeLong (s : State) (n : Nat) : Attempt (Nat × State) :=
  if n ≤ 16 then take s n
  else do
    let (hi, s) ← take s (n - 16)
    let (lo, s) ← take s 16
    .ok (hi * 2 ^ 16 + lo, s)

/-! ### The commands -/

/-- `BR_START` (40_bit_reader.md R135, R136). The sum is computed without wrap-around. -/
def execBrStart (s : State) : Host.Outcome State Fault Refusal :=
  gate s fun s =>
    if s.arg1 = 0 then raiseBy .brStart .srcEmpty s
    else if s.cfg.srcSize < s.arg0.toNat + s.arg1.toNat then raiseBy .brStart .operand s
    else .next { s with br := ⟨s.arg0, s.arg1, 0, true, false⟩ }

/-- `GETBITS n` (40_bit_reader.md R138, R139). -/
def execGetbits (n : Nat) (s : State) : Host.Outcome State Fault Refusal :=
  gate s fun s =>
    if 16 < n then raiseBy (.getbits n) .operand s
    else if s.br.valid = false then raiseBy (.getbits n) .brNotStarted s
    else settle (failDecode (.getbits n) s) do
      let (v, s) ← take s n
      .ok (s.setResult v)

/-- `READBITS n` (40_bit_reader.md R141, R142). -/
def execReadbits (n : Nat) (s : State) : Host.Outcome State Fault Refusal :=
  gate s fun s =>
    if 32 < n then raiseBy (.readbits n) .operand s
    else if s.br.valid = false then raiseBy (.readbits n) .brNotStarted s
    else settle (failDecode (.readbits n) s) do
      let (v, s) ← takeLong s n
      .ok (s.setResult v)

end Sys2Proof.Machine
end

