-- ==== Sys2Proof/Machine/Huffman.lean ====
section
/-! DEFINITION. Canonical Huffman models: `Build`, `Decode` and the commands `HUFF_BUILD`, `HUFF_DECODE`
(spec/41_huffman_model.md). -/

namespace Sys2Proof.Machine

open Sys2Proof

/-! ### Build -/

/-- The code lengths 1 to 16. -/
def codeLengths : List Nat := List.range' 1 maxCodeLen

/-- `max16[L]` from `last[L]` (41_huffman_model.md R160): `last` followed by ones, 16 bits in all. -/
def max16Of (L last : Nat) : Nat := last * 2 ^ (16 - L) + (2 ^ (16 - L) - 1)

/-- The row of a length no symbol has (41_huffman_model.md R156). -/
def LenRow.unused : LenRow := ⟨0, none, none, none, 0⟩

/-- The canonical assignment (41_huffman_model.md R156), from length to length, with the running `cur` and `acc`. Lengths
that do not fit raise `ERR_MODEL_TABLE` (R158). -/
def assignRows (lens : List Nat) (cur acc : Nat) : List Nat → Except ErrCode (List LenRow)
  | [] => .ok []
  | L :: rest =>
    let c := lens.count L
    if c = 0 then do
      let rows ← assignRows lens (2 * cur) acc rest
      .ok (LenRow.unused :: rows)
    else if 2 ^ L < cur + c then .error .modelTable
    else do
      let rows ← assignRows lens (2 * (cur + c)) (acc + c) rest
      .ok (⟨c, some cur, some (cur + c - 1), some (max16Of L (cur + c - 1)), acc⟩ :: rows)

/-- The symbols of length `L` by ascending index. -/
def symbolsOfLen (lens : List Nat) (L : Nat) : List Nat :=
  (lens.zipIdx.filter fun e => e.1 == L).map fun e => e.2

/-- `sorted` (41_huffman_model.md R155): the used symbols by length, then by index. -/
def sortedSymbols (lens : List Nat) : List Nat := codeLengths.flatMap (symbolsOfLen lens)

/-- `ceil_log2` for numbers up to 2^16 (00_scope.md R13). -/
def ceilLog2 (n : Nat) : Nat := ((List.range 17).find? fun k => decide (n ≤ 2 ^ k)).getD 16

/-- `table_bits` (41_huffman_model.md R163). -/
def tableBitsOf (n : Nat) : Nat := if n ≤ 16 then 0 else min (1 + ceilLog2 n) maxTableBits

/-- The sentinel of an empty lookup slot (30_encoding.md R115). -/
def sentinel : Word := 0xFFFFFFFF

/-- The row of length `L` in a list of rows. -/
def rowAt (rows : List LenRow) (L : Nat) : LenRow := rows.getD (L - 1) LenRow.unused

/-- The symbol with the `L`-bit code `v`, if one has it (41_huffman_model.md R161). -/
def symbolAt (rows : List LenRow) (sorted : List Nat) (L v : Nat) : Option Nat :=
  match (rowAt rows L).first, (rowAt rows L).last with
  | some first, some last =>
    if first ≤ v ∧ v ≤ last then sorted[(rowAt rows L).valPtr + (v - first)]? else none
  | _, _ => none

/-- One entry of the direct lookup table (41_huffman_model.md R164): the symbol whose code begins the `bits`-bit number
`t`, packed with its length (30_encoding.md R115), or the sentinel. -/
def tableEntry (rows : List LenRow) (sorted : List Nat) (bits t : Nat) : Word :=
  ((List.range' 1 bits).findSome? fun L =>
    (symbolAt rows sorted L (t / 2 ^ (bits - L))).map fun sym => BitVec.ofNat 32 (sym + L * 2 ^ 16)).getD sentinel

/-- `table_max16` (41_huffman_model.md R165). -/
def tableMax16Of (rows : List LenRow) (bits : Nat) : Option Nat := (rows.take bits).reverse.findSome? LenRow.max16

/-- The model of a code-length array whose rows are assigned (41_huffman_model.md R155 to R165). -/
def modelOf (n : Nat) (lens : List Nat) (rows : List LenRow) : Model :=
  let sorted := sortedSymbols lens
  let bits := tableBitsOf n
  { n := n
    lens := lens
    rows := rows
    sorted := sorted
    used := (rows.map LenRow.count).sum
    minLen := codeLengths.find? fun L => decide (0 < lens.count L)
    maxLen := codeLengths.reverse.find? fun L => decide (0 < lens.count L)
    tableBits := bits
    table := if bits = 0 then [] else (List.range (2 ^ bits)).map (tableEntry rows sorted bits)
    tableMax16 := tableMax16Of rows bits }

/-- `Build(n, len)` (41_huffman_model.md R150 to R166), its failures in the order of R166. -/
def build (n : Nat) (lens : List Nat) : Except ErrCode Model :=
  if n = 0 then .error .modelEmpty
  else if maxSyms < n then .error .modelTooMany
  else if lens.any fun l => decide (maxCodeLen < l) then .error .modelCodelen
  else do
    let rows ← assignRows lens 0 0 codeLengths
    .ok (modelOf n lens rows)

/-- A failure of `Build` or `Decode` as an error of the core. -/
def orError {α : Type} (r : Except ErrCode α) : Attempt α :=
  match r with
  | .ok a => .ok a
  | .error c => .error (.error c)

/-- The code of a symbol as an `L`-bit number (41_huffman_model.md R157). -/
def codeOf (m : Model) (sym : Nat) : Nat :=
  (rowAt m.rows (m.lens.getD sym 0)).first.getD 0 + (m.lens.take sym).count (m.lens.getD sym 0)

/-! ### Decode -/

/-- The ladder of `Decode` (41_huffman_model.md R170) over a list of lengths, for the 16-bit peek `p`. -/
def ladder (m : Model) (p : Nat) : List Nat → Except ErrCode (Nat × Nat)
  | [] => .error .symInvalid
  | L :: rest =>
    match (rowAt m.rows L).max16 with
    | none => ladder m p rest
    | some top =>
      if 0 < (rowAt m.rows L).count ∧ p ≤ top then
        let v := p / 2 ^ (16 - L)
        let first := (rowAt m.rows L).first.getD 0
        let j := (rowAt m.rows L).valPtr + (v - first)
        if v < first ∨ m.used ≤ j then .error .symRange
        else .ok (m.sorted.getD j 0, L)
      else ladder m p rest

/-- The symbol and length that the 16-bit peek `p` begins with (41_huffman_model.md R170). -/
def decodePeek (m : Model) (p : Nat) : Except ErrCode (Nat × Nat) := ladder m p codeLengths

/-- The document's two-step procedure (41_huffman_model.md R172): the direct lookup, else the ladder from `min_len`. The
commands use `decodePeek`; R172 says that the two agree. -/
def decodeTwoStep (m : Model) (p : Nat) : Except ErrCode (Nat × Nat) :=
  let ladderFromMin := ladder m p (codeLengths.filter fun L => decide (m.minLen.getD 1 ≤ L))
  match m.tableMax16 with
  | none => ladderFromMin
  | some top =>
    if 0 < m.tableBits ∧ p ≤ top then
      let e := (m.table.getD (p / 2 ^ (16 - m.tableBits)) sentinel).toNat
      if e = sentinel.toNat then .error .symInvalid else .ok (e % 2 ^ 16, e / 2 ^ 16)
    else ladderFromMin

/-- `Decode(M)` (41_huffman_model.md R170): the symbol, its length, and the cursor moved on by the length. -/
def decodeSym (m : Model) (s : State) : Attempt ((Nat × Nat) × State) := do
  let p ← peek s 16
  let r ← orError (decodePeek m p)
  .ok (r, s.advance r.2)

/-- `Decode(MS[k])` for a slot a command needs. Every command checks its slots first (R171, 43_unpack_chunk.md R223), so
an empty slot is met only in states no run reaches; it raises `ERR_MODEL_NOT_BUILT` (log 21). -/
def decodeSlot (k : Nat) (s : State) : Attempt (Nat × State) :=
  match s.model k with
  | none => failWith .modelNotBuilt
  | some m => do
    let (r, s) ← decodeSym m s
    .ok (r.1, s)

/-! ### The commands -/

/-- The code lengths `CL[a..a+n-1]`. -/
def readLens (s : State) (a : Nat) : Nat → Attempt (List Nat)
  | 0 => .ok []
  | n + 1 => do
    let l ← readEntry .cl s.cl a
    let rest ← readLens s (a + 1) n
    .ok (l.toNat :: rest)

/-- The code lengths `Build(n, CL[0..n-1])` uses: a count above 8192 fails before `CL` is read (41_huffman_model.md
R152). -/
def lensFromCl (n : Nat) (s : State) : Attempt (List Nat) := if n ≤ maxSyms then readLens s 0 n else .ok []

/-- `Build(n, CL[0..n-1])` (41_huffman_model.md R151). -/
def buildFromCl (n : Nat) (s : State) : Attempt Model := do
  let lens ← lensFromCl n s
  orError (build n lens)

/-- A model built with success into slot `k` (41_huffman_model.md R151, 42_model_rx.md R191). -/
def State.install (s : State) (k n : Nat) (m : Model) : State :=
  { s.setModel k (some m) with clCount := BitVec.ofNat 14 n }

/-- `HUFF_BUILD k, n` (41_huffman_model.md R151). The slot is emptied before the build, so a failed one leaves it so. -/
def execHuffBuild (k n : Nat) (s : State) : Host.Outcome State Fault Refusal :=
  gate s fun s =>
    if slotOk k = false then raiseBy (.huffBuild k n) .operand s
    else settle (fun c => (s.setModel k none).raiseError (cmdWord (.huffBuild k n)) c) do
      let m ← buildFromCl n s
      .ok (s.install k n m)

/-- `HUFF_DECODE k` (41_huffman_model.md R171). -/
def execHuffDecode (k : Nat) (s : State) : Host.Outcome State Fault Refusal :=
  gate s fun s =>
    if slotOk k = false then raiseBy (.huffDecode k) .operand s
    else if s.br.valid = false then raiseBy (.huffDecode k) .brNotStarted s
    else
      match s.model k with
      | none => raiseBy (.huffDecode k) .modelNotBuilt s
      | some m => settle (failDecode (.huffDecode k) s) do
        let (r, s) ← decodeSym m s
        .ok (s.setResult (r.1 + r.2 * 2 ^ 16))

end Sys2Proof.Machine
end

