-- ==== Sys2Proof/Machine/ModelRx.lean ====
section
/-! DEFINITION. Receiving a model: the header, the run-length events and the final build of `MODEL_RX`
(spec/42_model_rx.md). Each event is an instruction of its own (log 15). -/

namespace Sys2Proof.Machine

open Sys2Proof

/-- The transient state of the running `MODEL_RX`. -/
def runningRx (s : State) : Attempt RxState :=
  match s.activity with
  | .rx r => .ok r
  | .idle => refuseWith .outOfContext
  | .chunk _ => refuseWith .outOfContext
  | .refgrp _ => refuseWith .outOfContext

/-- The outcome of a stream event: an error inside it ends the running command (60_exceptions.md R352). -/
def eventOutcome (body : State → Attempt State) (s : State) : Host.Outcome State Fault Refusal :=
  settle (abortRunning s) (body s)

/-! ### Events (42_model_rx.md R198 to R202) -/

/-- A literal code length (R198). -/
def bootLiteral (c : Nat) (s : State) : Attempt State := do
  let r ← runningRx s
  .ok ((s.setCl (Memory.write s.cl r.ofs (BitVec.ofNat 8 c))).setActivity (.rx { r with ofs := r.ofs + 1 }))

/-- A run of zeros of `least` plus the next `bits` raw bits (R199, R200). The entries stay 0, as initialised. -/
def bootZeroRun (least bits : Nat) (s : State) : Attempt State := do
  let r ← runningRx s
  let (extra, s) ← take s bits
  if r.n - r.ofs < least + extra then failWith .modelRunOverflow
  else .ok (s.setActivity (.rx { r with ofs := r.ofs + (least + extra) }))

/-- A run of copies of the entry before it, of `least` plus the next `bits` raw bits (R201, R202), its checks in the
order of R201. -/
def bootRepeat (least bits : Nat) (s : State) : Attempt State := do
  let r ← runningRx s
  let (extra, s) ← take s bits
  if r.ofs = 0 then failWith .modelRepeatNoPrev
  else if r.n - r.ofs < least + extra then failWith .modelRunOverflow
  else do
    let prev ← readEntry .cl s.cl (r.ofs - 1)
    if prev = 0 then failWith .modelRepeatNoPrev
    else .ok ((s.setCl (Memory.writeList s.cl r.ofs (List.replicate (least + extra) prev))).setActivity
      (.rx { r with ofs := r.ofs + (least + extra) }))

/-- Bootstrap symbols 0 to 15: a literal code length (R198). -/
def execBootLiteral015 (v : Nat) (s : State) : Host.Outcome State Fault Refusal := eventOutcome (bootLiteral v) s

/-- Bootstrap symbol 16: the literal code length 16 (R198). -/
def execBootLiteral16 (s : State) : Host.Outcome State Fault Refusal := eventOutcome (bootLiteral 16) s

/-- Bootstrap symbol 17: 3 to 10 zeros (R199). -/
def execBootZeroRunSmall (s : State) : Host.Outcome State Fault Refusal := eventOutcome (bootZeroRun 3 3) s

/-- Bootstrap symbol 18: 11 to 138 zeros (R200). -/
def execBootZeroRunLarge (s : State) : Host.Outcome State Fault Refusal := eventOutcome (bootZeroRun 11 7) s

/-- Bootstrap symbol 19: 3 to 6 copies (R201). -/
def execBootRepeatSmall (s : State) : Host.Outcome State Fault Refusal := eventOutcome (bootRepeat 3 2) s

/-- Bootstrap symbol 20: 7 to 70 copies (R202). -/
def execBootRepeatLarge (s : State) : Host.Outcome State Fault Refusal := eventOutcome (bootRepeat 7 6) s

/-! ### The header (42_model_rx.md R192 to R197) -/

/-- `ReadCount` (R192, R193). -/
def readCount (s : State) : Attempt (Nat × State) := do
  let (n, s) ← take s countBits
  if n = 0 then failWith .modelEmpty
  else if maxSyms < n then failWith .modelTooMany
  else .ok (n, s)

/-- `ReadNumCodes` (R194). -/
def readNumCodes (s : State) : Attempt (Nat × State) := do
  let (k, s) ← take s numClCodesBits
  if k < 1 ∨ numClSyms < k then failWith .modelNumClCodes else .ok (k, s)

/-- The bootstrap lengths, one raw field for each symbol of `order` in turn (R195). -/
def readBootLens (bl : List Nat) (s : State) : List Nat → Attempt (List Nat × State)
  | [] => .ok (bl, s)
  | sym :: rest => do
    let (v, s) ← take s clLenBits
    readBootLens (bl.set sym v) s rest

/-- `ReadBootstrap(k)` (R195 to R197). -/
def readBootstrap (k : Nat) (s : State) : Attempt (Model × State) := do
  let (bl, s) ← readBootLens (List.replicate numClSyms 0) s (s.cfg.clOrder.take k)
  let boot ← orError (build numClSyms bl)
  .ok (boot, s)

/-- `MODEL_RX` up to its first event (R191): the header is read and `CL[0..n-1]` is 0. -/
def startModelRx (slot : Nat) (s : State) : Attempt State := do
  let (n, s) ← readCount s
  let (k, s) ← readNumCodes s
  let (boot, s) ← readBootstrap k s
  .ok ((s.setCl (Memory.fillBelow s.cl n fun _ => 0)).setActivity (.rx ⟨slot, n, boot, 0⟩))

/-- The end of `MODEL_RX` (R191, R204): the final build. -/
def finishModelRx (r : RxState) (s : State) : Attempt State := do
  let m ← buildFromCl r.n s
  .ok ((s.install r.slot r.n m).setActivity .idle)

/-- After an event: the loop of R203 goes on while the array is not full. -/
def retireBoot (r : RxState) (s : State) : Attempt State := if r.ofs < r.n then .ok s else finishModelRx r s

/-- The next event of `MODEL_RX`: one symbol of the bootstrap model (R198). -/
def fetchBoot (r : RxState) (s : State) : Attempt (Instr × State) := do
  let (sym, s) ← decodeSym r.boot s
  match decode .bootsym sym.1 with
  | some i => .ok (i, s)
  | none => refuseWith .outOfContext

end Sys2Proof.Machine
end

