-- ==== Sys2Proof/Machine/Unpack.lean ====
section
/-! DEFINITION. What the two level unpackers share: the pre-checks (spec/43_unpack_chunk.md R223 to R229), endpoint
deltas (R231) and block assembly (R235). -/

namespace Sys2Proof.Machine

open Sys2Proof

/-- `CheckUnpack` (43_unpack_chunk.md R223): the first check that fails, in the order of its table. -/
def checkUnpack (sch : Scheme) (s : State) : Option ErrCode :=
  if s.br.valid = false then some .brNotStarted
  else if hasUnpack s.cfg s.fmt = false then some .formatUnsupported
  else if (needSlots (s.planes sch)).any (fun k => !s.modelValid k) then some .modelNotBuilt
  else if s.faces.toNat ≠ 1 ∧ s.faces.toNat ≠ 6 then some .faces
  else if s.lvlW.toNat = 0 ∨ s.lvlH.toNat = 0 then some .dimensions
  else if (s.planes sch).any (fun p => s.epCount p == 0 || s.selCount p == 0) then some .paletteEmpty
  else if s.rowPitch.toNat < s.bx * s.bpb then some .rowPitch
  else if s.dstSize.toNat < s.rowPitch.toNat * s.by' ∨ s.cfg.dstMemSize < s.faces.toNat * s.dstSize.toNat then
    some .dstSize
  else none

/-- One endpoint delta of a plane (43_unpack_chunk.md R231, R234; 44_unpack_refgroup.md R266). -/
def decodeEndpoint (p : Plane) (ep : PlaneRegs) (s : State) : Attempt (PlaneRegs × State) := do
  let (d, s) ← decodeSlot p.epSlot s
  .ok (ep.set p (deltaIndex (ep.get p) d (s.epCount p)), s)

/-- One selector delta of a plane (43_unpack_chunk.md R231, R236). -/
def decodeSelectorDelta (p : Plane) (sp : PlaneRegs) (s : State) : Attempt (PlaneRegs × State) := do
  let (d, s) ← decodeSlot p.selSlot s
  .ok (sp.set p (deltaIndex (sp.get p) d (s.selCount p)), s)

/-- A color part of a block (43_unpack_chunk.md R235, `Part(C, ei, si)`). -/
def colorPart (s : State) (ei si : Nat) : Attempt (List Byte) := do
  let e ← readEntry .ce s.ce ei
  let sel ← readEntry .cs s.cs si
  .ok (le32 e ++ le32 sel)

/-- An alpha part of a block (43_unpack_chunk.md R235, `Part(A*, ei, si)`). `AS[si][j]` stands at `3 * si + j`. -/
def alphaPart (s : State) (ei si : Nat) : Attempt (List Byte) := do
  let e ← readEntry .ae s.ae ei
  let s0 ← readEntry .aSel s.aSel (3 * si)
  let s1 ← readEntry .aSel s.aSel (3 * si + 1)
  let s2 ← readEntry .aSel s.aSel (3 * si + 2)
  .ok (le16 e ++ le16 s0 ++ le16 s1 ++ le16 s2)

/-- The part of a plane. -/
def planePart (s : State) (p : Plane) (ei si : PlaneRegs) : Attempt (List Byte) :=
  match p with
  | .c => colorPart s ei.c.toNat si.c.toNat
  | .a0 => alphaPart s ei.a0.toNat si.a0.toNat
  | .a1 => alphaPart s ei.a1.toNat si.a1.toNat

/-- The planes of a block from its first byte on (43_unpack_chunk.md R235). -/
def blockPlanes : Format → List Plane
  | .dxt1 => [.c]
  | .dxt3 => []
  | .dxt5 => [.a0, .c]
  | .dxt5a => [.a0]
  | .dxn => [.a0, .a1]
  | .etc1 => []
  | .etc2 => []
  | .etc2a => []
  | .etc1s => []
  | .reserved => []

/-- The bytes of the given planes' parts, one after another. -/
def partsOf (s : State) (ei si : PlaneRegs) : List Plane → Attempt (List Byte)
  | [] => .ok []
  | p :: rest => do
    let part ← planePart s p ei si
    let more ← partsOf s ei si rest
    .ok (part ++ more)

/-- The bytes of a block (43_unpack_chunk.md R235). -/
def blockBytes (s : State) (ei si : PlaneRegs) : Attempt (List Byte) := partsOf s ei si (blockPlanes s.fmt)

/-- A core write to `DST`. The pre-checks keep every write in range (20_memory.md R72), so an address the memory does not
have is met only in states no run reaches. -/
def writeDst (a : Nat) (bytes : List Byte) (s : State) : Attempt State :=
  if s.cfg.dstMemSize < a + bytes.length then .error (.fault (.noSuchAddress .dst a))
  else .ok (s.setDst (Memory.writeList s.dst a bytes))

/-- `WriteBlock` for a visible block; a block that is not visible is not written (43_unpack_chunk.md R235, R236;
44_unpack_refgroup.md R269). -/
def writeBlock (f bx by' : Nat) (ei si : PlaneRegs) (s : State) : Attempt State :=
  if s.visible bx by' then do
    let bytes ← blockBytes s ei si
    writeDst (s.blockAddr f bx by') bytes s
  else .ok s

/-! ### The ETC formats (43_unpack_chunk.md R225; log 9) -/

/-- What the open parameter `EtcUnpack` is told. -/
def etcQuery (sch : Scheme) (s : State) : EtcQuery where
  scheme := sch
  format := s.fmt
  cfg := s.cfg
  faces := s.faces
  lvlW := s.lvlW
  lvlH := s.lvlH
  rowPitch := s.rowPitch
  dstSize := s.dstSize
  ceCount := s.ceCount
  csCount := s.csCount
  aeCount := s.aeCount
  asCount := s.asCount

/-- The entries of a palette (10_state.md R37); three 16-bit ones for each of `AS`. -/
def paletteSize (s : State) : Palette → Nat
  | .ce => s.ceCount.toNat
  | .cs => s.csCount.toNat
  | .ae => s.aeCount.toNat
  | .aSel => 3 * s.asCount.toNat

/-- An entry of a palette, as a number. -/
def readPalette (s : State) (pal : Palette) (i : Nat) : Attempt Nat :=
  match pal with
  | .ce => (readEntry .ce s.ce i).map BitVec.toNat
  | .cs => (readEntry .cs s.cs i).map BitVec.toNat
  | .ae => (readEntry .ae s.ae i).map BitVec.toNat
  | .aSel => (readEntry .aSel s.aSel i).map BitVec.toNat

/-- A block of a reconstruction: written if it is visible, and else not (20_memory.md R63, R72). -/
def writeEtcBlock (f bx by' : Nat) (bytes : Nat → Byte) (s : State) : Attempt State :=
  if decide (f < s.faces.toNat) && s.visible bx by' then
    writeDst (s.blockAddr f bx by') ((List.range s.bpb).map bytes) s
  else .ok s

/-- The code of an error that an `EtcUnpack` raises (60_exceptions.md R341). -/
def etcErrCode : EtcError → ErrCode
  | .symInvalid => .symInvalid
  | .symRange => .symRange
  | .symValue => .symValue

/-- A reconstruction from its first operation to its end. An index at or above a palette's count raises `ERR_SYM_VALUE`
before the palette is read, as 44_unpack_refgroup.md R268 does: a DESIGN CHOICE (log 9). -/
def runProgram : EtcProgram → State → Attempt State
  | .done, s => .ok s
  | .fail e, _ => failWith (etcErrCode e)
  | .decode k next, s => do
    let (v, s) ← decodeSlot k.val s
    runProgram (next v) s
  | .peek n next, s => do
    let v ← peek s n
    runProgram (next v) s
  | .skip n next, s => runProgram next (s.advance n)
  | .entry pal i next, s =>
    if paletteSize s pal ≤ i then failWith .symValue
    else do
      let v ← readPalette s pal i
      runProgram (next v) s
  | .block f x y bytes next, s => do
    let s ← writeEtcBlock f x y bytes s
    runProgram next s

/-- The reconstruction of a level in an ETC format, by the `EtcUnpack` that is given (43_unpack_chunk.md R225). What an
`EtcUnpack` may read and write the spec does not list by itself; that it is the row of the unpack commands in 10_state.md
R50 is a DESIGN CHOICE (log 9). -/
def runEtc (sch : Scheme) (s : State) : Attempt State := runProgram (Config.etcUnpack (etcQuery sch s)) s

end Sys2Proof.Machine
end

