-- ==== Sys2Proof/Machine/UnpackChunk.lean ====
section
/-! DEFINITION. The chunk-tiling scheme (spec/43_unpack_chunk.md R230 to R236): its scan, its bit-packed register and the
reconstruction of one chunk under each of the eight encodings. -/

namespace Sys2Proof.Machine

open Sys2Proof

/-- `ChunkRowOrder(cy)` (R232): left to right on even chunk rows, right to left on odd ones. -/
def chunkRowOrder (columns cy : Nat) : List Nat :=
  if cy % 2 = 0 then List.range columns else (List.range columns).reverse

/-- The positions of the chunk scan in order (R221, R232): faces outermost, then chunk rows, then the row's order. -/
def chunkScan (faces rows columns : Nat) : List ChunkPos :=
  (List.range faces).flatMap fun f =>
    (List.range rows).flatMap fun cy => (chunkRowOrder columns cy).map fun cx => ⟨f, cy, cx⟩

/-- `InitChunk` (R230): the running indices 0, the register exhausted, the scan at its start. R230 gives no start value to
the indices of planes the format does not have, to `TEP` and to `k`; 0 is a DESIGN CHOICE (log 19). -/
def initChunk (s : State) : ChunkState :=
  { ceb := 1, ep := PlaneRegs.zero, sp := PlaneRegs.zero, tep := TileRegs.zero, k := 0
    scan := chunkScan s.faces.toNat s.cy s.cx }

/-- The refill of the bit-packed register when it is exhausted (R233). -/
def refillEncodings (c : ChunkState) (s : State) : Attempt (BitVec 10 × State) :=
  if c.ceb = 1 then do
    let (v, s) ← decodeSlot 0 s
    if 512 ≤ v then failWith .symValue else .ok (BitVec.ofNat 10 v ||| 512, s)
  else .ok (c.ceb, s)

/-- `NextChunkEncoding` (R233): the next encoding, as the instruction it stands for. -/
def fetchChunk (c : ChunkState) (s : State) : Attempt (Instr × State) := do
  let (ceb, s) ← refillEncodings c s
  match decode .chunkenc (ceb &&& 7).toNat with
  | some i => .ok (i, s.setActivity (.chunk { c with ceb := ceb >>> 3 }))
  | none => refuseWith .outOfContext

/-- The endpoint deltas of one plane (R234): `todo` tiles from tile `i` on. -/
def decodeTiles (p : Plane) (i : Nat) (c : ChunkState) (s : State) : Nat → Attempt (ChunkState × State)
  | 0 => .ok (c, s)
  | todo + 1 => do
    let (ep, s) ← decodeEndpoint p c.ep s
    decodeTiles p (i + 1) { c with ep := ep, tep := c.tep.set p i (ep.get p) } s todo

/-- `DecodeTileEndpoints` (R234): all tiles of a plane before the next plane's. -/
def decodeTileEndpoints (tiles : Nat) (c : ChunkState) (s : State) : List Plane → Attempt (ChunkState × State)
  | [] => .ok (c, s)
  | p :: rest => do
    let (c, s) ← decodeTiles p 0 c s tiles
    decodeTileEndpoints tiles c s rest

/-- `DecodeSelectors` (R236). -/
def decodeSelectors (sp : PlaneRegs) (s : State) : List Plane → Attempt (PlaneRegs × State)
  | [] => .ok (sp, s)
  | p :: rest => do
    let (sp, s) ← decodeSelectorDelta p sp s
    decodeSelectors sp s rest

/-- The endpoint indices of tile `t`. -/
def tileIndices (tep : TileRegs) (t : Nat) : PlaneRegs := ⟨tep.get .c t, tep.get .a0 t, tep.get .a1 t⟩

/-- Sub-block `k` of the chunk at `pos` (R236): its selectors are decoded whether or not it is visible. -/
def subBlock (pattern : List Nat) (pos : ChunkPos) (k : Nat) (c : ChunkState) (s : State) :
    Attempt (ChunkState × State) := do
  let (sp, s) ← decodeSelectors c.sp s (s.planes .chunk)
  let s ← writeBlock pos.f (2 * pos.cx + k % 2) (2 * pos.cy + k / 2) (tileIndices c.tep (pattern.getD k 0)) sp s
  .ok ({ c with sp := sp, k := k }, s)

/-- The sub-blocks of a chunk in the given order (R236). -/
def subBlocks (pattern : List Nat) (pos : ChunkPos) (c : ChunkState) (s : State) :
    List Nat → Attempt (ChunkState × State)
  | [] => .ok (c, s)
  | k :: rest => do
    let (c, s) ← subBlock pattern pos k c s
    subBlocks pattern pos c s rest

/-- One chunk under encoding `e` (R221): its endpoints, then its four sub-blocks. -/
def runTile (e : Nat) (s : State) : Attempt State :=
  match s.activity with
  | .idle => refuseWith .outOfContext
  | .rx _ => refuseWith .outOfContext
  | .refgrp _ => refuseWith .outOfContext
  | .chunk c =>
    match c.scan with
    | [] => refuseWith .outOfContext
    | pos :: _ => do
      let (c, s) ← decodeTileEndpoints (s.cfg.tileCount.getD e 0) c s (s.planes .chunk)
      let (c, s) ← subBlocks (s.cfg.tilePattern.getD e []) pos c s [0, 1, 2, 3]
      .ok (s.setActivity (.chunk c))

/-- After a chunk: the scan moves on, and the command ends after its last position (R221). -/
def retireChunk (c : ChunkState) (s : State) : Attempt State :=
  match c.scan.tail with
  | [] => .ok (s.setActivity .idle)
  | pos :: rest => .ok (s.setActivity (.chunk { c with scan := pos :: rest }))

/-- Chunk encoding 0 (R226): one tile covers the chunk. -/
def execTilePattern0 (s : State) : Host.Outcome State Fault Refusal := eventOutcome (runTile 0) s

/-- Chunk encoding 1 (R226): top pair, bottom pair. -/
def execTilePattern1 (s : State) : Host.Outcome State Fault Refusal := eventOutcome (runTile 1) s

/-- Chunk encoding 2 (R226): left pair, right pair. -/
def execTilePattern2 (s : State) : Host.Outcome State Fault Refusal := eventOutcome (runTile 2) s

/-- Chunk encoding 3 (R226): top pair, two singles. -/
def execTilePattern3 (s : State) : Host.Outcome State Fault Refusal := eventOutcome (runTile 3) s

/-- Chunk encoding 4 (R226): two singles, bottom pair. -/
def execTilePattern4 (s : State) : Host.Outcome State Fault Refusal := eventOutcome (runTile 4) s

/-- Chunk encoding 5 (R226): left pair, right singles. -/
def execTilePattern5 (s : State) : Host.Outcome State Fault Refusal := eventOutcome (runTile 5) s

/-- Chunk encoding 6 (R226): right pair, left singles. -/
def execTilePattern6 (s : State) : Host.Outcome State Fault Refusal := eventOutcome (runTile 6) s

/-- Chunk encoding 7 (R226): four singles. -/
def execTilePattern7 (s : State) : Host.Outcome State Fault Refusal := eventOutcome (runTile 7) s

end Sys2Proof.Machine
end

