-- ==== Sys2Proof/Machine/UnpackRefgrp.lean ====
section
/-! DEFINITION. The reference-group scheme (spec/44_unpack_refgroup.md R263 to R270): its scan, its column cache and the
four sub-codes. -/

namespace Sys2Proof.Machine

open Sys2Proof

/-- The positions of the block scan in order (R270): faces outermost, rows top to bottom, columns left to right. -/
def blockScan (faces rows columns : Nat) : List BlockPos :=
  (List.range faces).flatMap fun f =>
    (List.range rows).flatMap fun y => (List.range columns).map fun x => ⟨f, y, x⟩

/-- A column cache entry after `ResetColumns` (R264). -/
def ColEntry.zero : ColEntry := ⟨PlaneRegs.zero, 0⟩

/-- The column cache with all its entries at zero (10_state.md R45). -/
def zeroColumns : List ColEntry := List.replicate colSize ColEntry.zero

/-- `InitRefgrp` (R263) and the scan at its start. The column cache is set again at the first block of each face (R264).
R263 gives no start value to the indices of planes the format does not have, and none to `SP` without `RG_SEL_DELTA`; 0 is
a DESIGN CHOICE (log 19). -/
def initRefgrp (s : State) : RefState :=
  { rg := 0, ep := PlaneRegs.zero, sp := PlaneRegs.zero, col := zeroColumns, diag := 0
    scan := blockScan s.faces.toNat s.h2 s.w2 }

/-- `ResetColumns` at the start of a face (R264), `DiagState` with it (R267). All `COL_SIZE` entries become zero
(10_state.md R45), the `W2` of R264 among them. -/
def enterFace (pos : BlockPos) (g : RefState) : RefState :=
  if pos.y = 0 ∧ pos.x = 0 then { g with col := zeroColumns, diag := 0 } else g

/-- `LoadGroup` at the top-left block of a 2×2 neighbourhood (R261, R265). -/
def loadGroup (pos : BlockPos) (g : RefState) (s : State) : Attempt (RefState × State) :=
  if pos.y % 2 = 0 ∧ pos.x % 2 = 0 then do
    let (v, s) ← decodeSlot 0 s
    if 256 ≤ v then failWith .symValue else .ok ({ g with rg := BitVec.ofNat 8 v }, s)
  else .ok (g, s)

/-- The cache entry of column `x`. -/
def RefState.column (g : RefState) (x : Nat) : ColEntry := g.col.getD x ColEntry.zero

/-- Sets the cache entry of column `x`. -/
def RefState.setColumn (g : RefState) (x : Nat) (e : ColEntry) : RefState := { g with col := g.col.set x e }

/-- `SubCode(x, y)` (R265): on an even row the low field, and the next one kept for the block below; on an odd row the
kept one. -/
def subCode (pos : BlockPos) (g : RefState) : Nat × RefState :=
  if pos.y % 2 = 0 then
    let kept : ColEntry := { g.column pos.x with kind := ((g.rg >>> 2) &&& 3).setWidth 2 }
    ((g.rg &&& 3).toNat, { g.setColumn pos.x kept with rg := g.rg >>> 4 })
  else ((g.column pos.x).kind.toNat, g)

/-- The next sub-code of the scan, as the instruction it stands for (R261, R264, R265). -/
def fetchRef (g : RefState) (s : State) : Attempt (Instr × State) :=
  match g.scan with
  | [] => refuseWith .outOfContext
  | pos :: _ => do
    let (g, s) ← loadGroup pos (enterFace pos g) s
    let (k, g) := subCode pos g
    match decode .subcode k with
    | some i => .ok (i, s.setActivity (.refgrp g))
    | none => refuseWith .outOfContext

/-! ### The sub-codes (R266, R267) -/

/-- `COL[x].idx[p] <- EP[p]` for the planes of the format, after every block (R266). -/
def cacheIndices (ps : List Plane) (x : Nat) (g : RefState) : RefState :=
  let idx := ps.foldl (fun idx p => idx.set p (g.ep.get p)) (g.column x).idx
  g.setColumn x { g.column x with idx := idx }

/-- Sub-code 0 (R266): a fresh delta for each plane. -/
def freshDelta (g : RefState) (s : State) : List Plane → Attempt (RefState × State)
  | [] => .ok (g, s)
  | p :: rest => do
    let (ep, s) ← decodeEndpoint p g.ep s
    freshDelta { g with ep := ep } s rest

/-- Sub-code 1 (R266): the indices of the block above. -/
def fromAbove (ps : List Plane) (x : Nat) (g : RefState) : RefState :=
  { g with ep := ps.foldl (fun ep p => ep.set p ((g.column x).idx.get p)) g.ep }

/-- Sub-code 2 for one plane (R267): the index `DiagRule` gives, which must be below the plane's endpoint count. -/
def diagonalPlane (s : State) (pos : BlockPos) (p : Plane) (g : RefState) : RefState :=
  let answer := Config.diagRule ⟨s.fmt, p, pos.x, pos.y, g.ep, g.col, g.diag⟩
  { g with ep := g.ep.set p (BitVec.ofNat 16 (answer.1 % s.epCount p)), diag := answer.2 }

/-- Sub-code 2 (R266, R267), for each plane in turn. -/
def diagonal (s : State) (pos : BlockPos) (ps : List Plane) (g : RefState) : RefState :=
  ps.foldl (fun g p => diagonalPlane s pos p g) g

/-- One `ApplyReference` (R266): `change` sets the running indices, then the column keeps them. -/
def applyReference (change : BlockPos → List Plane → RefState → State → Attempt (RefState × State)) (s : State) :
    Attempt State :=
  match s.activity with
  | .idle => refuseWith .outOfContext
  | .rx _ => refuseWith .outOfContext
  | .chunk _ => refuseWith .outOfContext
  | .refgrp g =>
    match g.scan with
    | [] => refuseWith .outOfContext
    | pos :: _ => do
      let (g, s) ← change pos (s.planes .refgrp) g s
      .ok (s.setActivity (.refgrp (cacheIndices (s.planes .refgrp) pos.x g)))

/-- Sub-code 0: decode a fresh delta-coded endpoint index (R266). -/
def refFreshDelta (s : State) : Attempt State := applyReference (fun _ ps g s => freshDelta g s ps) s

/-- Sub-code 1: reuse the index of the block above (R266). -/
def refFromAbove (s : State) : Attempt State := applyReference (fun pos ps g s => .ok (fromAbove ps pos.x g, s)) s

/-- Sub-code 2: the diagonal rule, if one is given (R267). -/
def refDiagonal (s : State) : Attempt State :=
  applyReference
    (fun pos ps g s =>
      if s.cfg.diagRuleGiven then .ok (diagonal s pos ps g, s) else refuseWith .diagRuleNotGiven) s

/-- Sub-code 3: keep the running index (R266). -/
def refKeepRunning (s : State) : Attempt State := applyReference (fun _ _ g s => .ok (g, s)) s

/-- Sub-code 0 as an instruction (R266). -/
def execRefFreshDelta (s : State) : Host.Outcome State Fault Refusal := eventOutcome refFreshDelta s

/-- Sub-code 1 as an instruction (R266). -/
def execRefFromAbove (s : State) : Host.Outcome State Fault Refusal := eventOutcome refFromAbove s

/-- Sub-code 2 as an instruction (R267). -/
def execRefDiagonal (s : State) : Host.Outcome State Fault Refusal := eventOutcome refDiagonal s

/-- Sub-code 3 as an instruction (R266). -/
def execRefKeepRunning (s : State) : Host.Outcome State Fault Refusal := eventOutcome refKeepRunning s

/-! ### After the sub-code (R268, R269) -/

/-- One selector of `DecodeSelectorsRG` (R268): an absolute index, or a delta when `RG_SEL_DELTA`. -/
def decodeSelectorRG (p : Plane) (sp si : PlaneRegs) (s : State) : Attempt (PlaneRegs × PlaneRegs × State) :=
  if s.cfg.rgSelDelta then do
    let (sp, s) ← decodeSelectorDelta p sp s
    .ok (sp, si.set p (sp.get p), s)
  else do
    let (v, s) ← decodeSlot p.selSlot s
    if s.selCount p ≤ v then failWith .symValue else .ok (sp, si.set p (BitVec.ofNat 16 v), s)

/-- `DecodeSelectorsRG` (R268): the running selector indices and the block's selector indices. -/
def decodeSelectorsRG (sp si : PlaneRegs) (s : State) : List Plane → Attempt (PlaneRegs × PlaneRegs × State)
  | [] => .ok (sp, si, s)
  | p :: rest => do
    let (sp, si, s) ← decodeSelectorRG p sp si s
    decodeSelectorsRG sp si s rest

/-- After the scan's last position the command ends. -/
def nextBlock (g : RefState) (s : State) : State :=
  match g.scan.tail with
  | [] => s.setActivity .idle
  | pos :: rest => s.setActivity (.refgrp { g with scan := pos :: rest })

/-- After the sub-code of a block: its selectors, its write if it is visible, and the next position (R261, R268, R269). -/
def retireRef (g : RefState) (s : State) : Attempt State :=
  match g.scan with
  | [] => refuseWith .outOfContext
  | pos :: _ => do
    let (sp, si, s) ← decodeSelectorsRG g.sp PlaneRegs.zero s (s.planes .refgrp)
    let s ← writeBlock pos.f pos.x pos.y g.ep si s
    .ok (nextBlock { g with sp := sp } s)

end Sys2Proof.Machine
end

