-- ==== Sys2Proof/Machine/StreamCommands.lean ====
section
/-! DEFINITION. The commands that interpret a stream event by event: `MODEL_RX`, `UNPACK_CHUNK`, `UNPACK_REFGRP`
(spec/42_model_rx.md R191, spec/43_unpack_chunk.md R221, spec/44_unpack_refgroup.md R261). Each runs to its end in one
step (spec/20_memory.md R75). -/

namespace Sys2Proof.Machine

open Sys2Proof

/-- The next event of the running command, read from its stream. -/
def fetchEvent (s : State) : Attempt (Instr × State) :=
  match s.activity with
  | .idle => refuseWith .outOfContext
  | .rx r => fetchBoot r s
  | .chunk c => fetchChunk c s
  | .refgrp g => fetchRef g s

/-- What follows an event inside the running command: the next position, or the command's end. -/
def retireEvent (s : State) : Attempt State :=
  match s.activity with
  | .idle => .ok s
  | .rx r => retireBoot r s
  | .chunk c => retireChunk c s
  | .refgrp g => retireRef g s

/-- The effect of an event inside the running command. A command is no event (log 15). -/
def eventBody (i : Instr) (s : State) : Attempt State :=
  match i with
  | .brStart => refuseWith .outOfContext
  | .getbits _ => refuseWith .outOfContext
  | .readbits _ => refuseWith .outOfContext
  | .huffBuild _ _ => refuseWith .outOfContext
  | .huffDecode _ => refuseWith .outOfContext
  | .modelRx _ => refuseWith .outOfContext
  | .unpackChunk => refuseWith .outOfContext
  | .unpackRefgrp => refuseWith .outOfContext
  | .nop => refuseWith .outOfContext
  | .clrErr => refuseWith .outOfContext
  | .softReset => refuseWith .outOfContext
  | .bootLiteral015 v => bootLiteral v s
  | .bootLiteral16 => bootLiteral 16 s
  | .bootZeroRunSmall => bootZeroRun 3 3 s
  | .bootZeroRunLarge => bootZeroRun 11 7 s
  | .bootRepeatSmall => bootRepeat 3 2 s
  | .bootRepeatLarge => bootRepeat 7 6 s
  | .refFreshDelta => refFreshDelta s
  | .refFromAbove => refFromAbove s
  | .refDiagonal => refDiagonal s
  | .refKeepRunning => refKeepRunning s
  | .tilePattern0 => runTile 0 s
  | .tilePattern1 => runTile 1 s
  | .tilePattern2 => runTile 2 s
  | .tilePattern3 => runTile 3 s
  | .tilePattern4 => runTile 4 s
  | .tilePattern5 => runTile 5 s
  | .tilePattern6 => runTile 6 s
  | .tilePattern7 => runTile 7 s

/-- One event of the running command: fetch it, run it, go on to the next position. -/
def oneEvent (s : State) : Attempt State := do
  let (i, s) ← fetchEvent s
  let s ← eventBody i s
  retireEvent s

/-- Events until the command has ended, at most `bound` of them. -/
def runEvents (s : State) : Nat → Attempt State
  | 0 => .ok s
  | bound + 1 =>
    match s.activity with
    | .idle => .ok s
    | .rx _ => do runEvents (← oneEvent s) bound
    | .chunk _ => do runEvents (← oneEvent s) bound
    | .refgrp _ => do runEvents (← oneEvent s) bound

/-- How many events the running command can take at most (70_reset_and_hazards.md R396): one for each code length, chunk
or block still to come. -/
def eventBound (s : State) : Nat :=
  match s.activity with
  | .idle => 0
  | .rx r => r.n
  | .chunk c => c.scan.length
  | .refgrp g => g.scan.length

/-- The running command to its end. -/
def runToEnd (s : State) : Attempt State := runEvents s (eventBound s)

/-- `MODEL_RX k` (42_model_rx.md R191). The slot is emptied first, so a failed reception leaves it so, and an error of the
two checks too (60_exceptions.md R354; log 27). -/
def execModelRx (k : Nat) (s : State) : Host.Outcome State Fault Refusal :=
  gate s fun s =>
    if slotOk k = false then .next (rejectModelRx k s .operand)
    else if s.br.valid = false then .next (rejectModelRx k s .brNotStarted)
    else settle (failModelRx k s) do
      let s ← startModelRx k (s.setModel k none)
      runToEnd s

/-- `UNPACK_CHUNK` (43_unpack_chunk.md R221). -/
def execUnpackChunk (s : State) : Host.Outcome State Fault Refusal :=
  gate s fun s =>
    match checkUnpack .chunk s with
    | some c => raiseBy .unpackChunk c s
    | none =>
      settle (failUnpack .unpackChunk s)
        (if isEtc s.fmt then runEtc .chunk s else runToEnd (s.setActivity (.chunk (initChunk s))))

/-- `UNPACK_REFGRP` (44_unpack_refgroup.md R261). -/
def execUnpackRefgrp (s : State) : Host.Outcome State Fault Refusal :=
  gate s fun s =>
    match checkUnpack .refgrp s with
    | some c => raiseBy .unpackRefgrp c s
    | none =>
      settle (failUnpack .unpackRefgrp s)
        (if isEtc s.fmt then runEtc .refgrp s else runToEnd (s.setActivity (.refgrp (initRefgrp s))))

end Sys2Proof.Machine
end

