-- ==== Sys2Proof/Machine/System.lean ====
section
/-! DEFINITION. The housekeeping commands `NOP`, `CLR_ERR`, `SOFT_RESET` (spec/45_host_contract.md R321 to R323). -/

namespace Sys2Proof.Machine

open Sys2Proof

/-- Every register and flag at its reset value and every slot empty; the memories and the model's own fields stay
(45_host_contract.md R323, 10_state.md R48). -/
def State.softReset (s : State) : State :=
  { State.reset with
    cfg := s.cfg
    cl := s.cl
    ce := s.ce
    cs := s.cs
    ae := s.ae
    aSel := s.aSel
    src := s.src
    dst := s.dst
    pending := s.pending
    busData := s.busData
    freeCtr := s.freeCtr }

/-- Hardware reset (70_reset_and_hazards.md R380): as `SOFT_RESET`, and the memories unspecified (log 23). -/
def State.hardReset (s : State) : State :=
  { s.softReset with cl := [], ce := [], cs := [], ae := [], aSel := [], src := [], dst := [] }

/-- `NOP` (45_host_contract.md R321). -/
def execNop (s : State) : Host.Outcome State Fault Refusal := gate s fun s => .next s

/-- `CLR_ERR` (45_host_contract.md R322). The gate lets it through. -/
def execClrErr (s : State) : Host.Outcome State Fault Refusal := .next s.clearError

/-- `SOFT_RESET` (45_host_contract.md R323). The gate lets it through. -/
def execSoftReset (s : State) : Host.Outcome State Fault Refusal := .next s.softReset

end Sys2Proof.Machine
end

