-- ==== Sys2Proof/Machine/Dispatch.lean ====
section
/-! DEFINITION. exec: the meaning of every instruction, one arm for each row of spec/opcode_table.json. -/

namespace Sys2Proof.Machine

open Sys2Proof

/-- The meaning of an instruction. A command includes its `ERR` gate (60_exceptions.md R351); a stream event runs inside
the command that is running (log 15). -/
def exec (i : Instr) (s : State) : Host.Outcome State Fault Refusal :=
  match i with
  | .brStart => Sys2Proof.Machine.execBrStart s
  | .getbits n => Sys2Proof.Machine.execGetbits n s
  | .readbits n => Sys2Proof.Machine.execReadbits n s
  | .huffBuild k n => Sys2Proof.Machine.execHuffBuild k n s
  | .huffDecode k => Sys2Proof.Machine.execHuffDecode k s
  | .modelRx k => Sys2Proof.Machine.execModelRx k s
  | .unpackChunk => Sys2Proof.Machine.execUnpackChunk s
  | .unpackRefgrp => Sys2Proof.Machine.execUnpackRefgrp s
  | .nop => Sys2Proof.Machine.execNop s
  | .clrErr => Sys2Proof.Machine.execClrErr s
  | .softReset => Sys2Proof.Machine.execSoftReset s
  | .bootLiteral015 v => Sys2Proof.Machine.execBootLiteral015 v s
  | .bootLiteral16 => Sys2Proof.Machine.execBootLiteral16 s
  | .bootZeroRunSmall => Sys2Proof.Machine.execBootZeroRunSmall s
  | .bootZeroRunLarge => Sys2Proof.Machine.execBootZeroRunLarge s
  | .bootRepeatSmall => Sys2Proof.Machine.execBootRepeatSmall s
  | .bootRepeatLarge => Sys2Proof.Machine.execBootRepeatLarge s
  | .refFreshDelta => Sys2Proof.Machine.execRefFreshDelta s
  | .refFromAbove => Sys2Proof.Machine.execRefFromAbove s
  | .refDiagonal => Sys2Proof.Machine.execRefDiagonal s
  | .refKeepRunning => Sys2Proof.Machine.execRefKeepRunning s
  | .tilePattern0 => Sys2Proof.Machine.execTilePattern0 s
  | .tilePattern1 => Sys2Proof.Machine.execTilePattern1 s
  | .tilePattern2 => Sys2Proof.Machine.execTilePattern2 s
  | .tilePattern3 => Sys2Proof.Machine.execTilePattern3 s
  | .tilePattern4 => Sys2Proof.Machine.execTilePattern4 s
  | .tilePattern5 => Sys2Proof.Machine.execTilePattern5 s
  | .tilePattern6 => Sys2Proof.Machine.execTilePattern6 s
  | .tilePattern7 => Sys2Proof.Machine.execTilePattern7 s

end Sys2Proof.Machine
end

