-- ==== Sys2Proof/Machine/HostPort.lean ====
section
/-! DEFINITION. The host's accesses: the register window (spec/10_state.md R29, R39, R40) and the memories
(spec/20_memory.md R60, R67, R78), the pseudo-commands of spec/30_encoding.md R106. -/

namespace Sys2Proof.Machine

open Sys2Proof

/-- The offset of `CMD` (10_state.md R29). -/
def cmdOffset : Nat := 0

/-- Bytes of the register window (20_memory.md R60: 64 words). -/
def windowSize : Nat := 256

/-! ### Registers -/

/-- What a read of a bit-reader view returns (10_state.md R39): the field while the reader is valid or untouched since
reset, else a free value (log 5). -/
def readerView (s : State) (v : Word) : Word × State :=
  if s.br.valid || s.br.atReset then (v, s) else (s.freeBits 32, s.useFree)

/-- A host read of a register (10_state.md R29). Reserved offsets and `CMD` read 0 (R29, R40). -/
def readReg (s : State) (offset : Nat) : Word × State :=
  match offset with
  | 0x04 => (s.arg0, s)
  | 0x08 => (s.arg1, s)
  | 0x0C => (s.status, s)
  | 0x10 => (s.errCode.setWidth 32, s)
  | 0x14 => (s.errInfo, s)
  | 0x18 => (s.result, s)
  | 0x20 => (s.format.setWidth 32, s)
  | 0x24 => (s.faces.setWidth 32, s)
  | 0x28 => (s.lvlW.setWidth 32, s)
  | 0x2C => (s.lvlH.setWidth 32, s)
  | 0x30 => (s.rowPitch, s)
  | 0x34 => (s.dstSize, s)
  | 0x38 => (s.ceCount.setWidth 32, s)
  | 0x3C => (s.csCount.setWidth 32, s)
  | 0x40 => (s.aeCount.setWidth 32, s)
  | 0x44 => (s.asCount.setWidth 32, s)
  | 0x48 => (s.clCount.setWidth 32, s)
  | 0x50 => readerView s s.br.base
  | 0x54 => readerView s s.br.len
  | 0x58 => readerView s (BitVec.ofNat 32 s.br.bitpos)
  | 0x5C => readerView s (BitVec.ofNat 32 (s.br.bitpos / 2 ^ 32))
  | _ => (0, s)

/-- A host write of a register other than `CMD` (10_state.md R29): the value masked to the field (R40); read-only
registers and reserved offsets ignore it. -/
def writeReg (s : State) (offset : Nat) (v : Word) : State :=
  match offset with
  | 0x04 => { s with arg0 := v }
  | 0x08 => { s with arg1 := v }
  | 0x20 => { s with format := v.setWidth 4 }
  | 0x24 => { s with faces := v.setWidth 3 }
  | 0x28 => { s with lvlW := v.setWidth 16 }
  | 0x2C => { s with lvlH := v.setWidth 16 }
  | 0x30 => { s with rowPitch := v }
  | 0x34 => { s with dstSize := v }
  | 0x38 => { s with ceCount := v.setWidth 16 }
  | 0x3C => { s with csCount := v.setWidth 16 }
  | 0x40 => { s with aeCount := v.setWidth 16 }
  | 0x44 => { s with asCount := v.setWidth 16 }
  | _ => s

/-! ### Spaces -/

/-- The bits of one unit of a space, the only width a host access has (20_memory.md R67). -/
def unitWidth : Space → Nat
  | .reg => 32
  | .src => 8
  | .dst => 8
  | .cl => 8
  | .ce => 32
  | .cs => 32
  | .ae => 16
  | .aSel => 16

/-- The addresses of a space (20_memory.md R60). -/
def spaceSize (cfg : Config) : Space → Nat
  | .reg => windowSize
  | .src => cfg.srcSize
  | .dst => cfg.dstMemSize
  | .cl => maxSyms
  | .ce => palMax
  | .cs => palMax
  | .ae => palMax
  | .aSel => 3 * palMax

/-- An access of a width and alignment the spec defines (20_memory.md R67). -/
def accessDefined (sp : Space) (addr width : Nat) : Bool :=
  width == unitWidth sp && (sp != .reg || addr % 4 == 0)

/-- An access that reaches a unit of its space, or why it does not. -/
def checkAccess (s : State) (sp : Space) (addr width : Nat) : Attempt Unit :=
  if accessDefined sp addr width = false then refuseWith (.hostAccessUndefined sp addr width)
  else if spaceSize s.cfg sp ≤ addr then .error (.fault (.noSuchAddress sp addr))
  else .ok ()

/-- A host write of one unit. A write to `SRC` clears `BR.valid` (20_memory.md R78). -/
def hostStore (s : State) (sp : Space) (addr : Nat) (v : Word) : State :=
  match sp with
  | .reg => writeReg s addr v
  | .src => { s with
      src := Memory.write s.src addr (v.setWidth 8)
      br := { s.br with valid := false, atReset := false } }
  | .dst => { s with dst := Memory.write s.dst addr (v.setWidth 8) }
  | .cl => { s with cl := Memory.write s.cl addr (v.setWidth 8) }
  | .ce => { s with ce := Memory.write s.ce addr v }
  | .cs => { s with cs := Memory.write s.cs addr v }
  | .ae => { s with ae := Memory.write s.ae addr (v.setWidth 16) }
  | .aSel => { s with aSel := Memory.write s.aSel addr (v.setWidth 16) }

/-- What a host read of a memory unit returns: the entry, or a free value where nothing has been written (10_state.md
R49; log 4). -/
def memoryView {w : Nat} (s : State) (m : Memory w) (addr : Nat) : Word × State :=
  match Memory.read m addr with
  | some v => (v.setWidth 32, s)
  | none => ((s.freeBits w).setWidth 32, s.useFree)

/-- A host read of one unit. -/
def hostLoad (s : State) (sp : Space) (addr : Nat) : Word × State :=
  match sp with
  | .reg => readReg s addr
  | .src => memoryView s s.src addr
  | .dst => memoryView s s.dst addr
  | .cl => memoryView s s.cl addr
  | .ce => memoryView s s.ce addr
  | .cs => memoryView s s.cs addr
  | .ae => memoryView s s.ae addr
  | .aSel => memoryView s s.aSel addr

/-- The command word a host access writes to `CMD`, if it is such an access (10_state.md R30). -/
def commandWord (a : HostAction) : Option Word :=
  match a with
  | .write .reg addr width v => if addr = cmdOffset ∧ width = unitWidth .reg then some v else none
  | .write .src _ _ _ => none
  | .write .dst _ _ _ => none
  | .write .cl _ _ _ => none
  | .write .ce _ _ _ => none
  | .write .cs _ _ _ => none
  | .write .ae _ _ _ => none
  | .write .aSel _ _ _ => none
  | .read _ _ _ => none
  | .hardReset => none

/-- Where the access check stops a host access, the outcome; it raises no error of the core. -/
def afterCheck (s : State) (check : Attempt Unit) (next : State) : Host.Outcome State Fault Refusal :=
  settle (fun _ => s) (check.map fun _ => next)

/-- A host access that is no command. -/
def hostAccess (a : HostAction) (s : State) : Host.Outcome State Fault Refusal :=
  match a with
  | .write sp addr width v => afterCheck s (checkAccess s sp addr width) (hostStore s sp addr v)
  | .read sp addr width =>
    afterCheck s (checkAccess s sp addr width)
      { (hostLoad s sp addr).2 with busData := (hostLoad s sp addr).1 }
  | .hardReset => .next s.hardReset

/-! ### Pseudo-commands (30_encoding.md R105, R106) -/

/-- `WR REG, value`. -/
def hostWr (offset : Nat) (v : Word) : HostAction := .write .reg offset 32 v

/-- `RD REG`. -/
def hostRd (offset : Nat) : HostAction := .read .reg offset 32

/-- A command line: `WR CMD, <word>`. -/
def hostCmd (i : Instr) : HostAction := hostWr cmdOffset (cmdWord i)

/-- `ST SPACE[i..], v0 v1 ...`: consecutive units in ascending order. -/
def hostSt (sp : Space) (addr : Nat) : List Word → List HostAction
  | [] => []
  | v :: rest => .write sp addr (unitWidth sp) v :: hostSt sp (addr + 1) rest

/-- `START base, len`. -/
def pseudoStart (base len : Word) : List HostAction := [hostWr 0x04 base, hostWr 0x08 len, hostCmd .brStart]

/-- `LOAD_MODEL s, base, len`. -/
def pseudoLoadModel (k : Nat) (base len : Word) : List HostAction := pseudoStart base len ++ [hostCmd (.modelRx k)]

/-- `READ_U32`. -/
def pseudoReadU32 : List HostAction := [hostCmd (.readbits 32), hostRd 0x18]

/-- `BUILD s, [l0, l1, ...]`. -/
def pseudoBuild (k : Nat) (lens : List Word) : List HostAction :=
  hostSt .cl 0 lens ++ [hostCmd (.huffBuild k lens.length)]

end Sys2Proof.Machine
end

