-- ==== Sys2Proof/Machine/Sequencer.lean ====
section
/-! DEFINITION. What a step runs: the host's next access (spec/10_state.md R30, spec/20_memory.md R75), or, in a state
inside a command, that command's next event (log 15); and where an instruction is placed so that the next step runs it
(log 14, 16). -/

namespace Sys2Proof.Machine

open Sys2Proof

/-- A host access by an idle core: a write to `CMD` runs the command its word encodes (10_state.md R30); a word that
encodes none is illegal (30_encoding.md R104). -/
def runHostAction (a : HostAction) (s : State) : Host.Outcome State Fault Refusal :=
  match commandWord a with
  | none => hostAccess a s
  | some w =>
    match decode .cw w.toNat with
    | none => illegalCommand w s
    | some i => exec i s

/-- What follows an event that exec has run. -/
def afterEvent (o : Host.Outcome State Fault Refusal) : Host.Outcome State Fault Refusal :=
  match o with
  | .next s => settle (abortRunning s) (retireEvent s)
  | .fault f => .fault f
  | .refused r => .refused r

/-- One event of the running command. -/
def stepEvent (s : State) : Host.Outcome State Fault Refusal :=
  match fetchEvent s with
  | .error h => settle (abortRunning s) (.error h)
  | .ok (i, s) => afterEvent (exec i s)

/-! ### Placing an instruction -/

/-- A command word as the host's next access. -/
def placeCommand (s : State) (w : Nat) : State :=
  { s with activity := .idle, pending := hostWr cmdOffset (BitVec.ofNat 32 w) :: s.pending }

/-- The bootstrap model in which symbol `c` alone has a code, the bit `0` (41_huffman_model.md R156). -/
def oneSymbolModel (c : Nat) : Model :=
  match build numClSyms ((List.replicate numClSyms 0).set c 1) with
  | .ok m => m
  | .error _ => modelOf 1 [0] []

/-- A running `MODEL_RX` whose next event is the symbol `c`: its bootstrap model has no other symbol and its stream is at
the end of its buffer, which reads as zeros (40_bit_reader.md R131). -/
def placeBootSym (s : State) (c : Nat) : State :=
  { s with
    activity := .rx ⟨0, maxSyms, oneSymbolModel c, 0⟩
    br := { s.br with len := 0 } }

/-- A running `UNPACK_CHUNK` at its first chunk whose bit-packed register holds the chunk-encoding symbol `w`
(43_unpack_chunk.md R233). -/
def placeChunkSym (s : State) (w : Nat) : State :=
  s.setActivity (.chunk
    { ceb := BitVec.ofNat 10 w ||| 512, ep := PlaneRegs.zero, sp := PlaneRegs.zero, tep := TileRegs.zero, k := 0
      scan := [⟨0, 0, 0⟩] })

/-- The instruction `decodeTableWord nbits w` names, placed where step takes its next one. -/
def placeWord (s : State) (nbits w : Nat) : State :=
  if 8 < nbits then placeCommand s w
  else if readAsBootSym w then placeBootSym s w
  else placeChunkSym s w

end Sys2Proof.Machine
end

