-- ==== Sys2Proof/Machine/Step.lean ====
section
/-! DEFINITION. One step of the machine. -/

namespace Sys2Proof.Machine

open Sys2Proof

/-- One step. An idle core takes the host's next access; one command is one step (spec/20_memory.md R75). With no access
pending it stays as it is (spec/60_exceptions.md R375). A state inside a command, which no run from reset reaches, takes
one event of it (log 15). -/
def step (s : State) : Host.Outcome State Fault Refusal :=
  match s.activity with
  | .idle =>
    match s.pending with
    | [] => .next s
    | a :: rest => runHostAction a { s with pending := rest }
  | .rx _ => stepEvent s
  | .chunk _ => stepEvent s
  | .refgrp _ => stepEvent s

/-- The state with an instruction placed where step takes its next one (log 14, 16). -/
def State.withFetchWord (s : State) (nbits w : Nat) : State := placeWord s nbits w

end Sys2Proof.Machine
end

