-- ==== Sys2Proof/Safety.lean ====
section
/-! DEFINITION. What counts as a sound state: the terms the claims use. -/

namespace Sys2Proof.Machine

open Sys2Proof

/-- Every memory is in canonical form and inside its space (spec/20_memory.md R60). -/
def State.memoriesOk (s : State) : Bool :=
  Memory.wf s.cl && Memory.below s.cl maxSyms
  && Memory.wf s.ce && Memory.below s.ce palMax
  && Memory.wf s.cs && Memory.below s.cs palMax
  && Memory.wf s.ae && Memory.below s.ae palMax
  && Memory.wf s.aSel && Memory.below s.aSel (3 * palMax)
  && Memory.wf s.src && Memory.below s.src s.cfg.srcSize
  && Memory.wf s.dst && Memory.below s.dst s.cfg.dstMemSize

/-- `ERRCODE` and `ERRINFO` are 0 while `ERR` is 0, and `ERRCODE` is one of the table's codes while it is 1
(spec/10_state.md R28, spec/60_exceptions.md R341). -/
def State.errorOk (s : State) : Prop :=
  (s.err = false → s.errCode = 0 ∧ s.errInfo = 0) ∧ (s.err = true → ∃ c : ErrCode, s.errCode = c.code)

/-- A valid reader has a buffer of at least one byte inside `SRC` (spec/10_state.md R25, spec/20_memory.md R73). -/
def State.readerOk (s : State) : Prop :=
  s.br.valid = true → 1 ≤ s.br.len.toNat ∧ s.br.base.toNat + s.br.len.toNat ≤ s.cfg.srcSize ∧ s.br.atReset = false

/-- A valid slot holds what `Build` makes of its alphabet size and code lengths (spec/41_huffman_model.md R150). -/
def State.slotsOk (s : State) : Prop := ∀ k m, s.model k = some m → m.lens.length = m.n ∧ build m.n m.lens = .ok m

/-- The sound states between commands: no command is half done (spec/20_memory.md R75), and all of the above. -/
def State.Sound (s : State) : Prop :=
  s.activity = .idle ∧ s.memoriesOk = true ∧ s.errorOk ∧ s.readerOk ∧ s.slotsOk ∧ s.clCount.toNat ≤ maxSyms

/-- The host has written every byte of the reader's buffer (spec/70_reset_and_hazards.md R382). -/
def State.sourceWritten (s : State) : Prop :=
  ∀ i, i < s.br.len.toNat → (Memory.read s.src (s.br.base.toNat + i)).isSome = true

/-- The host has written the entries below the counts of a plane's palettes (spec/70_reset_and_hazards.md R382). -/
def State.palettesWritten (s : State) : Plane → Prop
  | .c => (∀ i, i < s.ceCount.toNat → (Memory.read s.ce i).isSome = true)
      ∧ ∀ i, i < s.csCount.toNat → (Memory.read s.cs i).isSome = true
  | .a0 => (∀ i, i < s.aeCount.toNat → (Memory.read s.ae i).isSome = true)
      ∧ ∀ i, i < 3 * s.asCount.toNat → (Memory.read s.aSel i).isSome = true
  | .a1 => (∀ i, i < s.aeCount.toNat → (Memory.read s.ae i).isSome = true)
      ∧ ∀ i, i < 3 * s.asCount.toNat → (Memory.read s.aSel i).isSome = true

/-! ### The stream as bits, said without the model's reader (spec/40_bit_reader.md R131, R132) -/

/-- `Bit(p)` (40_bit_reader.md R131); a byte nothing has written counts as 0. -/
def State.bitAt (s : State) (p : Nat) : Nat :=
  if p / 8 < s.br.len.toNat then
    (((Memory.read s.src (s.br.base.toNat + p / 8)).getD 0).toNat >>> (7 - p % 8)) &&& 1
  else 0

/-- The `n`-bit number that stands at position `pos` of the stream: the sum of 40_bit_reader.md R132. -/
def State.bitsAt (s : State) (pos n : Nat) : Nat :=
  ((List.range n).map fun i => s.bitAt (pos + i) <<< (n - 1 - i)).sum

/-- The host has written the bytes of the buffer that hold the `n` bits at position `pos`
(spec/70_reset_and_hazards.md R382). -/
def State.bitsWritten (s : State) (pos n : Nat) : Prop :=
  ∀ p, pos ≤ p → p < pos + n → p / 8 < s.br.len.toNat →
    (Memory.read s.src (s.br.base.toNat + p / 8)).isSome = true

/-- From position `pos` on the stream holds these bits. -/
def State.holds (s : State) (pos : Nat) (bits : List Nat) : Prop :=
  ∀ i, i < bits.length → s.bitAt (pos + i) = bits.getD i 0

/-- A number as `w` bits, most significant first (00_scope.md R15). -/
def natBits (w v : Nat) : List Nat := (List.range w).map fun i => v / 2 ^ (w - 1 - i) % 2

/-! ### Canonical codes (spec/41_huffman_model.md), said without the model's tables -/

/-- The first code value of length `L` (41_huffman_model.md R156): 0 at length 1, and from each length to the next the
value after the last code, doubled. -/
def codeStart (lens : List Nat) : Nat → Nat
  | 0 => 0
  | L + 1 => 2 * (codeStart lens L + if L = 0 then 0 else lens.count L)

/-- The code of a symbol, stated directly (41_huffman_model.md R157). -/
def canonicalCode (lens : List Nat) (sym : Nat) : Nat :=
  codeStart lens (lens.getD sym 0) + (lens.take sym).count (lens.getD sym 0)

/-- The bits of a symbol's code in the stream. -/
def codeBits (lens : List Nat) (sym : Nat) : List Nat := natBits (lens.getD sym 0) (canonicalCode lens sym)

/-- The Kraft sum of code lengths, times 2^16; a length of 0 is an unused symbol (41_huffman_model.md R153, R158). -/
def kraftSum (lens : List Nat) : Nat := (lens.map fun l => if l = 0 then 0 else 2 ^ (16 - l)).sum

/-- `m` successive decodes with one model: the symbols with their lengths. -/
def decodeMany (m : Model) (s : State) : Nat → Attempt (List (Nat × Nat) × State)
  | 0 => .ok ([], s)
  | todo + 1 => do
    let (r, s) ← decodeSym m s
    let (rest, s) ← decodeMany m s todo
    .ok (r :: rest, s)

/-- The symbols decoded from the given slots, one after another. -/
def decodeSeq (s : State) : List Nat → Attempt (List Nat × State)
  | [] => .ok ([], s)
  | k :: rest => do
    let (d, s) ← decodeSlot k s
    let (ds, s) ← decodeSeq s rest
    .ok (d :: ds, s)

/-! ### A transmitted model (spec/30_encoding.md R108, R109) -/

/-- The raw bits that follow a bootstrap symbol (30_encoding.md R109). -/
def eventExtraBits (c : Nat) : Nat :=
  if c = 17 then 3 else if c = 18 then 7 else if c = 19 then 2 else if c = 20 then 6 else 0

/-- The code lengths received so far, after one more event (30_encoding.md R109, 42_model_rx.md R198 to R202). -/
def applyEvent (lens : List Nat) (e : Nat × Nat) : Option (List Nat) :=
  if e.1 ≤ 16 then some (lens ++ [e.1])
  else if e.1 = 17 then some (lens ++ List.replicate (3 + e.2) 0)
  else if e.1 = 18 then some (lens ++ List.replicate (11 + e.2) 0)
  else
    match lens.getLast? with
    | none => none
    | some prev =>
      if prev = 0 then none
      else if e.1 = 19 then some (lens ++ List.replicate (3 + e.2) prev)
      else if e.1 = 20 then some (lens ++ List.replicate (7 + e.2) prev)
      else none

/-- One transmitted model: the bootstrap lengths sent, and the events with their extra values. -/
structure Transmission where
  bootFields : List Nat
  events     : List (Nat × Nat)
  deriving DecidableEq, Repr, Inhabited

/-- The bootstrap lengths by symbol (42_model_rx.md R195). -/
def Transmission.bootLens (x : Transmission) (order : List Nat) : List Nat :=
  (order.zip x.bootFields).foldl (fun bl e => bl.set e.1 e.2) (List.replicate numClSyms 0)

/-- The code lengths it stands for. -/
def Transmission.lens (x : Transmission) : Option (List Nat) := x.events.foldlM applyEvent []

/-- Its bits in stream order (30_encoding.md R108), for a model of `n` symbols. -/
def Transmission.bits (x : Transmission) (order : List Nat) (n : Nat) : List Nat :=
  natBits 14 n ++ natBits 5 x.bootFields.length ++ x.bootFields.flatMap (natBits 3)
    ++ x.events.flatMap fun e => codeBits (x.bootLens order) e.1 ++ natBits (eventExtraBits e.1) e.2

/-- What an encoder may send: 1 to 21 bootstrap lengths of 3 bits, and events that have a bootstrap code and an extra
value of their field's width. -/
def Transmission.wf (x : Transmission) (order : List Nat) : Prop :=
  1 ≤ x.bootFields.length ∧ x.bootFields.length ≤ numClSyms ∧ (∀ v ∈ x.bootFields, v < 8) ∧
  ∀ e ∈ x.events, e.1 ≤ 20 ∧ (x.bootLens order).getD e.1 0 ≠ 0 ∧ e.2 < 2 ^ eventExtraBits e.1

/-! ### Blocks (spec/43_unpack_chunk.md R235, spec/20_memory.md R66) -/

/-- The `n` low bytes of a number, least significant first (00_scope.md R16). -/
def leBytes (n v : Nat) : List Byte := (List.range n).map fun i => BitVec.ofNat 8 (v / 256 ^ i)

/-- The entry a memory holds, as a number. -/
def entryOf {w : Nat} (m : Memory w) (a : Nat) : Nat := ((Memory.read m a).getD 0).toNat

/-- `Part(p, ei, si)` (43_unpack_chunk.md R235). -/
def State.partOf (s : State) (p : Plane) (ei si : Nat) : List Byte :=
  match p with
  | .c => leBytes 4 (entryOf s.ce ei) ++ leBytes 4 (entryOf s.cs si)
  | .a0 => leBytes 2 (entryOf s.ae ei) ++ leBytes 2 (entryOf s.aSel (3 * si))
      ++ leBytes 2 (entryOf s.aSel (3 * si + 1)) ++ leBytes 2 (entryOf s.aSel (3 * si + 2))
  | .a1 => leBytes 2 (entryOf s.ae ei) ++ leBytes 2 (entryOf s.aSel (3 * si))
      ++ leBytes 2 (entryOf s.aSel (3 * si + 1)) ++ leBytes 2 (entryOf s.aSel (3 * si + 2))

/-- The bytes of a block of the current format (43_unpack_chunk.md R235); none for a format it gives no block. -/
def State.blockOf (s : State) (ei si : Plane → Nat) : List Byte :=
  match s.format.toNat with
  | 0 => s.partOf .c (ei .c) (si .c)
  | 2 => s.partOf .a0 (ei .a0) (si .a0) ++ s.partOf .c (ei .c) (si .c)
  | 3 => s.partOf .a0 (ei .a0) (si .a0)
  | 4 => s.partOf .a0 (ei .a0) (si .a0) ++ s.partOf .a1 (ei .a1) (si .a1)
  | _ => []

/-- `t` holds these bytes of `DST` from address `a` on. -/
def State.dstHolds (t : State) (a : Nat) (bytes : List Byte) : Prop :=
  ∀ j, j < bytes.length → Memory.read t.dst (a + j) = bytes[j]?

/-- Address `a` lies in a block of the level that the image shows (20_memory.md R72, 43_unpack_chunk.md R222). -/
def State.inVisibleBlock (s : State) (a : Nat) : Prop :=
  ∃ f x y, f < s.faces.toNat ∧ x < s.bx ∧ y < s.by' ∧ s.blockAddr f x y ≤ a ∧ a < s.blockAddr f x y + s.bpb

/-- A format the spec gives a reconstruction (43_unpack_chunk.md R224): `DXT1`, `DXT5`, `DXT5A`, `DXN`. -/
def State.dxtFormat (s : State) : Prop :=
  s.format.toNat = 0 ∨ s.format.toNat = 2 ∨ s.format.toNat = 3 ∨ s.format.toNat = 4

/-! ### The checks of an unpack command (spec/43_unpack_chunk.md R223) -/

/-- A format's planes include the color plane. -/
def State.usesColor (s : State) (sch : Scheme) : Bool := (s.planes sch).contains .c

/-- A format's planes include an alpha plane. -/
def State.usesAlpha (s : State) (sch : Scheme) : Bool := (s.planes sch).contains .a0 || (s.planes sch).contains .a1

/-- The table of 43_unpack_chunk.md R223: each condition with the code it raises, in the order of the table. -/
def State.checkTable (sch : Scheme) (s : State) : List (Bool × Byte) :=
  [ (!s.br.valid, 0x45),
    (s.format.toNat == 1 || decide (9 ≤ s.format.toNat)
      || (decide (5 ≤ s.format.toNat) && !s.cfg.etcUnpackGiven), 0x11),
    (!s.modelValid 0 || (s.usesColor sch && (!s.modelValid 1 || !s.modelValid 2))
      || (s.usesAlpha sch && (!s.modelValid 3 || !s.modelValid 4)), 0x46),
    (s.faces.toNat != 1 && s.faces.toNat != 6, 0x12),
    (s.lvlW.toNat == 0 || s.lvlH.toNat == 0, 0x49),
    ((s.usesColor sch && (s.ceCount.toNat == 0 || s.csCount.toNat == 0))
      || (s.usesAlpha sch && (s.aeCount.toNat == 0 || s.asCount.toNat == 0)), 0x48),
    (decide (s.rowPitch.toNat < s.bx * s.bpb), 0x42),
    (decide (s.dstSize.toNat < s.rowPitch.toNat * s.by')
      || decide (s.cfg.dstMemSize < s.faces.toNat * s.dstSize.toNat), 0x41) ]

/-- The code of the first condition of the table that holds. -/
def State.firstCheck (sch : Scheme) (s : State) : Option Byte :=
  ((s.checkTable sch).find? fun e => e.1).map fun e => e.2

/-! ### What an error leaves behind (spec/60_exceptions.md R352 to R355)

Each says the state after the error with the parts the rules call unspecified read back from that state. -/

/-- A command word as its bits (30_encoding.md R91). -/
def wordOf (op a b : Nat) : Word := BitVec.ofNat 32 (op * 2 ^ 24 + a * 2 ^ 16 + b)

/-- The error of a check made before anything has changed (R352, R353). -/
def State.withError (s : State) (code : Byte) (word : Word) : State :=
  { s with err := true, errCode := code, errInfo := word }

/-- After a failed decode of `HUFF_DECODE`: the reader is not valid and its position is unspecified (R353). -/
def FailedDecode (code : Byte) (word : Word) (s t : State) : Prop :=
  t = { s.withError code word with
    br := { s.br with valid := false, atReset := false, bitpos := t.br.bitpos }, freeCtr := t.freeCtr }

/-- After a `MODEL_RX k` that failed one of its checks: the slot is invalid and `CL` unspecified (R354; log 27). -/
def RejectedModelRx (k : Nat) (code : Byte) (s t : State) : Prop :=
  t = { s.withError code (wordOf 6 k 0) with
    models := s.models.setIfInBounds k none, cl := t.cl, freeCtr := t.freeCtr }

/-- After a failed `MODEL_RX k`: also the slot is invalid and `CL` unspecified (R354). -/
def FailedModelRx (k : Nat) (code : Byte) (s t : State) : Prop :=
  t = { s.withError code (wordOf 6 k 0) with
    br := { s.br with valid := false, atReset := false, bitpos := t.br.bitpos }, freeCtr := t.freeCtr
    models := s.models.setIfInBounds k none, cl := t.cl, activity := .idle }

/-- After a failed unpack: also the face regions of `DST` are unspecified, and every other byte is as before (R355). -/
def FailedUnpack (code : Byte) (word : Word) (s t : State) : Prop :=
  t = { s.withError code word with
    br := { s.br with valid := false, atReset := false, bitpos := t.br.bitpos }, freeCtr := t.freeCtr
    dst := t.dst, activity := .idle } ∧
  ∀ a, s.faces.toNat * s.dstSize.toNat ≤ a → Memory.read t.dst a = Memory.read s.dst a

/-! ### Command words (spec/30_encoding.md R92 to R102) -/

/-- The match and the mask of each command. -/
def commandRows : List (Nat × Nat) :=
  [ (0x01000000, 0xFFFFFFFF), (0x02000000, 0xFFFFFFC0), (0x03000000, 0xFFFFFFC0), (0x04000000, 0xFF00C000),
    (0x05000000, 0xFF00FFFF), (0x06000000, 0xFF00FFFF), (0x07000000, 0xFFFFFFFF), (0x08000000, 0xFFFFFFFF),
    (0x0D000000, 0xFFFFFFFF), (0x0E000000, 0xFFFFFFFF), (0x0F000000, 0xFFFFFFFF) ]

/-- A word that is a command: it has the match of a row under the row's mask (30_encoding.md R103). -/
def legalWord (w : Nat) : Bool := commandRows.any fun r => w &&& r.2 == r.1

/-! ### Reset (spec/10_state.md R48) -/

/-- Every register and flag has its reset value and every slot is invalid (10_state.md R48). -/
def State.registersReset (t : State) : Prop :=
  t.arg0 = 0 ∧ t.arg1 = 0 ∧ t.result = 0 ∧ t.status = 0 ∧ t.err = false ∧ t.errCode = 0 ∧ t.errInfo = 0 ∧
  t.format = 0 ∧ t.faces = 0 ∧ t.lvlW = 0 ∧ t.lvlH = 0 ∧ t.rowPitch = 0 ∧ t.dstSize = 0 ∧
  t.ceCount = 0 ∧ t.csCount = 0 ∧ t.aeCount = 0 ∧ t.asCount = 0 ∧ t.clCount = 0 ∧
  t.br.base = 0 ∧ t.br.len = 0 ∧ t.br.bitpos = 0 ∧ t.br.valid = false ∧ ∀ k, t.model k = none

/-- No location of any memory holds a value (10_state.md R49). -/
def State.memoriesUnwritten (t : State) : Prop :=
  ∀ a, Memory.read t.src a = none ∧ Memory.read t.dst a = none ∧ Memory.read t.cl a = none ∧
    Memory.read t.ce a = none ∧ Memory.read t.cs a = none ∧ Memory.read t.ae a = none ∧ Memory.read t.aSel a = none

/-- The seven memories of `t` are those of `s`. -/
def State.sameMemories (s t : State) : Prop :=
  t.src = s.src ∧ t.dst = s.dst ∧ t.cl = s.cl ∧ t.ce = s.ce ∧ t.cs = s.cs ∧ t.ae = s.ae ∧ t.aSel = s.aSel

/-- The configuration registers of `t` are those of `s` (10_state.md R50). -/
def State.sameConfig (s t : State) : Prop :=
  t.format = s.format ∧ t.faces = s.faces ∧ t.lvlW = s.lvlW ∧ t.lvlH = s.lvlH ∧ t.rowPitch = s.rowPitch ∧
  t.dstSize = s.dstSize ∧ t.ceCount = s.ceCount ∧ t.csCount = s.csCount ∧ t.aeCount = s.aeCount ∧ t.asCount = s.asCount

/-- The palettes of `t` are those of `s` (10_state.md R46). -/
def State.samePalettes (s t : State) : Prop := t.ce = s.ce ∧ t.cs = s.cs ∧ t.ae = s.ae ∧ t.aSel = s.aSel

/-! ### The runs of a stream command -/

/-- The events of a running command, one after another until it has ended (42_model_rx.md R203, 43_unpack_chunk.md
R221, 44_unpack_refgroup.md R261). -/
inductive EventRun : State → State → Prop where
  | ended (s : State) (h : s.activity = .idle) : EventRun s s
  | event (s u t : State) (h : s.activity ≠ .idle) (hu : oneEvent s = .ok u) (ht : EventRun u t) : EventRun s t

/-- What a successful unpack leaves: the cursor moved on, `DST` changed in visible blocks alone, and every visible block
holds the entries of its planes' palettes at some indices below their counts (43_unpack_chunk.md R221, 20_memory.md
R63, R74). -/
def UnpackResult (sch : Scheme) (s t : State) : Prop :=
  t = { s with br := { s.br with bitpos := t.br.bitpos }, dst := t.dst } ∧ s.br.bitpos ≤ t.br.bitpos ∧
  (∀ a, ¬ s.inVisibleBlock a → Memory.read t.dst a = Memory.read s.dst a) ∧
  ∀ f x y, f < s.faces.toNat → x < s.bx → y < s.by' → ∃ ei si : Plane → Nat,
    (∀ p ∈ s.planes sch, ei p < s.epCount p ∧ si p < s.selCount p) ∧ t.dstHolds (s.blockAddr f x y) (s.blockOf ei si)

/-! ### One chunk (spec/43_unpack_chunk.md R234, R236), by the symbols its record decodes to -/

/-- The slots a chunk record is decoded with after its encoding: for each plane its endpoint deltas, then for each of the
four sub-blocks one selector delta of each plane (30_encoding.md R111). -/
def chunkSlots (ps : List Plane) (tiles : Nat) : List Nat :=
  (ps.flatMap fun p => List.replicate tiles p.epSlot) ++ (List.range 4).flatMap fun _ => ps.map Plane.selSlot

/-- The sum of the first `n` endpoint deltas of plane `p` in a record. -/
def endpointDeltas (ps : List Plane) (tiles : Nat) (syms : List Nat) (p : Plane) (n : Nat) : Nat :=
  ((List.range n).map fun j => syms.getD (ps.idxOf p * tiles + j) 0).sum

/-- The sum of the first `n` selector deltas of plane `p` in a record. -/
def selectorDeltas (ps : List Plane) (tiles : Nat) (syms : List Nat) (p : Plane) (n : Nat) : Nat :=
  ((List.range n).map fun j => syms.getD (ps.length * tiles + j * ps.length + ps.idxOf p) 0).sum

/-- The endpoint index of tile `i` of plane `p`: the running index and the deltas of the tiles up to it, modulo the
palette's count (43_unpack_chunk.md R231, R234). -/
def tileEndpoint (s : State) (c : ChunkState) (ps : List Plane) (tiles : Nat) (syms : List Nat) (p : Plane) (i : Nat) : Nat :=
  ((c.ep.get p).toNat + endpointDeltas ps tiles syms p (i + 1)) % s.epCount p

/-- The selector index of sub-block `k` of plane `p` (43_unpack_chunk.md R231, R236). -/
def blockSelector (s : State) (c : ChunkState) (ps : List Plane) (tiles : Nat) (syms : List Nat) (p : Plane) (k : Nat) : Nat :=
  ((c.sp.get p).toNat + selectorDeltas ps tiles syms p (k + 1)) % s.selCount p

/-- The tile registers have their four places (10_state.md R22). -/
def TileRegs.full (r : TileRegs) : Prop := r.c.length = 4 ∧ r.a0.length = 4 ∧ r.a1.length = 4

/-- The instruction of a chunk encoding (43_unpack_chunk.md R226). -/
def tileInstr (e : Nat) : Instr :=
  match e with
  | 0 => .tilePattern0
  | 1 => .tilePattern1
  | 2 => .tilePattern2
  | 3 => .tilePattern3
  | 4 => .tilePattern4
  | 5 => .tilePattern5
  | 6 => .tilePattern6
  | _ => .tilePattern7

/-! ### A whole level of the chunk scheme, by the symbols of its stream (spec/43_unpack_chunk.md R230 to R236)

`code g` is the `g`-th symbol of slot 0, `records j` the other symbols of chunk `j`, counted along the scan. -/

/-- The chunks of the level in scan order (43_unpack_chunk.md R232). -/
def State.chunks (s : State) : List ChunkPos := chunkScan s.faces.toNat s.cy s.cx

/-- The encoding of chunk `j`: every third chunk takes a new symbol, its low field first (30_encoding.md R112). -/
def chunkEncoding (code : Nat → Nat) (j : Nat) : Nat := code (j / 3) / 8 ^ (j % 3) % 8

/-- The tiles of chunk `j`. -/
def State.chunkTiles (s : State) (code : Nat → Nat) (j : Nat) : Nat := s.cfg.tileCount.getD (chunkEncoding code j) 0

/-- The slots the level's symbols are decoded with. -/
def State.chunkLevelSlots (s : State) (code : Nat → Nat) : List Nat :=
  (List.range s.chunks.length).flatMap fun j =>
    (if j % 3 = 0 then [0] else []) ++ chunkSlots (s.planes .chunk) (s.chunkTiles code j)

/-- The level's symbols. -/
def State.chunkLevelSymbols (s : State) (code : Nat → Nat) (records : Nat → List Nat) : List Nat :=
  (List.range s.chunks.length).flatMap fun j => (if j % 3 = 0 then [code (j / 3)] else []) ++ records j

/-- The endpoint index of tile `i` of chunk `j`: the sum of every delta of the plane up to it, from 0 at the command's
start on, modulo the palette's count. -/
def State.levelEndpoint (s : State) (code : Nat → Nat) (records : Nat → List Nat) (p : Plane) (j i : Nat) : Nat :=
  (((List.range j).map fun l =>
      endpointDeltas (s.planes .chunk) (s.chunkTiles code l) (records l) p (s.chunkTiles code l)).sum
    + endpointDeltas (s.planes .chunk) (s.chunkTiles code j) (records j) p (i + 1)) % s.epCount p

/-- The selector index of sub-block `k` of chunk `j`, in the same way. -/
def State.levelSelector (s : State) (code : Nat → Nat) (records : Nat → List Nat) (p : Plane) (j k : Nat) : Nat :=
  (((List.range j).map fun l => selectorDeltas (s.planes .chunk) (s.chunkTiles code l) (records l) p 4).sum
    + selectorDeltas (s.planes .chunk) (s.chunkTiles code j) (records j) p (k + 1)) % s.selCount p

/-! ### A whole level of the reference-group scheme, by the symbols of its stream (spec/44_unpack_refgroup.md R261 to R270)

`code f y x` is the group code of the neighbourhood at row `y`, column `x` of face `f`, `deltas pos p` the fresh delta of
plane `p` at a block whose sub-code is 0, `sels pos p` the selector symbol of every block. -/

/-- The blocks of the level in scan order (44_unpack_refgroup.md R270). -/
def State.blocks (s : State) : List BlockPos := blockScan s.faces.toNat s.h2 s.w2

/-- The sub-code of a block: its field of the group code (30_encoding.md R114). -/
def blockSubcode (code : Nat → Nat → Nat → Nat) (pos : BlockPos) : Nat :=
  code pos.f (pos.y / 2) (pos.x / 2) / 4 ^ (2 * (pos.x % 2) + pos.y % 2) % 4

/-- The slots the level's symbols are decoded with (30_encoding.md R113). -/
def State.refLevelSlots (s : State) (code : Nat → Nat → Nat → Nat) : List Nat :=
  s.blocks.flatMap fun pos =>
    (if pos.y % 2 = 0 ∧ pos.x % 2 = 0 then [0] else [])
      ++ (if blockSubcode code pos = 0 then (s.planes .refgrp).map Plane.epSlot else [])
      ++ (s.planes .refgrp).map Plane.selSlot

/-- The level's symbols. -/
def State.refLevelSymbols (s : State) (code : Nat → Nat → Nat → Nat) (deltas sels : BlockPos → Plane → Nat) : List Nat :=
  s.blocks.flatMap fun pos =>
    (if pos.y % 2 = 0 ∧ pos.x % 2 = 0 then [code pos.f (pos.y / 2) (pos.x / 2)] else [])
      ++ (if blockSubcode code pos = 0 then (s.planes .refgrp).map (deltas pos) else [])
      ++ (s.planes .refgrp).map (sels pos)

/-- `idx j p` is the endpoint index of block `j` (44_unpack_refgroup.md R263 to R266), where no sub-code is 2: a fresh
delta on the index of the block before in the scan, the index of the block above (0 in a face's first row), or the index of
the block before; the first block of the command comes after an index 0. -/
def State.IsEndpoints (s : State) (code : Nat → Nat → Nat → Nat) (deltas : BlockPos → Plane → Nat)
    (idx : Nat → Plane → Nat) : Prop :=
  ∀ j pos p, s.blocks[j]? = some pos → p ∈ s.planes .refgrp →
    (blockSubcode code pos = 0 → idx j p = ((if j = 0 then 0 else idx (j - 1) p) + deltas pos p) % s.epCount p) ∧
    (blockSubcode code pos = 1 → idx j p = if pos.y = 0 then 0 else idx (j - s.w2) p) ∧
    (blockSubcode code pos = 3 → idx j p = if j = 0 then 0 else idx (j - 1) p)

/-- `sel j p` is the selector index of block `j` (44_unpack_refgroup.md R268): the symbol itself, below the palette's
count, or with `RG_SEL_DELTA` a delta on the index of the block before, from 0 on. -/
def State.IsSelectors (s : State) (sels : BlockPos → Plane → Nat) (sel : Nat → Plane → Nat) : Prop :=
  ∀ j pos p, s.blocks[j]? = some pos → p ∈ s.planes .refgrp →
    (s.cfg.rgSelDelta = false → sel j p = sels pos p ∧ sels pos p < s.selCount p) ∧
    (s.cfg.rgSelDelta = true → sel j p = ((if j = 0 then 0 else sel (j - 1) p) + sels pos p) % s.selCount p)

/-! ### One reference-group block (spec/44_unpack_refgroup.md R266, R267) -/

/-- The running indices and the `DiagState` after a sub-code 2: each plane in stream order takes what `DiagRule` answers,
reduced below its palette's count, and the next plane is asked with both (44_unpack_refgroup.md R267; log 8). -/
def diagonalAnswers (s : State) (pos : BlockPos) (g : RefState) (ps : List Plane) : PlaneRegs × Nat :=
  ps.foldl (fun run p =>
    let answer := Config.diagRule ⟨s.fmt, p, pos.x, pos.y, run.1, g.col, run.2⟩
    (run.1.set p (BitVec.ofNat 16 (answer.1 % s.epCount p)), answer.2)) (g.ep, g.diag)

/-- The running indices after a block whose planes' indices are `idx`; other planes keep theirs. -/
def setPlanes (ps : List Plane) (old : PlaneRegs) (idx : Plane → Half) : PlaneRegs :=
  ⟨if .c ∈ ps then idx .c else old.c, if .a0 ∈ ps then idx .a0 else old.a0, if .a1 ∈ ps then idx .a1 else old.a1⟩

/-- The transient state after `ApplyReference` leaves the running indices `ep`: column `x` keeps them for its planes, and
nothing else changes (44_unpack_refgroup.md R266). -/
def referenced (ps : List Plane) (x : Nat) (g : RefState) (ep : PlaneRegs) : RefState :=
  { g with
    ep := ep
    col := g.col.set x { g.column x with idx := setPlanes ps (g.column x).idx ep.get } }

/-! ### Decodable streams -/

/-- From the cursor on, the stream always begins with a code of the model in slot `k`, of a symbol below `bound`. -/
def State.decodable (s : State) (k bound : Nat) : Prop :=
  ∃ m, s.model k = some m ∧
    ∀ pos p, s.br.bitpos ≤ pos → peekAt s pos 16 = .ok p →
      ∃ sym len, decodePeek m p = .ok (sym, len) ∧ sym < bound

end Sys2Proof.Machine
end

