-- ==== Sys2Proof/Certificates/Slice0/Obligations.lean ====
section
/-! DEFINITION. The statements for the provers. Each docstring names the rule of spec/ it formalises; a clause that rests
on a choice of the model names its log entry. -/

open Sys2Proof Sys2Proof.Machine

/-! ### Encodings -/

/-- Every well-formed instruction fits its format and decodes to itself: no operand bit is dropped (spec/30_encoding.md
R91 to R103, R109, R112, R114). -/
def Obligations.DecodeEncodeAgree : Prop :=
  ∀ i : Instr, i.wf = true → encode i < 2 ^ i.fmt.width ∧ decode i.fmt (encode i) = some i

/-- Whatever decodes is well formed, of that format, and encodes back to the same number: each number has one meaning. -/
def Obligations.EncodeDecodeAgree : Prop :=
  ∀ (f : Fmt) (w : Nat) (i : Instr), decode f w = some i → i.wf = true ∧ i.fmt = f ∧ encode i = w

/-- 30_encoding.md R103: a word is a command exactly when it matches a row of the table, which at most one row does, and
its operands are the fields `B[5:0]`, `A` and `B[13:0]`, taken unsigned and unscaled. -/
def Obligations.LegalWordsAreTheTableRows : Prop :=
  (∀ w, ∀ r ∈ commandRows, ∀ q ∈ commandRows, w &&& r.2 = r.1 → w &&& q.2 = q.1 → r = q) ∧ ∀ w, w < 2 ^ 32 → ((decode .cw w).isSome = true ↔ legalWord w = true) ∧
    ∀ i, decode .cw w = some i →
      (∀ n, i = .getbits n → n = w % 64) ∧ (∀ n, i = .readbits n → n = w % 64) ∧
      (∀ k n, i = .huffBuild k n → k = w / 2 ^ 16 % 256 ∧ n = w % 2 ^ 14) ∧
      (∀ k, i = .huffDecode k → k = w / 2 ^ 16 % 256) ∧ (∀ k, i = .modelRx k → k = w / 2 ^ 16 % 256)

/-- Eight numbers written out from the encodings of 30_encoding.md R92 to R102, R109, R112, R114 decode to their
instructions, and two words that are no command do not decode (R103, R104). -/
def Obligations.WrittenWordsDecode : Prop :=
  decode .cw 0x01000000 = some .brStart ∧ decode .cw 0x0200000C = some (.getbits 12) ∧
  decode .cw 0x04051FFF = some (.huffBuild 5 8191) ∧ decode .cw 0x06070000 = some (.modelRx 7) ∧
  decode .cw 0x0F000000 = some .softReset ∧ decode .cw 0x01010000 = none ∧ decode .cw 0 = none ∧
  decode .bootsym 19 = some .bootRepeatSmall ∧ decode .subcode 2 = some .refDiagonal ∧
  decode .chunkenc 6 = some .tilePattern6

/-! ### Steps -/

/-- 30_encoding.md R104: a word that is no command raises `ERR_ILLEGAL_CMD` and changes nothing else; while `ERR` is 1
every word but `CLR_ERR` and `SOFT_RESET`, legal or not, is ignored. -/
def Obligations.IllegalWordsRaise : Prop :=
  ∀ (s : State) (rest : List HostAction) (w : Word), s.activity = .idle → s.pending = .write .reg 0 32 w :: rest →
    (s.err = false → legalWord w.toNat = false →
      step s = .next { s with pending := rest, err := true, errCode := 0x47, errInfo := w }) ∧
    (s.err = true → w ≠ 0x0E000000 → w ≠ 0x0F000000 → step s = .next { s with pending := rest })

/-- 60_exceptions.md R351: while `ERR` is 1, exactly `CLR_ERR` and `SOFT_RESET` run; every other word is ignored, nothing
changes, and the first error is kept. -/
def Obligations.ErrorGateHolds : Prop :=
  ∀ (s : State) (rest : List HostAction) (w : Word), s.err = true → s.activity = .idle →
    s.pending = .write .reg 0 32 w :: rest →
    (w = 0x0E000000 → step s = .next { s with pending := rest, err := false, errCode := 0, errInfo := 0 }) ∧
    (w = 0x0F000000 → ∃ t, step s = .next t ∧ t.registersReset ∧ s.sameMemories t ∧ t.pending = rest) ∧
    (w ≠ 0x0E000000 → w ≠ 0x0F000000 → step s = .next { s with pending := rest })

/-- 10_state.md R30: a host write to `CMD` runs the command the word encodes, in one step. -/
def Obligations.StepRunsTheCommand : Prop :=
  ∀ (s : State) (rest : List HostAction) (w : Word) (i : Instr), s.activity = .idle →
    s.pending = .write .reg 0 32 w :: rest → decode .cw w.toNat = some i →
    step s = exec i { s with pending := rest }

/-- Inside a command a step takes the stream's next event, runs it and moves the scan on (log 15): the per-event
statements below reach a run through this one. -/
def Obligations.StepRunsTheStreamEvent : Prop :=
  ∀ (s u : State) (i : Instr), s.activity ≠ .idle → fetchEvent s = .ok (i, u) →
    (∀ v t, exec i u = .next v → retireEvent v = .ok t → step s = .next t) ∧
    (∀ f, exec i u = .fault f → step s = .fault f) ∧ (∀ r, exec i u = .refused r → step s = .refused r)

/-- A stream command that ends without an error is the run of its events to the end, and every such run ends within the
command (20_memory.md R75, 70_reset_and_hazards.md R396). -/
def Obligations.CommandsAreTheirEvents : Prop :=
  ∀ s t : State, s.err = false →
    (s.dxtFormat → s.firstCheck .chunk = none →
      ((exec .unpackChunk s = .next t ∧ t.err = false) ↔ EventRun (s.setActivity (.chunk (initChunk s))) t)) ∧
    (s.dxtFormat → s.firstCheck .refgrp = none →
      ((exec .unpackRefgrp s = .next t ∧ t.err = false) ↔ EventRun (s.setActivity (.refgrp (initRefgrp s))) t)) ∧
    ∀ k u, k < 8 → s.br.valid = true → startModelRx k (s.setModel k none) = .ok u →
      ((exec (.modelRx k) s = .next t ∧ t.err = false) ↔ EventRun u t)

/-- Every step keeps the state sound: memories canonical and inside their spaces, error registers as 10_state.md R28 says,
a valid reader inside `SRC`, valid slots as `Build` makes them, `CL_COUNT` at most 8192, no command half done. -/
def Obligations.StepKeepsSound : Prop := ∀ s t : State, s.Sound → step s = .next t → t.Sound

/-- The state after reset is sound. -/
def Obligations.ResetIsSound : Prop := State.reset.Sound

/-- No step changes the implementation's parameters: they are configuration, not state (10_state.md R20). -/
def Obligations.StepKeepsParameters : Prop := ∀ s t : State, step s = .next t → t.cfg = s.cfg

/-- From a sound state a command always answers a next state, except that the core reads a memory location nothing has
written (10_state.md R49), or meets a sub-code 2 with no `DiagRule` given (44_unpack_refgroup.md R267). -/
def Obligations.CommandsStopOnlyAtUnwrittenMemory : Prop :=
  ∀ (i : Instr) (s : State), s.Sound → i.fmt = .cw →
    (∃ t, exec i s = .next t) ∨ (∃ sp a, sp ≠ .dst ∧ sp ≠ .reg ∧ exec i s = .fault (.unwrittenRead sp a)) ∨
    (i = .unpackRefgrp ∧ s.cfg.diagRuleGiven = false ∧ exec i s = .refused .diagRuleNotGiven)

/-! ### Reset and housekeeping -/

/-- Hardware reset: every register, flag and slot as 10_state.md R48 says and no memory location holding a value; the
state after reset, and the host asserting it (70_reset_and_hazards.md R380; what the model's own fields do: log 23). -/
def Obligations.ResetClearsTheRegisters : Prop :=
  State.reset.registersReset ∧ State.reset.memoriesUnwritten ∧ State.reset.activity = .idle ∧
  ∀ (s : State) (rest : List HostAction), s.activity = .idle → s.pending = .hardReset :: rest →
    ∃ t, step s = .next t ∧ t.registersReset ∧ t.memoriesUnwritten ∧ t.activity = .idle ∧ t.pending = rest ∧
      t.cfg = s.cfg

/-- 45_host_contract.md R323: `SOFT_RESET` gives every register and flag its reset value and empties every slot, whether
`ERR` is 0 or 1, and keeps the memories; hardware reset differs only in leaving the memories unspecified. The model's own fields stay
(log 1, 2, 3, 18). -/
def Obligations.SoftResetKeepsTheMemories : Prop :=
  ∀ s : State, ∃ t, exec .softReset s = .next t ∧ t.registersReset ∧ s.sameMemories t ∧ t.activity = .idle ∧
    t.cfg = s.cfg ∧ t.pending = s.pending ∧ t.busData = s.busData ∧ t.freeCtr = s.freeCtr ∧
    hostAccess .hardReset s =
      .next { t with cl := [], ce := [], cs := [], ae := [], aSel := [], src := [], dst := [] }

/-- 45_host_contract.md R322: `CLR_ERR` clears the three error registers, whether `ERR` is 0 or 1, and nothing else. -/
def Obligations.ClrErrClearsTheError : Prop :=
  ∀ s : State, exec .clrErr s = .next { s with err := false, errCode := 0, errInfo := 0 }

/-- 45_host_contract.md R321: `NOP` changes nothing, whether `ERR` is 0 or 1; its word with a non-zero `A` or `B` is no
command, and writing it raises `ERR_ILLEGAL_CMD`. -/
def Obligations.NopChangesNothing : Prop :=
  (∀ s : State, exec .nop s = .next s) ∧
  ∀ (s : State) (rest : List HostAction) (b : Nat), 0 < b → b < 2 ^ 24 → s.activity = .idle → s.err = false →
    s.pending = .write .reg 0 32 (wordOf 0x0D 0 b) :: rest →
    step s = .next { s with pending := rest, err := true, errCode := 0x47, errInfo := wordOf 0x0D 0 b }

/-! ### The bit reader -/

/-- 40_bit_reader.md R135, R136: the two checks in order, the sum without wrap-around, and the reader started on the
buffer, whose bits are then those of `SRC` as it is. -/
def Obligations.BrStartStartsTheReader : Prop :=
  ∀ s : State, s.err = false →
    (s.arg1 = 0 → exec .brStart s = .next (s.withError 0x33 (wordOf 1 0 0))) ∧
    (s.arg1 ≠ 0 → s.cfg.srcSize < s.arg0.toNat + s.arg1.toNat →
      exec .brStart s = .next (s.withError 0x44 (wordOf 1 0 0))) ∧
    (s.arg1 ≠ 0 → s.arg0.toNat + s.arg1.toNat ≤ s.cfg.srcSize → ∃ t, exec .brStart s = .next t ∧
      t = { s with br := ⟨s.arg0, s.arg1, 0, true, false⟩ } ∧
      ∀ p b, p / 8 < s.arg1.toNat → Memory.read s.src (s.arg0.toNat + p / 8) = some b →
        streamBit t p = .ok (b.toNat / 2 ^ (7 - p % 8) % 2))

/-- 40_bit_reader.md R138: the checks of `GETBITS` in order; then `RESULT` is the next `n` bits and the cursor moves on
by `n`, and nothing else changes. -/
def Obligations.GetbitsReadsTheStream : Prop :=
  ∀ (s : State) (n : Nat), s.err = false →
    (16 < n → exec (.getbits n) s = .next (s.withError 0x44 (wordOf 2 0 n))) ∧
    (n ≤ 16 → s.br.valid = false → exec (.getbits n) s = .next (s.withError 0x45 (wordOf 2 0 n))) ∧
    (n ≤ 16 → s.br.valid = true → s.bitsWritten s.br.bitpos n →
      exec (.getbits n) s = .next { s with
        result := BitVec.ofNat 32 (s.bitsAt s.br.bitpos n), br := { s.br with bitpos := s.br.bitpos + n } } ∧
      s.bitsAt s.br.bitpos n < 2 ^ n)

/-- 40_bit_reader.md R141: the checks of `READBITS` in order; then `RESULT` is the next `n` bits, for every `n` up to 32,
and the cursor moves on by `n`, and nothing else changes. -/
def Obligations.ReadbitsReadsTheStream : Prop :=
  ∀ (s : State) (n : Nat), s.err = false →
    (32 < n → exec (.readbits n) s = .next (s.withError 0x44 (wordOf 3 0 n))) ∧
    (n ≤ 32 → s.br.valid = false → exec (.readbits n) s = .next (s.withError 0x45 (wordOf 3 0 n))) ∧
    (n ≤ 32 → s.br.valid = true → s.bitsWritten s.br.bitpos n →
      exec (.readbits n) s = .next { s with
        result := BitVec.ofNat 32 (s.bitsAt s.br.bitpos n), br := { s.br with bitpos := s.br.bitpos + n } } ∧
      (16 < n → s.bitsAt s.br.bitpos n =
        s.bitsAt s.br.bitpos (n - 16) * 2 ^ 16 + s.bitsAt (s.br.bitpos + (n - 16)) 16))

/-- 40_bit_reader.md R139, R142: a read wholly past the end of the buffer gives 0, needs no byte of `SRC`, and still
moves the cursor on; `n` = 0 gives 0 and moves nothing. -/
def Obligations.ReadsPastTheEndGiveZero : Prop :=
  ∀ (s : State) (n : Nat), s.err = false → s.br.valid = true →
    (8 * s.br.len.toNat ≤ s.br.bitpos ∨ n = 0) →
    (n ≤ 16 → exec (.getbits n) s =
      .next { s with result := 0, br := { s.br with bitpos := s.br.bitpos + n } }) ∧
    (n ≤ 32 → exec (.readbits n) s =
      .next { s with result := 0, br := { s.br with bitpos := s.br.bitpos + n } })

/-- 40_bit_reader.md R134: with `BR.valid` = 0 every stream-reading command whose operand is in range raises
`ERR_BR_NOT_STARTED` and changes nothing else, but that `MODEL_RX` leaves its slot invalid and `CL` unspecified
(60_exceptions.md R354; that this error is one of R354's is the model's choice: log 27). -/
def Obligations.StreamCommandsNeedAReader : Prop :=
  ∀ s : State, s.err = false → s.br.valid = false →
    (∀ n, n ≤ 16 → exec (.getbits n) s = .next (s.withError 0x45 (wordOf 2 0 n))) ∧
    (∀ n, n ≤ 32 → exec (.readbits n) s = .next (s.withError 0x45 (wordOf 3 0 n))) ∧
    (∀ k, k < 8 → exec (.huffDecode k) s = .next (s.withError 0x45 (wordOf 5 k 0))) ∧
    (∀ k, k < 8 → ∃ t, exec (.modelRx k) s = .next t ∧ RejectedModelRx k 0x45 s t) ∧
    exec .unpackChunk s = .next (s.withError 0x45 (wordOf 7 0 0)) ∧
    exec .unpackRefgrp s = .next (s.withError 0x45 (wordOf 8 0 0))

/-- A read that reaches a bit of the buffer that nothing has written is a fault of the launch, not a read of zero, and names
the first such byte: the bits of `GETBITS` and `READBITS`, the 16 bits a decode looks ahead, the count `MODEL_RX` reads
first (10_state.md R49; log 4, 24). -/
def Obligations.UnwrittenSourceFaults : Prop :=
  ∀ (s : State) (q : Nat), s.err = false → s.br.valid = true → s.br.bitpos ≤ q → q / 8 < s.br.len.toNat →
    Memory.read s.src (s.br.base.toNat + q / 8) = none → s.bitsWritten s.br.bitpos (q - s.br.bitpos) →
    (∀ n, n ≤ 16 → q < s.br.bitpos + n →
      exec (.getbits n) s = .fault (.unwrittenRead .src (s.br.base.toNat + q / 8))) ∧
    (∀ n, n ≤ 32 → q < s.br.bitpos + n →
      exec (.readbits n) s = .fault (.unwrittenRead .src (s.br.base.toNat + q / 8))) ∧
    (∀ k, k < 8 → (s.model k).isSome = true → q < s.br.bitpos + 16 →
      exec (.huffDecode k) s = .fault (.unwrittenRead .src (s.br.base.toNat + q / 8))) ∧
    ∀ k, k < 8 → q < s.br.bitpos + 14 →
      exec (.modelRx k) s = .fault (.unwrittenRead .src (s.br.base.toNat + q / 8))

/-! ### Huffman models -/

/-- 41_huffman_model.md R151: the slot check, then the build of the lengths in `CL`: on success the slot holds the model
and `CL_COUNT` is `n`; on a failure the slot is left invalid. Nothing else changes. -/
def Obligations.HuffBuildInstallsTheModel : Prop :=
  ∀ (s : State) (k n : Nat), s.err = false →
    (8 ≤ k → exec (.huffBuild k n) s = .next (s.withError 0x44 (wordOf 4 k n))) ∧
    (k < 8 → (n ≤ 8192 → ∀ a, a < n → (Memory.read s.cl a).isSome = true) →
      (∀ m, build n ((List.range n).map (entryOf s.cl)) = .ok m →
        exec (.huffBuild k n) s = .next { s with
          models := s.models.setIfInBounds k (some m), clCount := BitVec.ofNat 14 n }) ∧
      (∀ c, build n ((List.range n).map (entryOf s.cl)) = .error c →
        exec (.huffBuild k n) s = .next { s.withError c.code (wordOf 4 k n) with
          models := s.models.setIfInBounds k none }))

/-- 41_huffman_model.md R152, R166: when `Build` fails and in which order; R158: `ERR_MODEL_TABLE` exactly when the Kraft
sum exceeds 1. In every other case it succeeds. -/
def Obligations.BuildFailsInOrder : Prop :=
  ∀ (n : Nat) (lens : List Nat), lens.length = n →
    (n = 0 → build n lens = .error .modelEmpty) ∧
    (8192 < n → build n lens = .error .modelTooMany) ∧
    (0 < n → n ≤ 8192 → (∃ l ∈ lens, 16 < l) → build n lens = .error .modelCodelen) ∧
    (0 < n → n ≤ 8192 → (∀ l ∈ lens, l ≤ 16) → 2 ^ 16 < kraftSum lens → build n lens = .error .modelTable) ∧
    (0 < n → n ≤ 8192 → (∀ l ∈ lens, l ≤ 16) → kraftSum lens ≤ 2 ^ 16 → ∃ m, build n lens = .ok m)

/-- 41_huffman_model.md R153, R156, R157, R161: the histogram, the first and last code of each length, the value pointer,
and which symbol each code names. -/
def Obligations.CodesAreCanonical : Prop :=
  ∀ (n : Nat) (lens : List Nat) (m : Model), lens.length = n → build n lens = .ok m →
    (∀ L, 1 ≤ L → L ≤ 16 → ∃ r, m.rows[L - 1]? = some r ∧ r.count = lens.count L ∧
      (r.count = 0 → r.first = none ∧ r.last = none ∧ r.max16 = none ∧ r.valPtr = 0) ∧
      (0 < r.count → r.first = some (codeStart lens L) ∧ r.last = some (codeStart lens L + r.count - 1) ∧
        codeStart lens L + r.count ≤ 2 ^ L ∧ r.valPtr = (lens.filter fun l => decide (0 < l ∧ l < L)).length ∧
        ∀ v, codeStart lens L ≤ v → v < codeStart lens L + r.count → ∃ sym,
          m.sorted[r.valPtr + (v - codeStart lens L)]? = some sym ∧ sym < n ∧ lens.getD sym 0 = L ∧
          canonicalCode lens sym = v)) ∧
    ∀ sym, sym < n → lens.getD sym 0 ≠ 0 →
      codeOf m sym = canonicalCode lens sym ∧ canonicalCode lens sym < 2 ^ lens.getD sym 0

/-- 41_huffman_model.md R155: `sorted` lists the used symbols in increasing (length, index) order, and `used` counts
them. -/
def Obligations.SortedByLengthThenIndex : Prop :=
  ∀ (n : Nat) (lens : List Nat) (m : Model), lens.length = n → build n lens = .ok m →
    m.used = (lens.filter fun l => decide (l ≠ 0)).length ∧ m.sorted.length = m.used ∧
    (∀ sym, sym ∈ m.sorted ↔ sym < n ∧ lens.getD sym 0 ≠ 0) ∧
    m.sorted.Pairwise fun a b => lens.getD a 0 < lens.getD b 0 ∨ (lens.getD a 0 = lens.getD b 0 ∧ a < b)

/-- 41_huffman_model.md R159 (`min_len`, `max_len`), R160 (`max16` and what a comparison with it means), R163
(`table_bits`). -/
def Obligations.MaxCodesCompareSixteenBits : Prop :=
  ∀ (n : Nat) (lens : List Nat) (m : Model), lens.length = n → build n lens = .ok m →
    (∀ L, 1 ≤ L → L ≤ 16 → 0 < lens.count L → ∃ r last top, m.rows[L - 1]? = some r ∧ r.last = some last ∧
      r.max16 = some top ∧ top = (last <<< (16 - L)) ||| (2 ^ (16 - L) - 1) ∧ top < 2 ^ 16 ∧
      ∀ p, p < 2 ^ 16 → (p ≤ top ↔ p >>> (16 - L) ≤ last)) ∧
    (∀ L, 1 ≤ L → L ≤ 16 → lens.count L = 0 → ∃ r, m.rows[L - 1]? = some r ∧ r.max16 = none) ∧
    (∀ L, m.minLen = some L ↔ 1 ≤ L ∧ L ≤ 16 ∧ 0 < lens.count L ∧ ∀ K, 1 ≤ K → K < L → lens.count K = 0) ∧
    (∀ L, m.maxLen = some L ↔ 1 ≤ L ∧ L ≤ 16 ∧ 0 < lens.count L ∧ ∀ K, L < K → K ≤ 16 → lens.count K = 0) ∧
    (n ≤ 16 → m.tableBits = 0) ∧
    (16 < n → ∃ k, n ≤ 2 ^ k ∧ (∀ j, n ≤ 2 ^ j → k ≤ j) ∧ m.tableBits = min (1 + k) 11)

/-- 41_huffman_model.md R164, R165: every entry of the direct lookup table, and its greatest short code. -/
def Obligations.DirectTableIsFilled : Prop :=
  ∀ (n : Nat) (lens : List Nat) (m : Model), lens.length = n → build n lens = .ok m →
    (m.tableBits = 0 → m.table = [] ∧ m.tableMax16 = none) ∧
    (0 < m.tableBits → m.table.length = 2 ^ m.tableBits ∧
      ∀ t, t < 2 ^ m.tableBits →
        (∀ sym, sym < n → 1 ≤ lens.getD sym 0 → lens.getD sym 0 ≤ m.tableBits →
          t >>> (m.tableBits - lens.getD sym 0) = canonicalCode lens sym →
          m.table[t]? = some (BitVec.ofNat 32 (sym ||| (lens.getD sym 0 <<< 16)))) ∧
        ((∀ sym, sym < n → 1 ≤ lens.getD sym 0 → lens.getD sym 0 ≤ m.tableBits →
          t >>> (m.tableBits - lens.getD sym 0) ≠ canonicalCode lens sym) →
          m.table[t]? = some 0xFFFFFFFF)) ∧
    (∀ Lt, 1 ≤ Lt → Lt ≤ m.tableBits → 0 < lens.count Lt → (∀ L, Lt < L → L ≤ m.tableBits → lens.count L = 0) →
      m.tableMax16 = some (((codeStart lens Lt + lens.count Lt) <<< (16 - Lt)) - 1)) ∧
    ((∀ L, 1 ≤ L → L ≤ m.tableBits → lens.count L = 0) → m.tableMax16 = none)

/-- No code of a built model begins another symbol's code (41_huffman_model.md R167). -/
def Obligations.CodesArePrefixFree : Prop :=
  ∀ (n : Nat) (lens : List Nat) (m : Model), lens.length = n → build n lens = .ok m →
    ∀ a b, a < n → b < n → a ≠ b → lens.getD a 0 ≠ 0 → lens.getD a 0 ≤ lens.getD b 0 →
      canonicalCode lens b >>> (lens.getD b 0 - lens.getD a 0) ≠ canonicalCode lens a

/-- The document's two-step decode (direct table, then the ladder) answers as the ladder alone, for every 16-bit peek of
every built model (41_huffman_model.md R172). -/
def Obligations.TwoStepDecodeAgrees : Prop :=
  ∀ (n : Nat) (lens : List Nat) (m : Model), lens.length = n → build n lens = .ok m →
    ∀ p, p < 2 ^ 16 → decodeTwoStep m p = decodePeek m p

/-- 41_huffman_model.md R170, R171, R173: the checks of `HUFF_DECODE` in order; then the symbol whose canonical code the
stream begins with, its length consumed; `ERR_SYM_INVALID` when it begins with no code. Nothing else changes. -/
def Obligations.HuffDecodeReadsOneSymbol : Prop :=
  ∀ (s : State) (k : Nat), s.err = false →
    (8 ≤ k → exec (.huffDecode k) s = .next (s.withError 0x44 (wordOf 5 k 0))) ∧
    (k < 8 → s.br.valid = false → exec (.huffDecode k) s = .next (s.withError 0x45 (wordOf 5 k 0))) ∧
    (k < 8 → s.br.valid = true → s.model k = none →
      exec (.huffDecode k) s = .next (s.withError 0x46 (wordOf 5 k 0))) ∧
    (k < 8 → s.br.valid = true → s.bitsWritten s.br.bitpos 16 →
      ∀ m, s.model k = some m → m.lens.length = m.n → build m.n m.lens = .ok m →
        (∀ sym L, sym < m.n → L = m.lens.getD sym 0 → L ≠ 0 →
          s.bitsAt s.br.bitpos L = canonicalCode m.lens sym →
          exec (.huffDecode k) s = .next { s with
            result := BitVec.ofNat 32 (sym ||| (L <<< 16)), br := { s.br with bitpos := s.br.bitpos + L } }) ∧
        ((∀ sym L, sym < m.n → L = m.lens.getD sym 0 → L ≠ 0 →
          s.bitsAt s.br.bitpos L ≠ canonicalCode m.lens sym) →
          ∃ t, exec (.huffDecode k) s = .next t ∧ FailedDecode 0x31 (wordOf 5 k 0) s t))

/-- Decoding a stream that is the concatenation of canonical codes recovers the symbols exactly, with their lengths, and
leaves the cursor at its end (41_huffman_model.md R175). -/
def Obligations.RoundTripRecoversTheSymbols : Prop :=
  ∀ (n : Nat) (lens : List Nat) (m : Model) (syms : List Nat) (s : State), lens.length = n → build n lens = .ok m →
    (∀ sym ∈ syms, sym < n ∧ lens.getD sym 0 ≠ 0) →
    s.holds s.br.bitpos (syms.flatMap (codeBits lens)) →
    s.bitsWritten s.br.bitpos ((syms.flatMap (codeBits lens)).length + 16) →
    decodeMany m s syms.length =
      .ok (syms.map fun sym => (sym, lens.getD sym 0), s.advance (syms.map fun sym => lens.getD sym 0).sum)

/-! ### Receiving a model -/

/-- 42_model_rx.md R198: a literal stores one code length and moves the write offset on by one. -/
def Obligations.BootLiteralStoresALength : Prop :=
  ∀ (s : State) (r : RxState), s.activity = .rx r →
    (∀ v, v < 16 → ∃ t, exec (.bootLiteral015 v) s = .next t ∧
      t = { s with cl := t.cl, activity := .rx { r with ofs := r.ofs + 1 } } ∧
      ∀ a, Memory.read t.cl a = if a = r.ofs then some (BitVec.ofNat 8 v) else Memory.read s.cl a) ∧
    ∃ t, exec .bootLiteral16 s = .next t ∧ t = { s with cl := t.cl, activity := .rx { r with ofs := r.ofs + 1 } } ∧
      ∀ a, Memory.read t.cl a = if a = r.ofs then some 16 else Memory.read s.cl a

/-- 42_model_rx.md R199, R200: a run of zeros reads its extra bits and moves the offset on by the run, the entries left as
they are; a run longer than the room left raises `ERR_MODEL_RUN_OVERFLOW` and ends the command. -/
def Obligations.BootZeroRunSkips : Prop :=
  ∀ (s : State) (r : RxState) (i : Instr) (least bits : Nat), s.activity = .rx r →
    ((i, least, bits) = (.bootZeroRunSmall, 3, 3) ∨ (i, least, bits) = (.bootZeroRunLarge, 11, 7)) →
    s.bitsWritten s.br.bitpos bits →
    (least + s.bitsAt s.br.bitpos bits ≤ r.n - r.ofs →
      exec i s = .next { s with
        br := { s.br with bitpos := s.br.bitpos + bits }
        activity := .rx { r with ofs := r.ofs + (least + s.bitsAt s.br.bitpos bits) } }) ∧
    (r.n - r.ofs < least + s.bitsAt s.br.bitpos bits →
      ∃ t, exec i s = .next t ∧ FailedModelRx r.slot 0x22 s t)

/-- 42_model_rx.md R201, R202: a repeat reads its extra bits, makes its three checks in order, and copies the entry before
the run into the run. -/
def Obligations.BootRepeatCopies : Prop :=
  ∀ (s : State) (r : RxState) (i : Instr) (least bits : Nat), s.activity = .rx r →
    ((i, least, bits) = (.bootRepeatSmall, 3, 2) ∨ (i, least, bits) = (.bootRepeatLarge, 7, 6)) →
    s.bitsWritten s.br.bitpos bits →
    (r.ofs = 0 → ∃ t, exec i s = .next t ∧ FailedModelRx r.slot 0x25 s t) ∧
    (r.ofs ≠ 0 → r.n - r.ofs < least + s.bitsAt s.br.bitpos bits →
      ∃ t, exec i s = .next t ∧ FailedModelRx r.slot 0x22 s t) ∧
    (r.ofs ≠ 0 → least + s.bitsAt s.br.bitpos bits ≤ r.n - r.ofs → Memory.read s.cl (r.ofs - 1) = some 0 →
      ∃ t, exec i s = .next t ∧ FailedModelRx r.slot 0x25 s t) ∧
    (∀ prev, r.ofs ≠ 0 → least + s.bitsAt s.br.bitpos bits ≤ r.n - r.ofs →
      Memory.read s.cl (r.ofs - 1) = some prev → prev ≠ 0 →
      ∃ t, exec i s = .next t ∧
        t = { s with
          cl := t.cl, br := { s.br with bitpos := s.br.bitpos + bits }
          activity := .rx { r with ofs := r.ofs + (least + s.bitsAt s.br.bitpos bits) } } ∧
        ∀ a, Memory.read t.cl a =
          if r.ofs ≤ a ∧ a < r.ofs + (least + s.bitsAt s.br.bitpos bits) then some prev else Memory.read s.cl a)

/-- 42_model_rx.md R192, R193, R194: a transmitted count of 0, a count above 8192 and a bootstrap count outside 1 to 21 are
errors, in stream order. -/
def Obligations.ModelRxChecksItsHeader : Prop :=
  ∀ (s : State) (k : Nat), s.err = false → k < 8 → s.br.valid = true → s.bitsWritten s.br.bitpos 19 →
    (s.bitsAt s.br.bitpos 14 = 0 → ∃ t, exec (.modelRx k) s = .next t ∧ FailedModelRx k 0x21 s t) ∧
    (8192 < s.bitsAt s.br.bitpos 14 → ∃ t, exec (.modelRx k) s = .next t ∧ FailedModelRx k 0x27 s t) ∧
    (0 < s.bitsAt s.br.bitpos 14 → s.bitsAt s.br.bitpos 14 ≤ 8192 →
      (s.bitsAt (s.br.bitpos + 14) 5 = 0 ∨ 21 < s.bitsAt (s.br.bitpos + 14) 5) →
      ∃ t, exec (.modelRx k) s = .next t ∧ FailedModelRx k 0x26 s t)

/-- `MODEL_RX` receives every model an encoder can send (30_encoding.md R108, R109; 42_model_rx.md R191, R195 to R204): the
slot holds what `Build` makes of the code lengths sent, `CL[0..n-1]` holds them, `CL_COUNT` is `n`, the cursor stands at
the end of the transmitted bits, and nothing else changes. -/
def Obligations.ModelRxReceivesTheModel : Prop :=
  ∀ (s : State) (k n : Nat) (x : Transmission) (boot m : Model) (lens : List Nat),
    s.err = false → s.activity = .idle → k < 8 → s.br.valid = true → s.cfg.wf = true →
    1 ≤ n → n ≤ 8192 → x.wf s.cfg.clOrder → x.lens = some lens → lens.length = n →
    build 21 (x.bootLens s.cfg.clOrder) = .ok boot → build n lens = .ok m →
    s.holds s.br.bitpos (x.bits s.cfg.clOrder n) →
    s.bitsWritten s.br.bitpos ((x.bits s.cfg.clOrder n).length + 16) →
    ∃ t, exec (.modelRx k) s = .next t ∧
      t = { s with
        models := s.models.setIfInBounds k (some m), clCount := BitVec.ofNat 14 n, cl := t.cl
        br := { s.br with bitpos := s.br.bitpos + (x.bits s.cfg.clOrder n).length } } ∧
      ∀ a, Memory.read t.cl a = if a < n then some (BitVec.ofNat 8 (lens.getD a 0)) else Memory.read s.cl a

/-! ### Errors -/

/-- An error met after a command has begun to read its stream leaves what 60_exceptions.md R353 to R355 says and nothing
else: the reader not valid, a receiving slot invalid, the face regions of `DST` unspecified and every other byte kept. An
error of the two checks of `MODEL_RX` keeps the reader, and leaves the slot invalid and `CL` unspecified all the same (R354;
against 42_model_rx.md R191 the model's choice: log 27). -/
def Obligations.LateErrorsLeaveWhatTheRulesSay : Prop :=
  ∀ s t : State, s.err = false → t.err = true →
    (∀ k m, k < 8 → s.br.valid = true → s.model k = some m → exec (.huffDecode k) s = .next t →
      FailedDecode t.errCode (wordOf 5 k 0) s t) ∧
    (∀ k, k < 8 → s.br.valid = true → exec (.modelRx k) s = .next t → FailedModelRx k t.errCode s t) ∧
    (∀ k, 8 ≤ k → exec (.modelRx k) s = .next t → RejectedModelRx k 0x44 s t) ∧
    (∀ k, k < 8 → s.br.valid = false → exec (.modelRx k) s = .next t → RejectedModelRx k 0x45 s t) ∧
    (s.firstCheck .chunk = none → exec .unpackChunk s = .next t → FailedUnpack t.errCode (wordOf 7 0 0) s t) ∧
    (s.firstCheck .refgrp = none → exec .unpackRefgrp s = .next t → FailedUnpack t.errCode (wordOf 8 0 0) s t)

/-- 60_exceptions.md R346, R352: an error records one of the table's codes and the whole command word; `RESULT` and
`CL_COUNT` keep what they held, and so do the operands, the configuration, the palettes and `SRC`. -/
def Obligations.ErrorsAreRecorded : Prop :=
  ∀ (i : Instr) (s t : State), i.fmt = .cw → s.err = false → exec i s = .next t → t.err = true →
    (∃ c : ErrCode, t.errCode = c.code) ∧ t.errInfo = BitVec.ofNat 32 (encode i) ∧ t.result = s.result ∧
    t.clCount = s.clCount ∧ t.arg0 = s.arg0 ∧ t.arg1 = s.arg1 ∧ s.sameConfig t ∧ s.samePalettes t ∧ t.src = s.src

/-- The table of 10_state.md, section 10: each command writes only the state its row names. -/
def Obligations.CommandsWriteOnlyTheirState : Prop :=
  ∀ (i : Instr) (s t : State), i.fmt = .cw → exec i s = .next t →
    (s.samePalettes t ∧ t.src = s.src ∧ t.cfg = s.cfg ∧ t.pending = s.pending ∧ t.busData = s.busData) ∧
    (i ≠ .softReset → t.arg0 = s.arg0 ∧ t.arg1 = s.arg1 ∧ s.sameConfig t) ∧
    ((∀ n, i ≠ .getbits n) → (∀ n, i ≠ .readbits n) → (∀ k, i ≠ .huffDecode k) → i ≠ .softReset →
      t.result = s.result) ∧
    (i = .nop ∨ i = .clrErr ∨ (∃ k n, i = .huffBuild k n) → t.br = s.br) ∧
    ((∀ k n, i ≠ .huffBuild k n) → (∀ k, i ≠ .modelRx k) → i ≠ .softReset →
      t.models = s.models ∧ t.clCount = s.clCount) ∧
    (∀ k, (∃ n, i = .huffBuild k n) ∨ i = .modelRx k → ∀ j, j ≠ k → t.model j = s.model j) ∧
    ((∀ k, i ≠ .modelRx k) → t.cl = s.cl) ∧
    (i ≠ .unpackChunk → i ≠ .unpackRefgrp → t.dst = s.dst)

/-! ### The unpack commands -/

/-- 43_unpack_chunk.md R223: both unpack commands make the eight checks in the order of the table; the first that fails
raises its error and changes nothing else. Which planes a format has: R224, 44_unpack_refgroup.md R261. Which slots and
palettes an ETC format needs with an `EtcUnpack` given is the model's choice (log 9). -/
def Obligations.UnpackChecksInOrder : Prop :=
  ∀ s : State, s.err = false →
    (∀ c, s.firstCheck .chunk = some c → exec .unpackChunk s = .next (s.withError c (wordOf 7 0 0))) ∧
    (∀ c, s.firstCheck .refgrp = some c → exec .unpackRefgrp s = .next (s.withError c (wordOf 8 0 0))) ∧
    (∀ sch, (checkUnpack sch s).map ErrCode.code = s.firstCheck sch) ∧
    (s.cfg.wf = true → ∀ sch,
      (s.format.toNat = 0 → s.usesColor sch = true ∧ s.usesAlpha sch = false ∧ s.bpb = 8) ∧
      (s.format.toNat = 2 → s.usesColor sch = true ∧ s.usesAlpha sch = true ∧ s.bpb = 16) ∧
      (s.format.toNat = 3 → s.usesColor sch = false ∧ s.usesAlpha sch = true ∧ s.bpb = 8) ∧
      (s.format.toNat = 4 → s.usesColor sch = false ∧ s.usesAlpha sch = true ∧ s.bpb = 16))

/-- `UNPACK_CHUNK` rebuilds a level: when the checks pass, the memories it reads are written and the stream can be decoded
at every position, it ends without an error, moves only the cursor and `DST`, writes only visible blocks, and every
visible block holds entries of its planes' palettes (43_unpack_chunk.md R221, R235; 20_memory.md R63, R72, R74). And which
entries: for a level of any number of chunks, by the symbols of its stream, the running indices start at 0 and carry on
over all chunks, chunk rows and faces, and one slot-0 symbol serves three chunks (R230 to R236; log 11, 13). -/
def Obligations.UnpackChunkRebuildsTheLevel : Prop :=
  (∀ s : State, s.err = false → s.activity = .idle → s.cfg.wf = true → s.dxtFormat → s.firstCheck .chunk = none →
    s.sourceWritten → s.decodable 0 512 →
    (∀ p ∈ s.planes .chunk, s.decodable p.epSlot 8192 ∧ s.decodable p.selSlot 8192 ∧ s.palettesWritten p) →
    ∃ t, exec .unpackChunk s = .next t ∧ UnpackResult .chunk s t) ∧
  ∀ (s u : State) (code : Nat → Nat) (records : Nat → List Nat), s.err = false → s.activity = .idle →
    s.cfg.wf = true → s.dxtFormat → s.firstCheck .chunk = none → (∀ p ∈ s.planes .chunk, s.palettesWritten p) →
    (∀ g, code g < 512) →
    (∀ j, j < s.chunks.length → (records j).length = (chunkSlots (s.planes .chunk) (s.chunkTiles code j)).length) →
    decodeSeq s (s.chunkLevelSlots code) = .ok (s.chunkLevelSymbols code records, u) →
    ∃ t, exec .unpackChunk s = .next t ∧ t = { s with br := u.br, dst := t.dst } ∧
      (∀ a, ¬ s.inVisibleBlock a → Memory.read t.dst a = Memory.read s.dst a) ∧
      ∀ j pos k, s.chunks[j]? = some pos → k < 4 →
        s.visible (2 * pos.cx + k % 2) (2 * pos.cy + k / 2) = true →
        t.dstHolds (s.blockAddr pos.f (2 * pos.cx + k % 2) (2 * pos.cy + k / 2))
          (s.blockOf
            (fun p => s.levelEndpoint code records p j ((s.cfg.tilePattern.getD (chunkEncoding code j) []).getD k 0))
            (fun p => s.levelSelector code records p j k))

/-- `UNPACK_REFGRP` rebuilds a level, in the same sense; selectors are absolute indices below the palette's count, or
deltas when `RG_SEL_DELTA` (44_unpack_refgroup.md R261, R268, R269; a `DiagRule` is given: R267, log 8). And which entries:
for a level of any size without a sub-code 2, by the symbols of its stream, the running indices start at 0 and carry on over
all blocks, rows and faces, and the columns start each face at 0 (R263 to R270; log 13). -/
def Obligations.UnpackRefgrpRebuildsTheLevel : Prop :=
  (∀ s : State, s.err = false → s.activity = .idle → s.cfg.wf = true → s.cfg.diagRuleGiven = true → s.dxtFormat →
    s.firstCheck .refgrp = none → s.sourceWritten → s.decodable 0 256 →
    (∀ p ∈ s.planes .refgrp, s.decodable p.epSlot 8192 ∧ s.palettesWritten p ∧
      s.decodable p.selSlot (if s.cfg.rgSelDelta then 8192 else s.selCount p)) →
    ∃ t, exec .unpackRefgrp s = .next t ∧ UnpackResult .refgrp s t) ∧
  ∀ (s u : State) (code : Nat → Nat → Nat → Nat) (deltas sels : BlockPos → Plane → Nat) (idx sel : Nat → Plane → Nat),
    s.err = false → s.activity = .idle → s.cfg.wf = true → s.dxtFormat → s.firstCheck .refgrp = none →
    (∀ p ∈ s.planes .refgrp, s.palettesWritten p) → (∀ f y x, code f y x < 256) →
    (∀ pos ∈ s.blocks, blockSubcode code pos ≠ 2) → s.IsEndpoints code deltas idx → s.IsSelectors sels sel →
    decodeSeq s (s.refLevelSlots code) = .ok (s.refLevelSymbols code deltas sels, u) →
    ∃ t, exec .unpackRefgrp s = .next t ∧ t = { s with br := u.br, dst := t.dst } ∧
      (∀ a, ¬ s.inVisibleBlock a → Memory.read t.dst a = Memory.read s.dst a) ∧
      ∀ j pos, s.blocks[j]? = some pos → s.visible pos.x pos.y = true →
        t.dstHolds (s.blockAddr pos.f pos.x pos.y) (s.blockOf (idx j) (sel j))

/-- 43_unpack_chunk.md R234, R236: one chunk under each of the eight encodings, by the symbols its record decodes to: the
tiles' endpoint indices, the four sub-blocks' selector indices, the visible sub-blocks written with their tile's endpoints
and their own selectors, and nothing else changed. The tile tables: R226 (log 11). -/
def Obligations.TilePatternsRebuildAChunk : Prop :=
  ∀ (s u : State) (c : ChunkState) (pos : ChunkPos) (rest : List ChunkPos) (e : Nat) (syms : List Nat)
    (ps : List Plane) (tiles : Nat), e < 8 → s.activity = .chunk c → c.scan = pos :: rest → c.tep.full →
    pos.f < s.faces.toNat → s.cfg.wf = true → s.dxtFormat → s.firstCheck .chunk = none →
    ps = s.planes .chunk → tiles = s.cfg.tileCount.getD e 0 →
    (∀ p ∈ ps, s.palettesWritten p) → decodeSeq s (chunkSlots ps tiles) = .ok (syms, u) →
    ∃ t c', exec (tileInstr e) s = .next t ∧
      t = { s with br := u.br, dst := t.dst, activity := .chunk c' } ∧
      c'.scan = c.scan ∧ c'.ceb = c.ceb ∧ c'.k = 3 ∧ c'.tep.full ∧
      (∀ p ∈ ps, (c'.ep.get p).toNat = tileEndpoint s c ps tiles syms p (tiles - 1) ∧
        (c'.sp.get p).toNat = blockSelector s c ps tiles syms p 3 ∧
        ∀ i, i < 4 → if i < tiles then (c'.tep.get p i).toNat = tileEndpoint s c ps tiles syms p i
          else c'.tep.get p i = c.tep.get p i) ∧
      (∀ p, p ∉ ps → c'.ep.get p = c.ep.get p ∧ c'.sp.get p = c.sp.get p ∧
        ∀ i, c'.tep.get p i = c.tep.get p i) ∧
      (∀ k, k < 4 → s.visible (2 * pos.cx + k % 2) (2 * pos.cy + k / 2) = true →
        t.dstHolds (s.blockAddr pos.f (2 * pos.cx + k % 2) (2 * pos.cy + k / 2))
          (s.blockOf
            (fun p => tileEndpoint s c ps tiles syms p ((s.cfg.tilePattern.getD e []).getD k 0))
            (fun p => blockSelector s c ps tiles syms p k))) ∧
      ∀ a, (∀ k, k < 4 → s.visible (2 * pos.cx + k % 2) (2 * pos.cy + k / 2) = true →
          a < s.blockAddr pos.f (2 * pos.cx + k % 2) (2 * pos.cy + k / 2) ∨
          s.blockAddr pos.f (2 * pos.cx + k % 2) (2 * pos.cy + k / 2) + s.bpb ≤ a) →
        Memory.read t.dst a = Memory.read s.dst a

/-- 43_unpack_chunk.md R233: an exhausted register is refilled with one symbol of slot 0, a symbol of 512 or more being an
error; each use gives the low three bits and shifts them out, and after three uses the register is exhausted again. The packing is the spec's from general knowledge
(log 13). -/
def Obligations.ChunkEncodingsComeInThrees : Prop :=
  (∀ (s u : State) (c : ChunkState) (v : Nat), c.ceb = 1 → decodeSlot 0 s = .ok (v, u) →
    (512 ≤ v → fetchChunk c s = .error (.error .symValue)) ∧
    (v < 512 → fetchChunk c s =
      .ok (tileInstr (v % 8), u.setActivity (.chunk { c with ceb := BitVec.ofNat 10 ((v + 512) / 8) })))) ∧
  (∀ (s : State) (c : ChunkState), c.ceb ≠ 1 → fetchChunk c s =
    .ok (tileInstr (c.ceb.toNat % 8), s.setActivity (.chunk { c with ceb := BitVec.ofNat 10 (c.ceb.toNat / 8) }))) ∧
  ∀ v, v < 512 → (v + 512) / 8 / 8 / 8 = 1 ∧ (v + 512) / 8 ≠ 1 ∧ (v + 512) / 8 / 8 ≠ 1

/-- 43_unpack_chunk.md R241, the document's end-to-end scenario: one visible `DXT1` block over one-entry palettes is the
endpoint entry followed by the selector entry, whatever the deltas. The spec's default tile tables (log 11). -/
def Obligations.OneBlockLevelIsItsPaletteEntries : Prop :=
  ∀ (s u : State) (v d e0 e1 e2 e3 : Nat) (ce cs : Word), s.err = false → s.activity = .idle →
    s.cfg.wf = true → s.cfg.tileCount = Config.defaultTileCount → s.cfg.tilePattern = Config.defaultTilePattern →
    s.br.valid = true → s.format = 0 → s.faces = 1 → s.lvlW = 4 → s.lvlH = 4 → s.ceCount = 1 → s.csCount = 1 →
    s.rowPitch = 8 → s.dstSize = 8 → 8 ≤ s.cfg.dstMemSize →
    s.modelValid 0 = true → s.modelValid 1 = true → s.modelValid 2 = true →
    Memory.read s.ce 0 = some ce → Memory.read s.cs 0 = some cs →
    decodeSeq s [0, 1, 2, 2, 2, 2] = .ok ([v, d, e0, e1, e2, e3], u) → v < 512 → v % 8 = 0 →
    ∃ t, exec .unpackChunk s = .next t ∧ t = { s with br := u.br, dst := t.dst } ∧
      t.dstHolds 0 (leBytes 4 ce.toNat ++ leBytes 4 cs.toNat) ∧
      ∀ a, 8 ≤ a → Memory.read t.dst a = Memory.read s.dst a

/-- 44_unpack_refgroup.md R266: what each sub-code does to the running indices, and that the block's column then keeps
them; nothing else changes but the cursor of a fresh delta. Sub-code 2 takes what `DiagRule` gives for each plane, below the
plane's count, and the `DiagState` it gives (R267; log 8). -/
def Obligations.SubcodesSetTheIndices : Prop :=
  ∀ (s : State) (g : RefState) (pos : BlockPos) (rest : List BlockPos) (ps : List Plane),
    s.activity = .refgrp g → g.scan = pos :: rest → ps = s.planes .refgrp → ps.Nodup →
    (∀ p ∈ ps, 0 < s.epCount p) →
    (∀ syms u, decodeSeq s (ps.map Plane.epSlot) = .ok (syms, u) →
      exec .refFreshDelta s = .next { s with
        br := u.br
        activity := .refgrp (referenced ps pos.x g (setPlanes ps g.ep fun p =>
          BitVec.ofNat 16 (((g.ep.get p).toNat + syms.getD (ps.idxOf p) 0) % s.epCount p))) }) ∧
    exec .refFromAbove s = .next { s with
      activity := .refgrp (referenced ps pos.x g (setPlanes ps g.ep fun p => (g.column pos.x).idx.get p)) } ∧
    exec .refKeepRunning s = .next { s with activity := .refgrp (referenced ps pos.x g g.ep) } ∧
    (s.cfg.diagRuleGiven = true → ∀ ep diag, (ep, diag) = diagonalAnswers s pos g ps →
      exec .refDiagonal s = .next { s with
        activity := .refgrp { referenced ps pos.x g ep with diag := diag } } ∧
      (∀ p ∈ ps, (ep.get p).toNat < s.epCount p) ∧ ∀ p, p ∉ ps → ep.get p = g.ep.get p)

/-- 44_unpack_refgroup.md R267: with no `DiagRule` given the model refuses a run that meets a sub-code 2; it does not make
it an error of the core. -/
def Obligations.DiagonalNeedsItsRule : Prop :=
  ∀ (s : State) (g : RefState) (pos : BlockPos) (rest : List BlockPos), s.activity = .refgrp g →
    g.scan = pos :: rest → s.cfg.diagRuleGiven = false → exec .refDiagonal s = .refused .diagRuleNotGiven

/-- 44_unpack_refgroup.md R264, R265: the group code is decoded at the top-left block of each neighbourhood, a symbol of
256 or more being an error; an even row uses its low two bits and keeps the next two for the block below, and shifts the
register by four; an odd row uses what the column kept; a face's first block finds all 16384 columns at zero (10_state.md R45). Which field belongs to which block
is the spec's from general knowledge (log 13). -/
def Obligations.SubcodesAreUnpacked : Prop :=
  ∀ (s u : State) (g g0 : RefState) (pos : BlockPos) (rest : List BlockPos), g.scan = pos :: rest →
    g0 = (if pos.y = 0 ∧ pos.x = 0 then
      { g with col := List.replicate 16384 ⟨⟨0, 0, 0⟩, 0⟩, diag := 0 } else g) →
    (∀ v, pos.y % 2 = 0 → pos.x % 2 = 0 → decodeSlot 0 s = .ok (v, u) →
      (256 ≤ v → fetchRef g s = .error (.error .symValue)) ∧
      (v < 256 → ∃ i, decode .subcode (v % 4) = some i ∧ fetchRef g s = .ok (i, u.setActivity (.refgrp { g0 with
        rg := BitVec.ofNat 8 (v / 16)
        col := g0.col.set pos.x { g0.column pos.x with kind := BitVec.ofNat 2 (v / 4) } })))) ∧
    (pos.y % 2 = 0 → pos.x % 2 = 1 → ∃ i, decode .subcode (g.rg.toNat % 4) = some i ∧
      fetchRef g s = .ok (i, s.setActivity (.refgrp { g with
        rg := BitVec.ofNat 8 (g.rg.toNat / 16)
        col := g.col.set pos.x { g.column pos.x with kind := BitVec.ofNat 2 (g.rg.toNat / 4) } }))) ∧
    (pos.y % 2 = 1 → ∃ i, decode .subcode (g.column pos.x).kind.toNat = some i ∧
      fetchRef g s = .ok (i, s.setActivity (.refgrp g)))

/-- 44_unpack_refgroup.md R268, R269: after its sub-code every block decodes one selector for each plane, an absolute index
that must be below the count, or a delta when `RG_SEL_DELTA`; the block is written if it is visible; the scan moves on. -/
def Obligations.BlocksEndWithTheirSelectors : Prop :=
  ∀ (s u : State) (g : RefState) (pos : BlockPos) (rest : List BlockPos) (ps : List Plane) (syms : List Nat),
    g.scan = pos :: rest → ps = s.planes .refgrp → s.cfg.wf = true → s.dxtFormat → s.firstCheck .refgrp = none →
    pos.f < s.faces.toNat → (∀ p ∈ ps, s.palettesWritten p ∧ (g.ep.get p).toNat < s.epCount p) →
    decodeSeq s (ps.map Plane.selSlot) = .ok (syms, u) →
    (s.cfg.rgSelDelta = false → (∃ p ∈ ps, s.selCount p ≤ syms.getD (ps.idxOf p) 0) →
      retireRef g s = .error (.error .symValue)) ∧
    ((s.cfg.rgSelDelta = false → ∀ p ∈ ps, syms.getD (ps.idxOf p) 0 < s.selCount p) →
      ∃ t sp, retireRef g s = .ok t ∧
        t = { s with
          br := u.br, dst := t.dst
          activity := if rest = [] then .idle else .refgrp { g with sp := sp, scan := rest } } ∧
        (∀ p ∈ ps, (sp.get p).toNat = if s.cfg.rgSelDelta
          then ((g.sp.get p).toNat + syms.getD (ps.idxOf p) 0) % s.selCount p else (g.sp.get p).toNat) ∧
        (∀ p, p ∉ ps → sp.get p = g.sp.get p) ∧
        (s.visible pos.x pos.y = true → t.dstHolds (s.blockAddr pos.f pos.x pos.y)
          (s.blockOf (fun p => (g.ep.get p).toNat) fun p =>
            if s.cfg.rgSelDelta then (sp.get p).toNat else syms.getD (ps.idxOf p) 0)) ∧
        ∀ a, (s.visible pos.x pos.y = true →
            a < s.blockAddr pos.f pos.x pos.y ∨ s.blockAddr pos.f pos.x pos.y + s.bpb ≤ a) →
          Memory.read t.dst a = Memory.read s.dst a)

/-- 43_unpack_chunk.md R232: every chunk of every face is visited exactly once, faces outermost, rows top to bottom, even
rows left to right and odd rows right to left, the parity restarting with each face. -/
def Obligations.ChunkScanCoversTheLevel : Prop :=
  ∀ faces rows columns : Nat,
    (∀ pos : ChunkPos, pos ∈ chunkScan faces rows columns ↔ pos.f < faces ∧ pos.cy < rows ∧ pos.cx < columns) ∧
    (chunkScan faces rows columns).length = faces * rows * columns ∧
    (chunkScan faces rows columns).Pairwise fun a b => a.f < b.f ∨ (a.f = b.f ∧ (a.cy < b.cy ∨ (a.cy = b.cy ∧
      if a.cy % 2 = 0 then a.cx < b.cx else b.cx < a.cx)))

/-- 44_unpack_refgroup.md R270: every block of the padded grid of every face is visited exactly once, faces outermost, rows
top to bottom, every row left to right; and the padded grid is even. -/
def Obligations.BlockScanCoversTheLevel : Prop :=
  (∀ faces rows columns : Nat,
    (∀ pos : BlockPos, pos ∈ blockScan faces rows columns ↔ pos.f < faces ∧ pos.y < rows ∧ pos.x < columns) ∧
    (blockScan faces rows columns).length = faces * rows * columns ∧
    (blockScan faces rows columns).Pairwise fun a b => a.f < b.f ∨ (a.f = b.f ∧ (a.y < b.y ∨ (a.y = b.y ∧ a.x < b.x)))) ∧
  ∀ s : State, s.w2 % 2 = 0 ∧ s.h2 % 2 = 0 ∧ s.bx ≤ s.w2 ∧ s.w2 ≤ s.bx + 1 ∧ s.by' ≤ s.h2 ∧ s.h2 ≤ s.by' + 1

/-- 43_unpack_chunk.md R231: an index after a run of deltas is their sum with the first index modulo the palette's count,
also where a raw sum exceeds the count by more than one count. -/
def Obligations.DeltasWrapByTheTrueRemainder : Prop :=
  ∀ (count : Nat) (idx : Half) (ds : List Nat), 0 < count → count ≤ 65535 →
    (∀ d, (deltaIndex idx d count).toNat = (idx.toNat + d) % count) ∧
    (ds ≠ [] → (ds.foldl (fun i d => deltaIndex i d count) idx).toNat = (idx.toNat + ds.sum) % count)

/-- 20_memory.md R63, 60_exceptions.md R355: what an unpack command can do to `DST`. A check that fails writes nothing;
after any end, bytes outside the face regions are as before; after a success, so is every byte outside the visible blocks,
and those lie inside the face regions. A given `EtcUnpack` is held to it (log 9). -/
def Obligations.UnpackWritesOnlyItsFaces : Prop :=
  ∀ (s t : State) (i : Instr) (sch : Scheme), (i, sch) = (.unpackChunk, .chunk) ∨ (i, sch) = (.unpackRefgrp, .refgrp) →
    exec i s = .next t →
    (s.firstCheck sch ≠ none → t.dst = s.dst) ∧
    (∀ a, s.faces.toNat * s.dstSize.toNat ≤ a → Memory.read t.dst a = Memory.read s.dst a) ∧
    (t.err = false → ∀ a, ¬ s.inVisibleBlock a → Memory.read t.dst a = Memory.read s.dst a) ∧
    (s.firstCheck sch = none → ∀ f x y, f < s.faces.toNat → x < s.bx → y < s.by' →
      f * s.dstSize.toNat ≤ s.blockAddr f x y ∧ s.blockAddr f x y + s.bpb ≤ (f + 1) * s.dstSize.toNat ∧
      (f + 1) * s.dstSize.toNat ≤ s.cfg.dstMemSize)

/-- The core never reads `DST` (10_state.md R49, 20_memory.md R76): two states that differ in `DST` alone run a command to
the same end, `DST` apart. And an unpack command reads nothing outside its row of 10_state.md R50: not the operands,
`RESULT`, `CL`, `CL_COUNT` or a slot from 5 up. A given `EtcUnpack` is held to both, which is
the model's choice (log 9). -/
def Obligations.CommandsNeverReadDst : Prop :=
  (∀ (i : Instr) (s : State) (d : Memory 8),
    (∀ t, exec i s = .next t → ∃ d', exec i { s with dst := d } = .next { t with dst := d' }) ∧
    (∀ f, exec i s = .fault f → exec i { s with dst := d } = .fault f) ∧
    (∀ r, exec i s = .refused r → exec i { s with dst := d } = .refused r)) ∧
  ∀ (i : Instr) (s : State) (a0 a1 r : Word) (lens : Memory 8) (n : BitVec 14) (k : Nat) (m : Option Model)
    (change : State → State), i = .unpackChunk ∨ i = .unpackRefgrp → 5 ≤ k →
    change = (fun t => { t with
      arg0 := a0, arg1 := a1, result := r, cl := lens, clCount := n, models := t.models.setIfInBounds k m }) →
    (∀ t, exec i s = .next t → exec i (change s) = .next (change t)) ∧
    (∀ f, exec i s = .fault f → exec i (change s) = .fault f) ∧
    ∀ r, exec i s = .refused r → exec i (change s) = .refused r

/-! ### The host's side -/

/-- 10_state.md R29, R40: each offset shows its register; the writable registers keep the written value masked to their
field and no other register changes; every other offset ignores writes; `CMD`, reserved offsets and reserved bits read 0; a
read changes nothing but what the host gets. The reader's views read 0 directly after reset and `SOFT_RESET` (R39; log 5).
An access that is not one aligned 32-bit word is refused (20_memory.md R67); that one outside the window faults is the
model's choice (log 17). -/
def Obligations.RegisterWindowHolds : Prop :=
  let fields : List (Nat × Nat) :=
    [(0x04, 32), (0x08, 32), (0x20, 4), (0x24, 3), (0x28, 16), (0x2C, 16), (0x30, 32), (0x34, 32), (0x38, 16), (0x3C, 16),
     (0x40, 16), (0x44, 16)]
  let views : List Nat := [0x0C, 0x10, 0x14, 0x18, 0x48, 0x50, 0x54, 0x58, 0x5C]
  let shows (s : State) : List (Nat × Nat) :=
    [(0x04, s.arg0.toNat), (0x08, s.arg1.toNat), (0x18, s.result.toNat), (0x20, s.format.toNat), (0x24, s.faces.toNat),
     (0x28, s.lvlW.toNat), (0x2C, s.lvlH.toNat), (0x30, s.rowPitch.toNat), (0x34, s.dstSize.toNat),
     (0x38, s.ceCount.toNat), (0x3C, s.csCount.toNat), (0x40, s.aeCount.toNat), (0x44, s.asCount.toNat),
     (0x48, s.clCount.toNat)]
  let readerShows (s : State) : List (Nat × Nat) :=
    [(0x50, s.br.base.toNat), (0x54, s.br.len.toNat), (0x58, s.br.bitpos % 2 ^ 32),
     (0x5C, s.br.bitpos / 2 ^ 32 % 2 ^ 32)]
  (∀ s : State, (∀ e ∈ shows s, (readReg s e.1).1.toNat = e.2) ∧
    (s.br.valid = true → ∀ e ∈ readerShows s, (readReg s e.1).1.toNat = e.2) ∧
    ∀ e ∈ readerShows s, (readReg State.reset e.1).1 = 0 ∧ ∀ t, exec .softReset s = .next t → (readReg t e.1).1 = 0) ∧
  (∀ (s : State) (rest : List HostAction) (off width : Nat) (v : Word), s.activity = .idle →
    s.pending = .write .reg off width v :: rest ∨ s.pending = .read .reg off width :: rest →
    (width ≠ 32 ∨ off % 4 ≠ 0 → step s = .refused (.hostAccessUndefined .reg off width)) ∧
    (width = 32 → off % 4 = 0 → 256 ≤ off → step s = .fault (.noSuchAddress .reg off))) ∧
  ∀ (s : State) (rest : List HostAction) (off : Nat) (v : Word), s.activity = .idle → off < 256 → off % 4 = 0 →
    (off ≠ 0 → s.pending = .write .reg off 32 v :: rest →
      ∃ t, step s = .next t ∧ t.pending = rest ∧ t.br = s.br ∧ t.status = s.status ∧ t.result = s.result ∧
        s.sameMemories t ∧ t.models = s.models ∧
        (∀ w, (off, w) ∈ fields → (readReg t off).1.toNat = v.toNat % 2 ^ w) ∧
        (∀ other, other ≠ off → (readReg t other).1 = (readReg s other).1) ∧
        (off ∉ fields.map Prod.fst → t = { s with pending := rest })) ∧
    (s.pending = .read .reg off 32 :: rest →
      ∃ t, step s = .next t ∧
        t = { s with pending := rest, busData := t.busData, freeCtr := t.freeCtr } ∧
        (off < 0x50 ∨ 0x5C < off ∨ s.br.valid = true → t.busData = (readReg s off).1 ∧ t.freeCtr = s.freeCtr) ∧
        (off ∉ fields.map Prod.fst → off ∉ views → t.busData = 0))

/-- 10_state.md R27: `STATUS` shows `ERR` in bit 0, `BR_VALID` in bit 1, `MODEL_VALID` in bits 15 to 8, and 0 elsewhere;
10_state.md R28, R29: the host reads it at 0x0C, the error registers beside it. -/
def Obligations.StatusShowsTheFlags : Prop :=
  ∀ s : State, s.status.getLsbD 0 = s.err ∧ s.status.getLsbD 1 = s.br.valid ∧
    (∀ k, k < 8 → s.status.getLsbD (8 + k) = (s.model k).isSome) ∧
    (∀ b, (2 ≤ b ∧ b < 8) ∨ 16 ≤ b → s.status.getLsbD b = false) ∧
    (readReg s 0x0C).1 = s.status ∧ (readReg s 0x10).1.toNat = s.errCode.toNat ∧ (readReg s 0x14).1 = s.errInfo

/-- 20_memory.md R60, R67: a unit the host writes reads back as written, another unit keeps its value, an access of any
other width is refused, and an address the space does not have faults (log 17). -/
def Obligations.HostMemoriesHoldWhatIsWritten : Prop :=
  ∀ (s : State) (sp : Space) (a width : Nat) (v : Word) (rest : List HostAction), s.activity = .idle → sp ≠ .reg →
    (width ≠ unitWidth sp → s.pending = .write sp a width v :: rest ∨ s.pending = .read sp a width :: rest →
      step s = .refused (.hostAccessUndefined sp a width)) ∧
    (width = unitWidth sp → spaceSize s.cfg sp ≤ a →
      s.pending = .write sp a width v :: rest ∨ s.pending = .read sp a width :: rest →
      step s = .fault (.noSuchAddress sp a)) ∧
    (width = unitWidth sp → a < spaceSize s.cfg sp →
      s.pending = .write sp a width v :: .read sp a width :: rest →
      ∃ t u, step s = .next t ∧ step t = .next u ∧ u.busData.toNat = v.toNat % 2 ^ width ∧ u.pending = rest ∧
        t.err = s.err ∧ t.models = s.models ∧ (sp ≠ .src → t.br = s.br) ∧
        ∀ sp' b, sp' ≠ .reg → (sp' ≠ sp ∨ b ≠ a) → (hostLoad t sp' b).1 = (hostLoad s sp' b).1)

/-- 20_memory.md R78: a host write to any byte of `SRC` clears `BR.valid`, and the next stream-reading command fails with
`ERR_BR_NOT_STARTED` until the host starts the reader again; then its bits are those of `SRC` with the write. And no step
but a successful `BR_START` makes the reader valid (10_state.md R25, R27). That `MODEL_RX` then
leaves its slot invalid and `CL` unspecified is the model's choice (log 27). -/
def Obligations.SourceWriteStopsTheReader : Prop :=
  (∀ (s : State) (a : Nat) (v : Word) (rest : List HostAction), s.activity = .idle → s.err = false →
    a < s.cfg.srcSize → s.pending = .write .src a 8 v :: rest →
    ∃ t, step s = .next t ∧ t.br.valid = false ∧ t.err = false ∧ t.pending = rest ∧
      Memory.read t.src a = some (v.setWidth 8) ∧ (∀ b, b ≠ a → Memory.read t.src b = Memory.read s.src b) ∧
      (∀ n, n ≤ 16 → exec (.getbits n) t = .next (t.withError 0x45 (wordOf 2 0 n))) ∧
      (∀ n, n ≤ 32 → exec (.readbits n) t = .next (t.withError 0x45 (wordOf 3 0 n))) ∧
      (∀ k, k < 8 → exec (.huffDecode k) t = .next (t.withError 0x45 (wordOf 5 k 0))) ∧
      (∀ k, k < 8 → ∃ u, exec (.modelRx k) t = .next u ∧ RejectedModelRx k 0x45 t u) ∧
      exec .unpackChunk t = .next (t.withError 0x45 (wordOf 7 0 0)) ∧
      exec .unpackRefgrp t = .next (t.withError 0x45 (wordOf 8 0 0)) ∧
      ∀ u, exec .brStart t = .next u → u.err = false → u.br.valid = true ∧ u.br.bitpos = 0 ∧
        ∀ p b, p / 8 < u.br.len.toNat → Memory.read t.src (u.br.base.toNat + p / 8) = some b →
          streamBit u p = .ok (b.toNat / 2 ^ (7 - p % 8) % 2)) ∧
  ∀ s t : State, step s = .next t → s.br.valid = false → t.br.valid = true →
    s.activity = .idle ∧ s.err = false ∧ t.err = false ∧ ∃ rest, s.pending = .write .reg 0 32 0x01000000 :: rest
end

