-- ==== Sys2Proof/Laws/Memory.lean ====
section
/-! SUPPORT. The laws of memories: what a read gives after a write, and that every operation keeps the canonical form and
the addresses in range. -/

namespace Sys2Proof.Machine

open Sys2Proof

variable {w : Nat}

/-! ### The canonical form as a statement about the list -/

theorem Memory.risesFrom_iff (a : Nat) (m : Memory w) :
    Memory.risesFrom a m = true ↔ (∀ e ∈ m, a < e.1) ∧ m.Pairwise (fun e f => e.1 < f.1) := by
  induction m generalizing a with
  | nil => simp [Memory.risesFrom]
  | cons e rest ih =>
    simp only [Memory.risesFrom, Bool.and_eq_true, decide_eq_true_eq, ih, List.mem_cons, forall_eq_or_imp,
      List.pairwise_cons]
    constructor
    · rintro ⟨h1, h2, h3⟩
      exact ⟨⟨h1, fun f hf => lt_trans h1 (h2 f hf)⟩, h2, h3⟩
    · rintro ⟨⟨h1, -⟩, h2, h3⟩
      exact ⟨h1, h2, h3⟩

/-- The canonical form says that addresses rise strictly along the list. -/
theorem Memory.wf_iff (m : Memory w) : Memory.wf m = true ↔ m.Pairwise (fun e f => e.1 < f.1) := by
  cases m with
  | nil => simp [Memory.wf]
  | cons e rest => simp [Memory.wf, Memory.risesFrom_iff, List.pairwise_cons]

theorem Memory.below_iff (m : Memory w) (size : Nat) : Memory.below m size = true ↔ ∀ e ∈ m, e.1 < size := by
  simp [Memory.below]

/-! ### Reading -/

@[simp] theorem Memory.read_nil (a : Nat) : Memory.read ([] : Memory w) a = none := rfl

theorem Memory.read_cons (e : Nat × BitVec w) (m : Memory w) (a : Nat) :
    Memory.read (e :: m) a = if e.1 = a then some e.2 else Memory.read m a := rfl

/-- An address that is not listed reads as no value. -/
theorem Memory.read_eq_none (m : Memory w) (a : Nat) (h : ∀ e ∈ m, e.1 ≠ a) : Memory.read m a = none := by
  induction m with
  | nil => rfl
  | cons e rest ih =>
    rw [Memory.read_cons, if_neg (h e (by simp))]
    exact ih fun f hf => h f (by simp [hf])

theorem Memory.read_append (m m' : Memory w) (a : Nat) :
    Memory.read (m ++ m') a = (Memory.read m a).or (Memory.read m' a) := by
  induction m with
  | nil => simp
  | cons e rest ih =>
    simp only [List.cons_append, Memory.read_cons, ih]
    split <;> simp

/-- A read after a write: the value written at its address, elsewhere what was there. -/
theorem Memory.read_write (m : Memory w) (a b : Nat) (v : BitVec w) :
    Memory.read (Memory.write m a v) b = if b = a then some v else Memory.read m b := by
  induction m with
  | nil =>
    simp only [Memory.write, Memory.read_cons, Memory.read_nil]
    split <;> split <;> simp_all
  | cons e rest ih =>
    simp only [Memory.write]
    split
    · simp only [Memory.read_cons]
      by_cases h : b = a
      · simp [h]
      · simp [h, Ne.symm h]
    · split
      · rename_i h1 h2
        simp only [Memory.read_cons, ← h2]
        by_cases h : b = a
        · simp [h]
        · simp [h, Ne.symm h]
      · rename_i h1 h2
        simp only [Memory.read_cons, ih]
        by_cases h : b = a
        · subst h
          simp [Ne.symm h2]
        · simp [h]

/-- A read after a run of writes. -/
theorem Memory.read_writeList (m : Memory w) (a b : Nat) (vs : List (BitVec w)) :
    Memory.read (Memory.writeList m a vs) b =
      if a ≤ b ∧ b < a + vs.length then vs[b - a]? else Memory.read m b := by
  induction vs generalizing m a with
  | nil =>
    rw [if_neg (by simp)]
    rfl
  | cons v rest ih =>
    rw [Memory.writeList, ih, Memory.read_write]
    by_cases h : b = a
    · subst h
      simp
    · by_cases h' : a + 1 ≤ b ∧ b < a + 1 + rest.length
      · rw [if_pos h', if_pos (by simp; omega), show b - a = (b - (a + 1)) + 1 by omega, List.getElem?_cons_succ]
      · rw [if_neg h', if_neg h, if_neg (by simp; omega)]

theorem Memory.read_forgetBelow (m : Memory w) (n a : Nat) :
    Memory.read (Memory.forgetBelow m n) a = if a < n then none else Memory.read m a := by
  induction m with
  | nil => simp [Memory.forgetBelow]
  | cons e rest ih =>
    simp only [Memory.forgetBelow, List.filter_cons] at *
    by_cases h : n ≤ e.1
    · simp only [h, decide_true, if_true, Memory.read_cons, ih]
      by_cases h' : e.1 = a
      · simp [h', show ¬ a < n by omega]
      · simp [h']
    · simp only [h, decide_false, Bool.false_eq_true, if_false, Memory.read_cons]
      rw [ih]
      by_cases h' : e.1 = a
      · simp [show a < n by omega]
      · simp [h']

theorem Memory.read_rangeMap (n a : Nat) (f : Nat → BitVec w) :
    Memory.read ((List.range n).map fun i => (i, f i)) a = if a < n then some (f a) else none := by
  induction n with
  | zero => rfl
  | succ n ih =>
    rw [List.range_succ, List.map_append, Memory.read_append, ih]
    simp only [List.map_cons, List.map_nil, Memory.read_cons, Memory.read_nil]
    by_cases h : a < n
    · simp [h, show a < n + 1 by omega]
    · by_cases h' : n = a
      · subst h'
        simp
      · simp [h, h', show ¬ a < n + 1 by omega]

/-- A read after a fill: the filled value below the bound, elsewhere what was there. -/
theorem Memory.read_fillBelow (m : Memory w) (n a : Nat) (f : Nat → BitVec w) :
    Memory.read (Memory.fillBelow m n f) a = if a < n then some (f a) else Memory.read m a := by
  rw [Memory.fillBelow, Memory.read_append, Memory.read_rangeMap, Memory.read_forgetBelow]
  split <;> simp

/-! ### Every operation keeps the canonical form -/

theorem Memory.mem_write (m : Memory w) (a : Nat) (v : BitVec w) (e : Nat × BitVec w)
    (h : e ∈ Memory.write m a v) : e = (a, v) ∨ e ∈ m := by
  induction m with
  | nil => simpa [Memory.write] using h
  | cons f rest ih =>
    simp only [Memory.write] at h
    split at h
    · simpa using h
    · split at h
      · rcases List.mem_cons.1 h with h | h
        · exact .inl h
        · exact .inr (by simp [h])
      · rcases List.mem_cons.1 h with h | h
        · exact .inr (by simp [h])
        · rcases ih h with h | h
          · exact .inl h
          · exact .inr (by simp [h])

theorem Memory.write_wf (m : Memory w) (a : Nat) (v : BitVec w) (h : Memory.wf m = true) :
    Memory.wf (Memory.write m a v) = true := by
  rw [Memory.wf_iff] at *
  induction m with
  | nil => simp [Memory.write]
  | cons e rest ih =>
    obtain ⟨h1, h2⟩ := List.pairwise_cons.1 h
    simp only [Memory.write]
    split
    · refine List.pairwise_cons.2 ⟨fun f hf => ?_, h⟩
      rcases List.mem_cons.1 hf with hf | hf
      · simp_all
      · exact lt_trans (by assumption) (h1 f hf)
    · split
      · rename_i h3 h4
        exact List.pairwise_cons.2 ⟨fun f hf => by simpa [h4] using h1 f hf, h2⟩
      · rename_i h3 h4
        refine List.pairwise_cons.2 ⟨fun f hf => ?_, ih h2⟩
        rcases Memory.mem_write rest a v f hf with hf | hf
        · subst hf
          simp only
          omega
        · exact h1 f hf

theorem Memory.writeList_wf (m : Memory w) (a : Nat) (vs : List (BitVec w)) (h : Memory.wf m = true) :
    Memory.wf (Memory.writeList m a vs) = true := by
  induction vs generalizing m a with
  | nil => exact h
  | cons v rest ih => exact ih _ _ (Memory.write_wf m a v h)

theorem Memory.forgetBelow_wf (m : Memory w) (n : Nat) (h : Memory.wf m = true) :
    Memory.wf (Memory.forgetBelow m n) = true := by
  rw [Memory.wf_iff] at *
  exact h.filter _

theorem Memory.fillBelow_wf (m : Memory w) (n : Nat) (f : Nat → BitVec w) (h : Memory.wf m = true) :
    Memory.wf (Memory.fillBelow m n f) = true := by
  have h' := Memory.forgetBelow_wf m n h
  rw [Memory.wf_iff] at *
  rw [Memory.fillBelow, List.pairwise_append]
  refine ⟨?_, h', fun e he g hg => ?_⟩
  · exact List.pairwise_map.2 (by simpa using List.pairwise_lt_range)
  · simp only [List.mem_map, List.mem_range] at he
    obtain ⟨i, hi, rfl⟩ := he
    simp only [Memory.forgetBelow, List.mem_filter, decide_eq_true_eq] at hg
    exact lt_of_lt_of_le hi hg.2

/-! ### Every operation keeps addresses in range -/

theorem Memory.write_below (m : Memory w) (a size : Nat) (v : BitVec w) (h : Memory.below m size = true)
    (ha : a < size) : Memory.below (Memory.write m a v) size = true := by
  rw [Memory.below_iff] at *
  intro e he
  rcases Memory.mem_write m a v e he with rfl | he
  · exact ha
  · exact h e he

theorem Memory.writeList_below (m : Memory w) (a size : Nat) (vs : List (BitVec w)) (h : Memory.below m size = true)
    (ha : a + vs.length ≤ size) : Memory.below (Memory.writeList m a vs) size = true := by
  induction vs generalizing m a with
  | nil => exact h
  | cons v rest ih =>
    simp only [List.length_cons] at ha
    exact ih _ _ (Memory.write_below m a size v h (by omega)) (by omega)

theorem Memory.forgetBelow_below (m : Memory w) (n size : Nat) (h : Memory.below m size = true) :
    Memory.below (Memory.forgetBelow m n) size = true := by
  rw [Memory.below_iff] at *
  exact fun e he => h e (List.mem_of_mem_filter he)

theorem Memory.fillBelow_below (m : Memory w) (n size : Nat) (f : Nat → BitVec w) (h : Memory.below m size = true)
    (hn : n ≤ size) : Memory.below (Memory.fillBelow m n f) size = true := by
  have h' := Memory.forgetBelow_below m n size h
  rw [Memory.below_iff] at *
  intro e he
  rcases List.mem_append.1 he with he | he
  · simp only [List.mem_map, List.mem_range] at he
    obtain ⟨i, hi, rfl⟩ := he
    exact lt_of_lt_of_le hi hn
  · exact h' e he

theorem freeLengths_wf (m : Memory 8) (k : Nat) (h : Memory.wf m = true) : Memory.wf (freeLengths m k) = true := by
  unfold freeLengths
  exact Memory.fillBelow_wf m _ _ h

theorem freeLengths_below (m : Memory 8) (k : Nat) (h : Memory.below m maxSyms = true) :
    Memory.below (freeLengths m k) maxSyms = true := by
  unfold freeLengths
  exact Memory.fillBelow_below m _ _ _ h le_rfl

/-- Every entry of the code-length memory is written after a scramble. -/
theorem freeLengths_read (m : Memory 8) (k a : Nat) (h : a < maxSyms) :
    Memory.read (freeLengths m k) a = some (BitVec.ofNat 8 (Config.free k a)) := by
  unfold freeLengths
  rw [Memory.read_fillBelow, if_pos h]

/-- The memories after reset are canonical. -/
theorem reset_memories_wf :
    Memory.wf State.reset.cl = true ∧ Memory.wf State.reset.ce = true ∧ Memory.wf State.reset.cs = true ∧
    Memory.wf State.reset.ae = true ∧ Memory.wf State.reset.aSel = true ∧ Memory.wf State.reset.src = true ∧
    Memory.wf State.reset.dst = true := ⟨rfl, rfl, rfl, rfl, rfl, rfl, rfl⟩

/-- What a core read of one entry can do. -/
theorem readEntry_ok (sp : Space) (m : Memory w) (a : Nat) (v : BitVec w) (h : readEntry sp m a = .ok v) :
    Memory.read m a = some v := by
  unfold readEntry at h
  split at h
  · cases h
    assumption
  · cases h

theorem readEntry_of_some (sp : Space) (m : Memory w) (a : Nat) (v : BitVec w) (h : Memory.read m a = some v) :
    readEntry sp m a = .ok v := by
  simp [readEntry, h]

end Sys2Proof.Machine
end

