-- ==== Sys2Proof/Laws/State.lean ====
section
/-! SUPPORT. What each update by name does to each field of the state, true by unfolding, so that no later proof unfolds
a record update. -/

namespace Sys2Proof.Machine

open Sys2Proof

variable (s : State)

@[simp] theorem State.setResult_cfg (v : Nat) : (s.setResult v).cfg = s.cfg := rfl
@[simp] theorem State.setResult_arg0 (v : Nat) : (s.setResult v).arg0 = s.arg0 := rfl
@[simp] theorem State.setResult_arg1 (v : Nat) : (s.setResult v).arg1 = s.arg1 := rfl
@[simp] theorem State.setResult_result (v : Nat) : (s.setResult v).result = BitVec.ofNat 32 v := rfl
@[simp] theorem State.setResult_err (v : Nat) : (s.setResult v).err = s.err := rfl
@[simp] theorem State.setResult_errCode (v : Nat) : (s.setResult v).errCode = s.errCode := rfl
@[simp] theorem State.setResult_errInfo (v : Nat) : (s.setResult v).errInfo = s.errInfo := rfl
@[simp] theorem State.setResult_format (v : Nat) : (s.setResult v).format = s.format := rfl
@[simp] theorem State.setResult_faces (v : Nat) : (s.setResult v).faces = s.faces := rfl
@[simp] theorem State.setResult_lvlW (v : Nat) : (s.setResult v).lvlW = s.lvlW := rfl
@[simp] theorem State.setResult_lvlH (v : Nat) : (s.setResult v).lvlH = s.lvlH := rfl
@[simp] theorem State.setResult_rowPitch (v : Nat) : (s.setResult v).rowPitch = s.rowPitch := rfl
@[simp] theorem State.setResult_dstSize (v : Nat) : (s.setResult v).dstSize = s.dstSize := rfl
@[simp] theorem State.setResult_ceCount (v : Nat) : (s.setResult v).ceCount = s.ceCount := rfl
@[simp] theorem State.setResult_csCount (v : Nat) : (s.setResult v).csCount = s.csCount := rfl
@[simp] theorem State.setResult_aeCount (v : Nat) : (s.setResult v).aeCount = s.aeCount := rfl
@[simp] theorem State.setResult_asCount (v : Nat) : (s.setResult v).asCount = s.asCount := rfl
@[simp] theorem State.setResult_clCount (v : Nat) : (s.setResult v).clCount = s.clCount := rfl
@[simp] theorem State.setResult_br (v : Nat) : (s.setResult v).br = s.br := rfl
@[simp] theorem State.setResult_models (v : Nat) : (s.setResult v).models = s.models := rfl
@[simp] theorem State.setResult_cl (v : Nat) : (s.setResult v).cl = s.cl := rfl
@[simp] theorem State.setResult_ce (v : Nat) : (s.setResult v).ce = s.ce := rfl
@[simp] theorem State.setResult_cs (v : Nat) : (s.setResult v).cs = s.cs := rfl
@[simp] theorem State.setResult_ae (v : Nat) : (s.setResult v).ae = s.ae := rfl
@[simp] theorem State.setResult_aSel (v : Nat) : (s.setResult v).aSel = s.aSel := rfl
@[simp] theorem State.setResult_src (v : Nat) : (s.setResult v).src = s.src := rfl
@[simp] theorem State.setResult_dst (v : Nat) : (s.setResult v).dst = s.dst := rfl
@[simp] theorem State.setResult_activity (v : Nat) : (s.setResult v).activity = s.activity := rfl
@[simp] theorem State.setResult_pending (v : Nat) : (s.setResult v).pending = s.pending := rfl
@[simp] theorem State.setResult_busData (v : Nat) : (s.setResult v).busData = s.busData := rfl
@[simp] theorem State.setResult_freeCtr (v : Nat) : (s.setResult v).freeCtr = s.freeCtr := rfl

@[simp] theorem State.advance_cfg (n : Nat) : (s.advance n).cfg = s.cfg := rfl
@[simp] theorem State.advance_arg0 (n : Nat) : (s.advance n).arg0 = s.arg0 := rfl
@[simp] theorem State.advance_arg1 (n : Nat) : (s.advance n).arg1 = s.arg1 := rfl
@[simp] theorem State.advance_result (n : Nat) : (s.advance n).result = s.result := rfl
@[simp] theorem State.advance_err (n : Nat) : (s.advance n).err = s.err := rfl
@[simp] theorem State.advance_errCode (n : Nat) : (s.advance n).errCode = s.errCode := rfl
@[simp] theorem State.advance_errInfo (n : Nat) : (s.advance n).errInfo = s.errInfo := rfl
@[simp] theorem State.advance_format (n : Nat) : (s.advance n).format = s.format := rfl
@[simp] theorem State.advance_faces (n : Nat) : (s.advance n).faces = s.faces := rfl
@[simp] theorem State.advance_lvlW (n : Nat) : (s.advance n).lvlW = s.lvlW := rfl
@[simp] theorem State.advance_lvlH (n : Nat) : (s.advance n).lvlH = s.lvlH := rfl
@[simp] theorem State.advance_rowPitch (n : Nat) : (s.advance n).rowPitch = s.rowPitch := rfl
@[simp] theorem State.advance_dstSize (n : Nat) : (s.advance n).dstSize = s.dstSize := rfl
@[simp] theorem State.advance_ceCount (n : Nat) : (s.advance n).ceCount = s.ceCount := rfl
@[simp] theorem State.advance_csCount (n : Nat) : (s.advance n).csCount = s.csCount := rfl
@[simp] theorem State.advance_aeCount (n : Nat) : (s.advance n).aeCount = s.aeCount := rfl
@[simp] theorem State.advance_asCount (n : Nat) : (s.advance n).asCount = s.asCount := rfl
@[simp] theorem State.advance_clCount (n : Nat) : (s.advance n).clCount = s.clCount := rfl
@[simp] theorem State.advance_br (n : Nat) : (s.advance n).br = { s.br with bitpos := s.br.bitpos + n } := rfl
@[simp] theorem State.advance_models (n : Nat) : (s.advance n).models = s.models := rfl
@[simp] theorem State.advance_cl (n : Nat) : (s.advance n).cl = s.cl := rfl
@[simp] theorem State.advance_ce (n : Nat) : (s.advance n).ce = s.ce := rfl
@[simp] theorem State.advance_cs (n : Nat) : (s.advance n).cs = s.cs := rfl
@[simp] theorem State.advance_ae (n : Nat) : (s.advance n).ae = s.ae := rfl
@[simp] theorem State.advance_aSel (n : Nat) : (s.advance n).aSel = s.aSel := rfl
@[simp] theorem State.advance_src (n : Nat) : (s.advance n).src = s.src := rfl
@[simp] theorem State.advance_dst (n : Nat) : (s.advance n).dst = s.dst := rfl
@[simp] theorem State.advance_activity (n : Nat) : (s.advance n).activity = s.activity := rfl
@[simp] theorem State.advance_pending (n : Nat) : (s.advance n).pending = s.pending := rfl
@[simp] theorem State.advance_busData (n : Nat) : (s.advance n).busData = s.busData := rfl
@[simp] theorem State.advance_freeCtr (n : Nat) : (s.advance n).freeCtr = s.freeCtr := rfl

@[simp] theorem State.setModel_cfg (k : Nat) (m : Option Model) : (s.setModel k m).cfg = s.cfg := rfl
@[simp] theorem State.setModel_arg0 (k : Nat) (m : Option Model) : (s.setModel k m).arg0 = s.arg0 := rfl
@[simp] theorem State.setModel_arg1 (k : Nat) (m : Option Model) : (s.setModel k m).arg1 = s.arg1 := rfl
@[simp] theorem State.setModel_result (k : Nat) (m : Option Model) : (s.setModel k m).result = s.result := rfl
@[simp] theorem State.setModel_err (k : Nat) (m : Option Model) : (s.setModel k m).err = s.err := rfl
@[simp] theorem State.setModel_errCode (k : Nat) (m : Option Model) : (s.setModel k m).errCode = s.errCode := rfl
@[simp] theorem State.setModel_errInfo (k : Nat) (m : Option Model) : (s.setModel k m).errInfo = s.errInfo := rfl
@[simp] theorem State.setModel_format (k : Nat) (m : Option Model) : (s.setModel k m).format = s.format := rfl
@[simp] theorem State.setModel_faces (k : Nat) (m : Option Model) : (s.setModel k m).faces = s.faces := rfl
@[simp] theorem State.setModel_lvlW (k : Nat) (m : Option Model) : (s.setModel k m).lvlW = s.lvlW := rfl
@[simp] theorem State.setModel_lvlH (k : Nat) (m : Option Model) : (s.setModel k m).lvlH = s.lvlH := rfl
@[simp] theorem State.setModel_rowPitch (k : Nat) (m : Option Model) : (s.setModel k m).rowPitch = s.rowPitch := rfl
@[simp] theorem State.setModel_dstSize (k : Nat) (m : Option Model) : (s.setModel k m).dstSize = s.dstSize := rfl
@[simp] theorem State.setModel_ceCount (k : Nat) (m : Option Model) : (s.setModel k m).ceCount = s.ceCount := rfl
@[simp] theorem State.setModel_csCount (k : Nat) (m : Option Model) : (s.setModel k m).csCount = s.csCount := rfl
@[simp] theorem State.setModel_aeCount (k : Nat) (m : Option Model) : (s.setModel k m).aeCount = s.aeCount := rfl
@[simp] theorem State.setModel_asCount (k : Nat) (m : Option Model) : (s.setModel k m).asCount = s.asCount := rfl
@[simp] theorem State.setModel_clCount (k : Nat) (m : Option Model) : (s.setModel k m).clCount = s.clCount := rfl
@[simp] theorem State.setModel_br (k : Nat) (m : Option Model) : (s.setModel k m).br = s.br := rfl
@[simp] theorem State.setModel_models (k : Nat) (m : Option Model) : (s.setModel k m).models = s.models.setIfInBounds k m := rfl
@[simp] theorem State.setModel_cl (k : Nat) (m : Option Model) : (s.setModel k m).cl = s.cl := rfl
@[simp] theorem State.setModel_ce (k : Nat) (m : Option Model) : (s.setModel k m).ce = s.ce := rfl
@[simp] theorem State.setModel_cs (k : Nat) (m : Option Model) : (s.setModel k m).cs = s.cs := rfl
@[simp] theorem State.setModel_ae (k : Nat) (m : Option Model) : (s.setModel k m).ae = s.ae := rfl
@[simp] theorem State.setModel_aSel (k : Nat) (m : Option Model) : (s.setModel k m).aSel = s.aSel := rfl
@[simp] theorem State.setModel_src (k : Nat) (m : Option Model) : (s.setModel k m).src = s.src := rfl
@[simp] theorem State.setModel_dst (k : Nat) (m : Option Model) : (s.setModel k m).dst = s.dst := rfl
@[simp] theorem State.setModel_activity (k : Nat) (m : Option Model) : (s.setModel k m).activity = s.activity := rfl
@[simp] theorem State.setModel_pending (k : Nat) (m : Option Model) : (s.setModel k m).pending = s.pending := rfl
@[simp] theorem State.setModel_busData (k : Nat) (m : Option Model) : (s.setModel k m).busData = s.busData := rfl
@[simp] theorem State.setModel_freeCtr (k : Nat) (m : Option Model) : (s.setModel k m).freeCtr = s.freeCtr := rfl

@[simp] theorem State.setActivity_cfg (a : Activity) : (s.setActivity a).cfg = s.cfg := rfl
@[simp] theorem State.setActivity_arg0 (a : Activity) : (s.setActivity a).arg0 = s.arg0 := rfl
@[simp] theorem State.setActivity_arg1 (a : Activity) : (s.setActivity a).arg1 = s.arg1 := rfl
@[simp] theorem State.setActivity_result (a : Activity) : (s.setActivity a).result = s.result := rfl
@[simp] theorem State.setActivity_err (a : Activity) : (s.setActivity a).err = s.err := rfl
@[simp] theorem State.setActivity_errCode (a : Activity) : (s.setActivity a).errCode = s.errCode := rfl
@[simp] theorem State.setActivity_errInfo (a : Activity) : (s.setActivity a).errInfo = s.errInfo := rfl
@[simp] theorem State.setActivity_format (a : Activity) : (s.setActivity a).format = s.format := rfl
@[simp] theorem State.setActivity_faces (a : Activity) : (s.setActivity a).faces = s.faces := rfl
@[simp] theorem State.setActivity_lvlW (a : Activity) : (s.setActivity a).lvlW = s.lvlW := rfl
@[simp] theorem State.setActivity_lvlH (a : Activity) : (s.setActivity a).lvlH = s.lvlH := rfl
@[simp] theorem State.setActivity_rowPitch (a : Activity) : (s.setActivity a).rowPitch = s.rowPitch := rfl
@[simp] theorem State.setActivity_dstSize (a : Activity) : (s.setActivity a).dstSize = s.dstSize := rfl
@[simp] theorem State.setActivity_ceCount (a : Activity) : (s.setActivity a).ceCount = s.ceCount := rfl
@[simp] theorem State.setActivity_csCount (a : Activity) : (s.setActivity a).csCount = s.csCount := rfl
@[simp] theorem State.setActivity_aeCount (a : Activity) : (s.setActivity a).aeCount = s.aeCount := rfl
@[simp] theorem State.setActivity_asCount (a : Activity) : (s.setActivity a).asCount = s.asCount := rfl
@[simp] theorem State.setActivity_clCount (a : Activity) : (s.setActivity a).clCount = s.clCount := rfl
@[simp] theorem State.setActivity_br (a : Activity) : (s.setActivity a).br = s.br := rfl
@[simp] theorem State.setActivity_models (a : Activity) : (s.setActivity a).models = s.models := rfl
@[simp] theorem State.setActivity_cl (a : Activity) : (s.setActivity a).cl = s.cl := rfl
@[simp] theorem State.setActivity_ce (a : Activity) : (s.setActivity a).ce = s.ce := rfl
@[simp] theorem State.setActivity_cs (a : Activity) : (s.setActivity a).cs = s.cs := rfl
@[simp] theorem State.setActivity_ae (a : Activity) : (s.setActivity a).ae = s.ae := rfl
@[simp] theorem State.setActivity_aSel (a : Activity) : (s.setActivity a).aSel = s.aSel := rfl
@[simp] theorem State.setActivity_src (a : Activity) : (s.setActivity a).src = s.src := rfl
@[simp] theorem State.setActivity_dst (a : Activity) : (s.setActivity a).dst = s.dst := rfl
@[simp] theorem State.setActivity_activity (a : Activity) : (s.setActivity a).activity = a := rfl
@[simp] theorem State.setActivity_pending (a : Activity) : (s.setActivity a).pending = s.pending := rfl
@[simp] theorem State.setActivity_busData (a : Activity) : (s.setActivity a).busData = s.busData := rfl
@[simp] theorem State.setActivity_freeCtr (a : Activity) : (s.setActivity a).freeCtr = s.freeCtr := rfl

@[simp] theorem State.setCl_cfg (m : Memory 8) : (s.setCl m).cfg = s.cfg := rfl
@[simp] theorem State.setCl_arg0 (m : Memory 8) : (s.setCl m).arg0 = s.arg0 := rfl
@[simp] theorem State.setCl_arg1 (m : Memory 8) : (s.setCl m).arg1 = s.arg1 := rfl
@[simp] theorem State.setCl_result (m : Memory 8) : (s.setCl m).result = s.result := rfl
@[simp] theorem State.setCl_err (m : Memory 8) : (s.setCl m).err = s.err := rfl
@[simp] theorem State.setCl_errCode (m : Memory 8) : (s.setCl m).errCode = s.errCode := rfl
@[simp] theorem State.setCl_errInfo (m : Memory 8) : (s.setCl m).errInfo = s.errInfo := rfl
@[simp] theorem State.setCl_format (m : Memory 8) : (s.setCl m).format = s.format := rfl
@[simp] theorem State.setCl_faces (m : Memory 8) : (s.setCl m).faces = s.faces := rfl
@[simp] theorem State.setCl_lvlW (m : Memory 8) : (s.setCl m).lvlW = s.lvlW := rfl
@[simp] theorem State.setCl_lvlH (m : Memory 8) : (s.setCl m).lvlH = s.lvlH := rfl
@[simp] theorem State.setCl_rowPitch (m : Memory 8) : (s.setCl m).rowPitch = s.rowPitch := rfl
@[simp] theorem State.setCl_dstSize (m : Memory 8) : (s.setCl m).dstSize = s.dstSize := rfl
@[simp] theorem State.setCl_ceCount (m : Memory 8) : (s.setCl m).ceCount = s.ceCount := rfl
@[simp] theorem State.setCl_csCount (m : Memory 8) : (s.setCl m).csCount = s.csCount := rfl
@[simp] theorem State.setCl_aeCount (m : Memory 8) : (s.setCl m).aeCount = s.aeCount := rfl
@[simp] theorem State.setCl_asCount (m : Memory 8) : (s.setCl m).asCount = s.asCount := rfl
@[simp] theorem State.setCl_clCount (m : Memory 8) : (s.setCl m).clCount = s.clCount := rfl
@[simp] theorem State.setCl_br (m : Memory 8) : (s.setCl m).br = s.br := rfl
@[simp] theorem State.setCl_models (m : Memory 8) : (s.setCl m).models = s.models := rfl
@[simp] theorem State.setCl_cl (m : Memory 8) : (s.setCl m).cl = m := rfl
@[simp] theorem State.setCl_ce (m : Memory 8) : (s.setCl m).ce = s.ce := rfl
@[simp] theorem State.setCl_cs (m : Memory 8) : (s.setCl m).cs = s.cs := rfl
@[simp] theorem State.setCl_ae (m : Memory 8) : (s.setCl m).ae = s.ae := rfl
@[simp] theorem State.setCl_aSel (m : Memory 8) : (s.setCl m).aSel = s.aSel := rfl
@[simp] theorem State.setCl_src (m : Memory 8) : (s.setCl m).src = s.src := rfl
@[simp] theorem State.setCl_dst (m : Memory 8) : (s.setCl m).dst = s.dst := rfl
@[simp] theorem State.setCl_activity (m : Memory 8) : (s.setCl m).activity = s.activity := rfl
@[simp] theorem State.setCl_pending (m : Memory 8) : (s.setCl m).pending = s.pending := rfl
@[simp] theorem State.setCl_busData (m : Memory 8) : (s.setCl m).busData = s.busData := rfl
@[simp] theorem State.setCl_freeCtr (m : Memory 8) : (s.setCl m).freeCtr = s.freeCtr := rfl

@[simp] theorem State.setDst_cfg (m : Memory 8) : (s.setDst m).cfg = s.cfg := rfl
@[simp] theorem State.setDst_arg0 (m : Memory 8) : (s.setDst m).arg0 = s.arg0 := rfl
@[simp] theorem State.setDst_arg1 (m : Memory 8) : (s.setDst m).arg1 = s.arg1 := rfl
@[simp] theorem State.setDst_result (m : Memory 8) : (s.setDst m).result = s.result := rfl
@[simp] theorem State.setDst_err (m : Memory 8) : (s.setDst m).err = s.err := rfl
@[simp] theorem State.setDst_errCode (m : Memory 8) : (s.setDst m).errCode = s.errCode := rfl
@[simp] theorem State.setDst_errInfo (m : Memory 8) : (s.setDst m).errInfo = s.errInfo := rfl
@[simp] theorem State.setDst_format (m : Memory 8) : (s.setDst m).format = s.format := rfl
@[simp] theorem State.setDst_faces (m : Memory 8) : (s.setDst m).faces = s.faces := rfl
@[simp] theorem State.setDst_lvlW (m : Memory 8) : (s.setDst m).lvlW = s.lvlW := rfl
@[simp] theorem State.setDst_lvlH (m : Memory 8) : (s.setDst m).lvlH = s.lvlH := rfl
@[simp] theorem State.setDst_rowPitch (m : Memory 8) : (s.setDst m).rowPitch = s.rowPitch := rfl
@[simp] theorem State.setDst_dstSize (m : Memory 8) : (s.setDst m).dstSize = s.dstSize := rfl
@[simp] theorem State.setDst_ceCount (m : Memory 8) : (s.setDst m).ceCount = s.ceCount := rfl
@[simp] theorem State.setDst_csCount (m : Memory 8) : (s.setDst m).csCount = s.csCount := rfl
@[simp] theorem State.setDst_aeCount (m : Memory 8) : (s.setDst m).aeCount = s.aeCount := rfl
@[simp] theorem State.setDst_asCount (m : Memory 8) : (s.setDst m).asCount = s.asCount := rfl
@[simp] theorem State.setDst_clCount (m : Memory 8) : (s.setDst m).clCount = s.clCount := rfl
@[simp] theorem State.setDst_br (m : Memory 8) : (s.setDst m).br = s.br := rfl
@[simp] theorem State.setDst_models (m : Memory 8) : (s.setDst m).models = s.models := rfl
@[simp] theorem State.setDst_cl (m : Memory 8) : (s.setDst m).cl = s.cl := rfl
@[simp] theorem State.setDst_ce (m : Memory 8) : (s.setDst m).ce = s.ce := rfl
@[simp] theorem State.setDst_cs (m : Memory 8) : (s.setDst m).cs = s.cs := rfl
@[simp] theorem State.setDst_ae (m : Memory 8) : (s.setDst m).ae = s.ae := rfl
@[simp] theorem State.setDst_aSel (m : Memory 8) : (s.setDst m).aSel = s.aSel := rfl
@[simp] theorem State.setDst_src (m : Memory 8) : (s.setDst m).src = s.src := rfl
@[simp] theorem State.setDst_dst (m : Memory 8) : (s.setDst m).dst = m := rfl
@[simp] theorem State.setDst_activity (m : Memory 8) : (s.setDst m).activity = s.activity := rfl
@[simp] theorem State.setDst_pending (m : Memory 8) : (s.setDst m).pending = s.pending := rfl
@[simp] theorem State.setDst_busData (m : Memory 8) : (s.setDst m).busData = s.busData := rfl
@[simp] theorem State.setDst_freeCtr (m : Memory 8) : (s.setDst m).freeCtr = s.freeCtr := rfl

@[simp] theorem State.raiseError_cfg (w : Word) (c : ErrCode) : (s.raiseError w c).cfg = s.cfg := rfl
@[simp] theorem State.raiseError_arg0 (w : Word) (c : ErrCode) : (s.raiseError w c).arg0 = s.arg0 := rfl
@[simp] theorem State.raiseError_arg1 (w : Word) (c : ErrCode) : (s.raiseError w c).arg1 = s.arg1 := rfl
@[simp] theorem State.raiseError_result (w : Word) (c : ErrCode) : (s.raiseError w c).result = s.result := rfl
@[simp] theorem State.raiseError_err (w : Word) (c : ErrCode) : (s.raiseError w c).err = true := rfl
@[simp] theorem State.raiseError_errCode (w : Word) (c : ErrCode) : (s.raiseError w c).errCode = c.code := rfl
@[simp] theorem State.raiseError_errInfo (w : Word) (c : ErrCode) : (s.raiseError w c).errInfo = w := rfl
@[simp] theorem State.raiseError_format (w : Word) (c : ErrCode) : (s.raiseError w c).format = s.format := rfl
@[simp] theorem State.raiseError_faces (w : Word) (c : ErrCode) : (s.raiseError w c).faces = s.faces := rfl
@[simp] theorem State.raiseError_lvlW (w : Word) (c : ErrCode) : (s.raiseError w c).lvlW = s.lvlW := rfl
@[simp] theorem State.raiseError_lvlH (w : Word) (c : ErrCode) : (s.raiseError w c).lvlH = s.lvlH := rfl
@[simp] theorem State.raiseError_rowPitch (w : Word) (c : ErrCode) : (s.raiseError w c).rowPitch = s.rowPitch := rfl
@[simp] theorem State.raiseError_dstSize (w : Word) (c : ErrCode) : (s.raiseError w c).dstSize = s.dstSize := rfl
@[simp] theorem State.raiseError_ceCount (w : Word) (c : ErrCode) : (s.raiseError w c).ceCount = s.ceCount := rfl
@[simp] theorem State.raiseError_csCount (w : Word) (c : ErrCode) : (s.raiseError w c).csCount = s.csCount := rfl
@[simp] theorem State.raiseError_aeCount (w : Word) (c : ErrCode) : (s.raiseError w c).aeCount = s.aeCount := rfl
@[simp] theorem State.raiseError_asCount (w : Word) (c : ErrCode) : (s.raiseError w c).asCount = s.asCount := rfl
@[simp] theorem State.raiseError_clCount (w : Word) (c : ErrCode) : (s.raiseError w c).clCount = s.clCount := rfl
@[simp] theorem State.raiseError_br (w : Word) (c : ErrCode) : (s.raiseError w c).br = s.br := rfl
@[simp] theorem State.raiseError_models (w : Word) (c : ErrCode) : (s.raiseError w c).models = s.models := rfl
@[simp] theorem State.raiseError_cl (w : Word) (c : ErrCode) : (s.raiseError w c).cl = s.cl := rfl
@[simp] theorem State.raiseError_ce (w : Word) (c : ErrCode) : (s.raiseError w c).ce = s.ce := rfl
@[simp] theorem State.raiseError_cs (w : Word) (c : ErrCode) : (s.raiseError w c).cs = s.cs := rfl
@[simp] theorem State.raiseError_ae (w : Word) (c : ErrCode) : (s.raiseError w c).ae = s.ae := rfl
@[simp] theorem State.raiseError_aSel (w : Word) (c : ErrCode) : (s.raiseError w c).aSel = s.aSel := rfl
@[simp] theorem State.raiseError_src (w : Word) (c : ErrCode) : (s.raiseError w c).src = s.src := rfl
@[simp] theorem State.raiseError_dst (w : Word) (c : ErrCode) : (s.raiseError w c).dst = s.dst := rfl
@[simp] theorem State.raiseError_activity (w : Word) (c : ErrCode) : (s.raiseError w c).activity = s.activity := rfl
@[simp] theorem State.raiseError_pending (w : Word) (c : ErrCode) : (s.raiseError w c).pending = s.pending := rfl
@[simp] theorem State.raiseError_busData (w : Word) (c : ErrCode) : (s.raiseError w c).busData = s.busData := rfl
@[simp] theorem State.raiseError_freeCtr (w : Word) (c : ErrCode) : (s.raiseError w c).freeCtr = s.freeCtr := rfl

@[simp] theorem State.clearError_cfg : s.clearError.cfg = s.cfg := rfl
@[simp] theorem State.clearError_arg0 : s.clearError.arg0 = s.arg0 := rfl
@[simp] theorem State.clearError_arg1 : s.clearError.arg1 = s.arg1 := rfl
@[simp] theorem State.clearError_result : s.clearError.result = s.result := rfl
@[simp] theorem State.clearError_err : s.clearError.err = false := rfl
@[simp] theorem State.clearError_errCode : s.clearError.errCode = 0 := rfl
@[simp] theorem State.clearError_errInfo : s.clearError.errInfo = 0 := rfl
@[simp] theorem State.clearError_format : s.clearError.format = s.format := rfl
@[simp] theorem State.clearError_faces : s.clearError.faces = s.faces := rfl
@[simp] theorem State.clearError_lvlW : s.clearError.lvlW = s.lvlW := rfl
@[simp] theorem State.clearError_lvlH : s.clearError.lvlH = s.lvlH := rfl
@[simp] theorem State.clearError_rowPitch : s.clearError.rowPitch = s.rowPitch := rfl
@[simp] theorem State.clearError_dstSize : s.clearError.dstSize = s.dstSize := rfl
@[simp] theorem State.clearError_ceCount : s.clearError.ceCount = s.ceCount := rfl
@[simp] theorem State.clearError_csCount : s.clearError.csCount = s.csCount := rfl
@[simp] theorem State.clearError_aeCount : s.clearError.aeCount = s.aeCount := rfl
@[simp] theorem State.clearError_asCount : s.clearError.asCount = s.asCount := rfl
@[simp] theorem State.clearError_clCount : s.clearError.clCount = s.clCount := rfl
@[simp] theorem State.clearError_br : s.clearError.br = s.br := rfl
@[simp] theorem State.clearError_models : s.clearError.models = s.models := rfl
@[simp] theorem State.clearError_cl : s.clearError.cl = s.cl := rfl
@[simp] theorem State.clearError_ce : s.clearError.ce = s.ce := rfl
@[simp] theorem State.clearError_cs : s.clearError.cs = s.cs := rfl
@[simp] theorem State.clearError_ae : s.clearError.ae = s.ae := rfl
@[simp] theorem State.clearError_aSel : s.clearError.aSel = s.aSel := rfl
@[simp] theorem State.clearError_src : s.clearError.src = s.src := rfl
@[simp] theorem State.clearError_dst : s.clearError.dst = s.dst := rfl
@[simp] theorem State.clearError_activity : s.clearError.activity = s.activity := rfl
@[simp] theorem State.clearError_pending : s.clearError.pending = s.pending := rfl
@[simp] theorem State.clearError_busData : s.clearError.busData = s.busData := rfl
@[simp] theorem State.clearError_freeCtr : s.clearError.freeCtr = s.freeCtr := rfl

@[simp] theorem State.useFree_cfg : s.useFree.cfg = s.cfg := rfl
@[simp] theorem State.useFree_arg0 : s.useFree.arg0 = s.arg0 := rfl
@[simp] theorem State.useFree_arg1 : s.useFree.arg1 = s.arg1 := rfl
@[simp] theorem State.useFree_result : s.useFree.result = s.result := rfl
@[simp] theorem State.useFree_err : s.useFree.err = s.err := rfl
@[simp] theorem State.useFree_errCode : s.useFree.errCode = s.errCode := rfl
@[simp] theorem State.useFree_errInfo : s.useFree.errInfo = s.errInfo := rfl
@[simp] theorem State.useFree_format : s.useFree.format = s.format := rfl
@[simp] theorem State.useFree_faces : s.useFree.faces = s.faces := rfl
@[simp] theorem State.useFree_lvlW : s.useFree.lvlW = s.lvlW := rfl
@[simp] theorem State.useFree_lvlH : s.useFree.lvlH = s.lvlH := rfl
@[simp] theorem State.useFree_rowPitch : s.useFree.rowPitch = s.rowPitch := rfl
@[simp] theorem State.useFree_dstSize : s.useFree.dstSize = s.dstSize := rfl
@[simp] theorem State.useFree_ceCount : s.useFree.ceCount = s.ceCount := rfl
@[simp] theorem State.useFree_csCount : s.useFree.csCount = s.csCount := rfl
@[simp] theorem State.useFree_aeCount : s.useFree.aeCount = s.aeCount := rfl
@[simp] theorem State.useFree_asCount : s.useFree.asCount = s.asCount := rfl
@[simp] theorem State.useFree_clCount : s.useFree.clCount = s.clCount := rfl
@[simp] theorem State.useFree_br : s.useFree.br = s.br := rfl
@[simp] theorem State.useFree_models : s.useFree.models = s.models := rfl
@[simp] theorem State.useFree_cl : s.useFree.cl = s.cl := rfl
@[simp] theorem State.useFree_ce : s.useFree.ce = s.ce := rfl
@[simp] theorem State.useFree_cs : s.useFree.cs = s.cs := rfl
@[simp] theorem State.useFree_ae : s.useFree.ae = s.ae := rfl
@[simp] theorem State.useFree_aSel : s.useFree.aSel = s.aSel := rfl
@[simp] theorem State.useFree_src : s.useFree.src = s.src := rfl
@[simp] theorem State.useFree_dst : s.useFree.dst = s.dst := rfl
@[simp] theorem State.useFree_activity : s.useFree.activity = s.activity := rfl
@[simp] theorem State.useFree_pending : s.useFree.pending = s.pending := rfl
@[simp] theorem State.useFree_busData : s.useFree.busData = s.busData := rfl
@[simp] theorem State.useFree_freeCtr : s.useFree.freeCtr = s.freeCtr + 1 := rfl

@[simp] theorem State.poison_cfg : s.poison.cfg = s.cfg := rfl
@[simp] theorem State.poison_arg0 : s.poison.arg0 = s.arg0 := rfl
@[simp] theorem State.poison_arg1 : s.poison.arg1 = s.arg1 := rfl
@[simp] theorem State.poison_result : s.poison.result = s.result := rfl
@[simp] theorem State.poison_err : s.poison.err = s.err := rfl
@[simp] theorem State.poison_errCode : s.poison.errCode = s.errCode := rfl
@[simp] theorem State.poison_errInfo : s.poison.errInfo = s.errInfo := rfl
@[simp] theorem State.poison_format : s.poison.format = s.format := rfl
@[simp] theorem State.poison_faces : s.poison.faces = s.faces := rfl
@[simp] theorem State.poison_lvlW : s.poison.lvlW = s.lvlW := rfl
@[simp] theorem State.poison_lvlH : s.poison.lvlH = s.lvlH := rfl
@[simp] theorem State.poison_rowPitch : s.poison.rowPitch = s.rowPitch := rfl
@[simp] theorem State.poison_dstSize : s.poison.dstSize = s.dstSize := rfl
@[simp] theorem State.poison_ceCount : s.poison.ceCount = s.ceCount := rfl
@[simp] theorem State.poison_csCount : s.poison.csCount = s.csCount := rfl
@[simp] theorem State.poison_aeCount : s.poison.aeCount = s.aeCount := rfl
@[simp] theorem State.poison_asCount : s.poison.asCount = s.asCount := rfl
@[simp] theorem State.poison_clCount : s.poison.clCount = s.clCount := rfl
@[simp] theorem State.poison_br : s.poison.br = { s.br with valid := false, atReset := false, bitpos := Config.free s.freeCtr 0 } := rfl
@[simp] theorem State.poison_models : s.poison.models = s.models := rfl
@[simp] theorem State.poison_cl : s.poison.cl = s.cl := rfl
@[simp] theorem State.poison_ce : s.poison.ce = s.ce := rfl
@[simp] theorem State.poison_cs : s.poison.cs = s.cs := rfl
@[simp] theorem State.poison_ae : s.poison.ae = s.ae := rfl
@[simp] theorem State.poison_aSel : s.poison.aSel = s.aSel := rfl
@[simp] theorem State.poison_src : s.poison.src = s.src := rfl
@[simp] theorem State.poison_dst : s.poison.dst = s.dst := rfl
@[simp] theorem State.poison_activity : s.poison.activity = s.activity := rfl
@[simp] theorem State.poison_pending : s.poison.pending = s.pending := rfl
@[simp] theorem State.poison_busData : s.poison.busData = s.busData := rfl
@[simp] theorem State.poison_freeCtr : s.poison.freeCtr = s.freeCtr + 1 := rfl

@[simp] theorem State.scrambleCl_cfg : s.scrambleCl.cfg = s.cfg := rfl
@[simp] theorem State.scrambleCl_arg0 : s.scrambleCl.arg0 = s.arg0 := rfl
@[simp] theorem State.scrambleCl_arg1 : s.scrambleCl.arg1 = s.arg1 := rfl
@[simp] theorem State.scrambleCl_result : s.scrambleCl.result = s.result := rfl
@[simp] theorem State.scrambleCl_err : s.scrambleCl.err = s.err := rfl
@[simp] theorem State.scrambleCl_errCode : s.scrambleCl.errCode = s.errCode := rfl
@[simp] theorem State.scrambleCl_errInfo : s.scrambleCl.errInfo = s.errInfo := rfl
@[simp] theorem State.scrambleCl_format : s.scrambleCl.format = s.format := rfl
@[simp] theorem State.scrambleCl_faces : s.scrambleCl.faces = s.faces := rfl
@[simp] theorem State.scrambleCl_lvlW : s.scrambleCl.lvlW = s.lvlW := rfl
@[simp] theorem State.scrambleCl_lvlH : s.scrambleCl.lvlH = s.lvlH := rfl
@[simp] theorem State.scrambleCl_rowPitch : s.scrambleCl.rowPitch = s.rowPitch := rfl
@[simp] theorem State.scrambleCl_dstSize : s.scrambleCl.dstSize = s.dstSize := rfl
@[simp] theorem State.scrambleCl_ceCount : s.scrambleCl.ceCount = s.ceCount := rfl
@[simp] theorem State.scrambleCl_csCount : s.scrambleCl.csCount = s.csCount := rfl
@[simp] theorem State.scrambleCl_aeCount : s.scrambleCl.aeCount = s.aeCount := rfl
@[simp] theorem State.scrambleCl_asCount : s.scrambleCl.asCount = s.asCount := rfl
@[simp] theorem State.scrambleCl_clCount : s.scrambleCl.clCount = s.clCount := rfl
@[simp] theorem State.scrambleCl_br : s.scrambleCl.br = s.br := rfl
@[simp] theorem State.scrambleCl_models : s.scrambleCl.models = s.models := rfl
@[simp] theorem State.scrambleCl_cl : s.scrambleCl.cl = freeLengths s.cl s.freeCtr := rfl
@[simp] theorem State.scrambleCl_ce : s.scrambleCl.ce = s.ce := rfl
@[simp] theorem State.scrambleCl_cs : s.scrambleCl.cs = s.cs := rfl
@[simp] theorem State.scrambleCl_ae : s.scrambleCl.ae = s.ae := rfl
@[simp] theorem State.scrambleCl_aSel : s.scrambleCl.aSel = s.aSel := rfl
@[simp] theorem State.scrambleCl_src : s.scrambleCl.src = s.src := rfl
@[simp] theorem State.scrambleCl_dst : s.scrambleCl.dst = s.dst := rfl
@[simp] theorem State.scrambleCl_activity : s.scrambleCl.activity = s.activity := rfl
@[simp] theorem State.scrambleCl_pending : s.scrambleCl.pending = s.pending := rfl
@[simp] theorem State.scrambleCl_busData : s.scrambleCl.busData = s.busData := rfl
@[simp] theorem State.scrambleCl_freeCtr : s.scrambleCl.freeCtr = s.freeCtr + 1 := rfl

@[simp] theorem State.forgetFaces_cfg : s.forgetFaces.cfg = s.cfg := rfl
@[simp] theorem State.forgetFaces_arg0 : s.forgetFaces.arg0 = s.arg0 := rfl
@[simp] theorem State.forgetFaces_arg1 : s.forgetFaces.arg1 = s.arg1 := rfl
@[simp] theorem State.forgetFaces_result : s.forgetFaces.result = s.result := rfl
@[simp] theorem State.forgetFaces_err : s.forgetFaces.err = s.err := rfl
@[simp] theorem State.forgetFaces_errCode : s.forgetFaces.errCode = s.errCode := rfl
@[simp] theorem State.forgetFaces_errInfo : s.forgetFaces.errInfo = s.errInfo := rfl
@[simp] theorem State.forgetFaces_format : s.forgetFaces.format = s.format := rfl
@[simp] theorem State.forgetFaces_faces : s.forgetFaces.faces = s.faces := rfl
@[simp] theorem State.forgetFaces_lvlW : s.forgetFaces.lvlW = s.lvlW := rfl
@[simp] theorem State.forgetFaces_lvlH : s.forgetFaces.lvlH = s.lvlH := rfl
@[simp] theorem State.forgetFaces_rowPitch : s.forgetFaces.rowPitch = s.rowPitch := rfl
@[simp] theorem State.forgetFaces_dstSize : s.forgetFaces.dstSize = s.dstSize := rfl
@[simp] theorem State.forgetFaces_ceCount : s.forgetFaces.ceCount = s.ceCount := rfl
@[simp] theorem State.forgetFaces_csCount : s.forgetFaces.csCount = s.csCount := rfl
@[simp] theorem State.forgetFaces_aeCount : s.forgetFaces.aeCount = s.aeCount := rfl
@[simp] theorem State.forgetFaces_asCount : s.forgetFaces.asCount = s.asCount := rfl
@[simp] theorem State.forgetFaces_clCount : s.forgetFaces.clCount = s.clCount := rfl
@[simp] theorem State.forgetFaces_br : s.forgetFaces.br = s.br := rfl
@[simp] theorem State.forgetFaces_models : s.forgetFaces.models = s.models := rfl
@[simp] theorem State.forgetFaces_cl : s.forgetFaces.cl = s.cl := rfl
@[simp] theorem State.forgetFaces_ce : s.forgetFaces.ce = s.ce := rfl
@[simp] theorem State.forgetFaces_cs : s.forgetFaces.cs = s.cs := rfl
@[simp] theorem State.forgetFaces_ae : s.forgetFaces.ae = s.ae := rfl
@[simp] theorem State.forgetFaces_aSel : s.forgetFaces.aSel = s.aSel := rfl
@[simp] theorem State.forgetFaces_src : s.forgetFaces.src = s.src := rfl
@[simp] theorem State.forgetFaces_dst : s.forgetFaces.dst = Memory.forgetBelow s.dst s.faceBytes := rfl
@[simp] theorem State.forgetFaces_activity : s.forgetFaces.activity = s.activity := rfl
@[simp] theorem State.forgetFaces_pending : s.forgetFaces.pending = s.pending := rfl
@[simp] theorem State.forgetFaces_busData : s.forgetFaces.busData = s.busData := rfl
@[simp] theorem State.forgetFaces_freeCtr : s.forgetFaces.freeCtr = s.freeCtr := rfl

@[simp] theorem State.install_cfg (k n : Nat) (m : Model) : (s.install k n m).cfg = s.cfg := rfl
@[simp] theorem State.install_arg0 (k n : Nat) (m : Model) : (s.install k n m).arg0 = s.arg0 := rfl
@[simp] theorem State.install_arg1 (k n : Nat) (m : Model) : (s.install k n m).arg1 = s.arg1 := rfl
@[simp] theorem State.install_result (k n : Nat) (m : Model) : (s.install k n m).result = s.result := rfl
@[simp] theorem State.install_err (k n : Nat) (m : Model) : (s.install k n m).err = s.err := rfl
@[simp] theorem State.install_errCode (k n : Nat) (m : Model) : (s.install k n m).errCode = s.errCode := rfl
@[simp] theorem State.install_errInfo (k n : Nat) (m : Model) : (s.install k n m).errInfo = s.errInfo := rfl
@[simp] theorem State.install_format (k n : Nat) (m : Model) : (s.install k n m).format = s.format := rfl
@[simp] theorem State.install_faces (k n : Nat) (m : Model) : (s.install k n m).faces = s.faces := rfl
@[simp] theorem State.install_lvlW (k n : Nat) (m : Model) : (s.install k n m).lvlW = s.lvlW := rfl
@[simp] theorem State.install_lvlH (k n : Nat) (m : Model) : (s.install k n m).lvlH = s.lvlH := rfl
@[simp] theorem State.install_rowPitch (k n : Nat) (m : Model) : (s.install k n m).rowPitch = s.rowPitch := rfl
@[simp] theorem State.install_dstSize (k n : Nat) (m : Model) : (s.install k n m).dstSize = s.dstSize := rfl
@[simp] theorem State.install_ceCount (k n : Nat) (m : Model) : (s.install k n m).ceCount = s.ceCount := rfl
@[simp] theorem State.install_csCount (k n : Nat) (m : Model) : (s.install k n m).csCount = s.csCount := rfl
@[simp] theorem State.install_aeCount (k n : Nat) (m : Model) : (s.install k n m).aeCount = s.aeCount := rfl
@[simp] theorem State.install_asCount (k n : Nat) (m : Model) : (s.install k n m).asCount = s.asCount := rfl
@[simp] theorem State.install_clCount (k n : Nat) (m : Model) : (s.install k n m).clCount = BitVec.ofNat 14 n := rfl
@[simp] theorem State.install_br (k n : Nat) (m : Model) : (s.install k n m).br = s.br := rfl
@[simp] theorem State.install_models (k n : Nat) (m : Model) : (s.install k n m).models = s.models.setIfInBounds k (some m) := rfl
@[simp] theorem State.install_cl (k n : Nat) (m : Model) : (s.install k n m).cl = s.cl := rfl
@[simp] theorem State.install_ce (k n : Nat) (m : Model) : (s.install k n m).ce = s.ce := rfl
@[simp] theorem State.install_cs (k n : Nat) (m : Model) : (s.install k n m).cs = s.cs := rfl
@[simp] theorem State.install_ae (k n : Nat) (m : Model) : (s.install k n m).ae = s.ae := rfl
@[simp] theorem State.install_aSel (k n : Nat) (m : Model) : (s.install k n m).aSel = s.aSel := rfl
@[simp] theorem State.install_src (k n : Nat) (m : Model) : (s.install k n m).src = s.src := rfl
@[simp] theorem State.install_dst (k n : Nat) (m : Model) : (s.install k n m).dst = s.dst := rfl
@[simp] theorem State.install_activity (k n : Nat) (m : Model) : (s.install k n m).activity = s.activity := rfl
@[simp] theorem State.install_pending (k n : Nat) (m : Model) : (s.install k n m).pending = s.pending := rfl
@[simp] theorem State.install_busData (k n : Nat) (m : Model) : (s.install k n m).busData = s.busData := rfl
@[simp] theorem State.install_freeCtr (k n : Nat) (m : Model) : (s.install k n m).freeCtr = s.freeCtr := rfl

@[simp] theorem State.setActivity_setActivity (a b : Activity) : (s.setActivity a).setActivity b = s.setActivity b := rfl
@[simp] theorem State.advance_advance (m n : Nat) : (s.advance m).advance n = s.advance (m + n) := by
  simp [State.advance, Nat.add_assoc]
@[simp] theorem State.advance_zero : s.advance 0 = s := rfl

/-- Reading the model store after setting a slot. -/
theorem State.model_setModel (j k : Nat) (m : Option Model) :
    (s.setModel j m).model k = if j = k ∧ k < 8 then m else s.model k := by
  simp only [State.model, State.setModel, Vector.getElem?_setIfInBounds]
  by_cases h : j = k
  · subst h
    by_cases h8 : j < 8
    · simp [h8]
    · simp [h8]
  · simp [h]

/-- A slot number from 8 up holds nothing. -/
theorem State.model_none_of_ge (k : Nat) (h : 8 ≤ k) : s.model k = none := by
  simp [State.model, Vector.getElem?_eq_none h]

end Sys2Proof.Machine
end

