-- ==== Sys2Proof/Laws/Reader.lean ====
section
/-! SUPPORT. What the shared pieces of a command can do: attempts, the gate, errors, and the bit reader. -/

namespace Sys2Proof.Machine

open Sys2Proof

/-! ### Attempts and outcomes -/

theorem attempt_bind_ok {α β : Type} (x : Attempt α) (f : α → Attempt β) (b : β) :
    (x >>= f) = .ok b ↔ ∃ a, x = .ok a ∧ f a = .ok b := by
  cases x with
  | error e =>
    constructor
    · intro h
      cases h
    · rintro ⟨a, h, -⟩
      cases h
  | ok a =>
    constructor
    · exact fun h => ⟨a, rfl, h⟩
    · rintro ⟨a', h, h'⟩
      cases h
      exact h'

@[simp] theorem attempt_ok_bind {α β : Type} (a : α) (f : α → Attempt β) : ((.ok a : Attempt α) >>= f) = f a := rfl

@[simp] theorem attempt_error_bind {α β : Type} (e : Halt) (f : α → Attempt β) :
    ((.error e : Attempt α) >>= f) = .error e := rfl

/-- A piece of a command that answers a next state either went on or raised an error of the core. -/
theorem settle_next (f : ErrCode → State) (a : Attempt State) (t : State) :
    settle f a = .next t ↔ a = .ok t ∨ ∃ c, a = .error (.error c) ∧ f c = t := by
  unfold settle
  split <;> simp_all [eq_comm]

@[simp] theorem settle_ok (f : ErrCode → State) (s : State) : settle f (.ok s) = .next s := rfl

@[simp] theorem settle_error (f : ErrCode → State) (c : ErrCode) : settle f (.error (.error c)) = .next (f c) := rfl

@[simp] theorem settle_fault (f : ErrCode → State) (e : Fault) : settle f (.error (.fault e)) = .fault e := rfl

@[simp] theorem settle_refuse (f : ErrCode → State) (r : Refusal) : settle f (.error (.refuse r)) = .refused r := rfl

/-- Behind the gate: with `ERR` = 1 nothing changes. -/
theorem gate_next (s : State) (run : State → Host.Outcome State Fault Refusal) (t : State) :
    gate s run = .next t ↔ (s.err = true ∧ t = s) ∨ (s.err = false ∧ run s = .next t) := by
  unfold gate
  cases h : s.err <;> simp [eq_comm]

@[simp] theorem gate_open (s : State) (run : State → Host.Outcome State Fault Refusal) (h : s.err = false) :
    gate s run = run s := by simp [gate, h]

@[simp] theorem gate_shut (s : State) (run : State → Host.Outcome State Fault Refusal) (h : s.err = true) :
    gate s run = .next s := by simp [gate, h]

@[simp] theorem raiseBy_next (i : Instr) (c : ErrCode) (s t : State) :
    raiseBy i c s = .next t ↔ s.raiseError (cmdWord i) c = t := by simp [raiseBy]

@[simp] theorem orError_ok {α : Type} (r : Except ErrCode α) (a : α) : orError r = .ok a ↔ r = .ok a := by
  cases r <;> simp [orError]

/-! ### The stream -/

/-- One bit is 0 or 1. -/
theorem streamBit_lt (s : State) (p b : Nat) (h : streamBit s p = .ok b) : b < 2 := by
  unfold streamBit at h
  split at h
  · obtain ⟨v, -, h⟩ := (attempt_bind_ok _ _ _).1 h
    cases h
    exact Nat.mod_lt _ (by decide)
  · cases h
    decide

/-- Past the end of the buffer every bit is 0 (spec/40_bit_reader.md R131). -/
theorem streamBit_past (s : State) (p : Nat) (h : 8 * s.br.len.toNat ≤ p) : streamBit s p = .ok 0 := by
  rw [streamBit, if_neg (by omega)]

/-- The bits depend on the buffer alone. -/
theorem streamBit_congr (s t : State) (p : Nat) (hs : t.src = s.src) (hb : t.br.base = s.br.base)
    (hl : t.br.len = s.br.len) : streamBit t p = streamBit s p := by
  simp only [streamBit, hs, hb, hl]

theorem peekAt_congr (s t : State) (pos n : Nat) (hs : t.src = s.src) (hb : t.br.base = s.br.base)
    (hl : t.br.len = s.br.len) : peekAt t pos n = peekAt s pos n := by
  induction n with
  | zero => rfl
  | succ n ih => simp only [peekAt, ih, streamBit_congr s t _ hs hb hl]

/-- A peek of `n` bits is an `n`-bit number. -/
theorem peekAt_lt (s : State) (pos n v : Nat) (h : peekAt s pos n = .ok v) : v < 2 ^ n := by
  induction n generalizing v with
  | zero => cases h; decide
  | succ n ih =>
    obtain ⟨u, hu, h⟩ := (attempt_bind_ok _ _ _).1 h
    obtain ⟨b, hb, h⟩ := (attempt_bind_ok _ _ _).1 h
    cases h
    have := ih u hu
    have := streamBit_lt s _ b hb
    rw [Nat.pow_succ]
    omega

theorem peekAt_past (s : State) (pos n : Nat) (h : 8 * s.br.len.toNat ≤ pos) : peekAt s pos n = .ok 0 := by
  induction n with
  | zero => rfl
  | succ n ih => simp [peekAt, ih, streamBit_past s (pos + n) (by omega)]

/-- With the whole buffer written, every bit can be read. -/
theorem streamBit_written (s : State) (p : Nat) (h : s.sourceWritten) : ∃ b, streamBit s p = .ok b := by
  unfold streamBit
  split
  · rename_i hp
    obtain ⟨v, hv⟩ := Option.isSome_iff_exists.1 (h _ hp)
    exact ⟨_, by rw [readEntry_of_some _ _ _ _ hv, attempt_ok_bind]⟩
  · exact ⟨0, rfl⟩

theorem peekAt_written (s : State) (pos n : Nat) (h : s.sourceWritten) : ∃ v, peekAt s pos n = .ok v := by
  induction n with
  | zero => exact ⟨0, rfl⟩
  | succ n ih =>
    obtain ⟨v, hv⟩ := ih
    obtain ⟨b, hb⟩ := streamBit_written s (pos + n) h
    exact ⟨2 * v + b, by simp [peekAt, hv, hb]⟩

/-- What `Take(n)` can do. -/
theorem take_ok (s : State) (n v : Nat) (t : State) :
    take s n = .ok (v, t) ↔ peek s n = .ok v ∧ t = s.advance n := by
  unfold take
  rw [attempt_bind_ok]
  constructor
  · rintro ⟨a, h, h'⟩
    cases h'
    exact ⟨h, rfl⟩
  · rintro ⟨h, rfl⟩
    exact ⟨v, h, rfl⟩

/-- What the read of `READBITS` can do: the cursor moves on by `n`. -/
theorem takeLong_ok (s : State) (n v : Nat) (t : State) (h : takeLong s n = .ok (v, t)) : t = s.advance n := by
  unfold takeLong at h
  split at h
  · exact ((take_ok _ _ _ _).1 h).2
  · obtain ⟨⟨hi, s1⟩, h1, h⟩ := (attempt_bind_ok _ _ _).1 h
    obtain ⟨⟨lo, s2⟩, h2, h⟩ := (attempt_bind_ok _ _ _).1 h
    cases h
    obtain ⟨-, rfl⟩ := (take_ok _ _ _ _).1 h1
    obtain ⟨-, rfl⟩ := (take_ok _ _ _ _).1 h2
    rw [State.advance_advance]
    congr 1
    omega

/-- What `Decode` can do: it consumes exactly the code's bits (spec/41_huffman_model.md R170). -/
theorem decodeSym_ok (m : Model) (s t : State) (r : Nat × Nat) :
    decodeSym m s = .ok (r, t) ↔ ∃ p, peek s 16 = .ok p ∧ decodePeek m p = .ok r ∧ t = s.advance r.2 := by
  unfold decodeSym
  rw [attempt_bind_ok]
  constructor
  · rintro ⟨p, hp, h⟩
    obtain ⟨r', hr, h⟩ := (attempt_bind_ok _ _ _).1 h
    cases h
    exact ⟨p, hp, (orError_ok _ _).1 hr, rfl⟩
  · rintro ⟨p, hp, hr, rfl⟩
    refine ⟨p, hp, ?_⟩
    rw [(orError_ok _ _).2 hr]
    rfl

/-- What `Decode(MS[k])` can do. -/
theorem decodeSlot_ok (k : Nat) (s t : State) (sym : Nat) :
    decodeSlot k s = .ok (sym, t) ↔
      ∃ m p len, s.model k = some m ∧ peek s 16 = .ok p ∧ decodePeek m p = .ok (sym, len) ∧ t = s.advance len := by
  unfold decodeSlot
  split
  · rename_i h
    simp [failWith, h]
  · rename_i m h
    rw [attempt_bind_ok]
    constructor
    · rintro ⟨⟨r, t'⟩, h1, h2⟩
      cases h2
      obtain ⟨p, hp, hr, rfl⟩ := (decodeSym_ok _ _ _ _).1 h1
      exact ⟨m, p, r.2, h, hp, hr, rfl⟩
    · rintro ⟨m', p, len, hm, hp, hr, rfl⟩
      rw [h] at hm
      cases hm
      exact ⟨((sym, len), s.advance len), (decodeSym_ok _ _ _ _).2 ⟨p, hp, hr, rfl⟩, rfl⟩

/-- With the whole buffer written, any bits of it are. -/
theorem bitsWritten_of_sourceWritten (s : State) (pos n : Nat) (h : s.sourceWritten) : s.bitsWritten pos n :=
  fun _ _ _ hp => h _ hp

/-- Past the end of the buffer a slot is decodable when its model gives the all-zero peek a symbol below the bound
(spec/40_bit_reader.md R145). -/
theorem decodable_past (s : State) (k bound sym len : Nat) (m : Model) (hm : s.model k = some m)
    (hpos : 8 * s.br.len.toNat ≤ s.br.bitpos) (hd : decodePeek m 0 = .ok (sym, len)) (hb : sym < bound) :
    s.decodable k bound := by
  refine ⟨m, hm, fun pos p hle hp => ⟨sym, len, ?_, hb⟩⟩
  rw [peekAt_past s pos 16 (by omega)] at hp
  cases hp
  exact hd

/-- A decode that the stream allows at every position succeeds, with a symbol below the bound. -/
theorem decodeSlot_decodable (k bound : Nat) (s : State) (hw : s.sourceWritten) (hd : s.decodable k bound) :
    ∃ sym len, decodeSlot k s = .ok (sym, s.advance len) ∧ sym < bound := by
  obtain ⟨m, hm, hall⟩ := hd
  obtain ⟨p, hp⟩ := peekAt_written s s.br.bitpos 16 hw
  obtain ⟨sym, len, hr, hb⟩ := hall _ p le_rfl hp
  exact ⟨sym, len, (decodeSlot_ok _ _ _ _).2 ⟨m, p, len, hm, hp, hr, rfl⟩, hb⟩

end Sys2Proof.Machine
end

