-- ==== Sys2Proof/Laws/Huffman.lean ====
section
/-! SUPPORT. What `Build` and `Decode` can do: the code-length read, the canonical assignment, the fields of a built
model, the ladder. -/

namespace Sys2Proof.Machine

open Sys2Proof

/-! ### The code-length read -/

/-- What reading code lengths can do: every entry is written, and the list holds them in order. -/
theorem readLens_ok (s : State) (a n : Nat) (l : List Nat) (h : readLens s a n = .ok l) :
    l.length = n ∧ ∀ i, i < n → ∃ v, Memory.read s.cl (a + i) = some v ∧ l[i]? = some v.toNat := by
  induction n generalizing a l with
  | zero =>
    cases h
    exact ⟨rfl, fun i hi => absurd hi (by omega)⟩
  | succ n ih =>
    obtain ⟨v, hv, h⟩ := (attempt_bind_ok _ _ _).1 h
    obtain ⟨rest, hr, h⟩ := (attempt_bind_ok _ _ _).1 h
    cases h
    obtain ⟨hl, hi⟩ := ih _ _ hr
    refine ⟨by simp [hl], fun i hlt => ?_⟩
    cases i with
    | zero => exact ⟨v, by simpa using readEntry_ok _ _ _ _ hv, by simp⟩
    | succ i =>
      obtain ⟨u, hu, hu'⟩ := hi i (by omega)
      exact ⟨u, by rw [← hu]; congr 1; omega, by simpa using hu'⟩

/-- With the entries written, the read succeeds. -/
theorem readLens_written (s : State) (a n : Nat) (h : ∀ i, i < n → (Memory.read s.cl (a + i)).isSome = true) :
    readLens s a n = .ok ((List.range n).map fun i => ((Memory.read s.cl (a + i)).getD 0).toNat) := by
  induction n generalizing a with
  | zero => rfl
  | succ n ih =>
    obtain ⟨v, hv⟩ := Option.isSome_iff_exists.1 (h 0 (by omega))
    have hrest := ih (a + 1) fun i hi => by
      have := h (i + 1) (by omega)
      rwa [show a + (i + 1) = a + 1 + i by omega] at this
    rw [readLens, readEntry_of_some _ _ _ _ (by simpa using hv), attempt_ok_bind, hrest, attempt_ok_bind,
      List.range_succ_eq_map, List.map_cons, List.map_map]
    simp only [Nat.add_zero] at hv
    simp only [Nat.add_zero, hv, Option.getD_some]
    congr 2
    refine List.map_congr_left fun i _ => ?_
    simp only [Function.comp_apply]
    rw [show a + 1 + i = a + i.succ by omega]

/-! ### Build -/

/-- What `Build` can do when it succeeds. -/
theorem build_ok (n : Nat) (lens : List Nat) (m : Model) :
    build n lens = .ok m ↔
      0 < n ∧ n ≤ maxSyms ∧ (∀ l ∈ lens, l ≤ maxCodeLen) ∧
        ∃ rows, assignRows lens 0 0 codeLengths = .ok rows ∧ m = modelOf n lens rows := by
  unfold build
  by_cases h0 : n = 0
  · simp [h0]
  by_cases h1 : maxSyms < n
  · simp only [h0, h1, if_true, if_false]
    constructor
    · intro h
      cases h
    · rintro ⟨-, h, -⟩
      omega
  by_cases h2 : (lens.any fun l => decide (maxCodeLen < l)) = true
  · simp only [h0, h1, h2, if_true, if_false]
    constructor
    · intro h
      cases h
    · rintro ⟨-, -, h, -⟩
      obtain ⟨l, hl, hl'⟩ := List.any_eq_true.1 h2
      have := h l hl
      simp only [decide_eq_true_eq] at hl'
      omega
  · simp only [h0, h1, h2, if_false]
    have h2' : ∀ l ∈ lens, l ≤ maxCodeLen := by
      intro l hl
      by_contra hc
      exact h2 (List.any_eq_true.2 ⟨l, hl, by simpa using hc⟩)
    constructor
    · intro h
      cases hr : assignRows lens 0 0 codeLengths with
      | error c => rw [hr] at h; cases h
      | ok rows =>
        rw [hr] at h
        cases h
        exact ⟨by omega, by omega, h2', rows, rfl, rfl⟩
    · rintro ⟨-, -, -, rows, hr, rfl⟩
      rw [hr]
      rfl

/-- A built model keeps its alphabet size and its lengths. -/
theorem build_n_lens (n : Nat) (lens : List Nat) (m : Model) (h : build n lens = .ok m) : m.n = n ∧ m.lens = lens := by
  obtain ⟨-, -, -, rows, -, rfl⟩ := (build_ok _ _ _).1 h
  exact ⟨rfl, rfl⟩

/-- What `Build` from `CL` can do when it succeeds. -/
theorem buildFromCl_ok (n : Nat) (s : State) (m : Model) (h : buildFromCl n s = .ok m) :
    ∃ lens, readLens s 0 n = .ok lens ∧ lens.length = n ∧ build n lens = .ok m := by
  unfold buildFromCl at h
  obtain ⟨lens, hl, h⟩ := (attempt_bind_ok _ _ _).1 h
  have hb := (orError_ok _ _).1 h
  have hn : n ≤ maxSyms := ((build_ok _ _ _).1 hb).2.1
  rw [lensFromCl, if_pos hn] at hl
  exact ⟨lens, hl, (readLens_ok _ _ _ _ hl).1, hb⟩

/-! ### The canonical assignment (spec/41_huffman_model.md R156) -/

/-- Each row of an assignment, by the running `cur` and `acc` that reach it: the rows of the lengths before it only move
`cur` and `acc` on. -/
theorem assignRows_cons (lens : List Nat) (cur acc L : Nat) (rest : List Nat) (rows : List LenRow) :
    assignRows lens cur acc (L :: rest) = .ok rows ↔
      (lens.count L = 0 ∧ ∃ more, assignRows lens (2 * cur) acc rest = .ok more ∧ rows = LenRow.unused :: more) ∨
      (0 < lens.count L ∧ cur + lens.count L ≤ 2 ^ L ∧
        ∃ more, assignRows lens (2 * (cur + lens.count L)) (acc + lens.count L) rest = .ok more ∧
          rows = ⟨lens.count L, some cur, some (cur + lens.count L - 1),
            some (max16Of L (cur + lens.count L - 1)), acc⟩ :: more) := by
  rw [assignRows]
  by_cases h0 : lens.count L = 0
  · simp only [h0, if_true, lt_irrefl, true_and, false_and, or_false]
    cases hr : assignRows lens (2 * cur) acc rest with
    | error c =>
      constructor
      · intro h
        cases h
      · rintro ⟨more, h, -⟩
        cases h
    | ok more =>
      constructor
      · intro h
        cases h
        exact ⟨more, rfl, rfl⟩
      · rintro ⟨more', h, rfl⟩
        cases h
        rfl
  · by_cases h1 : 2 ^ L < cur + lens.count L
    · rw [if_neg h0, if_pos h1]
      constructor
      · intro h
        cases h
      · rintro (⟨h, -⟩ | ⟨-, h, -⟩)
        · omega
        · omega
    · rw [if_neg h0, if_neg h1]
      cases hr : assignRows lens (2 * (cur + lens.count L)) (acc + lens.count L) rest with
      | error c =>
        constructor
        · intro h
          cases h
        · rintro (⟨h, -⟩ | ⟨-, -, more, h, -⟩)
          · omega
          · cases h
      | ok more =>
        constructor
        · intro h
          cases h
          exact .inr ⟨by omega, by omega, more, rfl, rfl⟩
        · rintro (⟨h, -⟩ | ⟨-, -, more', h, rfl⟩)
          · omega
          · cases h
            rfl

/-- An assignment answers one row for each length. -/
theorem assignRows_length (lens Ls : List Nat) (cur acc : Nat) (rows : List LenRow)
    (h : assignRows lens cur acc Ls = .ok rows) : rows.length = Ls.length := by
  induction Ls generalizing cur acc rows with
  | nil =>
    cases h
    rfl
  | cons L rest ih =>
    rcases (assignRows_cons _ _ _ _ _ _).1 h with ⟨-, more, hm, rfl⟩ | ⟨-, -, more, hm, rfl⟩
    · simp [ih _ _ _ hm]
    · simp [ih _ _ _ hm]

/-- The row of the `i`-th length of a run of consecutive lengths: `cur` is `codeStart` of the lengths before it, `acc`
the number of their symbols. -/
theorem assignRows_getD (lens : List Nat) (n i L0 : Nat) (rows : List LenRow)
    (h : assignRows lens (codeStart lens L0) ((List.range' 1 (L0 - 1)).map lens.count).sum (List.range' L0 n) = .ok rows)
    (hL0 : 1 ≤ L0) (hi : i < n) :
    rows.getD i LenRow.unused =
      (if lens.count (L0 + i) = 0 then LenRow.unused
      else ⟨lens.count (L0 + i), some (codeStart lens (L0 + i)),
        some (codeStart lens (L0 + i) + lens.count (L0 + i) - 1),
        some (max16Of (L0 + i) (codeStart lens (L0 + i) + lens.count (L0 + i) - 1)),
        ((List.range' 1 (L0 + i - 1)).map lens.count).sum⟩) ∧
      (0 < lens.count (L0 + i) → codeStart lens (L0 + i) + lens.count (L0 + i) ≤ 2 ^ (L0 + i)) := by
  induction n generalizing i L0 rows with
  | zero => omega
  | succ n ih =>
    rw [List.range'_succ] at h
    have hstart : codeStart lens (L0 + 1) = 2 * (codeStart lens L0 + lens.count L0) := by
      rw [codeStart, if_neg (by omega)]
    have hsum : ((List.range' 1 (L0 + 1 - 1)).map lens.count).sum =
        ((List.range' 1 (L0 - 1)).map lens.count).sum + lens.count L0 := by
      rw [show L0 + 1 - 1 = L0 - 1 + 1 by omega, List.range'_concat]
      simp [show 1 + (L0 - 1) = L0 by omega]
    rcases (assignRows_cons _ _ _ _ _ _).1 h with ⟨h0, more, hm, rfl⟩ | ⟨h0, hle, more, hm, rfl⟩
    · cases i with
      | zero => simp [h0]
      | succ i =>
        rw [h0, Nat.add_zero (List.sum _)] at hsum
        rw [h0, Nat.add_zero (codeStart lens L0)] at hstart
        rw [← hstart, ← hsum] at hm
        have := ih i (L0 + 1) more hm (by omega) (by omega)
        rw [show L0 + 1 + i = L0 + (i + 1) by omega] at this
        simpa using this
    · cases i with
      | zero =>
        simp only [Nat.add_zero, List.getD_cons_zero]
        exact ⟨by rw [if_neg (by omega)], fun _ => hle⟩
      | succ i =>
        rw [← hstart, ← hsum] at hm
        have := ih i (L0 + 1) more hm (by omega) (by omega)
        rw [show L0 + 1 + i = L0 + (i + 1) by omega] at this
        simpa using this

/-- The row of each length of a built model. -/
theorem build_row (n L : Nat) (lens : List Nat) (m : Model) (h : build n lens = .ok m) (h1 : 1 ≤ L) (h16 : L ≤ 16) :
    rowAt m.rows L =
      (if lens.count L = 0 then LenRow.unused
      else ⟨lens.count L, some (codeStart lens L), some (codeStart lens L + lens.count L - 1),
        some (max16Of L (codeStart lens L + lens.count L - 1)), ((List.range' 1 (L - 1)).map lens.count).sum⟩) ∧
      (0 < lens.count L → codeStart lens L + lens.count L ≤ 2 ^ L) := by
  obtain ⟨-, -, -, rows, hr, rfl⟩ := (build_ok _ _ _).1 h
  have := assignRows_getD lens 16 (L - 1) 1 rows (by simpa [codeStart, codeLengths, maxCodeLen] using hr) le_rfl (by omega)
  rw [show 1 + (L - 1) = L by omega] at this
  exact this

/-! ### Decode -/

/-- What the ladder can do when it finds a code. -/
theorem ladder_ok (m : Model) (p sym L : Nat) (Ls : List Nat) (h : ladder m p Ls = .ok (sym, L)) :
    L ∈ Ls ∧ 0 < (rowAt m.rows L).count ∧ (∃ top, (rowAt m.rows L).max16 = some top ∧ p ≤ top) ∧
      (rowAt m.rows L).first.getD 0 ≤ p / 2 ^ (16 - L) ∧
      (rowAt m.rows L).valPtr + (p / 2 ^ (16 - L) - (rowAt m.rows L).first.getD 0) < m.used ∧
      sym = m.sorted.getD ((rowAt m.rows L).valPtr + (p / 2 ^ (16 - L) - (rowAt m.rows L).first.getD 0)) 0 := by
  induction Ls with
  | nil => cases h
  | cons K rest ih =>
    rw [ladder] at h
    split at h
    · obtain ⟨h1, h2⟩ := ih h
      exact ⟨List.mem_cons_of_mem _ h1, h2⟩
    · rename_i top htop
      split at h
      · rename_i hc
        simp only at h
        split at h
        · cases h
        · rename_i hr
          cases h
          exact ⟨List.mem_cons_self, hc.1, ⟨top, htop, hc.2⟩, by omega, by omega, rfl⟩
      · obtain ⟨h1, h2⟩ := ih h
        exact ⟨List.mem_cons_of_mem _ h1, h2⟩

/-- A decoded length is between 1 and 16. -/
theorem decodePeek_len (m : Model) (p sym L : Nat) (h : decodePeek m p = .ok (sym, L)) : 1 ≤ L ∧ L ≤ 16 := by
  have := (ladder_ok m p sym L _ h).1
  simp only [codeLengths, maxCodeLen, List.mem_range'_1] at this
  omega

end Sys2Proof.Machine
end

