-- ==== Sys2Proof/Laws/Stream.lean ====
section
/-! SUPPORT. What each piece of a stream command can do: the events of `MODEL_RX`, the deltas, the block write, a chunk, a
sub-code, the end of a block. Each lemma says all of the state a piece changes. -/

namespace Sys2Proof.Machine

open Sys2Proof

/-! ### Outcomes of events -/

/-- The running `MODEL_RX` is read off the transient state. -/
theorem runningRx_ok (s : State) (r : RxState) : runningRx s = .ok r ↔ s.activity = .rx r := by
  unfold runningRx
  split <;> simp_all [refuseWith]

theorem eventOutcome_next (body : State → Attempt State) (s t : State) :
    eventOutcome body s = .next t ↔ body s = .ok t ∨ ∃ c, body s = .error (.error c) ∧ abortRunning s c = t :=
  settle_next _ _ _

/-- What `exec` does with a stream event is the event's body, errors taken by the running command. -/
theorem exec_event (i : Instr) (s : State) (h : i.fmt ≠ .cw) : exec i s = eventOutcome (eventBody i) s := by
  cases i <;> first | rfl | exact absurd rfl h

/-! ### Events of `MODEL_RX` -/

/-- A literal (spec/42_model_rx.md R198). -/
theorem bootLiteral_ok (c : Nat) (s t : State) :
    bootLiteral c s = .ok t ↔ ∃ r, s.activity = .rx r ∧
      t = (s.setCl (Memory.write s.cl r.ofs (BitVec.ofNat 8 c))).setActivity (.rx { r with ofs := r.ofs + 1 }) := by
  unfold bootLiteral
  rw [attempt_bind_ok]
  constructor
  · rintro ⟨r, hr, h⟩
    cases h
    exact ⟨r, (runningRx_ok _ _).1 hr, rfl⟩
  · rintro ⟨r, hr, rfl⟩
    exact ⟨r, (runningRx_ok _ _).2 hr, rfl⟩

/-- A run of zeros (R199, R200). -/
theorem bootZeroRun_ok (least bits : Nat) (s t : State) :
    bootZeroRun least bits s = .ok t ↔ ∃ r extra, s.activity = .rx r ∧ peek s bits = .ok extra ∧
      least + extra ≤ r.n - r.ofs ∧
      t = (s.advance bits).setActivity (.rx { r with ofs := r.ofs + (least + extra) }) := by
  unfold bootZeroRun
  rw [attempt_bind_ok]
  constructor
  · rintro ⟨r, hr, h⟩
    obtain ⟨⟨extra, u⟩, hu, h⟩ := (attempt_bind_ok _ _ _).1 h
    obtain ⟨hp, rfl⟩ := (take_ok _ _ _ _).1 hu
    simp only at h
    split at h
    · cases h
    · cases h
      exact ⟨r, extra, (runningRx_ok _ _).1 hr, hp, by omega, rfl⟩
  · rintro ⟨r, extra, hr, hp, hle, rfl⟩
    refine ⟨r, (runningRx_ok _ _).2 hr, (attempt_bind_ok _ _ _).2 ⟨(extra, s.advance bits), (take_ok _ _ _ _).2 ⟨hp, rfl⟩, ?_⟩⟩
    simp only
    rw [if_neg (by omega)]

/-- A run of copies (R201, R202). -/
theorem bootRepeat_ok (least bits : Nat) (s t : State) :
    bootRepeat least bits s = .ok t ↔ ∃ r extra prev, s.activity = .rx r ∧ peek s bits = .ok extra ∧ r.ofs ≠ 0 ∧
      least + extra ≤ r.n - r.ofs ∧ Memory.read s.cl (r.ofs - 1) = some prev ∧ prev ≠ 0 ∧
      t = ((s.advance bits).setCl (Memory.writeList s.cl r.ofs (List.replicate (least + extra) prev))).setActivity
        (.rx { r with ofs := r.ofs + (least + extra) }) := by
  unfold bootRepeat
  rw [attempt_bind_ok]
  constructor
  · rintro ⟨r, hr, h⟩
    obtain ⟨⟨extra, u⟩, hu, h⟩ := (attempt_bind_ok _ _ _).1 h
    obtain ⟨hp, rfl⟩ := (take_ok _ _ _ _).1 hu
    simp only at h
    split at h
    · cases h
    split at h
    · cases h
    obtain ⟨prev, hprev, h⟩ := (attempt_bind_ok _ _ _).1 h
    split at h
    · cases h
    · cases h
      exact ⟨r, extra, prev, (runningRx_ok _ _).1 hr, hp, by assumption, by omega, readEntry_ok _ _ _ _ hprev,
        by assumption, rfl⟩
  · rintro ⟨r, extra, prev, hr, hp, h0, hle, hprev, hne, rfl⟩
    refine ⟨r, (runningRx_ok _ _).2 hr, (attempt_bind_ok _ _ _).2 ⟨(extra, s.advance bits), (take_ok _ _ _ _).2 ⟨hp, rfl⟩, ?_⟩⟩
    simp only
    rw [if_neg h0, if_neg (by omega), State.advance_cl, readEntry_of_some _ _ _ _ hprev, attempt_ok_bind, if_neg hne]

/-! ### The header of `MODEL_RX` -/

theorem readCount_ok (s t : State) (n : Nat) :
    readCount s = .ok (n, t) ↔ peek s countBits = .ok n ∧ 0 < n ∧ n ≤ maxSyms ∧ t = s.advance countBits := by
  unfold readCount
  rw [attempt_bind_ok]
  constructor
  · rintro ⟨⟨v, u⟩, hu, h⟩
    obtain ⟨hp, rfl⟩ := (take_ok _ _ _ _).1 hu
    simp only at h
    split at h
    · cases h
    split at h
    · cases h
    · cases h
      exact ⟨hp, by omega, by omega, rfl⟩
  · rintro ⟨hp, h0, h1, rfl⟩
    refine ⟨(n, s.advance countBits), (take_ok _ _ _ _).2 ⟨hp, rfl⟩, ?_⟩
    simp only
    rw [if_neg (by omega), if_neg (by omega)]

theorem readNumCodes_ok (s t : State) (k : Nat) :
    readNumCodes s = .ok (k, t) ↔
      peek s numClCodesBits = .ok k ∧ 1 ≤ k ∧ k ≤ numClSyms ∧ t = s.advance numClCodesBits := by
  unfold readNumCodes
  rw [attempt_bind_ok]
  constructor
  · rintro ⟨⟨v, u⟩, hu, h⟩
    obtain ⟨hp, rfl⟩ := (take_ok _ _ _ _).1 hu
    simp only at h
    split at h
    · cases h
    · cases h
      exact ⟨hp, by omega, by omega, rfl⟩
  · rintro ⟨hp, h0, h1, rfl⟩
    refine ⟨(k, s.advance numClCodesBits), (take_ok _ _ _ _).2 ⟨hp, rfl⟩, ?_⟩
    simp only
    rw [if_neg (by omega)]

/-- Reading the bootstrap lengths moves the cursor by one field for each symbol and keeps the array's size. -/
theorem readBootLens_ok (order bl bl' : List Nat) (s t : State) (h : readBootLens bl s order = .ok (bl', t)) :
    t = s.advance (clLenBits * order.length) ∧ bl'.length = bl.length := by
  induction order generalizing bl s with
  | nil =>
    cases h
    exact ⟨rfl, rfl⟩
  | cons sym rest ih =>
    obtain ⟨⟨v, u⟩, hu, h⟩ := (attempt_bind_ok _ _ _).1 h
    obtain ⟨-, rfl⟩ := (take_ok _ _ _ _).1 hu
    obtain ⟨rfl, hl⟩ := ih _ _ h
    refine ⟨?_, by simpa using hl⟩
    rw [State.advance_advance]
    congr 1
    simp only [List.length_cons]
    ring

/-- What `ReadBootstrap` can do. -/
theorem readBootstrap_ok (k : Nat) (s t : State) (boot : Model) (h : readBootstrap k s = .ok (boot, t)) :
    (∃ n, t = s.advance n) ∧ ∃ bl, bl.length = numClSyms ∧ build numClSyms bl = .ok boot := by
  obtain ⟨⟨bl, u⟩, hu, h⟩ := (attempt_bind_ok _ _ _).1 h
  obtain ⟨b, hb, h⟩ := (attempt_bind_ok _ _ _).1 h
  cases h
  obtain ⟨rfl, hl⟩ := readBootLens_ok _ _ _ _ _ hu
  exact ⟨⟨_, rfl⟩, bl, by simpa using hl, (orError_ok _ _).1 hb⟩

/-- What `MODEL_RX` up to its first event can do. -/
theorem startModelRx_ok (slot : Nat) (s t : State) (h : startModelRx slot s = .ok t) :
    ∃ n boot bits bl, 0 < n ∧ n ≤ maxSyms ∧ bl.length = numClSyms ∧ build numClSyms bl = .ok boot ∧
      t = ((s.advance bits).setCl (Memory.fillBelow s.cl n fun _ => 0)).setActivity (.rx ⟨slot, n, boot, 0⟩) := by
  obtain ⟨⟨n, u⟩, hu, h⟩ := (attempt_bind_ok _ _ _).1 h
  obtain ⟨⟨k, v⟩, hv, h⟩ := (attempt_bind_ok _ _ _).1 h
  obtain ⟨⟨boot, w⟩, hw, h⟩ := (attempt_bind_ok _ _ _).1 h
  cases h
  obtain ⟨-, hn0, hn1, rfl⟩ := (readCount_ok _ _ _).1 hu
  obtain ⟨-, -, -, rfl⟩ := (readNumCodes_ok _ _ _).1 hv
  obtain ⟨⟨b, rfl⟩, bl, hl, hb⟩ := readBootstrap_ok _ _ _ _ hw
  exact ⟨n, boot, _, bl, hn0, hn1, hl, hb, by simp only [State.advance_advance, State.advance_cl]; rfl⟩

/-- What the end of `MODEL_RX` can do. -/
theorem finishModelRx_ok (r : RxState) (s t : State) (h : finishModelRx r s = .ok t) :
    ∃ lens m, readLens s 0 r.n = .ok lens ∧ lens.length = r.n ∧ build r.n lens = .ok m ∧
      t = (s.install r.slot r.n m).setActivity .idle := by
  obtain ⟨m, hm, h⟩ := (attempt_bind_ok _ _ _).1 h
  cases h
  obtain ⟨lens, h1, h2, h3⟩ := buildFromCl_ok _ _ _ hm
  exact ⟨lens, m, h1, h2, h3, rfl⟩

/-- What fetching an event of `MODEL_RX` can do: only the cursor moves. -/
theorem fetchBoot_ok (r : RxState) (s t : State) (i : Instr) (h : fetchBoot r s = .ok (i, t)) :
    ∃ p sym len, peek s 16 = .ok p ∧ decodePeek r.boot p = .ok (sym, len) ∧ decode .bootsym sym = some i ∧
      t = s.advance len := by
  obtain ⟨⟨c, u⟩, hc, h⟩ := (attempt_bind_ok _ _ _).1 h
  obtain ⟨p, hp, hd, rfl⟩ := (decodeSym_ok _ _ _ _).1 hc
  simp only at h
  split at h
  · rename_i j hj
    cases h
    exact ⟨p, c.1, c.2, hp, hd, hj, rfl⟩
  · cases h

/-! ### Deltas and the block write -/

/-- A decode moves the cursor and nothing else. -/
theorem decodeSlot_advance (k d : Nat) (s t : State) (h : decodeSlot k s = .ok (d, t)) : ∃ n, t = s.advance n := by
  obtain ⟨-, -, len, -, -, -, rfl⟩ := (decodeSlot_ok _ _ _ _).1 h
  exact ⟨len, rfl⟩

/-- One endpoint delta (spec/43_unpack_chunk.md R231). -/
theorem decodeEndpoint_ok (p : Plane) (ep ep' : PlaneRegs) (s t : State) :
    decodeEndpoint p ep s = .ok (ep', t) ↔
      ∃ d, decodeSlot p.epSlot s = .ok (d, t) ∧ ep' = ep.set p (deltaIndex (ep.get p) d (s.epCount p)) := by
  unfold decodeEndpoint
  rw [attempt_bind_ok]
  constructor
  · rintro ⟨⟨d, u⟩, hd, h⟩
    cases h
    obtain ⟨n, rfl⟩ := decodeSlot_advance _ _ _ _ hd
    exact ⟨d, hd, rfl⟩
  · rintro ⟨d, hd, rfl⟩
    obtain ⟨n, rfl⟩ := decodeSlot_advance _ _ _ _ hd
    exact ⟨(d, s.advance n), hd, rfl⟩

/-- One selector delta. -/
theorem decodeSelectorDelta_ok (p : Plane) (sp sp' : PlaneRegs) (s t : State) :
    decodeSelectorDelta p sp s = .ok (sp', t) ↔
      ∃ d, decodeSlot p.selSlot s = .ok (d, t) ∧ sp' = sp.set p (deltaIndex (sp.get p) d (s.selCount p)) := by
  unfold decodeSelectorDelta
  rw [attempt_bind_ok]
  constructor
  · rintro ⟨⟨d, u⟩, hd, h⟩
    cases h
    obtain ⟨n, rfl⟩ := decodeSlot_advance _ _ _ _ hd
    exact ⟨d, hd, rfl⟩
  · rintro ⟨d, hd, rfl⟩
    obtain ⟨n, rfl⟩ := decodeSlot_advance _ _ _ _ hd
    exact ⟨(d, s.advance n), hd, rfl⟩

/-- The bytes of a part: eight. -/
theorem planePart_length (s : State) (p : Plane) (ei si : PlaneRegs) (bytes : List Byte)
    (h : planePart s p ei si = .ok bytes) : bytes.length = 8 := by
  cases p <;> simp only [planePart, colorPart, alphaPart] at h
  · obtain ⟨e, -, h⟩ := (attempt_bind_ok _ _ _).1 h
    obtain ⟨t, -, h⟩ := (attempt_bind_ok _ _ _).1 h
    cases h
    rfl
  all_goals
    obtain ⟨e, -, h⟩ := (attempt_bind_ok _ _ _).1 h
    obtain ⟨t, -, h⟩ := (attempt_bind_ok _ _ _).1 h
    obtain ⟨u, -, h⟩ := (attempt_bind_ok _ _ _).1 h
    obtain ⟨v, -, h⟩ := (attempt_bind_ok _ _ _).1 h
    cases h
    rfl

theorem partsOf_length (s : State) (ei si : PlaneRegs) (ps : List Plane) (bytes : List Byte)
    (h : partsOf s ei si ps = .ok bytes) : bytes.length = 8 * ps.length := by
  induction ps generalizing bytes with
  | nil =>
    cases h
    rfl
  | cons p rest ih =>
    obtain ⟨part, hp, h⟩ := (attempt_bind_ok _ _ _).1 h
    obtain ⟨more, hm, h⟩ := (attempt_bind_ok _ _ _).1 h
    cases h
    simp only [List.length_append, planePart_length _ _ _ _ _ hp, ih _ hm, List.length_cons]
    ring

/-- A core write to `DST` changes `DST` alone, inside the memory. -/
theorem writeDst_ok (a : Nat) (bytes : List Byte) (s t : State) :
    writeDst a bytes s = .ok t ↔ a + bytes.length ≤ s.cfg.dstMemSize ∧ t = s.setDst (Memory.writeList s.dst a bytes) := by
  unfold writeDst
  split
  · constructor
    · intro h
      cases h
    · rintro ⟨h, -⟩
      omega
  · constructor
    · intro h
      cases h
      exact ⟨by omega, rfl⟩
    · rintro ⟨-, rfl⟩
      rfl

/-- `WriteBlock`: a block that is not visible changes nothing; a visible one writes its bytes at its address
(spec/43_unpack_chunk.md R235, spec/20_memory.md R72). -/
theorem writeBlock_ok (f bx by' : Nat) (ei si : PlaneRegs) (s t : State) :
    writeBlock f bx by' ei si s = .ok t ↔
      (s.visible bx by' = false ∧ t = s) ∨
      (s.visible bx by' = true ∧ ∃ bytes, blockBytes s ei si = .ok bytes ∧
        s.blockAddr f bx by' + bytes.length ≤ s.cfg.dstMemSize ∧
        t = s.setDst (Memory.writeList s.dst (s.blockAddr f bx by') bytes)) := by
  unfold writeBlock
  cases hv : s.visible bx by'
  · simp [eq_comm]
  · simp only [if_true, Bool.true_eq_false, false_and, true_and, false_or]
    rw [attempt_bind_ok]
    constructor
    · rintro ⟨bytes, hb, h⟩
      obtain ⟨h1, rfl⟩ := (writeDst_ok _ _ _ _).1 h
      exact ⟨bytes, hb, h1, rfl⟩
    · rintro ⟨bytes, hb, h1, rfl⟩
      exact ⟨bytes, hb, (writeDst_ok _ _ _ _).2 ⟨h1, rfl⟩⟩

/-- A block write changes `DST` alone. -/
theorem writeBlock_setDst (f bx by' : Nat) (ei si : PlaneRegs) (s t : State) (h : writeBlock f bx by' ei si s = .ok t) :
    ∃ d, t = s.setDst d := by
  rcases (writeBlock_ok _ _ _ _ _ _ _).1 h with ⟨-, rfl⟩ | ⟨-, bytes, -, -, rfl⟩
  · exact ⟨t.dst, rfl⟩
  · exact ⟨_, rfl⟩

/-! ### The ETC formats (log 9) -/

/-- A block of an ETC reconstruction, in the same way: only a visible block of a face of the level is written, with all its
bytes (spec/20_memory.md R63). -/
theorem writeEtcBlock_ok (f bx by' : Nat) (bytes : Nat → Byte) (s t : State) :
    writeEtcBlock f bx by' bytes s = .ok t ↔
      (¬ (f < s.faces.toNat ∧ s.visible bx by' = true) ∧ t = s) ∨
      (f < s.faces.toNat ∧ s.visible bx by' = true ∧ s.blockAddr f bx by' + s.bpb ≤ s.cfg.dstMemSize ∧
        t = s.setDst (Memory.writeList s.dst (s.blockAddr f bx by') ((List.range s.bpb).map bytes))) := by
  unfold writeEtcBlock
  split
  · rename_i h
    simp only [Bool.and_eq_true, decide_eq_true_eq] at h
    rw [writeDst_ok]
    simp [h.1, h.2]
  · rename_i h
    simp only [Bool.and_eq_true, decide_eq_true_eq] at h
    constructor
    · intro h'
      cases h'
      exact .inl ⟨h, rfl⟩
    · rintro (⟨-, rfl⟩ | ⟨h1, h2, -⟩)
      · rfl
      · exact absurd ⟨h1, h2⟩ h

/-- An ETC reconstruction that ends without an error moves the cursor on and changes `DST`, and nothing else
(spec/10_state.md R50). -/
theorem runProgram_ok (prog : EtcProgram) (s t : State) (h : runProgram prog s = .ok t) :
    ∃ n d, t = (s.advance n).setDst d := by
  induction prog generalizing s with
  | done =>
    cases h
    exact ⟨0, t.dst, rfl⟩
  | fail c => cases h
  | decode k next ih =>
    obtain ⟨⟨v, u⟩, hu, h⟩ := (attempt_bind_ok _ _ _).1 h
    obtain ⟨m, rfl⟩ := decodeSlot_advance _ _ _ _ hu
    obtain ⟨n, d, rfl⟩ := ih _ _ h
    exact ⟨m + n, d, by rw [State.advance_advance]⟩
  | peek n next ih =>
    obtain ⟨v, -, h⟩ := (attempt_bind_ok _ _ _).1 h
    exact ih _ _ h
  | skip m next ih =>
    obtain ⟨n, d, rfl⟩ := ih _ h
    exact ⟨m + n, d, by rw [State.advance_advance]⟩
  | entry pal i next ih =>
    simp only [runProgram] at h
    split at h
    · cases h
    · obtain ⟨v, -, h⟩ := (attempt_bind_ok _ _ _).1 h
      exact ih _ _ h
  | block f x y bytes next ih =>
    obtain ⟨u, hu, h⟩ := (attempt_bind_ok _ _ _).1 h
    obtain ⟨n, d, rfl⟩ := ih _ h
    rcases (writeEtcBlock_ok _ _ _ _ _ _).1 hu with ⟨-, rfl⟩ | ⟨-, -, -, rfl⟩
    · exact ⟨n, d, rfl⟩
    · exact ⟨n, d, rfl⟩

/-! ### Chunks -/

theorem decodeTiles_ok (todo : Nat) (p : Plane) (i : Nat) (c c' : ChunkState) (s t : State)
    (h : decodeTiles p i c s todo = .ok (c', t)) :
    (∃ n, t = s.advance n) ∧ ∃ ep tep, c' = { c with ep := ep, tep := tep } := by
  induction todo generalizing i c s with
  | zero =>
    cases h
    exact ⟨⟨0, rfl⟩, _, _, rfl⟩
  | succ todo ih =>
    obtain ⟨⟨ep, u⟩, hu, h⟩ := (attempt_bind_ok _ _ _).1 h
    obtain ⟨d, hd, rfl⟩ := (decodeEndpoint_ok _ _ _ _ _).1 hu
    obtain ⟨m, rfl⟩ := decodeSlot_advance _ _ _ _ hd
    obtain ⟨⟨n, rfl⟩, ep', tep', rfl⟩ := ih _ _ _ h
    exact ⟨⟨m + n, State.advance_advance _ _ _⟩, ep', tep', rfl⟩

/-- Decoding a chunk's endpoints moves the cursor and sets the endpoint registers (R234). -/
theorem decodeTileEndpoints_ok (ps : List Plane) (tiles : Nat) (c c' : ChunkState) (s t : State)
    (h : decodeTileEndpoints tiles c s ps = .ok (c', t)) :
    (∃ n, t = s.advance n) ∧ ∃ ep tep, c' = { c with ep := ep, tep := tep } := by
  induction ps generalizing c s with
  | nil =>
    cases h
    exact ⟨⟨0, rfl⟩, _, _, rfl⟩
  | cons p rest ih =>
    obtain ⟨⟨c1, u⟩, hu, h⟩ := (attempt_bind_ok _ _ _).1 h
    obtain ⟨⟨m, rfl⟩, ep, tep, rfl⟩ := decodeTiles_ok _ _ _ _ _ _ _ hu
    obtain ⟨⟨n, rfl⟩, ep', tep', rfl⟩ := ih _ _ h
    exact ⟨⟨m + n, State.advance_advance _ _ _⟩, ep', tep', rfl⟩

theorem decodeSelectors_ok (ps : List Plane) (sp sp' : PlaneRegs) (s t : State)
    (h : decodeSelectors sp s ps = .ok (sp', t)) : ∃ n, t = s.advance n := by
  induction ps generalizing sp s with
  | nil =>
    cases h
    exact ⟨0, rfl⟩
  | cons p rest ih =>
    obtain ⟨⟨sp1, u⟩, hu, h⟩ := (attempt_bind_ok _ _ _).1 h
    obtain ⟨d, hd, rfl⟩ := (decodeSelectorDelta_ok _ _ _ _ _).1 hu
    obtain ⟨m, rfl⟩ := decodeSlot_advance _ _ _ _ hd
    obtain ⟨n, rfl⟩ := ih _ _ h
    exact ⟨m + n, State.advance_advance _ _ _⟩

/-- A sub-block moves the cursor and writes its block (R236). -/
theorem subBlock_ok (pattern : List Nat) (pos : ChunkPos) (k : Nat) (c c' : ChunkState) (s t : State)
    (h : subBlock pattern pos k c s = .ok (c', t)) :
    ∃ n sp, decodeSelectors c.sp s (s.planes .chunk) = .ok (sp, s.advance n) ∧ c' = { c with sp := sp, k := k } ∧
      writeBlock pos.f (2 * pos.cx + k % 2) (2 * pos.cy + k / 2) (tileIndices c.tep (pattern.getD k 0)) sp
        (s.advance n) = .ok t := by
  obtain ⟨⟨sp, u⟩, hu, h⟩ := (attempt_bind_ok _ _ _).1 h
  obtain ⟨v, hv, h⟩ := (attempt_bind_ok _ _ _).1 h
  cases h
  obtain ⟨n, rfl⟩ := decodeSelectors_ok _ _ _ _ _ hu
  exact ⟨n, sp, hu, rfl, hv⟩

theorem subBlocks_ok (ks : List Nat) (pattern : List Nat) (pos : ChunkPos) (c c' : ChunkState) (s t : State)
    (h : subBlocks pattern pos c s ks = .ok (c', t)) :
    (∃ n d, t = (s.advance n).setDst d) ∧ ∃ sp k, c' = { c with sp := sp, k := k } := by
  induction ks generalizing c s with
  | nil =>
    cases h
    exact ⟨⟨0, _, rfl⟩, _, _, rfl⟩
  | cons k rest ih =>
    obtain ⟨⟨c1, u⟩, hu, h⟩ := (attempt_bind_ok _ _ _).1 h
    obtain ⟨m, sp, -, rfl, hw⟩ := subBlock_ok _ _ _ _ _ _ _ hu
    obtain ⟨d, rfl⟩ := writeBlock_setDst _ _ _ _ _ _ _ hw
    obtain ⟨⟨n, d', rfl⟩, sp', k', rfl⟩ := ih _ _ h
    refine ⟨⟨m + n, d', ?_⟩, sp', k', rfl⟩
    rw [← State.advance_advance]
    rfl

/-- A chunk changes the cursor, `DST` and the transient registers (R221). -/
theorem runTile_ok (e : Nat) (s t : State) (h : runTile e s = .ok t) :
    ∃ c pos rest n d ep tep sp k, s.activity = .chunk c ∧ c.scan = pos :: rest ∧
      t = ((s.advance n).setDst d).setActivity (.chunk { c with ep := ep, tep := tep, sp := sp, k := k }) := by
  unfold runTile at h
  split at h
  · cases h
  · cases h
  · cases h
  · rename_i c hc
    split at h
    · cases h
    · rename_i pos rest hpos
      obtain ⟨⟨c1, u⟩, hu, h⟩ := (attempt_bind_ok _ _ _).1 h
      obtain ⟨⟨c2, v⟩, hv, h⟩ := (attempt_bind_ok _ _ _).1 h
      cases h
      obtain ⟨⟨m, rfl⟩, ep, tep, rfl⟩ := decodeTileEndpoints_ok _ _ _ _ _ _ hu
      obtain ⟨⟨n, d, rfl⟩, sp, k, rfl⟩ := subBlocks_ok _ _ _ _ _ _ _ hv
      exact ⟨c, pos, rest, m + n, d, ep, tep, sp, k, hc, hpos, by rw [← State.advance_advance]⟩

/-- What `NextChunkEncoding` can do (R233). -/
theorem fetchChunk_ok (c : ChunkState) (s t : State) (i : Instr) (h : fetchChunk c s = .ok (i, t)) :
    ∃ ceb n, refillEncodings c s = .ok (ceb, s.advance n) ∧ decode .chunkenc (ceb &&& 7).toNat = some i ∧
      t = (s.advance n).setActivity (.chunk { c with ceb := ceb >>> 3 }) := by
  obtain ⟨⟨ceb, u⟩, hu, h⟩ := (attempt_bind_ok _ _ _).1 h
  have hadv : ∃ n, u = s.advance n := by
    unfold refillEncodings at hu
    split at hu
    · obtain ⟨⟨v, w⟩, hw, hu⟩ := (attempt_bind_ok _ _ _).1 hu
      obtain ⟨n, rfl⟩ := decodeSlot_advance _ _ _ _ hw
      simp only at hu
      split at hu
      · cases hu
      · cases hu
        exact ⟨n, rfl⟩
    · cases hu
      exact ⟨0, rfl⟩
  obtain ⟨n, rfl⟩ := hadv
  simp only at h
  split at h
  · rename_i j hj
    cases h
    exact ⟨ceb, n, hu, hj, rfl⟩
  · cases h

/-- After a chunk the command ends or the scan moves on. -/
theorem retireChunk_ok (c : ChunkState) (s t : State) (h : retireChunk c s = .ok t) :
    (c.scan.tail = [] ∧ t = s.setActivity .idle) ∨
      (c.scan.tail ≠ [] ∧ t = s.setActivity (.chunk { c with scan := c.scan.tail })) := by
  unfold retireChunk at h
  split at h
  · rename_i hs
    cases h
    exact .inl ⟨hs, rfl⟩
  · rename_i pos rest hs
    cases h
    exact .inr ⟨by simp [hs], by rw [hs]⟩

/-! ### Reference groups -/

theorem loadGroup_ok (pos : BlockPos) (g g' : RefState) (s t : State) (h : loadGroup pos g s = .ok (g', t)) :
    (∃ n, t = s.advance n) ∧ ∃ rg, g' = { g with rg := rg } := by
  unfold loadGroup at h
  split at h
  · obtain ⟨⟨v, u⟩, hu, h⟩ := (attempt_bind_ok _ _ _).1 h
    obtain ⟨n, rfl⟩ := decodeSlot_advance _ _ _ _ hu
    simp only at h
    split at h
    · cases h
    · cases h
      exact ⟨⟨n, rfl⟩, _, rfl⟩
  · cases h
    exact ⟨⟨0, rfl⟩, g.rg, rfl⟩

/-- The column cache has `COL_SIZE` entries, all zero, when the command starts and when a face starts (00_scope.md R12,
10_state.md R45, 44_unpack_refgroup.md R264). -/
theorem columns_start (s : State) (g : RefState) (f : Nat) :
    (initRefgrp s).col = List.replicate 16384 ColEntry.zero ∧
    (enterFace ⟨f, 0, 0⟩ g).col = List.replicate 16384 ColEntry.zero := ⟨rfl, rfl⟩

/-- Setting an entry keeps the number of entries. -/
@[simp] theorem setColumn_length (g : RefState) (x : Nat) (e : ColEntry) : (g.setColumn x e).col.length = g.col.length :=
  List.length_set

/-- Fetching a sub-code moves the cursor and sets the group register and the column cache (R264, R265). -/
theorem fetchRef_ok (g : RefState) (s t : State) (i : Instr) (h : fetchRef g s = .ok (i, t)) :
    ∃ n rg col diag, t = (s.advance n).setActivity (.refgrp { g with rg := rg, col := col, diag := diag }) := by
  unfold fetchRef at h
  split at h
  · cases h
  · rename_i pos rest hpos
    obtain ⟨⟨g1, u⟩, hu, h⟩ := (attempt_bind_ok _ _ _).1 h
    obtain ⟨⟨n, rfl⟩, rg, rfl⟩ := loadGroup_ok _ _ _ _ _ hu
    simp only at h
    split at h
    · cases h
      have henter : ∃ col diag, enterFace pos g = { g with col := col, diag := diag } := by
        unfold enterFace
        split
        · exact ⟨_, _, rfl⟩
        · exact ⟨g.col, g.diag, rfl⟩
      obtain ⟨col, diag, he⟩ := henter
      refine ⟨n, ?_⟩
      unfold subCode
      split
      · exact ⟨_, _, diag, by rw [he]; rfl⟩
      · exact ⟨rg, col, diag, by rw [he]⟩
    · cases h

theorem freshDelta_ok (ps : List Plane) (g g' : RefState) (s t : State) (h : freshDelta g s ps = .ok (g', t)) :
    (∃ n, t = s.advance n) ∧ ∃ ep, g' = { g with ep := ep } := by
  induction ps generalizing g s with
  | nil =>
    cases h
    exact ⟨⟨0, rfl⟩, _, rfl⟩
  | cons p rest ih =>
    obtain ⟨⟨ep, u⟩, hu, h⟩ := (attempt_bind_ok _ _ _).1 h
    obtain ⟨d, hd, rfl⟩ := (decodeEndpoint_ok _ _ _ _ _).1 hu
    obtain ⟨m, rfl⟩ := decodeSlot_advance _ _ _ _ hd
    obtain ⟨⟨n, rfl⟩, ep', rfl⟩ := ih _ _ h
    exact ⟨⟨m + n, State.advance_advance _ _ _⟩, ep', rfl⟩

/-- A sub-code's change, then the column keeps the indices (R266). -/
theorem applyReference_ok (change : BlockPos → List Plane → RefState → State → Attempt (RefState × State)) (s t : State) :
    applyReference change s = .ok t ↔ ∃ g pos rest g' u, s.activity = .refgrp g ∧ g.scan = pos :: rest ∧
      change pos (s.planes .refgrp) g s = .ok (g', u) ∧
      t = u.setActivity (.refgrp (cacheIndices (u.planes .refgrp) pos.x g')) := by
  unfold applyReference
  split
  · rename_i h
    simp [refuseWith, h]
  · rename_i h
    simp [refuseWith, h]
  · rename_i h
    simp [refuseWith, h]
  · rename_i g hg
    split
    · rename_i hs
      simp [refuseWith, hg, hs]
    · rename_i pos rest hs
      rw [attempt_bind_ok]
      constructor
      · rintro ⟨⟨g', u⟩, hc, h⟩
        cases h
        exact ⟨g, pos, rest, g', u, hg, hs, hc, rfl⟩
      · rintro ⟨g1, pos1, rest1, g', u, h1, h2, hc, rfl⟩
        rw [hg] at h1
        cases h1
        rw [hs] at h2
        cases h2
        exact ⟨(g', u), hc, rfl⟩

/-- One selector of a block of the reference-group scheme (R268). -/
theorem decodeSelectorRG_ok (p : Plane) (sp sp' si si' : PlaneRegs) (s t : State)
    (h : decodeSelectorRG p sp si s = .ok (sp', si', t)) :
    ∃ v, decodeSlot p.selSlot s = .ok (v, t) ∧
      ((s.cfg.rgSelDelta = true ∧ sp' = sp.set p (deltaIndex (sp.get p) v (s.selCount p)) ∧ si' = si.set p (sp'.get p)) ∨
       (s.cfg.rgSelDelta = false ∧ v < s.selCount p ∧ sp' = sp ∧ si' = si.set p (BitVec.ofNat 16 v))) := by
  unfold decodeSelectorRG at h
  split at h
  · rename_i hr
    obtain ⟨⟨sp1, u⟩, hu, h⟩ := (attempt_bind_ok _ _ _).1 h
    cases h
    obtain ⟨d, hd, rfl⟩ := (decodeSelectorDelta_ok _ _ _ _ _).1 hu
    exact ⟨d, hd, .inl ⟨hr, rfl, rfl⟩⟩
  · rename_i hr
    obtain ⟨⟨v, u⟩, hu, h⟩ := (attempt_bind_ok _ _ _).1 h
    obtain ⟨n, rfl⟩ := decodeSlot_advance _ _ _ _ hu
    simp only at h
    split at h
    · cases h
    · rename_i hlt
      cases h
      exact ⟨v, hu, .inr ⟨by simpa using hr, by simpa [State.selCount] using hlt, rfl, rfl⟩⟩

theorem decodeSelectorsRG_ok (ps : List Plane) (sp sp' si si' : PlaneRegs) (s t : State)
    (h : decodeSelectorsRG sp si s ps = .ok (sp', si', t)) : ∃ n, t = s.advance n := by
  induction ps generalizing sp si s with
  | nil =>
    cases h
    exact ⟨0, rfl⟩
  | cons p rest ih =>
    obtain ⟨⟨sp1, si1, u⟩, hu, h⟩ := (attempt_bind_ok _ _ _).1 h
    obtain ⟨v, hv, -⟩ := decodeSelectorRG_ok _ _ _ _ _ _ _ hu
    obtain ⟨m, rfl⟩ := decodeSlot_advance _ _ _ _ hv
    obtain ⟨n, rfl⟩ := ih _ _ _ h
    exact ⟨m + n, State.advance_advance _ _ _⟩

/-- The end of a block: its selectors are decoded, it is written if it is visible, and the scan moves on. -/
theorem retireRef_ok (g : RefState) (s t : State) (h : retireRef g s = .ok t) :
    ∃ pos rest n sp si d, g.scan = pos :: rest ∧
      decodeSelectorsRG g.sp PlaneRegs.zero s (s.planes .refgrp) = .ok (sp, si, s.advance n) ∧
      writeBlock pos.f pos.x pos.y g.ep si (s.advance n) = .ok ((s.advance n).setDst d) ∧
      t = nextBlock { g with sp := sp } ((s.advance n).setDst d) := by
  unfold retireRef at h
  split at h
  · cases h
  · rename_i pos rest hs
    obtain ⟨⟨sp, si, u⟩, hu, h⟩ := (attempt_bind_ok _ _ _).1 h
    obtain ⟨v, hv, h⟩ := (attempt_bind_ok _ _ _).1 h
    cases h
    obtain ⟨n, rfl⟩ := decodeSelectorsRG_ok _ _ _ _ _ _ _ hu
    obtain ⟨d, rfl⟩ := writeBlock_setDst _ _ _ _ _ _ _ hv
    exact ⟨pos, rest, n, sp, si, d, hs, hu, hv, rfl⟩

theorem nextBlock_cases (g : RefState) (s : State) :
    (g.scan.tail = [] ∧ nextBlock g s = s.setActivity .idle) ∨
      (g.scan.tail ≠ [] ∧ nextBlock g s = s.setActivity (.refgrp { g with scan := g.scan.tail })) := by
  unfold nextBlock
  split
  · rename_i h
    exact .inl ⟨h, rfl⟩
  · rename_i pos rest h
    exact .inr ⟨by simp [h], by rw [h]⟩

/-! ### One event, and the run to the end -/

/-- One event is a fetch, the event's body and what follows it. -/
theorem oneEvent_ok (s t : State) :
    oneEvent s = .ok t ↔ ∃ i u v, fetchEvent s = .ok (i, u) ∧ eventBody i u = .ok v ∧ retireEvent v = .ok t := by
  unfold oneEvent
  rw [attempt_bind_ok]
  constructor
  · rintro ⟨⟨i, u⟩, hf, h⟩
    obtain ⟨v, hv, h⟩ := (attempt_bind_ok _ _ _).1 h
    exact ⟨i, u, v, hf, hv, h⟩
  · rintro ⟨i, u, v, hf, hv, h⟩
    exact ⟨(i, u), hf, (attempt_bind_ok _ _ _).2 ⟨v, hv, h⟩⟩

/-- A run of events is empty, or an event and a shorter run. -/
theorem runEvents_ok (s t : State) (bound : Nat) (h : runEvents s bound = .ok t) :
    t = s ∨ ∃ b u, bound = b + 1 ∧ s.activity ≠ .idle ∧ oneEvent s = .ok u ∧ runEvents u b = .ok t := by
  cases bound with
  | zero =>
    cases h
    exact .inl rfl
  | succ b =>
    unfold runEvents at h
    split at h
    · cases h
      exact .inl rfl
    all_goals
      rename_i hs
      obtain ⟨u, hu, h⟩ := (attempt_bind_ok _ _ _).1 h
      exact .inr ⟨b, u, rfl, by simp [hs], hu, h⟩

/-- What holds at the start of a run and is kept by every event holds at its end. -/
theorem runEvents_induct (P : State → Prop) (hstep : ∀ s t, P s → oneEvent s = .ok t → P t) (bound : Nat) (s t : State)
    (h0 : P s) (h : runEvents s bound = .ok t) : P t := by
  induction bound generalizing s with
  | zero =>
    cases h
    exact h0
  | succ b ih =>
    rcases runEvents_ok _ _ _ h with rfl | ⟨b', u, hb, -, hu, h⟩
    · exact h0
    · cases hb
      exact ih u (hstep s u h0 hu) h

end Sys2Proof.Machine
end

