-- ==== Sys2Proof/Laws/Command.lean ====
section
/-! SUPPORT. What each command can do when it answers a next state, what a failed command leaves behind, what the checks of
an unpack command mean, and the cases of a step. -/

namespace Sys2Proof.Machine

open Sys2Proof

/-! ### What a failed command leaves behind (spec/60_exceptions.md R352 to R355) -/

theorem failDecode_eq (i : Instr) (s : State) (c : ErrCode) : failDecode i s c =
    { s.raiseError (cmdWord i) c with
      br := { s.br with valid := false, atReset := false, bitpos := Config.free s.freeCtr 0 }
      freeCtr := s.freeCtr + 1 } := rfl

theorem rejectModelRx_eq (slot : Nat) (s : State) (c : ErrCode) : rejectModelRx slot s c =
    { s.raiseError (cmdWord (.modelRx slot)) c with
      models := s.models.setIfInBounds slot none, cl := freeLengths s.cl s.freeCtr, freeCtr := s.freeCtr + 1 } := rfl

theorem failModelRx_eq (slot : Nat) (s : State) (c : ErrCode) : failModelRx slot s c =
    { s.raiseError (cmdWord (.modelRx slot)) c with
      models := s.models.setIfInBounds slot none, activity := .idle, cl := freeLengths s.cl s.freeCtr
      br := { s.br with valid := false, atReset := false, bitpos := Config.free (s.freeCtr + 1) 0 }
      freeCtr := s.freeCtr + 2 } := rfl

theorem failUnpack_eq (i : Instr) (s : State) (c : ErrCode) : failUnpack i s c =
    { s.raiseError (cmdWord i) c with
      activity := .idle, dst := Memory.forgetBelow s.dst s.faceBytes
      br := { s.br with valid := false, atReset := false, bitpos := Config.free s.freeCtr 0 }
      freeCtr := s.freeCtr + 1 } := rfl

/-- An error of a running command ends it. -/
theorem abortRunning_idle (s : State) (c : ErrCode) : (abortRunning s c).activity = .idle := by
  unfold abortRunning
  split
  · assumption
  all_goals rfl

/-! ### The checks of an unpack command (spec/43_unpack_chunk.md R223) -/

/-- What holds when every check has passed. -/
theorem checkUnpack_none (sch : Scheme) (s : State) : checkUnpack sch s = none ↔
    s.br.valid = true ∧ hasUnpack s.cfg s.fmt = true ∧
    (∀ k ∈ needSlots (s.planes sch), s.modelValid k = true) ∧ (s.faces.toNat = 1 ∨ s.faces.toNat = 6) ∧
    0 < s.lvlW.toNat ∧ 0 < s.lvlH.toNat ∧ (∀ p ∈ s.planes sch, 0 < s.epCount p ∧ 0 < s.selCount p) ∧
    s.bx * s.bpb ≤ s.rowPitch.toNat ∧ s.rowPitch.toNat * s.by' ≤ s.dstSize.toNat ∧
    s.faces.toNat * s.dstSize.toNat ≤ s.cfg.dstMemSize := by
  have hslots : (needSlots (s.planes sch)).any (fun k => !s.modelValid k) = false ↔
      ∀ k ∈ needSlots (s.planes sch), s.modelValid k = true := by
    simp [List.any_eq_false]
  have hcounts : (s.planes sch).any (fun p => s.epCount p == 0 || s.selCount p == 0) = false ↔
      ∀ p ∈ s.planes sch, 0 < s.epCount p ∧ 0 < s.selCount p := by
    simp [List.any_eq_false, Nat.pos_iff_ne_zero]
  unfold checkUnpack
  rw [← hslots, ← hcounts]
  by_cases h1 : s.br.valid = false
  · simp [h1]
  by_cases h2 : hasUnpack s.cfg s.fmt = false
  · simp [h1, h2]
  by_cases h3 : (needSlots (s.planes sch)).any (fun k => !s.modelValid k) = true
  · simp [h1, h2, h3]
  by_cases h4 : s.faces.toNat ≠ 1 ∧ s.faces.toNat ≠ 6
  · rw [if_neg h1, if_neg h2, if_neg h3, if_pos h4]
    constructor
    · intro h
      cases h
    · rintro ⟨-, -, -, h, -⟩
      omega
  by_cases h5 : s.lvlW.toNat = 0 ∨ s.lvlH.toNat = 0
  · rw [if_neg h1, if_neg h2, if_neg h3, if_neg h4, if_pos h5]
    constructor
    · intro h
      cases h
    · rintro ⟨-, -, -, -, h, h', -⟩
      omega
  by_cases h6 : (s.planes sch).any (fun p => s.epCount p == 0 || s.selCount p == 0) = true
  · rw [if_neg h1, if_neg h2, if_neg h3, if_neg h4, if_neg h5, if_pos h6]
    constructor
    · intro h
      cases h
    · rintro ⟨-, -, -, -, -, -, h, -⟩
      rw [h6] at h
      cases h
  by_cases h7 : s.rowPitch.toNat < s.bx * s.bpb
  · rw [if_neg h1, if_neg h2, if_neg h3, if_neg h4, if_neg h5, if_neg h6, if_pos h7]
    constructor
    · intro h
      cases h
    · rintro ⟨-, -, -, -, -, -, -, h, -⟩
      omega
  by_cases h8 : s.dstSize.toNat < s.rowPitch.toNat * s.by' ∨ s.cfg.dstMemSize < s.faces.toNat * s.dstSize.toNat
  · rw [if_neg h1, if_neg h2, if_neg h3, if_neg h4, if_neg h5, if_neg h6, if_neg h7, if_pos h8]
    constructor
    · intro h
      cases h
    · rintro ⟨-, -, -, -, -, -, -, -, h, h'⟩
      omega
  · rw [if_neg h1, if_neg h2, if_neg h3, if_neg h4, if_neg h5, if_neg h6, if_neg h7, if_neg h8]
    refine ⟨fun _ => ⟨by simpa using h1, by simpa using h2, by simpa using h3, by omega, by omega, by omega,
      by simpa using h6, by omega, by omega, by omega⟩, fun _ => rfl⟩

/-! ### Commands -/

/-- `HUFF_BUILD`: ignored, or a slot number out of range, or the slot holds the model built, or a failure empties it. -/
theorem execHuffBuild_next (k n : Nat) (s t : State) (h : execHuffBuild k n s = .next t) :
    (s.err = true ∧ t = s) ∨
    (s.err = false ∧
      ((8 ≤ k ∧ t = s.raiseError (cmdWord (.huffBuild k n)) .operand) ∨
       (k < 8 ∧ ∃ m, buildFromCl n s = .ok m ∧ t = s.install k n m) ∨
       (k < 8 ∧ ∃ c, buildFromCl n s = .error (.error c) ∧
         t = (s.setModel k none).raiseError (cmdWord (.huffBuild k n)) c))) := by
  rcases (gate_next _ _ _).1 h with h | ⟨he, h⟩
  · exact .inl h
  · refine .inr ⟨he, ?_⟩
    by_cases hk : k < 8
    · rw [if_neg (by simp [slotOk, numModels, hk])] at h
      rcases (settle_next _ _ _).1 h with h' | ⟨c, h', rfl⟩
      · obtain ⟨m, hm, h'⟩ := (attempt_bind_ok _ _ _).1 h'
        cases h'
        exact .inr (.inl ⟨hk, m, hm, rfl⟩)
      · cases hb : buildFromCl n s with
        | ok m => rw [hb] at h'; cases h'
        | error e =>
          rw [hb] at h'
          cases h'
          exact .inr (.inr ⟨hk, c, rfl, rfl⟩)
    · rw [if_pos (by simp [slotOk, numModels, hk])] at h
      exact .inl ⟨by omega, ((raiseBy_next _ _ _ _).1 h).symm⟩

/-- `HUFF_DECODE`: ignored, a check that failed, a symbol read, or a failed decode. -/
theorem execHuffDecode_next (k : Nat) (s t : State) (h : execHuffDecode k s = .next t) :
    (s.err = true ∧ t = s) ∨
    (s.err = false ∧
      ((∃ c, t = s.raiseError (cmdWord (.huffDecode k)) c ∧
          (8 ≤ k ∨ s.br.valid = false ∨ s.model k = none)) ∨
       (k < 8 ∧ s.br.valid = true ∧ ∃ m, s.model k = some m ∧
         ((∃ p sym len, peek s 16 = .ok p ∧ decodePeek m p = .ok (sym, len) ∧
            t = (s.advance len).setResult (sym + len * 2 ^ 16)) ∨
          (∃ c, decodeSym m s = .error (.error c) ∧ t = failDecode (.huffDecode k) s c))))) := by
  rcases (gate_next _ _ _).1 h with h | ⟨he, h⟩
  · exact .inl h
  · refine .inr ⟨he, ?_⟩
    by_cases hk : k < 8
    · rw [if_neg (by simp [slotOk, numModels, hk])] at h
      by_cases hv : s.br.valid = false
      · rw [if_pos hv] at h
        exact .inl ⟨_, ((raiseBy_next _ _ _ _).1 h).symm, .inr (.inl hv)⟩
      · rw [if_neg hv] at h
        split at h
        · rename_i hm
          exact .inl ⟨_, ((raiseBy_next _ _ _ _).1 h).symm, .inr (.inr hm)⟩
        · rename_i m hm
          refine .inr ⟨hk, by simpa using hv, m, hm, ?_⟩
          rcases (settle_next _ _ _).1 h with h' | ⟨c, h', rfl⟩
          · obtain ⟨⟨r, u⟩, hr, h'⟩ := (attempt_bind_ok _ _ _).1 h'
            cases h'
            obtain ⟨p, hp, hd, rfl⟩ := (decodeSym_ok _ _ _ _).1 hr
            exact .inl ⟨p, r.1, r.2, hp, hd, rfl⟩
          · cases hd : decodeSym m s with
            | ok r => rw [hd] at h'; cases h'
            | error e =>
              rw [hd] at h'
              cases h'
              exact .inr ⟨c, rfl, rfl⟩
    · rw [if_pos (by simp [slotOk, numModels, hk])] at h
      exact .inl ⟨_, ((raiseBy_next _ _ _ _).1 h).symm, .inl (by omega)⟩

/-- `MODEL_RX`: ignored, a check that failed, the header read and the events run to their end, or a failure. -/
theorem execModelRx_next (k : Nat) (s t : State) (h : execModelRx k s = .next t) :
    (s.err = true ∧ t = s) ∨
    (s.err = false ∧
      ((8 ≤ k ∧ t = rejectModelRx k s .operand) ∨
       (k < 8 ∧ s.br.valid = false ∧ t = rejectModelRx k s .brNotStarted) ∨
       (k < 8 ∧ s.br.valid = true ∧
         ((∃ u, startModelRx k (s.setModel k none) = .ok u ∧ runToEnd u = .ok t) ∨ ∃ c, t = failModelRx k s c)))) := by
  rcases (gate_next _ _ _).1 h with h | ⟨he, h⟩
  · exact .inl h
  · refine .inr ⟨he, ?_⟩
    by_cases hk : k < 8
    · rw [if_neg (by simp [slotOk, numModels, hk])] at h
      by_cases hv : s.br.valid = false
      · rw [if_pos hv] at h
        cases h
        exact .inr (.inl ⟨hk, hv, rfl⟩)
      · rw [if_neg hv] at h
        refine .inr (.inr ⟨hk, by simpa using hv, ?_⟩)
        rcases (settle_next _ _ _).1 h with h | ⟨c, -, rfl⟩
        · obtain ⟨u, hu, h⟩ := (attempt_bind_ok _ _ _).1 h
          exact .inl ⟨u, hu, h⟩
        · exact .inr ⟨c, rfl⟩
    · rw [if_pos (by simp [slotOk, numModels, hk])] at h
      cases h
      exact .inl ⟨by omega, rfl⟩

/-- `UNPACK_CHUNK`: ignored, a check that failed, the events run to their end, a failure, or what a given `EtcUnpack`
does. -/
theorem execUnpackChunk_next (s t : State) (h : execUnpackChunk s = .next t) :
    (s.err = true ∧ t = s) ∨
    (s.err = false ∧
      ((∃ c, checkUnpack .chunk s = some c ∧ t = s.raiseError (cmdWord .unpackChunk) c) ∨
       (checkUnpack .chunk s = none ∧
         ((isEtc s.fmt = true ∧ runEtc .chunk s = .ok t) ∨
          (isEtc s.fmt = false ∧ runToEnd (s.setActivity (.chunk (initChunk s))) = .ok t) ∨
          ∃ c, t = failUnpack .unpackChunk s c)))) := by
  rcases (gate_next _ _ _).1 h with h | ⟨he, h⟩
  · exact .inl h
  · refine .inr ⟨he, ?_⟩
    split at h
    · rename_i c hc
      exact .inl ⟨c, hc, ((raiseBy_next _ _ _ _).1 h).symm⟩
    · rename_i hc
      refine .inr ⟨hc, ?_⟩
      rcases (settle_next _ _ _).1 h with h | ⟨c, -, rfl⟩
      · split at h
        · rename_i hf
          exact .inl ⟨hf, h⟩
        · rename_i hf
          exact .inr (.inl ⟨by simpa using hf, h⟩)
      · exact .inr (.inr ⟨c, rfl⟩)

/-- `UNPACK_REFGRP`, in the same way. -/
theorem execUnpackRefgrp_next (s t : State) (h : execUnpackRefgrp s = .next t) :
    (s.err = true ∧ t = s) ∨
    (s.err = false ∧
      ((∃ c, checkUnpack .refgrp s = some c ∧ t = s.raiseError (cmdWord .unpackRefgrp) c) ∨
       (checkUnpack .refgrp s = none ∧
         ((isEtc s.fmt = true ∧ runEtc .refgrp s = .ok t) ∨
          (isEtc s.fmt = false ∧ runToEnd (s.setActivity (.refgrp (initRefgrp s))) = .ok t) ∨
          ∃ c, t = failUnpack .unpackRefgrp s c)))) := by
  rcases (gate_next _ _ _).1 h with h | ⟨he, h⟩
  · exact .inl h
  · refine .inr ⟨he, ?_⟩
    split at h
    · rename_i c hc
      exact .inl ⟨c, hc, ((raiseBy_next _ _ _ _).1 h).symm⟩
    · rename_i hc
      refine .inr ⟨hc, ?_⟩
      rcases (settle_next _ _ _).1 h with h | ⟨c, -, rfl⟩
      · split at h
        · rename_i hf
          exact .inl ⟨hf, h⟩
        · rename_i hf
          exact .inr (.inl ⟨by simpa using hf, h⟩)
      · exact .inr (.inr ⟨c, rfl⟩)

/-! ### Steps -/

/-- The cases of a step: nothing pending, a command word, an illegal word, another host access, or a stream event. -/
theorem step_next (s t : State) (h : step s = .next t) :
    (s.activity = .idle ∧ s.pending = [] ∧ t = s) ∨
    (s.activity = .idle ∧ ∃ a rest, s.pending = a :: rest ∧
      ((∃ w i, commandWord a = some w ∧ decode .cw w.toNat = some i ∧ exec i { s with pending := rest } = .next t) ∨
       (∃ w, commandWord a = some w ∧ decode .cw w.toNat = none ∧
         illegalCommand w { s with pending := rest } = .next t) ∨
       (commandWord a = none ∧ hostAccess a { s with pending := rest } = .next t))) ∨
    (s.activity ≠ .idle ∧ stepEvent s = .next t) := by
  unfold step at h
  split at h
  · rename_i hi
    split at h
    · rename_i hp
      cases h
      exact .inl ⟨hi, hp, rfl⟩
    · rename_i a rest hp
      refine .inr (.inl ⟨hi, a, rest, hp, ?_⟩)
      unfold runHostAction at h
      split at h
      · rename_i hw
        exact .inr (.inr ⟨hw, h⟩)
      · rename_i w hw
        split at h
        · rename_i hd
          exact .inr (.inl ⟨w, hw, hd, h⟩)
        · rename_i i hd
          exact .inl ⟨w, i, hw, hd, h⟩
  all_goals
    rename_i hi
    exact .inr (.inr ⟨by simp [hi], h⟩)

/-- A host access that goes on was checked first, and then wrote, read or reset. -/
theorem hostAccess_next (a : HostAction) (s t : State) (h : hostAccess a s = .next t) :
    (∃ sp addr width v, a = .write sp addr width v ∧ checkAccess s sp addr width = .ok () ∧ t = hostStore s sp addr v) ∨
    (∃ sp addr width, a = .read sp addr width ∧ checkAccess s sp addr width = .ok () ∧
      t = { (hostLoad s sp addr).2 with busData := (hostLoad s sp addr).1 }) ∨
    (a = .hardReset ∧ t = s.hardReset) := by
  have hcheck : ∀ sp addr width u, afterCheck s (checkAccess s sp addr width) u = .next t →
      checkAccess s sp addr width = .ok () ∧ t = u := by
    intro sp addr width u h
    unfold afterCheck at h
    have hne : ∀ c, checkAccess s sp addr width ≠ .error (.error c) := by
      intro c
      unfold checkAccess
      split
      · simp [refuseWith]
      · split <;> simp
    cases hc : checkAccess s sp addr width with
    | ok x =>
      rw [hc] at h
      exact ⟨rfl, by cases h; rfl⟩
    | error e =>
      rw [hc] at h
      cases e with
      | error c => exact absurd hc (hne c)
      | fault f => cases h
      | refuse r => cases h
  unfold hostAccess at h
  split at h
  · rename_i sp addr width v
    obtain ⟨h1, h2⟩ := hcheck _ _ _ _ h
    exact .inl ⟨sp, addr, width, v, rfl, h1, h2⟩
  · rename_i sp addr width
    obtain ⟨h1, h2⟩ := hcheck _ _ _ _ h
    exact .inr (.inl ⟨sp, addr, width, rfl, h1, h2⟩)
  · cases h
    exact .inr (.inr ⟨rfl, rfl⟩)

end Sys2Proof.Machine
end

