-- ==== Sys2Proof/Laws/PerInstr.lean ====
section
/-! SUPPORT. One lemma for each instruction: its encoding fits the format it is coded in. -/

namespace Sys2Proof.Laws

/-- A well-formed instruction's encoding has no more bits than its format. -/
def FieldWidth.Statement (i : Instr) : Prop := i.wf = true → encode i < 2 ^ i.fmt.width

theorem FieldWidth.brStart : FieldWidth.Statement .brStart := fun _ => by decide

theorem FieldWidth.getbits (n : Nat) : FieldWidth.Statement (.getbits n) := by
  simp only [FieldWidth.Statement, Instr.wf, encode, packWord, Instr.fmt, Fmt.width, decide_eq_true_eq]
  omega

theorem FieldWidth.readbits (n : Nat) : FieldWidth.Statement (.readbits n) := by
  simp only [FieldWidth.Statement, Instr.wf, encode, packWord, Instr.fmt, Fmt.width, decide_eq_true_eq]
  omega

theorem FieldWidth.huffBuild (k n : Nat) : FieldWidth.Statement (.huffBuild k n) := by
  simp only [FieldWidth.Statement, Instr.wf, encode, packWord, Instr.fmt, Fmt.width, Bool.and_eq_true, decide_eq_true_eq]
  omega

theorem FieldWidth.huffDecode (k : Nat) : FieldWidth.Statement (.huffDecode k) := by
  simp only [FieldWidth.Statement, Instr.wf, encode, packWord, Instr.fmt, Fmt.width, decide_eq_true_eq]
  omega

theorem FieldWidth.modelRx (k : Nat) : FieldWidth.Statement (.modelRx k) := by
  simp only [FieldWidth.Statement, Instr.wf, encode, packWord, Instr.fmt, Fmt.width, decide_eq_true_eq]
  omega

theorem FieldWidth.unpackChunk : FieldWidth.Statement .unpackChunk := fun _ => by decide

theorem FieldWidth.unpackRefgrp : FieldWidth.Statement .unpackRefgrp := fun _ => by decide

theorem FieldWidth.nop : FieldWidth.Statement .nop := fun _ => by decide

theorem FieldWidth.clrErr : FieldWidth.Statement .clrErr := fun _ => by decide

theorem FieldWidth.softReset : FieldWidth.Statement .softReset := fun _ => by decide

theorem FieldWidth.bootLiteral015 (v : Nat) : FieldWidth.Statement (.bootLiteral015 v) := by
  simp only [FieldWidth.Statement, Instr.wf, encode, Instr.fmt, Fmt.width, decide_eq_true_eq]
  omega

theorem FieldWidth.bootLiteral16 : FieldWidth.Statement .bootLiteral16 := fun _ => by decide

theorem FieldWidth.bootZeroRunSmall : FieldWidth.Statement .bootZeroRunSmall := fun _ => by decide

theorem FieldWidth.bootZeroRunLarge : FieldWidth.Statement .bootZeroRunLarge := fun _ => by decide

theorem FieldWidth.bootRepeatSmall : FieldWidth.Statement .bootRepeatSmall := fun _ => by decide

theorem FieldWidth.bootRepeatLarge : FieldWidth.Statement .bootRepeatLarge := fun _ => by decide

theorem FieldWidth.refFreshDelta : FieldWidth.Statement .refFreshDelta := fun _ => by decide

theorem FieldWidth.refFromAbove : FieldWidth.Statement .refFromAbove := fun _ => by decide

theorem FieldWidth.refDiagonal : FieldWidth.Statement .refDiagonal := fun _ => by decide

theorem FieldWidth.refKeepRunning : FieldWidth.Statement .refKeepRunning := fun _ => by decide

theorem FieldWidth.tilePattern0 : FieldWidth.Statement .tilePattern0 := fun _ => by decide

theorem FieldWidth.tilePattern1 : FieldWidth.Statement .tilePattern1 := fun _ => by decide

theorem FieldWidth.tilePattern2 : FieldWidth.Statement .tilePattern2 := fun _ => by decide

theorem FieldWidth.tilePattern3 : FieldWidth.Statement .tilePattern3 := fun _ => by decide

theorem FieldWidth.tilePattern4 : FieldWidth.Statement .tilePattern4 := fun _ => by decide

theorem FieldWidth.tilePattern5 : FieldWidth.Statement .tilePattern5 := fun _ => by decide

theorem FieldWidth.tilePattern6 : FieldWidth.Statement .tilePattern6 := fun _ => by decide

theorem FieldWidth.tilePattern7 : FieldWidth.Statement .tilePattern7 := fun _ => by decide

end Sys2Proof.Laws
end

