-- ==== Sys2Proof/Tests/Slice0.lean ====
section
/-! SUPPORT. The session's own tests. First the checks of well-formedness and words written out from the encodings of
spec/30_encoding.md; then one step of each instruction, the expected values from spec/95_test_vectors.md (V, P) or worked by
hand from the rule named; then, for each statement with hypotheses, a state and operands that meet them. -/

namespace Sys2Proof.Tests

-- One theorem after another: each evaluates in the kernel, and every one that waits for its turn would hold a stack.
set_option Elab.async false

open Sys2Proof Sys2Proof.Machine

/-! ### Ill-formed terms (each operand one above its field) -/

theorem test_wf_getbits : (Instr.getbits 64).wf = false := by decide
theorem test_wf_readbits : (Instr.readbits 64).wf = false := by decide
theorem test_wf_huffBuild_slot : (Instr.huffBuild 256 0).wf = false := by decide
theorem test_wf_huffBuild_count : (Instr.huffBuild 0 16384).wf = false := by decide
theorem test_wf_huffDecode : (Instr.huffDecode 256).wf = false := by decide
theorem test_wf_modelRx : (Instr.modelRx 256).wf = false := by decide
theorem test_wf_bootLiteral015 : (Instr.bootLiteral015 16).wf = false := by decide

/-! ### Decoding: R92 to R102 (bits `OP` `A` `B`), R109, R114, R112 -/

theorem test_decode_brStart : decode .cw 0b00000001_00000000_0000000000000000 = some .brStart := by decide
theorem test_decode_getbits : decode .cw 0b00000010_00000000_0000000000010000 = some (.getbits 16) := by decide
theorem test_decode_readbits : decode .cw 0b00000011_00000000_0000000000100001 = some (.readbits 33) := by decide
theorem test_decode_huffBuild : decode .cw 0b00000100_00000101_0010000000000001 = some (.huffBuild 5 8193) := by decide
theorem test_decode_huffDecode : decode .cw 0b00000101_00000011_0000000000000000 = some (.huffDecode 3) := by decide
theorem test_decode_modelRx : decode .cw 0b00000110_11111111_0000000000000000 = some (.modelRx 255) := by decide
theorem test_decode_unpackChunk : decode .cw 0b00000111_00000000_0000000000000000 = some .unpackChunk := by decide
theorem test_decode_unpackRefgrp : decode .cw 0b00001000_00000000_0000000000000000 = some .unpackRefgrp := by decide
theorem test_decode_nop : decode .cw 0b00001101_00000000_0000000000000000 = some .nop := by decide
theorem test_decode_clrErr : decode .cw 0b00001110_00000000_0000000000000000 = some .clrErr := by decide
theorem test_decode_softReset : decode .cw 0b00001111_00000000_0000000000000000 = some .softReset := by decide
theorem test_decode_bootLiteral015 : decode .bootsym 0b01111 = some (.bootLiteral015 15) := by decide
theorem test_decode_bootLiteral16 : decode .bootsym 0b10000 = some .bootLiteral16 := by decide
theorem test_decode_bootZeroRunSmall : decode .bootsym 0b10001 = some .bootZeroRunSmall := by decide
theorem test_decode_bootZeroRunLarge : decode .bootsym 0b10010 = some .bootZeroRunLarge := by decide
theorem test_decode_bootRepeatSmall : decode .bootsym 0b10011 = some .bootRepeatSmall := by decide
theorem test_decode_bootRepeatLarge : decode .bootsym 0b10100 = some .bootRepeatLarge := by decide
theorem test_decode_refFreshDelta : decode .subcode 0b00 = some .refFreshDelta := by decide
theorem test_decode_refFromAbove : decode .subcode 0b01 = some .refFromAbove := by decide
theorem test_decode_refDiagonal : decode .subcode 0b10 = some .refDiagonal := by decide
theorem test_decode_refKeepRunning : decode .subcode 0b11 = some .refKeepRunning := by decide
theorem test_decode_tilePattern0 : decode .chunkenc 0b000 = some .tilePattern0 := by decide
theorem test_decode_tilePattern1 : decode .chunkenc 0b001 = some .tilePattern1 := by decide
theorem test_decode_tilePattern2 : decode .chunkenc 0b010 = some .tilePattern2 := by decide
theorem test_decode_tilePattern3 : decode .chunkenc 0b011 = some .tilePattern3 := by decide
theorem test_decode_tilePattern4 : decode .chunkenc 0b100 = some .tilePattern4 := by decide
theorem test_decode_tilePattern5 : decode .chunkenc 0b101 = some .tilePattern5 := by decide
theorem test_decode_tilePattern6 : decode .chunkenc 0b110 = some .tilePattern6 := by decide
theorem test_decode_tilePattern7 : decode .chunkenc 0b111 = some .tilePattern7 := by decide

/-- A must-be-zero bit, an unused operation code and the all-zero word are no commands (R104, V30a). -/
theorem test_decode_illegal :
    decode .cw 0x04004001 = none ∧ decode .cw 0x09000000 = none ∧ decode .cw 0x10000000 = none ∧
    decode .cw 0x02000040 = none ∧ decode .cw 0x0E000001 = none ∧ decode .cw 0 = none ∧ decode .bootsym 21 = none := by
  decide

/-- The rows of one byte share their values (log 16): 8 to 20 are bootstrap symbols, the rest chunk encodings. -/
theorem test_decodeTableWord :
    decodeTableWord 8 20 = some .bootRepeatLarge ∧ decodeTableWord 8 8 = some (.bootLiteral015 8) ∧
    decodeTableWord 8 7 = some .tilePattern7 ∧ decodeTableWord 32 0x0D000000 = some .nop := by decide

/-! ### States for the tests -/

/-- The next state of an outcome, if it is one. -/
def nextOf (o : Host.Outcome State Fault Refusal) : Option State :=
  match o with
  | .next s => some s
  | .fault _ => none
  | .refused _ => none

/-- A field of the state after one instruction. -/
def after {α : Type} (i : Instr) (s : State) (f : State → α) : Option α := (nextOf (exec i s)).map f

/-- Memory entries from address 0 on. -/
def entries (w : Nat) (l : List Nat) : Memory w := l.zipIdx.map fun e => (e.2, BitVec.ofNat w e.1)

/-- The reader started on these bytes. -/
def started (bytes : List Nat) : State :=
  { State.reset with src := entries 8 bytes, br := ⟨0, BitVec.ofNat 32 bytes.length, 0, true, false⟩ }

/-- The model of these code lengths. -/
def modelFor (lens : List Nat) : Model :=
  match build lens.length lens with
  | .ok m => m
  | .error _ => modelOf 0 [] []

/-- `n` zero lengths but for length 1 at `sym`: the symbol's code is `0`. -/
def only (n sym : Nat) : List Nat := (List.replicate n 0).set sym 1

/-- `s` with these models in slots 0 and up. -/
def slots (s : State) (ls : List (List Nat)) : State :=
  ls.zipIdx.foldl (fun s e => s.setModel e.2 (some (modelFor e.1))) s

/-- A `DXT1` level of 4 by 4 pixels over one-entry palettes, as program P4 sets it up. -/
def oneBlock (bytes : List Nat) : State :=
  { slots (started bytes) [[1], [1], [1]] with
    faces := 1, lvlW := 4, lvlH := 4, rowPitch := 8, dstSize := 8, ceCount := 1, csCount := 1
    ce := entries 32 [0x12345678], cs := entries 32 [0x9ABCDEF0] }

/-- The palettes of V53 to V55 and a 16-byte-block level of 4 by 4 pixels. -/
def alphaBlock (fmt : BitVec 4) (slot0 : List Nat) (bytes : List Nat) : State :=
  { slots (started bytes) [slot0, [1, 1], [1, 1], [1, 1], [1, 1]] with
    format := fmt, faces := 1, lvlW := 4, lvlH := 4, rowPitch := 16, dstSize := 16
    ceCount := 2, csCount := 2, aeCount := 2, asCount := 2
    ce := entries 32 [0x01020304, 0x05060708], cs := entries 32 [0x0A0B0C0D, 0x0E0F1011]
    ae := entries 16 [0x1122, 0x3344], aSel := entries 16 [0xA1A2, 0xB1B2, 0xC1C2, 0xD1D2, 0xE1E2, 0xF1F2] }

/-- The bytes of `DST` from address 0 on. -/
def dstBytes (s : State) (n : Nat) : List (Option Nat) :=
  (List.range n).map fun a => (Memory.read s.dst a).map BitVec.toNat

/-- A running `MODEL_RX` into slot 2 of a model of `n` symbols at offset `ofs`, on these stream bytes. -/
def receiving (bytes : List Nat) (n ofs : Nat) (lens : List Nat) : State :=
  { started bytes with activity := .rx ⟨2, n, oneSymbolModel 0, ofs⟩, cl := entries 8 lens }

/-- A running `UNPACK_CHUNK` at its one chunk; the image shows all four blocks. -/
def chunked (bytes : List Nat) : State :=
  { slots (started bytes) [[1], [1, 1], [1, 1]] with
    faces := 1, lvlW := 8, lvlH := 8, rowPitch := 16, dstSize := 32, ceCount := 5, csCount := 2
    ce := entries 32 [0x10, 0x11, 0x12, 0x13, 0x14], cs := entries 32 [0x20, 0x21]
    activity := .chunk ⟨1, ⟨0, 0, 0⟩, ⟨0, 0, 0⟩, TileRegs.zero, 0, [⟨0, 0, 0⟩]⟩ }

/-- The low byte of the endpoint entry of each of the four blocks of `chunked`. -/
def cornerEndpoints (s : State) : List (Option Nat) :=
  [0, 8, 16, 24].map fun a => (Memory.read s.dst a).map BitVec.toNat

/-- A running `UNPACK_REFGRP` of `DXT1` at column 1 of row 1: the running index is 2, the block above used 3. -/
def referring (bytes : List Nat) : State :=
  { slots (started bytes) [[1], [1, 1], [1, 1]] with
    faces := 1, lvlW := 8, lvlH := 8, rowPitch := 16, dstSize := 32, ceCount := 4, csCount := 2
    activity := .refgrp ⟨0, ⟨2, 0, 0⟩, ⟨0, 0, 0⟩, [⟨⟨1, 0, 0⟩, 0⟩, ⟨⟨3, 0, 0⟩, 2⟩], 0, [⟨0, 1, 1⟩]⟩ }

/-- The running color index and the color indices the columns keep. -/
def colorIndices (s : State) : Option (Nat × List Nat) :=
  match s.activity with
  | .refgrp g => some (g.ep.c.toNat, g.col.map fun e => e.idx.c.toNat)
  | .idle => none
  | .rx _ => none
  | .chunk _ => none

/-- The write offset of a running `MODEL_RX`. -/
def offset (s : State) : Option Nat :=
  match s.activity with
  | .rx r => some r.ofs
  | .idle => none
  | .chunk _ => none
  | .refgrp _ => none

/-! ### One step of each instruction -/

/-- V13: the sum of base and length does not wrap. -/
theorem test_brStart_wrap :
    after .brStart { State.reset with arg0 := 0xFFFFFFFF, arg1 := 2 } (fun t => (t.errCode, t.br.valid)) =
      some (0x44, false) := by decide
/-- V6: the reader starts at `ARG0`. -/
theorem test_brStart :
    after .brStart { State.reset with arg0 := 1, arg1 := 2 } (fun t => (t.br.base, t.br.len, t.br.valid)) =
      some (1, 2, true) := by decide
/-- V5: eight real bits, then zeros. -/
theorem test_getbits_past_end :
    after (.getbits 12) (started [0xFF]) (fun t => (t.result, t.br.bitpos)) = some (0xFF0, 12) := by decide
/-- V9. -/
theorem test_getbits_operand :
    after (.getbits 17) (started [0xA5]) (fun t => (t.errCode, t.errInfo, t.br.bitpos, t.br.valid)) =
      some (0x44, 0x02000011, 0, true) := by decide
/-- V3. -/
theorem test_readbits :
    after (.readbits 20) (started [0x12, 0x34, 0x56, 0x78]) (fun t => (t.result, t.br.bitpos)) = some (0x12345, 20) := by
  decide
/-- V2. -/
theorem test_readbits_whole :
    after (.readbits 32) (started [0x12, 0x34, 0x56, 0x78]) (fun t => t.result) = some 0x12345678 := by decide
/-- V20. -/
theorem test_huffBuild :
    after (.huffBuild 5 4) { State.reset with cl := entries 8 [2, 1, 3, 3] }
      (fun t => ((t.model 5).map fun m => (m.sorted, m.rows.map LenRow.max16 |>.take 3), t.status, t.clCount)) =
      some (some ([1, 0, 2, 3], [some 0x7FFF, some 0xBFFF, some 0xFFFF]), 0x2000, 4) := by decide +kernel
/-- V22: the slot is left invalid. -/
theorem test_huffBuild_oversubscribed :
    after (.huffBuild 0 3) (slots { State.reset with cl := entries 8 [1, 1, 2] } [[1]])
      (fun t => (t.errCode, t.modelValid 0)) = some (0x24, false) := by decide +kernel
/-- V43. -/
theorem test_huffDecode :
    after (.huffDecode 0) (slots (started [0x80]) [[1, 0, 3]]) (fun t => (t.result, t.br.bitpos)) =
      some (0x00030002, 3) := by decide +kernel
/-- V44. -/
theorem test_huffDecode_invalid :
    after (.huffDecode 0) (slots (started [0xA0]) [[1, 0, 3]]) (fun t => (t.errCode, t.br.valid, t.result)) =
      some (0x31, false, 0) := by decide +kernel
/-- V32. -/
theorem test_modelRx :
    after (.modelRx 0) (started [0x00, 0x12, 0x60, 0x00, 0x00, 0x00, 0x00, 0x01, 0x08, 0x2E, 0x00])
      (fun t => (t.cl.map fun e => e.2.toNat, t.clCount, t.br.bitpos, (t.model 0).map Model.sorted)) =
      some ([2, 1, 3, 3], 4, 82, some [1, 0, 2, 3]) := by decide +kernel
/-- V3B: a repeat after a zero entry. -/
theorem test_modelRx_repeat_zero :
    after (.modelRx 0) (started [0x00, 0x18, 0xA0, 0x10, 0x50]) (fun t => (t.errCode, t.br.valid, t.modelValid 0)) =
      some (0x25, false, false) := by decide +kernel
/-- V53: `DXT5`, the alpha part first. -/
theorem test_unpackChunk_dxt5 :
    after .unpackChunk (alphaBlock 2 [1] [0x70, 0x00]) (fun t => (dstBytes t 16, t.br.bitpos)) =
      some ([0x44, 0x33, 0xD2, 0xD1, 0xE2, 0xE1, 0xF2, 0xF1, 0x08, 0x07, 0x06, 0x05, 0x0D, 0x0C, 0x0B, 0x0A].map some,
        11) := by decide +kernel
/-- V54: `DXN`, group code 0x34. -/
theorem test_unpackRefgrp_dxn :
    after .unpackRefgrp (alphaBlock 4 (only 64 0x34) [0x53, 0xE0]) (fun t => (dstBytes t 16, t.br.bitpos)) =
      some ([0x44, 0x33, 0xD2, 0xD1, 0xE2, 0xE1, 0xF2, 0xF1, 0x22, 0x11, 0xA2, 0xA1, 0xB2, 0xB1, 0xC2, 0xC1].map some,
        13) := by decide +kernel
/-- R321. -/
theorem test_nop : after .nop (started [0xA5]) (fun t => t == started [0xA5]) = some true := by decide
/-- R322. -/
theorem test_clrErr :
    after .clrErr { State.reset with err := true, errCode := 0x47, errInfo := 5, result := 9 }
      (fun t => (t.err, t.errCode, t.errInfo, t.result)) = some (false, 0, 0, 9) := by decide
/-- R323: registers reset, memories kept. -/
theorem test_softReset :
    after .softReset { started [0xA5] with err := true, format := 4 } (fun t => (t.status, t.format, t.br.valid, t.src)) =
      some (0, 0, false, [(0, 0xA5)]) := by decide
/-- R198. -/
theorem test_bootLiteral015 :
    after (.bootLiteral015 15) (receiving [0] 4 1 [2, 0]) (fun t => (t.cl, offset t)) =
      some ([(0, 2), (1, 15)], some 2) := by decide
/-- R198, symbol 16. -/
theorem test_bootLiteral16 :
    after .bootLiteral16 (receiving [0] 4 0 []) (fun t => (t.cl, offset t)) = some ([(0, 16)], some 1) := by decide
/-- R199: extra bits 101, a run of 8. -/
theorem test_bootZeroRunSmall :
    after .bootZeroRunSmall (receiving [0xA0] 20 2 []) (fun t => (offset t, t.br.bitpos)) = some (some 10, 3) := by decide
/-- V39: a run of 5 into room for 4. -/
theorem test_bootZeroRunSmall_overflow :
    after .bootZeroRunSmall (receiving [0x40] 4 0 []) (fun t => (t.errCode, t.br.valid, t.modelValid 2)) =
      some (0x22, false, false) := by decide
/-- R208: extra bits 0000000, a run of 11. -/
theorem test_bootZeroRunLarge :
    after .bootZeroRunLarge (receiving [0x00] 12 0 []) (fun t => (offset t, t.br.bitpos)) = some (some 11, 7) := by decide
/-- R209: extra bits 00, three copies. -/
theorem test_bootRepeatSmall :
    after .bootRepeatSmall (receiving [0x00] 20 1 [3]) (fun t => (t.cl.map fun e => e.2.toNat, offset t, t.br.bitpos)) =
      some ([3, 3, 3, 3], some 4, 2) := by decide
/-- V38: a repeat before any length. -/
theorem test_bootRepeatSmall_first :
    after .bootRepeatSmall (receiving [0x00] 4 0 []) (fun t => t.errCode) = some 0x25 := by decide
/-- R209: extra bits 000000, seven copies. -/
theorem test_bootRepeatLarge :
    after .bootRepeatLarge (receiving [0x00] 20 1 [5]) (fun t => (t.cl.map fun e => e.2.toNat, offset t, t.br.bitpos)) =
      some ([5, 5, 5, 5, 5, 5, 5, 5], some 8, 6) := by decide
/-- R266: delta 1 on the running index 2; the column keeps 3. -/
theorem test_refFreshDelta :
    after .refFreshDelta (referring [0x80]) (fun t => (colorIndices t, t.br.bitpos)) = some (some (3, [1, 3]), 1) := by
  decide +kernel
/-- R266: the index of the block above. -/
theorem test_refFromAbove :
    after .refFromAbove (referring [0]) (fun t => (colorIndices t, t.br.bitpos)) = some (some (3, [1, 3]), 0) := by
  decide +kernel
/-- R267: with no rule given the run is refused. -/
theorem test_refDiagonal_refused :
    exec .refDiagonal { referring [0] with cfg := { Config.default with diagRuleGiven := false } } =
      .refused .diagRuleNotGiven := rfl
/-- R266: the running index stays and the column keeps it. -/
theorem test_refKeepRunning :
    after .refKeepRunning (referring [0]) (fun t => (colorIndices t, t.br.bitpos)) = some (some (2, [1, 2]), 0) := by
  decide +kernel
/-- R226, all-ones stream: one endpoint delta, so every block uses entry 1. -/
theorem test_tilePattern0 :
    after .tilePattern0 (chunked [0xFF]) cornerEndpoints = some [some 0x11, some 0x11, some 0x11, some 0x11] := by
  decide +kernel
/-- Deltas of 1 make tile `i` use entry `i + 1`: the rows of R226 read as entries. -/
theorem test_tilePattern1 :
    after .tilePattern1 (chunked [0xFF]) cornerEndpoints = some [some 0x11, some 0x11, some 0x12, some 0x12] := by
  decide +kernel
theorem test_tilePattern2 :
    after .tilePattern2 (chunked [0xFF]) cornerEndpoints = some [some 0x11, some 0x12, some 0x11, some 0x12] := by
  decide +kernel
theorem test_tilePattern3 :
    after .tilePattern3 (chunked [0xFF]) cornerEndpoints = some [some 0x11, some 0x11, some 0x12, some 0x13] := by
  decide +kernel
theorem test_tilePattern4 :
    after .tilePattern4 (chunked [0xFF]) cornerEndpoints = some [some 0x12, some 0x13, some 0x11, some 0x11] := by
  decide +kernel
theorem test_tilePattern5 :
    after .tilePattern5 (chunked [0xFF]) cornerEndpoints = some [some 0x11, some 0x12, some 0x11, some 0x13] := by
  decide +kernel
theorem test_tilePattern6 :
    after .tilePattern6 (chunked [0xFF]) cornerEndpoints = some [some 0x12, some 0x11, some 0x13, some 0x11] := by
  decide +kernel
theorem test_tilePattern7 :
    after .tilePattern7 (chunked [0xFF]) cornerEndpoints = some [some 0x11, some 0x12, some 0x13, some 0x14] := by
  decide +kernel

/-! ### The ETC formats: a reconstruction as `runProgram` runs it (log 9) -/

/-- A symbol names a palette entry, which becomes the visible block; the block beside it is not visible. -/
def oneEntry (i : Nat) : EtcProgram :=
  .decode 0 fun v => .entry .ce (v + i) fun e =>
    .block 0 0 0 (fun j => BitVec.ofNat 8 (e / 256 ^ j)) (.block 0 1 0 (fun _ => 7) .done)

/-- R63: the visible block is written, the other is not. -/
theorem test_runProgram :
    (match runProgram (oneEntry 0) (oneBlock [0]) with
      | .ok t => some (dstBytes t 9, t.br.bitpos)
      | .error _ => none) =
      some ([0x78, 0x56, 0x34, 0x12, 0, 0, 0, 0].map some ++ [none], 1) := by decide +kernel
/-- An entry at the palette's count. -/
theorem test_runProgram_index : runProgram (oneEntry 1) (oneBlock [0]) = .error (.error .symValue) := by rfl

/-! ### Witnesses: a state and operands that meet all the hypotheses of each statement, clause by clause -/

/-- An instruction that answers a next state, from a field of that state. -/
theorem next_of_after {α : Type} {i : Instr} {s : State} {f : State → α} {v : α} (h : after i s f = some v) :
    ∃ t, exec i s = .next t ∧ f t = v := by
  unfold after at h
  cases he : exec i s with
  | next t => exact ⟨t, rfl, by simpa [he, nextOf] using h⟩
  | fault f => simp [he, nextOf] at h
  | refused r => simp [he, nextOf] at h

/-- The reset state with one host access pending. -/
def pending (a : HostAction) : State := { State.reset with pending := [a] }

/-- `pending` with an error recorded. -/
def erring (a : HostAction) : State := { pending a with err := true, errCode := 0x47, errInfo := 9 }

/-- `s` with a one-symbol model for each of its first five slots, its reader past the end of a written buffer. -/
def exhausted (s : State) : State :=
  { slots s [[1], [1], [1], [1], [1]] with src := entries 8 [0], br := ⟨0, 1, 8, true, false⟩ }

/-- 17 symbols: the shortest code has length 1, the longest 16. -/
def lens17 : List Nat := List.range' 1 16 ++ [16]

/-- The encoder's model of 42_model_rx.md R207: four symbols of lengths 2, 1, 3, 3. -/
def sent : Transmission :=
  ⟨List.replicate 14 0 ++ [1, 0, 2, 0, 2], [(2, 0), (1, 0), (3, 0), (3, 0)]⟩

theorem sourceWritten_started (bytes : List Nat) (h : (List.range bytes.length).all (fun i =>
    (Memory.read (entries 8 bytes) i).isSome) = true) (hl : bytes.length < 2 ^ 32) :
    (started bytes).sourceWritten := by
  intro i hi
  have hi' : i < bytes.length := by
    have : (BitVec.ofNat 32 bytes.length).toNat = bytes.length := by simp; omega
    rwa [show (started bytes).br.len = BitVec.ofNat 32 bytes.length from rfl, this] at hi
  have := List.all_eq_true.1 h i (List.mem_range.2 hi')
  simpa [started] using this

/-! #### Encodings and steps -/

theorem witness_DecodeEncodeAgree :
    (Instr.huffBuild 255 16383).wf = true ∧ (Instr.bootLiteral015 15).wf = true ∧ Instr.refDiagonal.wf = true ∧
    Instr.tilePattern7.wf = true := by decide

theorem witness_EncodeDecodeAgree :
    decode .cw 0x04FF3FFF = some (.huffBuild 255 16383) ∧ decode .bootsym 20 = some .bootRepeatLarge ∧
    decode .subcode 3 = some .refKeepRunning ∧ decode .chunkenc 7 = some .tilePattern7 := by decide

theorem witness_LegalWordsAreTheTableRows :
    decode .cw 0x0200003F = some (.getbits 63) ∧ decode .cw 0x0300003F = some (.readbits 63) ∧
    decode .cw 0x04FF3FFF = some (.huffBuild 255 16383) ∧ decode .cw 0x05FF0000 = some (.huffDecode 255) ∧
    decode .cw 0x06FF0000 = some (.modelRx 255) ∧ legalWord 0xFFFFFFFF = false := by decide

theorem witness_IllegalWordsRaise :
    (pending (.write .reg 0 32 0x02000040)).err = false ∧ legalWord 0x02000040 = false ∧
    (erring (.write .reg 0 32 0x0D000000)).err = true ∧ (erring (.write .reg 0 32 0x0D000000)).activity = .idle := by
  decide

theorem witness_ErrorGateHolds :
    (erring (.write .reg 0 32 0x0E000000)).err = true ∧
    (erring (.write .reg 0 32 0x0E000000)).pending = .write .reg 0 32 0x0E000000 :: [] ∧
    (erring (.write .reg 0 32 0x0F000000)).pending = .write .reg 0 32 0x0F000000 :: [] ∧
    (erring (.write .reg 0 32 0)).pending = .write .reg 0 32 0 :: [] := by decide

theorem witness_StepRunsTheCommand :
    (pending (.write .reg 0 32 0x06070000)).activity = .idle ∧
    (pending (.write .reg 0 32 0x06070000)).pending = .write .reg 0 32 0x06070000 :: [] ∧
    decode .cw (0x06070000 : Word).toNat = some (.modelRx 7) := by decide

/-- An event that goes on, one that faults and one that is refused. -/
theorem witness_StepRunsTheStreamEvent :
    (∃ u v t, fetchEvent (receiving [0x00] 4 0 []) = .ok (.bootLiteral015 0, u) ∧
      exec (.bootLiteral015 0) u = .next v ∧ retireEvent v = .ok t) ∧
    (∃ u, fetchEvent { receiving [0x00] 20 1 [] with activity := .rx ⟨2, 20, oneSymbolModel 19, 1⟩ } =
        .ok (.bootRepeatSmall, u) ∧
      exec .bootRepeatSmall u = .fault (.unwrittenRead .cl 0)) ∧
    ∃ u, fetchEvent { referring [0] with cfg := { Config.default with diagRuleGiven := false } } = .ok (.refDiagonal, u) ∧
      exec .refDiagonal u = .refused .diagRuleNotGiven :=
  ⟨⟨_, _, _, rfl, rfl, rfl⟩, ⟨_, rfl, rfl⟩, ⟨_, rfl, rfl⟩⟩

/-- A transmitted model on the wire. -/
def sentState : State := started [0x00, 0x12, 0x60, 0x00, 0x00, 0x00, 0x00, 0x01, 0x08, 0x2E, 0x00]

theorem witness_CommandsAreTheirEvents :
    ((oneBlock [0]).err = false ∧ (oneBlock [0]).dxtFormat ∧ (oneBlock [0]).firstCheck .chunk = none ∧
      ∃ t, exec .unpackChunk (oneBlock [0]) = .next t ∧ t.err = false) ∧
    ((oneBlock [0]).firstCheck .refgrp = none ∧ ∃ t, exec .unpackRefgrp (oneBlock [0]) = .next t ∧ t.err = false) ∧
    ∃ t u, startModelRx 7 (sentState.setModel 7 none) = .ok u ∧ exec (.modelRx 7) sentState = .next t ∧ t.err = false := by
  obtain ⟨t, ht, he⟩ := next_of_after (i := .modelRx 7) (s := sentState) (f := State.err) (v := false) (by decide +kernel)
  exact ⟨⟨rfl, .inl rfl, by decide +kernel, next_of_after (by decide +kernel)⟩,
    ⟨by decide +kernel, next_of_after (by decide +kernel)⟩, t, _, rfl, ht, he⟩

/-- A sound state with a host access still to come, and its step. -/
theorem witness_StepKeepsSound :
    (pending (.write .cl 8191 8 0xFF)).Sound ∧ ∃ t, step (pending (.write .cl 8191 8 0xFF)) = .next t := by
  refine ⟨⟨rfl, by decide, ⟨by decide, (nomatch ·)⟩, (nomatch ·), ?_, by decide⟩, _, rfl⟩
  intro k m h
  simp only [pending, State.model, State.reset, Vector.getElem?_replicate] at h
  split at h <;> cases h

theorem witness_StepKeepsParameters : ∃ t, step (pending .hardReset) = .next t := ⟨_, rfl⟩

theorem witness_CommandsStopOnlyAtUnwrittenMemory :
    (pending (.write .cl 8191 8 0xFF)).Sound ∧ (Instr.huffBuild 7 8192).fmt = .cw :=
  ⟨witness_StepKeepsSound.1, rfl⟩

theorem witness_NopChangesNothing :
    (pending (.write .reg 0 32 (wordOf 0x0D 0 1))).err = false ∧
    (pending (.write .reg 0 32 (wordOf 0x0D 0 (2 ^ 24 - 1)))).activity = .idle ∧
    (pending (.write .reg 0 32 (wordOf 0x0D 0 1))).pending = .write .reg 0 32 (wordOf 0x0D 0 1) :: [] := by decide

theorem witness_ResetClearsTheRegisters :
    (pending .hardReset).activity = .idle ∧ (pending .hardReset).pending = .hardReset :: [] := by decide

/-! #### The bit reader -/

theorem witness_BrStartStartsTheReader :
    (State.reset.err = false ∧ State.reset.arg1 = 0) ∧
    (let s := { State.reset with arg0 := 0xFFFFFFFF, arg1 := 2 }
     s.arg1 ≠ 0 ∧ s.cfg.srcSize < s.arg0.toNat + s.arg1.toNat) ∧
    let s := { State.reset with arg0 := 0xFFFFFFFF, arg1 := 1, src := [(0xFFFFFFFF, 0xA5)] }
    s.arg1 ≠ 0 ∧ s.arg0.toNat + s.arg1.toNat ≤ s.cfg.srcSize ∧ 7 / 8 < s.arg1.toNat ∧
      Memory.read s.src (s.arg0.toNat + 7 / 8) = some 0xA5 := by decide

theorem sourceWritten_two : (started [0xA5, 0xC3]).sourceWritten := sourceWritten_started _ (by decide) (by decide)

theorem witness_GetbitsReadsTheStream :
    (started [0xA5, 0xC3]).err = false ∧ 16 < 17 ∧ (16 ≤ 16 ∧ State.reset.br.valid = false) ∧
    (started [0xA5, 0xC3]).br.valid = true ∧ (started [0xA5, 0xC3]).bitsWritten 0 16 :=
  ⟨rfl, by decide, by decide, rfl, bitsWritten_of_sourceWritten _ _ _ sourceWritten_two⟩

theorem witness_ReadbitsReadsTheStream :
    (started [0xA5, 0xC3]).err = false ∧ 32 < 33 ∧ (32 ≤ 32 ∧ State.reset.br.valid = false) ∧
    (started [0xA5, 0xC3]).br.valid = true ∧ (started [0xA5, 0xC3]).bitsWritten 0 32 :=
  ⟨rfl, by decide, by decide, rfl, bitsWritten_of_sourceWritten _ _ _ sourceWritten_two⟩

theorem witness_ReadsPastTheEndGiveZero :
    let s := { started [0xA5] with br := ⟨0, 1, 8, true, false⟩ }
    s.err = false ∧ s.br.valid = true ∧ 8 * s.br.len.toNat ≤ s.br.bitpos := by decide

theorem witness_StreamCommandsNeedAReader : State.reset.err = false ∧ State.reset.br.valid = false := by decide

/-- A reader at bit 6 of two bytes of which the second is unwritten: bit 8 is the first bit nothing has written. -/
def halfWritten : State :=
  { slots State.reset [[1], [1], [1], [1], [1], [1], [1], [1]] with src := [(0, 0xA5)], br := ⟨0, 2, 6, true, false⟩ }

theorem witness_UnwrittenSourceFaults :
    (halfWritten.err = false ∧ halfWritten.br.valid = true ∧ halfWritten.br.bitpos ≤ 8 ∧
      8 / 8 < halfWritten.br.len.toNat ∧ Memory.read halfWritten.src (halfWritten.br.base.toNat + 8 / 8) = none ∧
      halfWritten.bitsWritten halfWritten.br.bitpos (8 - halfWritten.br.bitpos)) ∧
    (halfWritten.model 7).isSome = true ∧ 8 < halfWritten.br.bitpos + 3 ∧
    let s := { State.reset with br := ⟨0, 1, 7, true, false⟩ }
    s.br.bitpos / 8 < s.br.len.toNat ∧ Memory.read s.src (s.br.base.toNat + s.br.bitpos / 8) = none ∧
      s.bitsWritten s.br.bitpos (7 - s.br.bitpos) := by
  refine ⟨⟨rfl, rfl, by decide, by decide, by decide, ?_⟩, by decide, by decide, by decide, by decide, ?_⟩
  · intro p h1 h2 _
    have h1 : 6 ≤ p := h1
    have h2 : p < 8 := h2
    interval_cases p <;> decide
  · intro p h1 h2 _
    have h1 : 7 ≤ p := h1
    have h2 : p < 7 := h2
    omega

/-! #### Huffman models -/

theorem witness_HuffBuildInstallsTheModel :
    (∀ a, a < 4 → (Memory.read (entries 8 [2, 1, 3, 3]) a).isSome = true) ∧
    (∃ m, build 4 ((List.range 4).map (entryOf (entries 8 [2, 1, 3, 3]))) = .ok m) ∧
    (∀ a, a < 1 → (Memory.read (entries 8 [17]) a).isSome = true) ∧
    build 1 ((List.range 1).map (entryOf (entries 8 [17]))) = .error .modelCodelen ∧
    build 8193 ((List.range 8193).map (entryOf (entries 8 []))) = .error .modelTooMany :=
  ⟨by decide, ⟨_, rfl⟩, by decide, rfl, rfl⟩

theorem witness_BuildFailsInOrder :
    ([] : List Nat).length = 0 ∧ (List.replicate 8193 0).length = 8193 ∧ (∃ l ∈ [1, 17], 16 < l) ∧
    ((∀ l ∈ [1, 1, 16], l ≤ 16) ∧ 2 ^ 16 < kraftSum [1, 1, 16]) ∧
    (∀ l ∈ lens17, l ≤ 16) ∧ kraftSum lens17 ≤ 2 ^ 16 := by
  refine ⟨rfl, List.length_replicate, ?_, ?_, ?_, ?_⟩ <;> decide

/-- A built model with codes of every length from 1 to 16 and a direct lookup table. -/
theorem build_lens17 : ∃ m, build 17 lens17 = .ok m ∧ m.tableBits = 6 := ⟨_, rfl, rfl⟩

/-- A built model without a direct lookup table. -/
theorem build_lens4 : ∃ m, build 4 [2, 1, 3, 3] = .ok m ∧ m.tableBits = 0 := ⟨_, rfl, rfl⟩

theorem witness_CodesAreCanonical : lens17.length = 17 ∧ (∃ m, build 17 lens17 = .ok m) ∧ lens17.count 16 = 2 ∧
    lens17.getD 16 0 ≠ 0 :=
  ⟨rfl, build_lens17.imp fun _ h => h.1, by decide, by decide⟩

theorem witness_SortedByLengthThenIndex : lens17.length = 17 ∧ ∃ m, build 17 lens17 = .ok m :=
  ⟨rfl, build_lens17.imp fun _ h => h.1⟩

theorem witness_MaxCodesCompareSixteenBits :
    (∃ m, build 17 lens17 = .ok m) ∧ 0 < lens17.count 1 ∧ 0 < lens17.count 16 ∧
    (∃ m, build 4 [2, 1, 3, 3] = .ok m) ∧ [2, 1, 3, 3].count 16 = 0 :=
  ⟨build_lens17.imp fun _ h => h.1, by decide, by decide, build_lens4.imp fun _ h => h.1, by decide⟩

/-- Both kinds of model; entry 0 belongs to symbol 0, the last entry to none of length 6 or less; 6 is the greatest short
length; and a model whose only code is too long for the table. -/
theorem witness_DirectTableIsFilled :
    (∃ m, build 4 [2, 1, 3, 3] = .ok m ∧ m.tableBits = 0) ∧
    (∃ m, build 17 lens17 = .ok m ∧ m.tableBits = 6) ∧
    (0 >>> (6 - lens17.getD 0 0) = canonicalCode lens17 0) ∧
    (∀ sym, sym < 17 → 1 ≤ lens17.getD sym 0 → lens17.getD sym 0 ≤ 6 →
      63 >>> (6 - lens17.getD sym 0) ≠ canonicalCode lens17 sym) ∧
    (0 < lens17.count 6 ∧ ∀ L, 6 < L → L ≤ 6 → lens17.count L = 0) ∧
    (∃ m, build 17 (List.replicate 17 7) = .ok m ∧ m.tableBits = 6) ∧
    ∀ L, 1 ≤ L → L ≤ 6 → (List.replicate 17 7).count L = 0 := by
  refine ⟨build_lens4, build_lens17, by decide, by decide, ⟨by decide, fun L h h' => by omega⟩, ⟨_, rfl, rfl⟩, ?_⟩
  intro L h h'
  interval_cases L <;> decide

theorem witness_CodesArePrefixFree :
    (∃ m, build 4 [2, 1, 3, 3] = .ok m) ∧ [2, 1, 3, 3].getD 1 0 ≠ 0 ∧ [2, 1, 3, 3].getD 1 0 ≤ [2, 1, 3, 3].getD 0 0 :=
  ⟨build_lens4.imp fun _ h => h.1, by decide, by decide⟩

theorem witness_TwoStepDecodeAgrees : (∃ m, build 17 lens17 = .ok m) ∧ 0xFFFF < 2 ^ 16 :=
  ⟨build_lens17.imp fun _ h => h.1, by decide⟩

/-- The stream `100 ...` holds the code of symbol 2 of lengths 1, 0, 3; the stream `101 ...` holds no code (V43, V44). -/
theorem witness_HuffDecodeReadsOneSymbol :
    (State.reset.err = false ∧ State.reset.br.valid = false) ∧
    ((started [0x80]).br.valid = true ∧ (started [0x80]).model 7 = none ∧ (started [0x80]).bitsWritten 0 16) ∧
    (∃ m, build 3 [1, 0, 3] = .ok m ∧ m.n = 3 ∧ m.lens = [1, 0, 3] ∧
      ((started [0x80]).setModel 7 (some m)).model 7 = some m) ∧
    (started [0x80]).bitsAt 0 3 = canonicalCode [1, 0, 3] 2 ∧
    (∀ sym L, sym < 3 → L = [1, 0, 3].getD sym 0 → L ≠ 0 → (started [0xA0]).bitsAt 0 L ≠ canonicalCode [1, 0, 3] sym) := by
  refine ⟨by decide, ⟨rfl, rfl, bitsWritten_of_sourceWritten _ _ _ (sourceWritten_started _ (by decide) (by decide))⟩,
    ⟨_, rfl, rfl, rfl, rfl⟩, by decide, ?_⟩
  rintro sym L h rfl
  interval_cases sym <;> decide

/-- The symbols 0, 1, 2, 3 of lengths 2, 1, 3, 3 are the bits `10 0 110 111`. -/
theorem witness_RoundTripRecoversTheSymbols :
    (∃ m, build 4 [2, 1, 3, 3] = .ok m) ∧ (∀ sym ∈ [0, 1, 2, 3], sym < 4 ∧ [2, 1, 3, 3].getD sym 0 ≠ 0) ∧
    (started [0x9B, 0x80]).holds 0 ([0, 1, 2, 3].flatMap (codeBits [2, 1, 3, 3])) ∧
    (started [0x9B, 0x80]).bitsWritten 0 (([0, 1, 2, 3].flatMap (codeBits [2, 1, 3, 3])).length + 16) :=
  ⟨build_lens4.imp fun _ h => h.1, by decide, by unfold State.holds; decide,
    bitsWritten_of_sourceWritten _ _ _ (sourceWritten_started _ (by decide) (by decide))⟩

/-! #### Receiving a model -/

theorem witness_BootLiteralStoresALength :
    (receiving [0] 4 3 [2, 1, 3]).activity = .rx ⟨2, 4, oneSymbolModel 0, 3⟩ ∧ 15 < 16 := by decide

/-- The stream gives each run its extra bits; room for exactly the run, and for one entry less. -/
theorem witness_BootZeroRunSkips :
    (started [0xFF]).bitsWritten 0 3 ∧ (started [0xFF]).bitsWritten 0 7 ∧
    3 + (receiving [0xFF] 10 0 []).bitsAt 0 3 ≤ 10 - 0 ∧ 9 - 0 < 3 + (receiving [0xFF] 9 0 []).bitsAt 0 3 ∧
    11 + (receiving [0xFF] 138 0 []).bitsAt 0 7 ≤ 138 - 0 ∧ 137 - 0 < 11 + (receiving [0xFF] 137 0 []).bitsAt 0 7 :=
  ⟨bitsWritten_of_sourceWritten _ _ _ (sourceWritten_started _ (by decide) (by decide)),
    bitsWritten_of_sourceWritten _ _ _ (sourceWritten_started _ (by decide) (by decide)),
    by decide, by decide, by decide, by decide⟩

theorem witness_BootRepeatCopies :
    ((receiving [0xFF] 4 0 []).activity = .rx ⟨2, 4, oneSymbolModel 0, 0⟩) ∧
    (started [0xFF]).bitsWritten 0 2 ∧ (started [0xFF]).bitsWritten 0 6 ∧
    6 - 1 < 3 + (receiving [0xFF] 6 1 [3]).bitsAt 0 2 ∧ 70 - 1 < 7 + (receiving [0xFF] 70 1 [3]).bitsAt 0 6 ∧
    3 + (receiving [0xFF] 7 1 [0]).bitsAt 0 2 ≤ 7 - 1 ∧ 7 + (receiving [0xFF] 71 1 [0]).bitsAt 0 6 ≤ 71 - 1 ∧
    Memory.read (receiving [0xFF] 7 1 [0]).cl (1 - 1) = some 0 ∧
    Memory.read (receiving [0xFF] 7 1 [3]).cl (1 - 1) = some 3 :=
  ⟨by decide, bitsWritten_of_sourceWritten _ _ _ (sourceWritten_started _ (by decide) (by decide)),
    bitsWritten_of_sourceWritten _ _ _ (sourceWritten_started _ (by decide) (by decide)),
    by decide, by decide, by decide, by decide, by decide, by decide⟩

/-- Counts 0, 8193 and 8192; bootstrap counts 0 and 22. -/
theorem witness_ModelRxChecksItsHeader :
    (started [0, 0, 0]).bitsWritten 0 19 ∧ (started [0, 0, 0]).bitsAt 0 14 = 0 ∧
    8192 < (started [0x80, 0x04, 0]).bitsAt 0 14 ∧
    ((started [0x80, 0x00, 0]).bitsAt 0 14 = 8192 ∧ (started [0x80, 0x00, 0]).bitsAt (0 + 14) 5 = 0) ∧
    (started [0x00, 0x06, 0xC0]).bitsAt 0 14 = 1 ∧ 21 < (started [0x00, 0x06, 0xC0]).bitsAt (0 + 14) 5 :=
  ⟨bitsWritten_of_sourceWritten _ _ _ (sourceWritten_started _ (by decide) (by decide)),
    by decide, by decide, by decide, by decide, by decide⟩

/-- V32, the worked example of 42_model_rx.md R207. -/
theorem witness_ModelRxReceivesTheModel :
    sentState.err = false ∧ sentState.activity = .idle ∧ sentState.br.valid = true ∧ sentState.cfg.wf = true ∧
    sent.wf sentState.cfg.clOrder ∧ sent.lens = some [2, 1, 3, 3] ∧
    (∃ boot, build 21 (sent.bootLens sentState.cfg.clOrder) = .ok boot) ∧ (∃ m, build 4 [2, 1, 3, 3] = .ok m) ∧
    sentState.holds 0 (sent.bits sentState.cfg.clOrder 4) ∧
    sentState.bitsWritten 0 ((sent.bits sentState.cfg.clOrder 4).length + 16) :=
  ⟨rfl, rfl, rfl, by decide +kernel, by unfold Transmission.wf; decide +kernel, by decide +kernel, ⟨_, rfl⟩,
    build_lens4.imp fun _ h => h.1, by unfold State.holds; decide +kernel,
    bitsWritten_of_sourceWritten _ _ _ (sourceWritten_started _ (by decide) (by decide))⟩

/-! #### Errors -/

/-- Each command meeting the bit `1`, which its one-symbol models give no code; `MODEL_RX` a count of 0. -/
theorem witness_LateErrorsLeaveWhatTheRulesSay :
    (∃ t, exec (.huffDecode 0) (oneBlock [0x80]) = .next t ∧ t.err = true) ∧
    (∃ t, exec (.modelRx 7) (oneBlock [0]) = .next t ∧ t.err = true) ∧
    (∃ t, exec (.modelRx 8) (oneBlock [0]) = .next t ∧ t.err = true) ∧
    (let s := slots State.reset [[1]]
     s.br.valid = false ∧ s.modelValid 0 = true ∧
       ∃ t, exec (.modelRx 0) s = .next t ∧ (t.err, t.errCode, t.modelValid 0) = (true, 0x45, false)) ∧
    ((oneBlock [0x80]).firstCheck .chunk = none ∧ ∃ t, exec .unpackChunk (oneBlock [0x80]) = .next t ∧ t.err = true) ∧
    ((oneBlock [0x80]).firstCheck .refgrp = none ∧
      ∃ t, exec .unpackRefgrp (oneBlock [0x80]) = .next t ∧ t.err = true) :=
  ⟨next_of_after (by decide +kernel), next_of_after (by decide +kernel), next_of_after (by decide +kernel),
    ⟨rfl, by decide +kernel, _, rfl, by decide +kernel⟩,
    ⟨by decide +kernel, next_of_after (by decide +kernel)⟩, ⟨by decide +kernel, next_of_after (by decide +kernel)⟩⟩

theorem witness_ErrorsAreRecorded :
    (Instr.getbits 17).fmt = .cw ∧ (started [0xA5]).err = false ∧
    ∃ t, exec (.getbits 17) (started [0xA5]) = .next t ∧ t.err = true :=
  ⟨rfl, rfl, next_of_after (by decide)⟩

theorem witness_CommandsWriteOnlyTheirState :
    (∃ t, exec (.huffBuild 5 4) { State.reset with cl := entries 8 [2, 1, 3, 3] } = .next t ∧ t.err = false) ∧
    (∃ t, exec .unpackChunk (oneBlock [0]) = .next t ∧ t.err = false) ∧ ∃ t, exec .nop State.reset = .next t :=
  ⟨next_of_after (by decide +kernel), next_of_after (by decide +kernel), _, rfl⟩

/-! #### The unpack commands -/

/-- The first and the last check, and none of them failing. -/
theorem witness_UnpackChecksInOrder :
    State.reset.firstCheck .chunk = some 0x45 ∧ State.reset.cfg.wf = true ∧
    { oneBlock [0] with dstSize := 7 }.firstCheck .chunk = some 0x41 ∧
    { oneBlock [0] with faces := 7 }.firstCheck .refgrp = some 0x12 ∧ (oneBlock [0]).firstCheck .refgrp = none := by
  decide +kernel

/-- The all-zero peek of a one-symbol model. -/
theorem peek_oneSymbol : decodePeek (modelFor [1]) 0 = .ok (0, 1) := by decide +kernel

theorem exhausted_oneBlock_ready (sch : Scheme) :
    (exhausted (oneBlock [0])).err = false ∧ (exhausted (oneBlock [0])).activity = .idle ∧
    (exhausted (oneBlock [0])).cfg.wf = true ∧ (exhausted (oneBlock [0])).dxtFormat ∧
    (exhausted (oneBlock [0])).firstCheck sch = none ∧ (exhausted (oneBlock [0])).planes sch = [.c] ∧
    (exhausted (oneBlock [0])).sourceWritten ∧
    (∀ k bound, k < 3 → 0 < bound → (exhausted (oneBlock [0])).decodable k bound) ∧
    (exhausted (oneBlock [0])).palettesWritten .c := by
  refine ⟨rfl, rfl, by decide +kernel, .inl rfl, by cases sch <;> decide +kernel, by cases sch <;> decide, ?_, ?_, ?_⟩
  · intro i hi
    have : i = 0 := by
      have : (exhausted (oneBlock [0])).br.len.toNat = 1 := rfl
      omega
    subst this
    decide
  · intro k bound hk hb
    refine decodable_past _ k bound 0 1 (modelFor [1]) ?_ (by decide) peek_oneSymbol hb
    interval_cases k <;> rfl
  · exact ⟨by decide, by decide⟩

/-- The symbols a decode of several slots answers. -/
def symbolsOf (r : Attempt (List Nat × State)) : Option (List Nat) :=
  match r with
  | .ok v => some v.1
  | .error _ => none

theorem decodeSeq_of_symbols {s : State} {ks syms : List Nat} (h : symbolsOf (decodeSeq s ks) = some syms) :
    ∃ u, decodeSeq s ks = .ok (syms, u) := by
  cases hr : decodeSeq s ks with
  | ok v => exact ⟨v.2, by simp only [hr, symbolsOf, Option.some.injEq] at h; rw [← h]⟩
  | error e => simp [hr, symbolsOf] at h

/-- A `DXT1` level of 12 by 4 pixels, three visible blocks in two chunks: encoding 0, and every delta is 1. -/
def twoChunks : State :=
  { slots (started [0x7F, 0xE0]) [[1], [1, 1], [1, 1]] with
    faces := 1, lvlW := 12, lvlH := 4, rowPitch := 24, dstSize := 24, ceCount := 3, csCount := 2
    ce := entries 32 [0x10, 0x11, 0x12], cs := entries 32 [0x20, 0x21] }

/-- R230 to R236 by hand: the second chunk's endpoint index is 2, the sum of both deltas. -/
theorem test_unpackChunk_two :
    after .unpackChunk twoChunks (fun t => ([0, 8, 16, 4, 12, 20].map fun a => (Memory.read t.dst a).map BitVec.toNat)) =
      some [some 0x11, some 0x11, some 0x12, some 0x21, some 0x20, some 0x21] := by decide +kernel

theorem witness_UnpackChunkRebuildsTheLevel :
    (∃ s : State, s.err = false ∧ s.activity = .idle ∧ s.cfg.wf = true ∧ s.dxtFormat ∧ s.firstCheck .chunk = none ∧
      s.sourceWritten ∧ s.decodable 0 512 ∧
      ∀ p ∈ s.planes .chunk, s.decodable p.epSlot 8192 ∧ s.decodable p.selSlot 8192 ∧ s.palettesWritten p) ∧
    (twoChunks.err = false ∧ twoChunks.activity = .idle ∧ twoChunks.cfg.wf = true ∧ twoChunks.dxtFormat ∧
      twoChunks.firstCheck .chunk = none ∧ twoChunks.planes .chunk = [.c] ∧ twoChunks.palettesWritten .c ∧
      twoChunks.chunks = [⟨0, 0, 0⟩, ⟨0, 0, 1⟩] ∧ twoChunks.visible 2 0 = true ∧
      (∀ j, j < 2 → (List.replicate 5 1).length = (chunkSlots [.c] (twoChunks.chunkTiles (fun _ => 0) j)).length) ∧
      ∃ u, decodeSeq twoChunks (twoChunks.chunkLevelSlots fun _ => 0) =
        .ok (twoChunks.chunkLevelSymbols (fun _ => 0) fun _ => List.replicate 5 1, u)) := by
  refine ⟨?_, rfl, rfl, by decide +kernel, .inl rfl, by decide +kernel, by decide +kernel, ⟨by decide, by decide⟩,
    by decide +kernel, by decide +kernel, by decide +kernel, decodeSeq_of_symbols (by decide +kernel)⟩
  obtain ⟨h1, h2, h3, h4, h5, hp, h6, hd, hw⟩ := exhausted_oneBlock_ready .chunk
  refine ⟨_, h1, h2, h3, h4, h5, h6, hd 0 512 (by decide) (by decide), ?_⟩
  rw [hp]
  simp only [List.mem_singleton, forall_eq]
  exact ⟨hd 1 _ (by decide) (by decide), hd 2 _ (by decide) (by decide), hw⟩

/-- A `DXT1` level of four visible blocks with the group code 0b11000100: sub-codes 0 and 0 in the first row, 1 and 3 in
the second; every delta is 1, the selectors are 0, 1, 0, 1. -/
def fourBlocks : State :=
  { slots (started [0x5A]) [only 197 196, [1, 1], [1, 1]] with
    faces := 1, lvlW := 8, lvlH := 8, rowPitch := 16, dstSize := 32, ceCount := 3, csCount := 2
    ce := entries 32 [0x10, 0x11, 0x12], cs := entries 32 [0x20, 0x21] }

/-- R263 to R270 by hand: indices 1, 2, then the one above, then the one before. -/
theorem test_unpackRefgrp_four :
    after .unpackRefgrp fourBlocks (fun t => ([0, 8, 16, 24, 4, 12].map fun a => (Memory.read t.dst a).map BitVec.toNat)) =
      some [some 0x11, some 0x12, some 0x11, some 0x11, some 0x20, some 0x21] := by decide +kernel

/-- The blocks of `fourBlocks` one by one. -/
theorem fourBlocks_cases {motive : Nat → BlockPos → Prop} (h0 : motive 0 ⟨0, 0, 0⟩) (h1 : motive 1 ⟨0, 0, 1⟩)
    (h2 : motive 2 ⟨0, 1, 0⟩) (h3 : motive 3 ⟨0, 1, 1⟩) :
    ∀ j pos, fourBlocks.blocks[j]? = some pos → motive j pos := by
  intro j pos h
  rw [show fourBlocks.blocks = [⟨0, 0, 0⟩, ⟨0, 0, 1⟩, ⟨0, 1, 0⟩, ⟨0, 1, 1⟩] by decide +kernel] at h
  match j with
  | 0 => cases h; exact h0
  | 1 => cases h; exact h1
  | 2 => cases h; exact h2
  | 3 => cases h; exact h3
  | j + 4 => simp at h

theorem witness_UnpackRefgrpRebuildsTheLevel :
    (∃ s : State, s.err = false ∧ s.activity = .idle ∧ s.cfg.wf = true ∧ s.cfg.diagRuleGiven = true ∧ s.dxtFormat ∧
      s.firstCheck .refgrp = none ∧ s.sourceWritten ∧ s.decodable 0 256 ∧
      ∀ p ∈ s.planes .refgrp, s.decodable p.epSlot 8192 ∧ s.palettesWritten p ∧
        s.decodable p.selSlot (if s.cfg.rgSelDelta then 8192 else s.selCount p)) ∧
    (fourBlocks.err = false ∧ fourBlocks.activity = .idle ∧ fourBlocks.cfg.wf = true ∧ fourBlocks.dxtFormat ∧
      fourBlocks.firstCheck .refgrp = none ∧ fourBlocks.planes .refgrp = [.c] ∧ fourBlocks.palettesWritten .c ∧
      (∀ pos ∈ fourBlocks.blocks, blockSubcode (fun _ _ _ => 196) pos ≠ 2) ∧
      fourBlocks.IsEndpoints (fun _ _ _ => 196) (fun _ _ => 1) (fun j _ => [1, 2, 1, 1].getD j 0) ∧
      fourBlocks.IsSelectors (fun pos _ => pos.x) (fun j _ => j % 2) ∧
      ∃ u, decodeSeq fourBlocks (fourBlocks.refLevelSlots fun _ _ _ => 196) =
        .ok (fourBlocks.refLevelSymbols (fun _ _ _ => 196) (fun _ _ => 1) (fun pos _ => pos.x), u)) := by
  have hps : fourBlocks.planes .refgrp = [.c] := by decide +kernel
  have hcfg : fourBlocks.cfg.rgSelDelta = false := rfl
  refine ⟨?_, rfl, rfl, by decide +kernel, .inl rfl, by decide +kernel, hps, ⟨by decide, by decide⟩,
    by decide +kernel, ?_, ?_, decodeSeq_of_symbols (by decide +kernel)⟩
  rotate_left
  · intro j pos p h hp
    rw [hps, List.mem_singleton] at hp
    subst hp
    revert j pos
    exact fourBlocks_cases (by decide +kernel) (by decide +kernel) (by decide +kernel) (by decide +kernel)
  · intro j pos p h hp
    rw [hps, List.mem_singleton] at hp
    subst hp
    refine ⟨fun _ => ?_, fun h => (nomatch hcfg.symm.trans h)⟩
    revert j pos
    exact fourBlocks_cases (by decide +kernel) (by decide +kernel) (by decide +kernel) (by decide +kernel)
  obtain ⟨h1, h2, h3, h4, h5, hp, h6, hd, hw⟩ := exhausted_oneBlock_ready .refgrp
  refine ⟨_, h1, h2, h3, rfl, h4, h5, h6, hd 0 256 (by decide) (by decide), ?_⟩
  rw [hp]
  simp only [List.mem_singleton, forall_eq]
  exact ⟨hd 1 _ (by decide) (by decide), hw, hd 2 _ (by decide) (by decide)⟩

/-- The symbols of each encoding's record in an all-ones stream. -/
theorem witness_TilePatternsRebuildAChunk :
    (chunked [0xFF]).activity = .chunk ⟨1, ⟨0, 0, 0⟩, ⟨0, 0, 0⟩, TileRegs.zero, 0, [⟨0, 0, 0⟩]⟩ ∧ TileRegs.zero.full ∧
    0 < (chunked [0xFF]).faces.toNat ∧ (chunked [0xFF]).cfg.wf = true ∧ (chunked [0xFF]).dxtFormat ∧
    (chunked [0xFF]).firstCheck .chunk = none ∧ (chunked [0xFF]).planes .chunk = [.c] ∧
    (chunked [0xFF]).palettesWritten .c ∧
    (∃ u, decodeSeq (chunked [0xFF]) (chunkSlots [.c] 1) = .ok (List.replicate 5 1, u)) ∧
    ∃ u, decodeSeq (chunked [0xFF]) (chunkSlots [.c] 4) = .ok (List.replicate 8 1, u) :=
  ⟨by decide +kernel, ⟨rfl, rfl, rfl⟩, by decide, by decide +kernel, .inl rfl, by decide +kernel, by decide,
    ⟨by decide, by decide⟩, ⟨_, rfl⟩, ⟨_, rfl⟩⟩

/-- Symbols 512 and 511 of slot 0, an exhausted register and one that is not. -/
theorem witness_ChunkEncodingsComeInThrees :
    (∃ u, decodeSlot 0 (slots (started [0]) [only 513 512]) = .ok (512, u)) ∧
    (∃ u, decodeSlot 0 (slots (started [0]) [only 512 511]) = .ok (511, u)) ∧ (2 : BitVec 10) ≠ 1 := by
  refine ⟨?_, ?_, by decide⟩
  · exact ⟨(slots (started [0]) [only 513 512]).advance 1, by
      rw [decodeSlot_ok]
      exact ⟨modelFor (only 513 512), 0, 1, rfl, by decide, by decide +kernel, rfl⟩⟩
  · exact ⟨(slots (started [0]) [only 512 511]).advance 1, by
      rw [decodeSlot_ok]
      exact ⟨modelFor (only 512 511), 0, 1, rfl, by decide, by decide +kernel, rfl⟩⟩

theorem witness_OneBlockLevelIsItsPaletteEntries :
    (oneBlock [0]).err = false ∧ (oneBlock [0]).activity = .idle ∧ (oneBlock [0]).cfg.wf = true ∧
    8 ≤ (oneBlock [0]).cfg.dstMemSize ∧ (oneBlock [0]).modelValid 0 = true ∧ (oneBlock [0]).modelValid 1 = true ∧
    (oneBlock [0]).modelValid 2 = true ∧ Memory.read (oneBlock [0]).ce 0 = some 0x12345678 ∧
    Memory.read (oneBlock [0]).cs 0 = some 0x9ABCDEF0 ∧
    ∃ u, decodeSeq (oneBlock [0]) [0, 1, 2, 2, 2, 2] = .ok ([0, 0, 0, 0, 0, 0], u) :=
  ⟨rfl, rfl, by decide +kernel, by decide, rfl, rfl, rfl, by decide, by decide, _, rfl⟩

theorem witness_SubcodesSetTheIndices :
    (referring [0x80]).activity = .refgrp ⟨0, ⟨2, 0, 0⟩, ⟨0, 0, 0⟩, [⟨⟨1, 0, 0⟩, 0⟩, ⟨⟨3, 0, 0⟩, 2⟩], 0, [⟨0, 1, 1⟩]⟩ ∧
    (referring [0x80]).planes .refgrp = [.c] ∧ 0 < (referring [0x80]).epCount .c ∧
    (referring [0x80]).cfg.diagRuleGiven = true ∧ (∃ u, decodeSeq (referring [0x80]) [1] = .ok ([1], u)) ∧
    ∃ ep diag, (ep, diag) = diagonalAnswers (referring [0x80]) ⟨0, 1, 1⟩
      ⟨0, ⟨2, 0, 0⟩, ⟨0, 0, 0⟩, [⟨⟨1, 0, 0⟩, 0⟩, ⟨⟨3, 0, 0⟩, 2⟩], 0, [⟨0, 1, 1⟩]⟩ [.c] :=
  ⟨by decide +kernel, by decide, by decide, rfl, ⟨_, rfl⟩, _, _, rfl⟩

theorem witness_DiagonalNeedsItsRule :
    { referring [0] with cfg := { Config.default with diagRuleGiven := false } }.activity =
      .refgrp ⟨0, ⟨2, 0, 0⟩, ⟨0, 0, 0⟩, [⟨⟨1, 0, 0⟩, 0⟩, ⟨⟨3, 0, 0⟩, 2⟩], 0, [⟨0, 1, 1⟩]⟩ := by decide +kernel

/-- Symbols 256 and 255 of slot 0; blocks of every kind of position. -/
theorem witness_SubcodesAreUnpacked :
    (∃ u, decodeSlot 0 (slots (started [0]) [only 257 256]) = .ok (256, u)) ∧
    (∃ u, decodeSlot 0 (slots (started [0]) [only 256 255]) = .ok (255, u)) ∧
    (∀ pos ∈ [(⟨0, 0, 0⟩ : BlockPos), ⟨5, 2, 4⟩], pos.y % 2 = 0 ∧ pos.x % 2 = 0) ∧
    (⟨0, 0, 1⟩ : BlockPos).x % 2 = 1 ∧ (⟨0, 1, 0⟩ : BlockPos).y % 2 = 1 := by
  refine ⟨?_, ?_, by decide, by decide, by decide⟩
  · exact ⟨(slots (started [0]) [only 257 256]).advance 1, by
      rw [decodeSlot_ok]
      exact ⟨modelFor (only 257 256), 0, 1, rfl, by decide, by decide +kernel, rfl⟩⟩
  · exact ⟨(slots (started [0]) [only 256 255]).advance 1, by
      rw [decodeSlot_ok]
      exact ⟨modelFor (only 256 255), 0, 1, rfl, by decide, by decide +kernel, rfl⟩⟩

/-- One selector symbol at the count of the palette, one below it, and a selector delta. -/
theorem witness_BlocksEndWithTheirSelectors :
    let s (sel : Nat) : State := { oneBlock [0] with
      models := (slots (started [0]) [[1], [1], only 2 sel]).models
      activity := .refgrp ⟨0, ⟨0, 0, 0⟩, ⟨0, 0, 0⟩, [⟨⟨0, 0, 0⟩, 0⟩, ⟨⟨0, 0, 0⟩, 0⟩], 0, [⟨0, 0, 0⟩, ⟨0, 0, 1⟩]⟩ }
    ((s 1).firstCheck .refgrp = none ∧ (s 1).cfg.wf = true ∧ (s 1).planes .refgrp = [.c] ∧
      0 < (s 1).faces.toNat ∧ (s 1).palettesWritten .c ∧ (0 : Half).toNat < (s 1).epCount .c) ∧
    (∃ u, decodeSeq (s 1) [2] = .ok ([1], u) ∧ (s 1).cfg.rgSelDelta = false ∧ (s 1).selCount .c ≤ 1) ∧
    (∃ u, decodeSeq (s 0) [2] = .ok ([0], u) ∧ 0 < (s 0).selCount .c ∧ (s 0).visible 0 0 = true) ∧
    ∃ u, decodeSeq { s 1 with cfg := { Config.default with rgSelDelta := true } } [2] = .ok ([1], u) :=
  ⟨⟨by decide +kernel, by decide +kernel, by decide +kernel, by decide, ⟨by decide, by decide⟩, by decide⟩,
    ⟨_, rfl, rfl, by decide⟩, ⟨_, rfl, by decide, by decide⟩, ⟨_, rfl⟩⟩

theorem witness_DeltasWrapByTheTrueRemainder : 0 < 65535 ∧ 65535 ≤ 65535 ∧ [8191, 8191] ≠ [] := by decide

theorem witness_UnpackWritesOnlyItsFaces :
    (State.reset.firstCheck .chunk ≠ none ∧ ∃ t, exec .unpackChunk State.reset = .next t) ∧
    ((oneBlock [0]).dxtFormat ∧ (oneBlock [0]).firstCheck .refgrp = none ∧
      ∃ t, exec .unpackRefgrp (oneBlock [0]) = .next t ∧ t.err = false) ∧
    (oneBlock [0]).faces.toNat * (oneBlock [0]).dstSize.toNat ≤ 8 ∧ 0 < (oneBlock [0]).bx ∧ 0 < (oneBlock [0]).by' ∧
    ¬ (oneBlock [0]).inVisibleBlock 8 := by
  refine ⟨⟨by decide, _, rfl⟩, ⟨.inl rfl, by decide +kernel, next_of_after (by decide +kernel)⟩, by decide, by decide,
    by decide, ?_⟩
  rintro ⟨f, x, y, hf, hx, hy, h1, h2⟩
  have hf : f < 1 := hf
  have hx : x < 1 := hx
  have hy : y < 1 := hy
  interval_cases f
  interval_cases x
  interval_cases y
  exact absurd h2 (by decide)

/-- A next state, a fault and a refusal, of any instruction and of an unpack command; the first slot none reads. -/
theorem witness_CommandsNeverReadDst :
    (∃ t, exec .unpackChunk (oneBlock [0]) = .next t ∧ t.err = false) ∧
    exec (.huffBuild 0 1) State.reset = .fault (.unwrittenRead .cl 0) ∧
    exec .refDiagonal { referring [0] with cfg := { Config.default with diagRuleGiven := false } } =
      .refused .diagRuleNotGiven ∧
    exec .unpackChunk { oneBlock [0] with ce := [] } = .fault (.unwrittenRead .ce 0) ∧
    exec .unpackRefgrp { oneBlock [0] with
      models := (slots (oneBlock [0]) [[0, 0, 1]]).models, cfg := { Config.default with diagRuleGiven := false } } =
      .refused .diagRuleNotGiven ∧ 5 ≤ 5 :=
  ⟨next_of_after (by decide +kernel), rfl, rfl, rfl, rfl, le_refl 5⟩

/-! #### The host's side -/

/-- Writes to the first writable register and to the last offset of the window; reads likewise; a reader whose views
show it; accesses that are misaligned, too narrow, and past the window. -/
theorem witness_RegisterWindowHolds :
    (pending (.write .reg 4 32 0xFFFFFFFF)).pending = .write .reg 4 32 0xFFFFFFFF :: [] ∧
    (pending (.write .reg 0xFC 32 1)).activity = .idle ∧ (0xFC : Nat) < 256 ∧ 0xFC % 4 = 0 ∧
    (pending (.read .reg 0 32)).pending = .read .reg 0 32 :: [] ∧ (started [0xA5]).br.valid = true ∧
    (pending (.read .reg 2 32)).pending = .read .reg 2 32 :: [] ∧ 2 % 4 ≠ 0 ∧
    (pending (.write .reg 0 16 1)).pending = .write .reg 0 16 1 :: [] ∧ 16 ≠ 32 ∧
    (pending (.read .reg 256 32)).pending = .read .reg 256 32 :: [] ∧ 256 % 4 = 0 := by decide

/-- Another width, the first address past a space, the last address of each space. -/
theorem witness_HostMemoriesHoldWhatIsWritten :
    16 ≠ unitWidth .src ∧ spaceSize State.reset.cfg .aSel ≤ 3 * 65535 ∧
    (∀ e ∈ [(Space.src, 2 ^ 32 - 1), (.dst, 2 ^ 32 - 1), (.cl, 8191), (.ce, 65534), (.cs, 65534), (.ae, 65534),
      (.aSel, 3 * 65535 - 1)], e.1 ≠ .reg ∧ e.2 < spaceSize State.reset.cfg e.1) ∧
    { State.reset with pending := [.write .cl 8191 8 5, .read .cl 8191 8] }.activity = .idle := by decide

theorem witness_SourceWriteStopsTheReader :
    (pending (.write .src (2 ^ 32 - 1) 8 0xFF)).activity = .idle ∧ (pending (.write .src (2 ^ 32 - 1) 8 0xFF)).err = false ∧
    2 ^ 32 - 1 < (pending (.write .src (2 ^ 32 - 1) 8 0xFF)).cfg.srcSize ∧
    (let s := { pending (.write .reg 0 32 0x01000000) with arg1 := 1 }
     s.br.valid = false ∧ ∃ t, step s = .next t ∧ t.br.valid = true) :=
  ⟨by decide, by decide, by decide, by decide, _, rfl, rfl⟩

end Sys2Proof.Tests
end

