-- ==== Sys2Proof/Proofs/CommandWords.lean ====
section
/-! PROOFS. Command words by their fields: what a row of the command table asks of each field, what a word that decodes
is, and that the two agree (spec/30_encoding.md R91 to R104). -/

namespace Sys2Proof

/-! ### The fields of a word (R91) -/

theorem aField_lt (w : Nat) : aField w < 2 ^ 8 := Nat.mod_lt _ (by decide)

theorem bField_lt (w : Nat) : bField w < 2 ^ 16 := Nat.mod_lt _ (by decide)

theorem opField_lt {w : Nat} (h : w < 2 ^ 32) : opField w < 2 ^ 8 := by
  unfold opField
  omega

/-- A word is its three fields. -/
theorem packWord_fields (w : Nat) : packWord (opField w) (aField w) (bField w) = w := by
  unfold packWord opField aField bField
  omega

theorem opField_packWord {op a b : Nat} (ha : a < 2 ^ 8) (hb : b < 2 ^ 16) : opField (packWord op a b) = op := by
  unfold opField packWord
  omega

theorem aField_packWord {op a b : Nat} (ha : a < 2 ^ 8) (hb : b < 2 ^ 16) : aField (packWord op a b) = a := by
  unfold aField packWord
  omega

theorem bField_packWord {op a b : Nat} (hb : b < 2 ^ 16) : bField (packWord op a b) = b := by
  unfold bField packWord
  omega

theorem eq_iff_fields_eq (v w : Nat) : v = w ↔ opField v = opField w ∧ aField v = aField w ∧ bField v = bField w := by
  constructor
  · rintro rfl
    exact ⟨rfl, rfl, rfl⟩
  · rintro ⟨hop, ha, hb⟩
    rw [← packWord_fields v, hop, ha, hb, packWord_fields]

/-! A mask acts on each field by itself. -/

theorem opField_land (v w : Nat) : opField (v &&& w) = opField v &&& opField w := Nat.and_div_two_pow

theorem aField_land (v w : Nat) : aField (v &&& w) = aField v &&& aField w := by
  unfold aField
  rw [Nat.and_div_two_pow, Nat.and_mod_two_pow]

theorem bField_land (v w : Nat) : bField (v &&& w) = bField v &&& bField w := Nat.and_mod_two_pow

/-- A mask of the bits from `k` on drops the bits below `k`. -/
theorem land_highBits {x k n : Nat} (hx : x < 2 ^ n) (hk : k ≤ n) : x &&& (2 ^ n - 2 ^ k) = x / 2 ^ k * 2 ^ k := by
  have hmask : 2 ^ n - 2 ^ k = 2 ^ k * (2 ^ (n - k) - 1) := by
    rw [Nat.mul_sub, ← pow_add, Nat.add_sub_cancel' hk, Nat.mul_one]
  have hhigh : (x &&& (2 ^ n - 2 ^ k)) / 2 ^ k = x / 2 ^ k := by
    rw [Nat.and_div_two_pow, hmask, Nat.mul_div_cancel_left _ (Nat.two_pow_pos k), Nat.and_two_pow_sub_one_eq_mod,
      Nat.mod_eq_of_lt]
    rwa [Nat.div_lt_iff_lt_mul (Nat.two_pow_pos k), ← pow_add, Nat.sub_add_cancel hk]
  have hlow : (x &&& (2 ^ n - 2 ^ k)) % 2 ^ k = 0 := by
    rw [Nat.and_mod_two_pow, hmask, Nat.mul_mod_right, Nat.and_zero]
  rw [← hhigh, Nat.div_mul_cancel (Nat.dvd_of_mod_eq_zero hlow)]

/-! ### The words that decode (R92 to R103) -/

theorem whenZero_eq_some {bits : Nat} {i j : Instr} : whenZero bits i = some j ↔ bits = 0 ∧ i = j := by
  unfold whenZero
  split <;> simp [*]

theorem isSome_whenZero {bits : Nat} {i : Instr} : (whenZero bits i).isSome = true ↔ bits = 0 := by
  unfold whenZero
  split <;> simp [*]

theorem decode_cw (w : Nat) : decode .cw w = decodeCommand w := rfl

/-- A decoded command is a command whose operands fit their fields, and its encoding is the word itself: no bit of the
word is dropped. -/
theorem decode_cw_some {w : Nat} {i : Instr} (h : decode .cw w = some i) :
    i.fmt = .cw ∧ i.wf = true ∧ encode i = w := by
  have ha : aField w < 256 := aField_lt w
  have hw := packWord_fields w
  rw [decode_cw] at h
  unfold decodeCommand at h
  generalize opField w = op, aField w = a, bField w = b at h ha hw
  split at h
  case h_12 => cases h
  all_goals
    obtain ⟨hz, rfl⟩ := whenZero_eq_some.1 h
    refine ⟨rfl, by simp [Instr.wf, ha, Nat.mod_lt], ?_⟩
    simp only [encode, packWord, Nat.zero_mul, Nat.add_zero] at hw ⊢
    omega

end Sys2Proof

namespace Sys2Proof.Machine

/-! ### The rows of the command table -/

/-- What a row of the command table fixes: the field `OP`, whether `A` is an operand, and how many low bits of `B` are. -/
structure CommandShape where
  op : Nat
  usesA : Bool
  bBits : Nat

/-- The bits of `A` that must be zero. -/
def CommandShape.aMask (c : CommandShape) : Nat := if c.usesA = true then 0 else 0xFF

/-- The match and the mask that fix a shape. -/
def CommandShape.row (c : CommandShape) : Nat × Nat :=
  (packWord c.op 0 0, packWord 0xFF c.aMask (2 ^ 16 - 2 ^ c.bBits))

/-- The word has the shape's `OP`, and its fields are zero outside the operands. -/
def CommandShape.Fits (c : CommandShape) (w : Nat) : Prop :=
  opField w = c.op ∧ (c.usesA = true ∨ aField w = 0) ∧ bField w / 2 ^ c.bBits = 0

/-- The shapes of the commands, in the order of `commandRows`. -/
def commandShapes : List CommandShape :=
  [ ⟨0x01, false, 0⟩, ⟨0x02, false, 6⟩, ⟨0x03, false, 6⟩, ⟨0x04, true, 14⟩, ⟨0x05, true, 0⟩, ⟨0x06, true, 0⟩,
    ⟨0x07, false, 0⟩, ⟨0x08, false, 0⟩, ⟨0x0D, false, 0⟩, ⟨0x0E, false, 0⟩, ⟨0x0F, false, 0⟩ ]

theorem commandRows_eq_map_row : commandRows = commandShapes.map CommandShape.row := by decide

theorem CommandShape.aMask_lt (c : CommandShape) : c.aMask < 2 ^ 8 := by
  unfold CommandShape.aMask
  split <;> decide

theorem CommandShape.aField_land_aMask (c : CommandShape) (w : Nat) :
    aField w &&& c.aMask = 0 ↔ c.usesA = true ∨ aField w = 0 := by
  have hall : aField w &&& 0xFF = aField w :=
    (Nat.and_two_pow_sub_one_eq_mod _ 8).trans (Nat.mod_eq_of_lt (aField_lt w))
  unfold CommandShape.aMask
  cases c.usesA <;> simp [hall]

/-- Matching under the mask is fitting the shape, for a 32-bit word. -/
theorem CommandShape.land_row_iff {c : CommandShape} {w : Nat} (hw : w < 2 ^ 32) (hc : c.bBits ≤ 16) :
    w &&& c.row.2 = c.row.1 ↔ c.Fits w := by
  have hmaskA := c.aMask_lt
  have hmaskB : 2 ^ 16 - 2 ^ c.bBits < 2 ^ 16 := Nat.sub_lt (by decide) (Nat.two_pow_pos _)
  have hop : opField w &&& 0xFF = opField w :=
    (Nat.and_two_pow_sub_one_eq_mod _ 8).trans (Nat.mod_eq_of_lt (opField_lt hw))
  have hb : bField w &&& (2 ^ 16 - 2 ^ c.bBits) = 0 ↔ bField w / 2 ^ c.bBits = 0 := by
    rw [land_highBits (bField_lt w) hc, Nat.mul_eq_zero, or_iff_left (Nat.two_pow_pos _).ne']
  rw [eq_iff_fields_eq, opField_land, aField_land, bField_land]
  unfold CommandShape.row CommandShape.Fits
  rw [opField_packWord hmaskA hmaskB, aField_packWord hmaskA hmaskB, bField_packWord hmaskB,
    opField_packWord (by decide) (by decide), aField_packWord (by decide) (by decide), bField_packWord (by decide),
    hop, c.aField_land_aMask, hb]

theorem legalWord_iff_fits {w : Nat} (hw : w < 2 ^ 32) : legalWord w = true ↔ ∃ c ∈ commandShapes, c.Fits w := by
  have hbits : ∀ c ∈ commandShapes, c.bBits ≤ 16 := by decide
  simp only [legalWord, commandRows_eq_map_row, List.any_map, List.any_eq_true, Function.comp_apply, beq_iff_eq]
  exact exists_congr fun c => and_congr_right fun hc => CommandShape.land_row_iff hw (hbits c hc)

theorem isSome_decode_iff_fits (w : Nat) : (decode .cw w).isSome = true ↔ ∃ c ∈ commandShapes, c.Fits w := by
  simp only [commandShapes, List.exists_mem_cons_iff, List.not_mem_nil, false_and, exists_false, or_false,
    CommandShape.Fits, decode_cw]
  unfold decodeCommand
  split
  case h_12 => simp_all
  all_goals
    rename_i hop
    simp [hop, isSome_whenZero]

/-- A 32-bit word decodes exactly when it matches a row of the command table (R103). -/
theorem isSome_decode_iff_legalWord {w : Nat} (hw : w < 2 ^ 32) :
    (decode .cw w).isSome = true ↔ legalWord w = true :=
  (isSome_decode_iff_fits w).trans (legalWord_iff_fits hw).symm

/-- Every row fixes the whole of `OP` and matches it in full, so `OP` tells the rows apart. -/
theorem commandRows_match_unique {w : Nat} {r q : Nat × Nat} (hr : r ∈ commandRows) (hq : q ∈ commandRows)
    (hwr : w &&& r.2 = r.1) (hwq : w &&& q.2 = q.1) : r = q := by
  have hmask : ∀ r ∈ commandRows, r.2 &&& 0xFF000000 = 0xFF000000 ∧ r.1 &&& 0xFF000000 = r.1 := by decide
  have hinj : ∀ r ∈ commandRows, ∀ q ∈ commandRows, r.1 = q.1 → r = q := by decide
  have hmatch : ∀ r ∈ commandRows, w &&& r.2 = r.1 → r.1 = w &&& 0xFF000000 := by
    intro r hr hwr
    obtain ⟨hfull, honly⟩ := hmask r hr
    rw [← honly, ← hwr, Nat.and_assoc, hfull]
  exact hinj r hr q hq ((hmatch r hr hwr).trans (hmatch q hq hwq).symm)

/-- Settles O3: a match under a mask is read field by field, and the operands are those of the encoding, which is the
word. -/
theorem legalWordsAreTheTableRows : Obligations.LegalWordsAreTheTableRows := by
  refine ⟨fun w r hr q hq => commandRows_match_unique hr hq, fun w hw => ⟨isSome_decode_iff_legalWord hw, ?_⟩⟩
  intro i hi
  obtain ⟨-, hwf, henc⟩ := decode_cw_some hi
  refine ⟨?_, ?_, ?_, ?_, ?_⟩
  all_goals
    intros
    subst i
    simp only [Instr.wf, Bool.and_eq_true, decide_eq_true_eq] at hwf
    simp only [encode, packWord] at henc
    omega

end Sys2Proof.Machine
end

