-- ==== Sys2Proof/Proofs/CommandStep.lean ====
section
/-! PROOFS. A step of an idle core whose next access is a write to `CMD` (spec/10_state.md R30, spec/30_encoding.md R104)
and the `ERR` gate of every command (spec/60_exceptions.md R351). -/

namespace Sys2Proof.Machine

/-! ### A write to `CMD` -/

section
variable {s : State} {rest : List HostAction} {w : Word}

theorem step_cmd_of_decode_none (hidle : s.activity = .idle) (hpend : s.pending = .write .reg 0 32 w :: rest)
    (hdec : decode .cw w.toNat = none) : step s = illegalCommand w { s with pending := rest } := by
  have hword : commandWord (.write .reg 0 32 w) = some w := rfl
  simp only [step, hidle, hpend, runHostAction, hword, hdec]

theorem step_cmd_of_decode_some {i : Instr} (hidle : s.activity = .idle)
    (hpend : s.pending = .write .reg 0 32 w :: rest) (hdec : decode .cw w.toNat = some i) :
    step s = exec i { s with pending := rest } := by
  have hword : commandWord (.write .reg 0 32 w) = some w := rfl
  simp only [step, hidle, hpend, runHostAction, hword, hdec]

end

/-! ### The `ERR` gate -/

theorem illegalCommand_of_err {s : State} (w : Word) (herr : s.err = true) : illegalCommand w s = .next s :=
  gate_shut _ _ herr

theorem illegalCommand_of_not_err {s : State} (w : Word) (herr : s.err = false) :
    illegalCommand w s = .next (s.raiseError w .illegalCmd) :=
  gate_open _ _ herr

/-- While `ERR` is 1 every command but `CLR_ERR` and `SOFT_RESET` is ignored. -/
theorem exec_of_err {i : Instr} {s : State} (herr : s.err = true) (hcw : i.fmt = .cw) (hclr : i ≠ .clrErr)
    (hreset : i ≠ .softReset) : exec i s = .next s := by
  cases i
  case clrErr => exact absurd rfl hclr
  case softReset => exact absurd rfl hreset
  case brStart | getbits | readbits | huffBuild | huffDecode | modelRx | unpackChunk | unpackRefgrp | nop =>
    simp only [exec, execBrStart, execGetbits, execReadbits, execHuffBuild, execHuffDecode, execModelRx,
      execUnpackChunk, execUnpackRefgrp, execNop, gate_shut _ _ herr]
  all_goals cases hcw

/-- Settles O5: a word no row matches decodes to nothing; behind the gate, only the words of `CLR_ERR` and `SOFT_RESET`
decode to a command that runs. -/
theorem illegalWordsRaise : Obligations.IllegalWordsRaise := by
  intro s rest w hidle hpend
  constructor
  · intro herr hillegal
    have hdec : decode .cw w.toNat = none := by
      rw [← Option.not_isSome_iff_eq_none, isSome_decode_iff_legalWord w.isLt, hillegal]
      decide
    rw [step_cmd_of_decode_none hidle hpend hdec]
    exact illegalCommand_of_not_err w herr
  · intro herr hclr hreset
    cases hdec : decode .cw w.toNat with
    | none =>
      rw [step_cmd_of_decode_none hidle hpend hdec]
      exact illegalCommand_of_err w herr
    | some i =>
      obtain ⟨hcw, -, henc⟩ := decode_cw_some hdec
      rw [step_cmd_of_decode_some hidle hpend hdec]
      refine exec_of_err herr hcw ?_ ?_
      · rintro rfl
        exact hclr (BitVec.eq_of_toNat_eq henc.symm)
      · rintro rfl
        exact hreset (BitVec.eq_of_toNat_eq henc.symm)

end Sys2Proof.Machine
end

