-- ==== Sys2Proof/Proofs/BitReader.lean ====
section
/-! PROOFS. The bit reader (spec/40_bit_reader.md): where the host has written the bytes, the model's reader gives the
stream's bits, a read joins two shorter ones, and the commands `BR_START`, `GETBITS` and `READBITS`. -/

namespace Sys2Proof.Machine

/-! ### Errors in the terms of the statements -/

theorem raiseBy_eq_withError (i : Instr) (c : ErrCode) (s : State) :
    raiseBy i c s = .next (s.withError c.code (cmdWord i)) := rfl

theorem cmdWord_brStart : cmdWord .brStart = wordOf 1 0 0 := rfl

theorem cmdWord_getbits (n : Nat) : cmdWord (.getbits n) = wordOf 2 0 n := rfl

theorem cmdWord_readbits (n : Nat) : cmdWord (.readbits n) = wordOf 3 0 n := rfl

/-! ### The number at a position of the stream (R132) -/

section
variable (s : State) (pos : Nat)

@[simp] theorem State.bitsAt_zero : s.bitsAt pos 0 = 0 := rfl

/-- One more bit doubles the number and adds the bit. -/
theorem State.bitsAt_succ (n : Nat) : s.bitsAt pos (n + 1) = 2 * s.bitsAt pos n + s.bitAt (pos + n) := by
  have hdouble : ∀ i ∈ List.range n,
      s.bitAt (pos + i) <<< (n + 1 - 1 - i) = 2 * s.bitAt (pos + i) <<< (n - 1 - i) := by
    intro i hi
    have hexp : n + 1 - 1 - i = n - 1 - i + 1 := by have := List.mem_range.1 hi; omega
    rw [hexp, Nat.shiftLeft_succ]
  unfold State.bitsAt
  rw [List.range_succ, List.map_append, List.sum_append, List.map_congr_left hdouble, List.sum_map_mul_left]
  simp

/-- A number of `m + n` bits is its `m` higher bits and its `n` lower bits. -/
theorem State.bitsAt_add (m n : Nat) :
    s.bitsAt pos (m + n) = s.bitsAt pos m * 2 ^ n + s.bitsAt (pos + m) n := by
  induction n with
  | zero => simp
  | succ n ih => rw [← Nat.add_assoc, State.bitsAt_succ, State.bitsAt_succ, ih, Nat.add_assoc pos, Nat.pow_succ]; ring

end

/-! ### The model's reader where the host has written (R131 to R133) -/

section
variable {s : State} {pos : Nat}

theorem State.bitsWritten.mono {n pos' n' : Nat} (h : s.bitsWritten pos n) (hle : pos ≤ pos')
    (hend : pos' + n' ≤ pos + n) : s.bitsWritten pos' n' :=
  fun p hp hp' => h p (by omega) (by omega)

/-- A bit of a written byte, most significant first. -/
theorem streamBit_of_read {p : Nat} {b : Byte} (hp : p / 8 < s.br.len.toNat)
    (hread : Memory.read s.src (s.br.base.toNat + p / 8) = some b) :
    streamBit s p = .ok (b.toNat / 2 ^ (7 - p % 8) % 2) := by
  rw [streamBit, if_pos hp, readEntry_of_some _ _ _ _ hread, attempt_ok_bind]

theorem streamBit_of_isSome {p : Nat}
    (h : p / 8 < s.br.len.toNat → (Memory.read s.src (s.br.base.toNat + p / 8)).isSome = true) :
    streamBit s p = .ok (s.bitAt p) := by
  by_cases hp : p / 8 < s.br.len.toNat
  · obtain ⟨b, hb⟩ := Option.isSome_iff_exists.1 (h hp)
    rw [streamBit_of_read hp hb, State.bitAt, if_pos hp, hb, Option.getD_some, Nat.shiftRight_eq_div_pow,
      Nat.and_one_is_mod]
  · rw [streamBit, if_neg hp, State.bitAt, if_neg hp]

/-- The model peeks the number that stands at the position. -/
theorem peekAt_of_bitsWritten {n : Nat} (h : s.bitsWritten pos n) : peekAt s pos n = .ok (s.bitsAt pos n) := by
  induction n with
  | zero => rfl
  | succ n ih =>
    have hbit : streamBit s (pos + n) = .ok (s.bitAt (pos + n)) :=
      streamBit_of_isSome (h _ (by omega) (by omega))
    rw [peekAt, ih (h.mono le_rfl (by omega)), attempt_ok_bind, hbit, attempt_ok_bind, State.bitsAt_succ]

theorem State.bitsAt_lt_of_bitsWritten {n : Nat} (h : s.bitsWritten pos n) : s.bitsAt pos n < 2 ^ n :=
  peekAt_lt s pos n _ (peekAt_of_bitsWritten h)

theorem take_of_bitsWritten {n : Nat} (h : s.bitsWritten s.br.bitpos n) :
    take s n = .ok (s.bitsAt s.br.bitpos n, s.advance n) :=
  (take_ok _ _ _ _).2 ⟨peekAt_of_bitsWritten h, rfl⟩

/-- The long read gives the same number as one read of all its bits. -/
theorem takeLong_of_bitsWritten {n : Nat} (h : s.bitsWritten s.br.bitpos n) :
    takeLong s n = .ok (s.bitsAt s.br.bitpos n, s.advance n) := by
  by_cases hn : n ≤ 16
  · rw [takeLong, if_pos hn, take_of_bitsWritten h]
  · obtain ⟨m, rfl⟩ : ∃ m, n = m + 16 := ⟨n - 16, by omega⟩
    have hhigh : take s m = .ok (s.bitsAt s.br.bitpos m, s.advance m) :=
      take_of_bitsWritten (h.mono le_rfl (by omega))
    have hlow : take (s.advance m) 16 = .ok (s.bitsAt (s.br.bitpos + m) 16, s.advance (m + 16)) := by
      have hwritten : (s.advance m).bitsWritten (s.br.bitpos + m) 16 := h.mono (by omega) (by omega)
      rw [← State.advance_advance]
      exact take_of_bitsWritten hwritten
    rw [takeLong, if_neg hn, Nat.add_sub_cancel, hhigh, attempt_ok_bind]
    simp only [hlow, attempt_ok_bind, State.bitsAt_add]

end

/-! ### The commands, case by case (R135, R138, R141) -/

section
variable {s t : State} {n v : Nat}

theorem exec_brStart_of_empty (herr : s.err = false) (hlen : s.arg1 = 0) :
    exec .brStart s = .next (s.withError 0x33 (wordOf 1 0 0)) := by
  rw [exec, execBrStart, gate_open _ _ herr, if_pos hlen, raiseBy_eq_withError, cmdWord_brStart, ErrCode.code]

theorem exec_brStart_of_srcSize_lt (herr : s.err = false) (hlen : s.arg1 ≠ 0)
    (hend : s.cfg.srcSize < s.arg0.toNat + s.arg1.toNat) :
    exec .brStart s = .next (s.withError 0x44 (wordOf 1 0 0)) := by
  rw [exec, execBrStart, gate_open _ _ herr, if_neg hlen, if_pos hend, raiseBy_eq_withError, cmdWord_brStart,
    ErrCode.code]

theorem exec_brStart_of_le_srcSize (herr : s.err = false) (hlen : s.arg1 ≠ 0)
    (hend : s.arg0.toNat + s.arg1.toNat ≤ s.cfg.srcSize) :
    exec .brStart s = .next { s with br := ⟨s.arg0, s.arg1, 0, true, false⟩ } := by
  rw [exec, execBrStart, gate_open _ _ herr, if_neg hlen, if_neg (Nat.not_lt.2 hend)]

theorem exec_getbits_of_lt (herr : s.err = false) (hn : 16 < n) :
    exec (.getbits n) s = .next (s.withError 0x44 (wordOf 2 0 n)) := by
  rw [exec, execGetbits, gate_open _ _ herr, if_pos hn, raiseBy_eq_withError, cmdWord_getbits, ErrCode.code]

theorem exec_getbits_of_not_valid (herr : s.err = false) (hn : n ≤ 16) (hvalid : s.br.valid = false) :
    exec (.getbits n) s = .next (s.withError 0x45 (wordOf 2 0 n)) := by
  rw [exec, execGetbits, gate_open _ _ herr, if_neg (Nat.not_lt.2 hn), if_pos hvalid, raiseBy_eq_withError,
    cmdWord_getbits, ErrCode.code]

theorem exec_getbits_of_take (herr : s.err = false) (hn : n ≤ 16) (hvalid : s.br.valid = true)
    (htake : take s n = .ok (v, t)) : exec (.getbits n) s = .next (t.setResult v) := by
  rw [exec, execGetbits, gate_open _ _ herr, if_neg (Nat.not_lt.2 hn), if_neg (by simp [hvalid]), htake,
    attempt_ok_bind, settle_ok]

theorem exec_readbits_of_lt (herr : s.err = false) (hn : 32 < n) :
    exec (.readbits n) s = .next (s.withError 0x44 (wordOf 3 0 n)) := by
  rw [exec, execReadbits, gate_open _ _ herr, if_pos hn, raiseBy_eq_withError, cmdWord_readbits, ErrCode.code]

theorem exec_readbits_of_not_valid (herr : s.err = false) (hn : n ≤ 32) (hvalid : s.br.valid = false) :
    exec (.readbits n) s = .next (s.withError 0x45 (wordOf 3 0 n)) := by
  rw [exec, execReadbits, gate_open _ _ herr, if_neg (Nat.not_lt.2 hn), if_pos hvalid, raiseBy_eq_withError,
    cmdWord_readbits, ErrCode.code]

theorem exec_readbits_of_takeLong (herr : s.err = false) (hn : n ≤ 32) (hvalid : s.br.valid = true)
    (htake : takeLong s n = .ok (v, t)) : exec (.readbits n) s = .next (t.setResult v) := by
  rw [exec, execReadbits, gate_open _ _ herr, if_neg (Nat.not_lt.2 hn), if_neg (by simp [hvalid]), htake,
    attempt_ok_bind, settle_ok]

end

/-! ### The statements -/

/-- Settles O18: one case of the command for each check and for the start, and then a bit of a written byte. -/
theorem brStartStartsTheReader : Obligations.BrStartStartsTheReader := by
  intro s herr
  refine ⟨exec_brStart_of_empty herr, exec_brStart_of_srcSize_lt herr, fun hlen hend => ?_⟩
  exact ⟨_, exec_brStart_of_le_srcSize herr hlen hend, rfl, fun p b hp hread => streamBit_of_read hp hread⟩

/-- Settles O19: behind the two checks, the read takes the number that stands at the cursor. -/
theorem getbitsReadsTheStream : Obligations.GetbitsReadsTheStream := by
  intro s n herr
  refine ⟨exec_getbits_of_lt herr, exec_getbits_of_not_valid herr, fun hn hvalid hwritten => ⟨?_, ?_⟩⟩
  · exact exec_getbits_of_take herr hn hvalid (take_of_bitsWritten hwritten)
  · exact State.bitsAt_lt_of_bitsWritten hwritten

/-- Settles O20: behind the two checks, the long read takes the number that stands at the cursor, and for `n` above 16
that number is its two parts. -/
theorem readbitsReadsTheStream : Obligations.ReadbitsReadsTheStream := by
  intro s n herr
  refine ⟨exec_readbits_of_lt herr, exec_readbits_of_not_valid herr, fun hn hvalid hwritten => ⟨?_, fun hlong => ?_⟩⟩
  · exact exec_readbits_of_takeLong herr hn hvalid (takeLong_of_bitsWritten hwritten)
  · rw [← State.bitsAt_add, Nat.sub_add_cancel hlong.le]

end Sys2Proof.Machine
end

