-- ==== Sys2Proof/Proofs/CodeLengths.lean ====
section
/-! PROOFS. Facts about a list of code lengths alone: the symbols of one length, the list of all used symbols, and sums
over the lengths as sums over the symbols (spec/41_huffman_model.md R153, R155). -/

namespace Sys2Proof.Machine

variable {lens : List Nat} {L i sym : Nat}

/-! ### The symbols of one length -/

/-- One more symbol joins the list of its own length at the end. -/
theorem symbolsOfLen_concat (lens : List Nat) (l L : Nat) :
    symbolsOfLen (lens ++ [l]) L = symbolsOfLen lens L ++ if l = L then [lens.length] else [] := by
  unfold symbolsOfLen
  rw [List.zipIdx_append, List.filter_append, List.map_append]
  by_cases h : l = L <;> simp [h]

@[simp] theorem length_symbolsOfLen (lens : List Nat) (L : Nat) : (symbolsOfLen lens L).length = lens.count L := by
  induction lens using List.reverseRecOn with
  | nil => rfl
  | append_singleton lens l ih =>
    rw [symbolsOfLen_concat, List.length_append, ih, List.count_append, List.count_singleton]
    by_cases h : l = L <;> simp [h]

/-- A symbol stands behind the symbols of its length that come before it. -/
theorem getElem?_symbolsOfLen :
    (symbolsOfLen lens L)[i]? = some sym ↔
      sym < lens.length ∧ lens.getD sym 0 = L ∧ (lens.take sym).count L = i := by
  induction lens using List.reverseRecOn with
  | nil => simp [symbolsOfLen]
  | append_singleton lens l ih =>
    have hlast : (symbolsOfLen (lens ++ [l]) L)[i]? = some sym ↔
        (symbolsOfLen lens L)[i]? = some sym ∨ (lens.length = sym ∧ l = L ∧ lens.count L = i) := by
      rw [symbolsOfLen_concat, List.getElem?_append, length_symbolsOfLen]
      rcases lt_trichotomy i (lens.count L) with hi | rfl | hi
      · simp [hi, hi.ne']
      · by_cases hl : l = L <;> simp [hl]
      · have hnone : ¬ i < lens.count L := by omega
        rw [if_neg hnone, List.getElem?_eq_none (by split <;> simp; omega),
          List.getElem?_eq_none (l := symbolsOfLen lens L) (by simp; omega)]
        simp [hi.ne]
    rw [hlast, ih, List.length_append, List.length_singleton]
    rcases lt_trichotomy sym lens.length with hs | rfl | hs
    · rw [List.getD_append _ _ _ _ hs, List.take_append_of_le_length hs.le]
      simp [hs, hs.ne', Nat.lt_succ_of_lt hs]
    · simp
    · simp [hs.ne, hs.not_gt, show ¬ sym < lens.length + 1 by omega]

theorem mem_symbolsOfLen : sym ∈ symbolsOfLen lens L ↔ sym < lens.length ∧ lens.getD sym 0 = L := by
  simp [List.mem_iff_getElem?, getElem?_symbolsOfLen]

theorem pairwise_lt_symbolsOfLen (lens : List Nat) (L : Nat) : (symbolsOfLen lens L).Pairwise (· < ·) := by
  induction lens using List.reverseRecOn with
  | nil => exact List.Pairwise.nil
  | append_singleton lens l ih =>
    rw [symbolsOfLen_concat, List.pairwise_append]
    refine ⟨ih, by split <;> simp, fun a ha b hb => ?_⟩
    have hb : b = lens.length := by split at hb <;> simp_all
    exact hb ▸ (mem_symbolsOfLen.1 ha).1

/-! ### Sums over the lengths -/

/-- A sum over the lengths from 1 to `k`, each taken as often as it occurs, is a sum over the symbols. -/
theorem sum_count_mul (lens : List Nat) (f : Nat → Nat) (k : Nat) :
    ((List.range' 1 k).map fun L => lens.count L * f L).sum =
      (lens.map fun l => if 0 < l ∧ l ≤ k then f l else 0).sum := by
  have hone : ∀ l, ((List.range' 1 k).map fun L => (if l = L then 1 else 0) * f L).sum =
      if 0 < l ∧ l ≤ k then f l else 0 := by
    intro l
    induction k with
    | zero => exact (if_neg (by omega)).symm
    | succ k ih =>
      rw [List.range'_concat, List.map_append, List.sum_append, ih]
      by_cases hl : l = k + 1
      · simp [hl, Nat.add_comm]
      · rw [Nat.add_comm] at hl
        simp only [List.map_singleton, List.sum_singleton, Nat.one_mul, if_neg hl, Nat.zero_mul, Nat.add_zero]
        exact if_congr (by omega) rfl rfl
  induction lens with
  | nil => simp
  | cons l lens ih =>
    simp only [List.count_cons, beq_iff_eq, Nat.add_mul, List.sum_map_add, List.map_cons, List.sum_cons, ih, hone]
    exact Nat.add_comm _ _

/-- The symbols of lengths 1 to `k`, counted. -/
theorem sum_count {lens : List Nat} {p : Nat → Bool} {k : Nat} (hp : ∀ l ∈ lens, p l = true ↔ 0 < l ∧ l ≤ k) :
    ((List.range' 1 k).map lens.count).sum = (lens.filter p).length := by
  have hfilter : (lens.map fun l => if 0 < l ∧ l ≤ k then 1 else 0).sum = (lens.filter p).length := by
    induction lens with
    | nil => rfl
    | cons l lens ih =>
      have hl := hp l List.mem_cons_self
      rw [List.map_cons, List.sum_cons, ih fun l hmem => hp l (List.mem_cons_of_mem _ hmem), List.filter_cons]
      by_cases hpl : p l = true
      · rw [if_pos (hl.1 hpl), if_pos hpl, List.length_cons, Nat.add_comm]
      · rw [if_neg fun h => hpl (hl.2 h), if_neg hpl, Nat.zero_add]
  have hsum := sum_count_mul lens (fun _ => 1) k
  simp only [Nat.mul_one] at hsum
  exact hsum.trans hfilter

/-! ### All used symbols -/

theorem mem_codeLengths : L ∈ codeLengths ↔ 1 ≤ L ∧ L ≤ 16 := by
  simp only [codeLengths, maxCodeLen, List.mem_range'_1]
  omega

/-- The lengths up to `k`, cut before a length and behind it. -/
theorem range'_one_eq_append {k : Nat} (h1 : 1 ≤ L) (hL : L ≤ k) :
    List.range' 1 k = List.range' 1 (L - 1) ++ L :: List.range' (L + 1) (k - L) := by
  obtain ⟨j, rfl⟩ : ∃ j, L = 1 + 1 * j := ⟨L - 1, by omega⟩
  rw [← List.range'_succ, show 1 + 1 * j - 1 = j by omega, List.range'_append]
  congr 1
  omega

theorem mem_sortedSymbols :
    sym ∈ sortedSymbols lens ↔ sym < lens.length ∧ 1 ≤ lens.getD sym 0 ∧ lens.getD sym 0 ≤ 16 := by
  simp only [sortedSymbols, List.mem_flatMap, mem_codeLengths, mem_symbolsOfLen]
  constructor
  · rintro ⟨L, hL, hsym, rfl⟩
    exact ⟨hsym, hL⟩
  · rintro ⟨hsym, hL⟩
    exact ⟨_, hL, hsym, rfl⟩

theorem length_sortedSymbols (lens : List Nat) :
    (sortedSymbols lens).length = (codeLengths.map lens.count).sum := by
  simp [sortedSymbols, List.length_flatMap]

/-- The symbols of length `L` stand behind those of the shorter lengths. -/
theorem getElem?_sortedSymbols (h1 : 1 ≤ L) (h16 : L ≤ 16) (hi : i < lens.count L) :
    (sortedSymbols lens)[((List.range' 1 (L - 1)).map lens.count).sum + i]? = (symbolsOfLen lens L)[i]? := by
  have hlen : ((List.range' 1 (L - 1)).flatMap (symbolsOfLen lens)).length =
      ((List.range' 1 (L - 1)).map lens.count).sum := by simp [List.length_flatMap]
  rw [sortedSymbols, codeLengths, maxCodeLen, range'_one_eq_append h1 h16, List.flatMap_append, List.flatMap_cons,
    List.getElem?_append_right (by omega), hlen, Nat.add_sub_cancel_left, List.getElem?_append_left (by simpa using hi)]

theorem pairwise_sortedSymbols (lens : List Nat) : (sortedSymbols lens).Pairwise fun a b =>
    lens.getD a 0 < lens.getD b 0 ∨ (lens.getD a 0 = lens.getD b 0 ∧ a < b) := by
  refine List.pairwise_flatMap.2 ⟨fun L _ => ?_, ?_⟩
  · refine (pairwise_lt_symbolsOfLen lens L).imp_of_mem fun ha hb hlt => .inr ⟨?_, hlt⟩
    rw [(mem_symbolsOfLen.1 ha).2, (mem_symbolsOfLen.1 hb).2]
  · refine (List.pairwise_lt_range' 1).imp fun hlt a ha b hb => .inl ?_
    rwa [(mem_symbolsOfLen.1 ha).2, (mem_symbolsOfLen.1 hb).2]

end Sys2Proof.Machine
end

