-- ==== Sys2Proof/Proofs/CanonicalCode.lean ====
section
/-! PROOFS. The canonical code of a list of code lengths, without the model's tables: where the codes of a length end,
the Kraft sum, the symbol a code value names, and why no code begins another (spec/41_huffman_model.md R156 to R158, R161,
R167). -/

namespace Sys2Proof.Machine

variable {lens : List Nat} {L K sym v : Nat}

/-! ### The codes of a length -/

/-- One past the last code of a length. -/
def codeEnd (lens : List Nat) (L : Nat) : Nat := codeStart lens L + lens.count L

theorem codeStart_one (lens : List Nat) : codeStart lens 1 = 0 := rfl

theorem codeStart_succ (h1 : 1 ≤ L) : codeStart lens (L + 1) = 2 * codeEnd lens L := by
  rw [codeStart, if_neg (by omega), codeEnd]

theorem codeStart_le_codeEnd (lens : List Nat) (L : Nat) : codeStart lens L ≤ codeEnd lens L := Nat.le_add_right _ _

theorem codeEnd_pos (hpos : 0 < lens.count L) : 0 < codeEnd lens L := Nat.add_pos_right _ hpos

/-- The codes of a greater length start behind all extensions of the codes of a shorter one. -/
theorem codeEnd_mul_le_codeStart (h1 : 1 ≤ L) (hlt : L < K) : codeEnd lens L * 2 ^ (K - L) ≤ codeStart lens K := by
  induction K, hlt using Nat.le_induction with
  | base => simp [codeStart_succ h1, Nat.mul_comm]
  | succ K hK ih =>
    have hK : L + 1 ≤ K := hK
    have hend := codeStart_le_codeEnd lens K
    rw [codeStart_succ (by omega), Nat.succ_sub (by omega), Nat.pow_succ, ← Nat.mul_assoc]
    omega

theorem codeEnd_mul_le_codeEnd (h1 : 1 ≤ L) (hle : L ≤ K) : codeEnd lens L * 2 ^ (K - L) ≤ codeEnd lens K := by
  rcases hle.eq_or_lt with rfl | hlt
  · simp
  · exact (codeEnd_mul_le_codeStart h1 hlt).trans (codeStart_le_codeEnd lens K)

/-! ### The Kraft sum -/

/-- The codes of the lengths up to `L` and their extensions fill the 16-bit numbers up to the codes of length `L`. -/
theorem codeEnd_mul_two_pow (h1 : 1 ≤ L) (h16 : L ≤ 16) : codeEnd lens L * 2 ^ (16 - L) =
    ((List.range' 1 L).map fun K => lens.count K * 2 ^ (16 - K)).sum := by
  induction L, h1 using Nat.le_induction with
  | base => simp [codeEnd, codeStart_one]
  | succ L h1 ih =>
    have hpow : 2 ^ (16 - L) = 2 * 2 ^ (16 - (L + 1)) := by rw [← Nat.pow_succ']; congr 1; omega
    rw [List.range'_concat, List.map_append, List.sum_append, ← ih (by omega), codeEnd, codeStart_succ h1, hpow]
    simp only [Nat.one_mul, Nat.add_comm 1, List.map_singleton, List.sum_singleton]
    ring

theorem kraftSum_eq_codeEnd (hlens : ∀ l ∈ lens, l ≤ 16) : kraftSum lens = codeEnd lens 16 := by
  have hsum := codeEnd_mul_two_pow (lens := lens) (L := 16) (by omega) le_rfl
  rw [Nat.sub_self, Nat.pow_zero, Nat.mul_one, sum_count_mul] at hsum
  rw [hsum, kraftSum]
  congr 1
  refine List.map_congr_left fun l hl => ?_
  have := hlens l hl
  by_cases h0 : l = 0
  · simp [h0]
  · rw [if_neg h0, if_pos (by omega)]

/-- Within the Kraft bound the codes of every length fit. -/
theorem codeEnd_le_of_kraftSum_le (hlens : ∀ l ∈ lens, l ≤ 16) (hkraft : kraftSum lens ≤ 2 ^ 16) (h1 : 1 ≤ L)
    (h16 : L ≤ 16) : codeEnd lens L ≤ 2 ^ L := by
  have hle : codeEnd lens L * 2 ^ (16 - L) ≤ 2 ^ L * 2 ^ (16 - L) := by
    rw [← Nat.pow_add, Nat.add_sub_cancel' h16]
    exact (codeEnd_mul_le_codeEnd h1 h16).trans (kraftSum_eq_codeEnd hlens ▸ hkraft)
  exact Nat.le_of_mul_le_mul_right hle (Nat.two_pow_pos _)

/-! ### The symbol a code value names -/

/-- The symbol has length `L`, and its canonical code is `v`. -/
def HasCode (lens : List Nat) (sym L v : Nat) : Prop :=
  sym < lens.length ∧ lens.getD sym 0 = L ∧ canonicalCode lens sym = v

/-- A code names the symbol that stands as far behind the first of its length as the code behind the first code. -/
theorem hasCode_iff : HasCode lens sym L v ↔
    codeStart lens L ≤ v ∧ (symbolsOfLen lens L)[v - codeStart lens L]? = some sym := by
  rw [getElem?_symbolsOfLen, HasCode, canonicalCode]
  constructor
  · rintro ⟨hsym, rfl, hv⟩
    exact ⟨by omega, hsym, rfl, by omega⟩
  · rintro ⟨hle, hsym, rfl, hv⟩
    exact ⟨hsym, rfl, by omega⟩

/-- The code values of a length that are in use. -/
theorem exists_hasCode_iff : (∃ sym, HasCode lens sym L v) ↔ codeStart lens L ≤ v ∧ v < codeEnd lens L := by
  simp only [hasCode_iff, exists_and_left, List.getElem?_eq_some_iff, length_symbolsOfLen, codeEnd]
  exact ⟨fun ⟨hle, _, hlt, _⟩ => by omega, fun ⟨hle, hlt⟩ => ⟨hle, _, by omega, rfl⟩⟩

theorem HasCode.bounds (h : HasCode lens sym L v) : codeStart lens L ≤ v ∧ v < codeEnd lens L :=
  exists_hasCode_iff.1 ⟨sym, h⟩

theorem HasCode.count_pos (h : HasCode lens sym L v) : 0 < lens.count L := by
  have hbounds := h.bounds
  unfold codeEnd at hbounds
  omega

/-- `sorted` lists the symbol of each code where the value pointer says. -/
theorem HasCode.getElem?_sortedSymbols (h : HasCode lens sym L v) (h1 : 1 ≤ L) (h16 : L ≤ 16) :
    (sortedSymbols lens)[((List.range' 1 (L - 1)).map lens.count).sum + (v - codeStart lens L)]? = some sym := by
  obtain ⟨hle, hget⟩ := hasCode_iff.1 h
  have hlt := h.bounds.2
  rw [Machine.getElem?_sortedSymbols h1 h16 (by unfold codeEnd at hlt; omega), hget]

/-! ### No code begins another -/

/-- Cut to a shorter length, a code lies behind all codes of that length. -/
theorem HasCode.codeEnd_le_div (h : HasCode lens sym K v) (h1 : 1 ≤ L) (hlt : L < K) :
    codeEnd lens L ≤ v / 2 ^ (K - L) :=
  (Nat.le_div_iff_mul_le (Nat.two_pow_pos _)).2 ((codeEnd_mul_le_codeStart h1 hlt).trans h.bounds.1)

/-- Cutting a number of `b` bits to its first `L` bits, by way of its first `K`. -/
theorem div_two_pow_cut {x b : Nat} (hL : L ≤ K) (hK : K ≤ b) :
    x / 2 ^ (b - K) / 2 ^ (K - L) = x / 2 ^ (b - L) := by
  rw [Nat.div_div_eq_div_mul, ← Nat.pow_add]
  congr 2
  omega

/-- Two codes that begin the same `b` bits are the same code. -/
theorem HasCode.length_le {x b sym' : Nat} (h : HasCode lens sym L (x / 2 ^ (b - L)))
    (h' : HasCode lens sym' K (x / 2 ^ (b - K))) (h1 : 1 ≤ L) (hK : K ≤ b) : K ≤ L := by
  by_contra hlt
  have hge := h'.codeEnd_le_div h1 (by omega : L < K)
  rw [div_two_pow_cut (by omega) hK] at hge
  exact absurd h.bounds.2 (by omega)

end Sys2Proof.Machine
end

