-- ==== Sys2Proof/Proofs/HuffmanBuild.lean ====
section
/-! PROOFS. `Build` (spec/41_huffman_model.md R150 to R163): when it fails, and the fields of the model it makes in the
terms of the canonical code. -/

namespace Sys2Proof.Machine

/-! ### When `Build` fails (R152, R158, R166) -/

section
variable {n : Nat} {lens : List Nat}

theorem assignRows_error {Ls : List Nat} {cur acc : Nat} {c : ErrCode} (h : assignRows lens cur acc Ls = .error c) :
    c = .modelTable := by
  induction Ls generalizing cur acc with
  | nil => cases h
  | cons L rest ih =>
    have hbind : ∀ (row : LenRow) (x : Except ErrCode (List LenRow)),
        (x >>= fun rows => .ok (row :: rows)) = .error c → x = .error c := by
      rintro row (e | rows) hx <;> cases hx
      rfl
    rw [assignRows] at h
    split_ifs at h
    · exact ih (hbind _ _ h)
    · cases h
      rfl
    · exact ih (hbind _ _ h)

/-- The assignment succeeds where the codes of every length fit. -/
theorem exists_assignRows (L0 k acc : Nat) (hL0 : 1 ≤ L0)
    (hfit : ∀ L, L0 ≤ L → L < L0 + k → codeEnd lens L ≤ 2 ^ L) :
    ∃ rows, assignRows lens (codeStart lens L0) acc (List.range' L0 k) = .ok rows := by
  induction k generalizing L0 acc with
  | zero => exact ⟨[], rfl⟩
  | succ k ih =>
    have hrest := fun acc => ih (L0 + 1) acc (by omega) fun L hle hlt => hfit L (by omega) (by omega)
    rw [codeStart_succ hL0] at hrest
    rw [List.range'_succ]
    rcases Nat.eq_zero_or_pos (lens.count L0) with h0 | hpos
    · obtain ⟨rows, hrows⟩ := hrest acc
      rw [codeEnd, h0, Nat.add_zero] at hrows
      exact ⟨_, (assignRows_cons _ _ _ _ _ _).2 (.inl ⟨h0, rows, hrows, rfl⟩)⟩
    · obtain ⟨rows, hrows⟩ := hrest (acc + lens.count L0)
      exact ⟨_, (assignRows_cons _ _ _ _ _ _).2 (.inr ⟨hpos, hfit L0 le_rfl (by omega), rows, hrows, rfl⟩)⟩

theorem build_zero (lens : List Nat) : build 0 lens = .error .modelEmpty := rfl

theorem build_of_lt (hn : 8192 < n) : build n lens = .error .modelTooMany := by
  exact (if_neg (by omega)).trans (if_pos hn)

theorem build_of_codelen (h0 : 0 < n) (hn : n ≤ 8192) (hlong : ∃ l ∈ lens, 16 < l) :
    build n lens = .error .modelCodelen := by
  have hany : (lens.any fun l => decide (maxCodeLen < l)) = true := by
    obtain ⟨l, hl, hlt⟩ := hlong
    exact List.any_eq_true.2 ⟨l, hl, decide_eq_true hlt⟩
  rw [build, if_neg (by omega), if_neg (show ¬ maxSyms < n from Nat.not_lt.2 hn), if_pos hany]

/-- Behind the three checks of its input `Build` fails only where the codes do not fit. -/
theorem build_of_lens (h0 : 0 < n) (hn : n ≤ 8192) (hlens : ∀ l ∈ lens, l ≤ 16) :
    build n lens = .error .modelTable ∨ ∃ m, build n lens = .ok m := by
  have hany : ¬ (lens.any fun l => decide (maxCodeLen < l)) = true := by
    intro hany
    obtain ⟨l, hl, hlt⟩ := List.any_eq_true.1 hany
    exact absurd (of_decide_eq_true hlt) (Nat.not_lt.2 (hlens l hl))
  rw [build, if_neg (by omega), if_neg (show ¬ maxSyms < n from Nat.not_lt.2 hn), if_neg hany]
  cases hrows : assignRows lens 0 0 codeLengths with
  | error c => exact .inl (assignRows_error hrows ▸ rfl)
  | ok rows => exact .inr ⟨_, rfl⟩

end

section
variable {n L : Nat} {lens : List Nat} {m : Model}

theorem build_lens_le (h : build n lens = .ok m) : ∀ l ∈ lens, l ≤ 16 := ((build_ok _ _ _).1 h).2.2.1

/-- In a built model the codes of every length fit, those of unused lengths too. -/
theorem codeEnd_le_of_build (h : build n lens = .ok m) (h1 : 1 ≤ L) (h16 : L ≤ 16) : codeEnd lens L ≤ 2 ^ L := by
  induction L, h1 using Nat.le_induction with
  | base =>
    rcases Nat.eq_zero_or_pos (lens.count 1) with h0 | hpos
    · simp [codeEnd, codeStart_one, h0]
    · exact (build_row n 1 lens m h le_rfl (by omega)).2 hpos
  | succ L h1 ih =>
    rcases Nat.eq_zero_or_pos (lens.count (L + 1)) with h0 | hpos
    · rw [codeEnd, h0, Nat.add_zero, codeStart_succ h1, Nat.pow_succ']
      exact Nat.mul_le_mul_left 2 (ih (by omega))
    · exact (build_row n (L + 1) lens m h (by omega) h16).2 hpos

theorem kraftSum_le_of_build (h : build n lens = .ok m) : kraftSum lens ≤ 2 ^ 16 :=
  kraftSum_eq_codeEnd (build_lens_le h) ▸ codeEnd_le_of_build h (by omega) le_rfl

theorem exists_build (h0 : 0 < n) (hn : n ≤ 8192) (hlens : ∀ l ∈ lens, l ≤ 16) (hkraft : kraftSum lens ≤ 2 ^ 16) :
    ∃ m, build n lens = .ok m := by
  obtain ⟨rows, hrows⟩ := exists_assignRows (lens := lens) 1 16 0 le_rfl fun L h1 h16 =>
    codeEnd_le_of_kraftSum_le hlens hkraft h1 (by omega)
  exact ⟨_, (build_ok _ _ _).2 ⟨h0, hn, hlens, rows, hrows, rfl⟩⟩

end

/-- Settles O25: `Build` succeeds exactly where its input passes the three checks and the codes fit, and they fit
exactly within the Kraft bound. -/
theorem buildFailsInOrder : Obligations.BuildFailsInOrder := by
  intro n lens _
  refine ⟨?_, build_of_lt, build_of_codelen, fun h0 hn hlens hkraft => ?_, exists_build⟩
  · rintro rfl
    exact build_zero lens
  · refine (build_of_lens h0 hn hlens).resolve_right ?_
    rintro ⟨m, hm⟩
    exact absurd (kraftSum_le_of_build hm) (by omega)

/-! ### The fields of a built model -/

section
variable {n L sym v : Nat} {lens : List Nat} {m : Model}

theorem build_sorted (h : build n lens = .ok m) : m.sorted = sortedSymbols lens := by
  obtain ⟨-, -, -, rows, -, rfl⟩ := (build_ok _ _ _).1 h
  rfl

theorem build_tableBits (h : build n lens = .ok m) : m.tableBits = tableBitsOf n := by
  obtain ⟨-, -, -, rows, -, rfl⟩ := (build_ok _ _ _).1 h
  rfl

theorem build_rows_length (h : build n lens = .ok m) : m.rows.length = 16 := by
  obtain ⟨-, -, -, rows, hrows, rfl⟩ := (build_ok _ _ _).1 h
  exact assignRows_length _ _ _ _ _ hrows

theorem build_rows_getElem? (h : build n lens = .ok m) (h1 : 1 ≤ L) (h16 : L ≤ 16) :
    m.rows[L - 1]? = some (rowAt m.rows L) := by
  have hlt : L - 1 < m.rows.length := by rw [build_rows_length h]; omega
  rw [rowAt, List.getD_eq_getElem _ _ hlt, List.getElem?_eq_getElem hlt]

/-- The rows are those of the lengths 1 to 16. -/
theorem build_rows (h : build n lens = .ok m) : m.rows = codeLengths.map (rowAt m.rows) := by
  refine List.ext_getElem (by simp [build_rows_length h, codeLengths, maxCodeLen]) fun i hi _ => ?_
  simp [codeLengths, rowAt, hi]

theorem build_row_of_count_eq_zero (h : build n lens = .ok m) (h1 : 1 ≤ L) (h16 : L ≤ 16) (h0 : lens.count L = 0) :
    rowAt m.rows L = LenRow.unused := by
  rw [(build_row n L lens m h h1 h16).1, if_pos h0]

theorem build_row_of_count_pos (h : build n lens = .ok m) (h1 : 1 ≤ L) (h16 : L ≤ 16) (hpos : 0 < lens.count L) :
    rowAt m.rows L = ⟨lens.count L, some (codeStart lens L), some (codeEnd lens L - 1),
      some (max16Of L (codeEnd lens L - 1)), ((List.range' 1 (L - 1)).map lens.count).sum⟩ := by
  rw [(build_row n L lens m h h1 h16).1, if_neg hpos.ne', codeEnd]

theorem build_row_count (h : build n lens = .ok m) (h1 : 1 ≤ L) (h16 : L ≤ 16) :
    (rowAt m.rows L).count = lens.count L := by
  rcases Nat.eq_zero_or_pos (lens.count L) with h0 | hpos
  · rw [build_row_of_count_eq_zero h h1 h16 h0, h0]
    rfl
  · rw [build_row_of_count_pos h h1 h16 hpos]

theorem build_used (h : build n lens = .ok m) : m.used = (codeLengths.map lens.count).sum := by
  have hrows : m.used = (m.rows.map LenRow.count).sum := by
    obtain ⟨-, -, -, rows, -, rfl⟩ := (build_ok _ _ _).1 h
    rfl
  rw [hrows, build_rows h, List.map_map]
  congr 1
  refine List.map_congr_left fun L hL => ?_
  obtain ⟨h1, h16⟩ := mem_codeLengths.1 hL
  exact build_row_count h h1 h16

theorem getD_le_of_build (h : build n lens = .ok m) (sym : Nat) : lens.getD sym 0 ≤ 16 := by
  rcases Nat.lt_or_ge sym lens.length with hlt | hge
  · rw [List.getD_eq_getElem _ _ hlt]
    exact build_lens_le h _ (List.getElem_mem hlt)
  · rw [List.getD_eq_default _ _ hge]
    omega

theorem hasCode_canonicalCode (hsym : sym < lens.length) :
    HasCode lens sym (lens.getD sym 0) (canonicalCode lens sym) := ⟨hsym, rfl, rfl⟩

/-- The model's tables give each used symbol its canonical code. -/
theorem codeOf_eq_canonicalCode (h : build n lens = .ok m) (hsym : sym < lens.length) (hused : lens.getD sym 0 ≠ 0) :
    codeOf m sym = canonicalCode lens sym := by
  have hpos := (hasCode_canonicalCode hsym).count_pos
  rw [codeOf, (build_n_lens n lens m h).2,
    build_row_of_count_pos h (Nat.pos_of_ne_zero hused) (getD_le_of_build h sym) hpos]
  rfl

end

/-! ### The statements about `sorted`, the codes and the greatest codes -/

/-- Settles O27: `sorted` goes through the lengths and, inside a length, through the symbols; with every length at most
16 that are all used ones. -/
theorem sortedByLengthThenIndex : Obligations.SortedByLengthThenIndex := by
  rintro n lens m rfl h
  rw [build_sorted h, build_used h]
  refine ⟨?_, length_sortedSymbols lens, fun sym => ?_, pairwise_sortedSymbols lens⟩
  · refine sum_count fun l hl => ?_
    have hle : l ≤ maxCodeLen := build_lens_le h l hl
    rw [decide_eq_true_eq]
    omega
  · rw [mem_sortedSymbols]
    have := getD_le_of_build h sym
    constructor
    · rintro ⟨hsym, hpos, -⟩
      exact ⟨hsym, by omega⟩
    · rintro ⟨hsym, hused⟩
      exact ⟨hsym, by omega, this⟩

/-- Settles O26: the rows are those of the canonical assignment, and `sorted` has the symbol of each code where the
value pointer says. -/
theorem codesAreCanonical : Obligations.CodesAreCanonical := by
  rintro n lens m rfl h
  refine ⟨fun L h1 h16 => ⟨_, build_rows_getElem? h h1 h16, build_row_count h h1 h16, fun h0 => ?_, fun hpos => ?_⟩, ?_⟩
  · rw [build_row_count h h1 h16] at h0
    rw [build_row_of_count_eq_zero h h1 h16 h0]
    exact ⟨rfl, rfl, rfl, rfl⟩
  · rw [build_row_count h h1 h16] at hpos
    rw [build_row_of_count_pos h h1 h16 hpos]
    refine ⟨rfl, rfl, codeEnd_le_of_build h h1 h16, ?_, fun v hle hlt => ?_⟩
    · refine sum_count fun l _ => ?_
      rw [decide_eq_true_eq]
      omega
    · obtain ⟨sym, hcode⟩ := exists_hasCode_iff.2 ⟨hle, hlt⟩
      exact ⟨sym, build_sorted h ▸ hcode.getElem?_sortedSymbols h1 h16, hcode⟩
  · intro sym hsym hused
    have h16 := getD_le_of_build h sym
    exact ⟨codeOf_eq_canonicalCode h hsym hused, (hasCode_canonicalCode hsym).bounds.2.trans_le
      (codeEnd_le_of_build h (Nat.pos_of_ne_zero hused) h16)⟩

/-! ### The greatest codes as 16-bit numbers (R160) -/

section
variable {L last p : Nat}

theorem max16Of_eq_or (L last : Nat) : max16Of L last = (last <<< (16 - L)) ||| (2 ^ (16 - L) - 1) := by
  rw [max16Of, ← Nat.shiftLeft_add_eq_or_of_lt (Nat.sub_lt (Nat.two_pow_pos _) Nat.one_pos), Nat.shiftLeft_eq]

theorem max16Of_add_one (L last : Nat) : max16Of L last + 1 = (last + 1) * 2 ^ (16 - L) := by
  have := Nat.two_pow_pos (16 - L)
  rw [max16Of, Nat.add_mul]
  omega

/-- Comparing 16 bits with the greatest code followed by ones compares their first `L` bits with that code. -/
theorem le_max16Of_iff : p ≤ max16Of L last ↔ p / 2 ^ (16 - L) ≤ last := by
  rw [← Nat.lt_succ_iff, Nat.succ_eq_add_one, max16Of_add_one, ← Nat.div_lt_iff_lt_mul (Nat.two_pow_pos _),
    Nat.lt_succ_iff]

theorem max16Of_lt (h16 : L ≤ 16) (hlast : last < 2 ^ L) : max16Of L last < 2 ^ 16 := by
  rw [← Nat.succ_le_iff, Nat.succ_eq_add_one, max16Of_add_one, ← Nat.add_sub_cancel' h16, Nat.pow_add,
    Nat.add_sub_cancel_left]
  exact Nat.mul_le_mul_right _ hlast

end

/-! ### The least and greatest length, and `table_bits` (R159, R163) -/

/-- In a list ordered by `r`, `find?` gives the member before all others with the property. -/
theorem find?_eq_some_iff_of_pairwise {α : Type} {r : α → α → Prop} (hasymm : ∀ a b, r a b → ¬ r b a) {p : α → Bool}
    {xs : List α} (hxs : xs.Pairwise r) {b : α} :
    xs.find? p = some b ↔ b ∈ xs ∧ p b = true ∧ ∀ a ∈ xs, r a b → p a = false := by
  induction hxs with
  | nil => simp
  | @cons x xs hx _ ih =>
    cases hp : p x with
    | true =>
      rw [List.find?_cons_of_pos hp]
      constructor
      · rintro ⟨⟩
        refine ⟨List.mem_cons_self, hp, List.forall_mem_cons.2 ⟨fun hr => absurd hr (hasymm _ _ hr), fun a ha hr => ?_⟩⟩
        exact absurd hr (hasymm _ _ (hx a ha))
      · rintro ⟨hb, -, hmin⟩
        rcases List.mem_cons.1 hb with rfl | hb
        · rfl
        · exact absurd (hmin x List.mem_cons_self (hx b hb)) (by simp [hp])
    | false =>
      rw [List.find?_cons_of_neg (by simp [hp]), ih]
      constructor
      · rintro ⟨hb, hpb, hmin⟩
        exact ⟨List.mem_cons_of_mem _ hb, hpb, List.forall_mem_cons.2 ⟨fun _ => hp, hmin⟩⟩
      · rintro ⟨hb, hpb, hmin⟩
        refine ⟨(List.mem_cons.1 hb).resolve_left ?_, hpb, fun a ha => hmin a (List.mem_cons_of_mem _ ha)⟩
        rintro rfl
        exact absurd hpb (by simp [hp])

theorem pairwise_lt_codeLengths : codeLengths.Pairwise (· < ·) := List.pairwise_lt_range' 1

section
variable {n L : Nat} {lens : List Nat} {m : Model}

theorem build_minLen_eq_some_iff (h : build n lens = .ok m) : m.minLen = some L ↔
    1 ≤ L ∧ L ≤ 16 ∧ 0 < lens.count L ∧ ∀ K, 1 ≤ K → K < L → lens.count K = 0 := by
  have hmin : m.minLen = codeLengths.find? fun L => decide (0 < lens.count L) := by
    obtain ⟨-, -, -, rows, -, rfl⟩ := (build_ok _ _ _).1 h
    rfl
  rw [hmin, find?_eq_some_iff_of_pairwise (fun _ _ => Nat.lt_asymm) pairwise_lt_codeLengths]
  simp only [mem_codeLengths, decide_eq_true_eq, decide_eq_false_iff_not, Nat.not_lt, Nat.le_zero]
  exact ⟨fun ⟨⟨h1, h16⟩, hpos, hbelow⟩ => ⟨h1, h16, hpos, fun K hK hlt => hbelow K ⟨hK, by omega⟩ hlt⟩,
    fun ⟨h1, h16, hpos, hbelow⟩ => ⟨⟨h1, h16⟩, hpos, fun K hK hlt => hbelow K hK.1 hlt⟩⟩

theorem build_maxLen_eq_some_iff (h : build n lens = .ok m) : m.maxLen = some L ↔
    1 ≤ L ∧ L ≤ 16 ∧ 0 < lens.count L ∧ ∀ K, L < K → K ≤ 16 → lens.count K = 0 := by
  have hmax : m.maxLen = codeLengths.reverse.find? fun L => decide (0 < lens.count L) := by
    obtain ⟨-, -, -, rows, -, rfl⟩ := (build_ok _ _ _).1 h
    rfl
  rw [hmax, find?_eq_some_iff_of_pairwise (r := (· > ·)) (fun _ _ => Nat.lt_asymm)
    (List.pairwise_reverse.2 pairwise_lt_codeLengths)]
  simp only [List.mem_reverse, mem_codeLengths, decide_eq_true_eq, decide_eq_false_iff_not, Nat.not_lt, Nat.le_zero]
  exact ⟨fun ⟨⟨h1, h16⟩, hpos, habove⟩ => ⟨h1, h16, hpos, fun K hlt hK => habove K ⟨by omega, hK⟩ hlt⟩,
    fun ⟨h1, h16, hpos, habove⟩ => ⟨⟨h1, h16⟩, hpos, fun K hK hlt => habove K hlt hK.2⟩⟩

theorem tableBitsOf_of_le (hn : n ≤ 16) : tableBitsOf n = 0 := if_pos hn

theorem tableBitsOf_of_lt (hn : 16 < n) : tableBitsOf n = min (1 + ceilLog2 n) 11 := if_neg (Nat.not_le.2 hn)

theorem ceilLog2_spec (hn : n ≤ 2 ^ 16) : n ≤ 2 ^ ceilLog2 n ∧ ∀ j, n ≤ 2 ^ j → ceilLog2 n ≤ j := by
  have hsome : ((List.range 17).find? fun k => decide (n ≤ 2 ^ k)).isSome = true :=
    List.find?_isSome.2 ⟨16, by decide, by simpa using hn⟩
  obtain ⟨k, hk⟩ := Option.isSome_iff_exists.1 hsome
  have hlog : ceilLog2 n = k := by rw [ceilLog2, hk, Option.getD_some]
  obtain ⟨hle, -, hleast⟩ := List.find?_range_eq_some.1 hk
  refine hlog ▸ ⟨of_decide_eq_true hle, fun j hj => ?_⟩
  by_contra hlt
  simpa [hj] using hleast j (by omega)

end

/-- Settles O28: the rows of the canonical assignment, `find?` along the ordered lengths, and `ceil_log2` of at most
8192 symbols. -/
theorem maxCodesCompareSixteenBits : Obligations.MaxCodesCompareSixteenBits := by
  rintro n lens m rfl h
  refine ⟨fun L h1 h16 hpos => ?_, fun L h1 h16 h0 => ⟨_, build_rows_getElem? h h1 h16, ?_⟩,
    fun L => build_minLen_eq_some_iff h, fun L => build_maxLen_eq_some_iff h, fun hn => ?_, fun hn => ?_⟩
  · have hlast : codeEnd lens L - 1 < 2 ^ L := by
      have := codeEnd_le_of_build h h1 h16
      unfold codeEnd at this ⊢
      omega
    refine ⟨_, codeEnd lens L - 1, max16Of L (codeEnd lens L - 1), build_rows_getElem? h h1 h16, ?_, ?_,
      max16Of_eq_or _ _, max16Of_lt h16 hlast, fun p _ => ?_⟩
    · rw [build_row_of_count_pos h h1 h16 hpos]
    · rw [build_row_of_count_pos h h1 h16 hpos]
    · rw [Nat.shiftRight_eq_div_pow, le_max16Of_iff]
  · rw [build_row_of_count_eq_zero h h1 h16 h0]
    rfl
  · rw [build_tableBits h, tableBitsOf_of_le hn]
  · have hmax : lens.length ≤ 8192 := ((build_ok _ _ _).1 h).2.1
    obtain ⟨hle, hleast⟩ := ceilLog2_spec (hmax.trans (by decide))
    exact ⟨_, hle, hleast, by rw [build_tableBits h, tableBitsOf_of_lt hn]⟩

end Sys2Proof.Machine
end

