-- ==== Sys2Proof/Proofs/DirectTable.lean ====
section
/-! PROOFS. The direct lookup table of a built model (spec/41_huffman_model.md R164, R165). -/

namespace Sys2Proof.Machine

variable {n L sym v bits t : Nat} {lens : List Nat} {m : Model}

/-- The rows and `sorted` of a built model name the symbol of each code, and nothing at other values. -/
theorem symbolAt_eq_some_iff (h : build n lens = .ok m) (h1 : 1 ≤ L) (h16 : L ≤ 16) :
    symbolAt m.rows m.sorted L v = some sym ↔ HasCode lens sym L v := by
  rcases Nat.eq_zero_or_pos (lens.count L) with h0 | hpos
  · rw [symbolAt, build_row_of_count_eq_zero h h1 h16 h0]
    constructor
    · rintro ⟨⟩
    · exact fun hcode => absurd hcode.count_pos (by omega)
  · rw [symbolAt, build_row_of_count_pos h h1 h16 hpos, build_sorted h]
    simp only [Option.ite_none_right_eq_some]
    constructor
    · rintro ⟨⟨hle, hlast⟩, hget⟩
      rw [getElem?_sortedSymbols h1 h16 (by unfold codeEnd at hlast; omega)] at hget
      exact hasCode_iff.2 ⟨hle, hget⟩
    · intro hcode
      obtain ⟨hle, hlt⟩ := hcode.bounds
      exact ⟨⟨hle, by omega⟩, hcode.getElem?_sortedSymbols h1 h16⟩

theorem symbolAt_eq_none_iff (h : build n lens = .ok m) (h1 : 1 ≤ L) (h16 : L ≤ 16) :
    symbolAt m.rows m.sorted L v = none ↔ ∀ sym, ¬ HasCode lens sym L v := by
  simp only [← symbolAt_eq_some_iff h h1 h16, Option.eq_none_iff_forall_ne_some, ne_eq]

/-- A symbol number below 2^16 and a length above it do not overlap. -/
theorem pack_symbol (hsym : sym < 2 ^ 16) (L : Nat) : sym ||| (L <<< 16) = sym + L * 2 ^ 16 := by
  rw [Nat.or_comm, ← Nat.shiftLeft_add_eq_or_of_lt hsym, Nat.shiftLeft_eq, Nat.add_comm]

/-- The shorter lengths find no symbol, because no code begins another. -/
theorem tableEntry_of_hasCode (h : build n lens = .ok m) (h1 : 1 ≤ L) (hL : L ≤ bits) (hbits : bits ≤ 16)
    (hcode : HasCode lens sym L (t / 2 ^ (bits - L))) :
    tableEntry m.rows m.sorted bits t = BitVec.ofNat 32 (sym + L * 2 ^ 16) := by
  have hshort : ∀ K ∈ List.range' 1 (L - 1), symbolAt m.rows m.sorted K (t / 2 ^ (bits - K)) = none := by
    intro K hK
    rw [List.mem_range'_1] at hK
    refine (symbolAt_eq_none_iff h (by omega) (by omega)).2 fun sym' hcode' => ?_
    have := hcode'.length_le hcode (by omega) hL
    omega
  rw [tableEntry, List.findSome?_eq_some_iff.2 ⟨_, L, _, range'_one_eq_append h1 hL, ?_, fun K hK => ?_⟩,
    Option.getD_some]
  · rw [(symbolAt_eq_some_iff h h1 (by omega)).2 hcode, Option.map_some]
  · rw [hshort K hK, Option.map_none]

theorem tableEntry_eq_sentinel (h : build n lens = .ok m) (hbits : bits ≤ 16)
    (hnone : ∀ L, 1 ≤ L → L ≤ bits → ∀ sym, ¬ HasCode lens sym L (t / 2 ^ (bits - L))) :
    tableEntry m.rows m.sorted bits t = sentinel := by
  rw [tableEntry, List.findSome?_eq_none_iff.2 fun L hL => ?_, Option.getD_none]
  rw [List.mem_range'_1] at hL
  rw [(symbolAt_eq_none_iff h hL.1 (by omega)).2 (hnone L hL.1 (by omega)), Option.map_none]

theorem build_tableBits_le (h : build n lens = .ok m) : m.tableBits ≤ 11 := by
  rw [build_tableBits h]
  rcases Nat.lt_or_ge 16 n with hn | hn
  · rw [tableBitsOf_of_lt hn]
    exact Nat.min_le_right _ _
  · rw [tableBitsOf_of_le hn]
    decide

theorem build_table (h : build n lens = .ok m) : m.table =
    if m.tableBits = 0 then [] else (List.range (2 ^ m.tableBits)).map (tableEntry m.rows m.sorted m.tableBits) := by
  obtain ⟨-, -, -, rows, -, rfl⟩ := (build_ok _ _ _).1 h
  rfl

/-! ### `table_max16` -/

/-- `table_max16` looks through the lengths up to `table_bits`, the greatest first. -/
theorem build_tableMax16 (h : build n lens = .ok m) : m.tableMax16 =
    (List.range' 1 m.tableBits).reverse.findSome? fun L => (rowAt m.rows L).max16 := by
  have htake : m.rows.take m.tableBits = (List.range' 1 m.tableBits).map (rowAt m.rows) := by
    have hsplit : codeLengths = List.range' 1 m.tableBits ++ List.range' (1 + 1 * m.tableBits) (16 - m.tableBits) := by
      have := build_tableBits_le h
      rw [List.range'_append, codeLengths, maxCodeLen, Nat.add_sub_cancel' (by omega)]
    rw [build_rows h, ← List.map_take, ← build_rows h, hsplit, List.take_left' List.length_range']
  have hmax : m.tableMax16 = tableMax16Of m.rows m.tableBits := by
    obtain ⟨-, -, -, rows, -, rfl⟩ := (build_ok _ _ _).1 h
    rfl
  rw [hmax, tableMax16Of, htake, ← List.map_reverse, List.findSome?_map]
  rfl

theorem build_tableMax16_of_greatest (h : build n lens = .ok m) (h1 : 1 ≤ L) (hL : L ≤ m.tableBits)
    (hpos : 0 < lens.count L) (habove : ∀ K, L < K → K ≤ m.tableBits → lens.count K = 0) :
    m.tableMax16 = some (max16Of L (codeEnd lens L - 1)) := by
  have h16 := build_tableBits_le h
  have hrev : (List.range' 1 m.tableBits).reverse =
      (List.range' (L + 1) (m.tableBits - L)).reverse ++ L :: (List.range' 1 (L - 1)).reverse := by
    rw [range'_one_eq_append h1 hL]
    simp
  rw [build_tableMax16 h, List.findSome?_eq_some_iff]
  refine ⟨_, L, _, hrev, ?_, fun K hK => ?_⟩
  · rw [build_row_of_count_pos h h1 (by omega) hpos]
  · rw [List.mem_reverse, List.mem_range'_1] at hK
    rw [build_row_of_count_eq_zero h (by omega) (by omega) (habove K (by omega) (by omega))]
    rfl

theorem build_tableMax16_of_unused (h : build n lens = .ok m)
    (hnone : ∀ L, 1 ≤ L → L ≤ m.tableBits → lens.count L = 0) : m.tableMax16 = none := by
  have h16 := build_tableBits_le h
  rw [build_tableMax16 h, List.findSome?_eq_none_iff]
  intro L hL
  rw [List.mem_reverse, List.mem_range'_1] at hL
  rw [build_row_of_count_eq_zero h hL.1 (by omega) (hnone L hL.1 (by omega))]
  rfl

/-- Settles O29: an entry is the first symbol found along the lengths, and at most one length has one. -/
theorem directTableIsFilled : Obligations.DirectTableIsFilled := by
  rintro n lens m rfl h
  have h16 := build_tableBits_le h
  refine ⟨fun h0 => ⟨?_, build_tableMax16_of_unused h fun L h1 hL => by omega⟩, fun hpos => ⟨?_, fun t ht => ⟨?_, ?_⟩⟩,
    fun L h1 hL hcount habove => ?_, build_tableMax16_of_unused h⟩
  · rw [build_table h, if_pos h0]
  · rw [build_table h, if_neg hpos.ne', List.length_map, List.length_range]
  · intro sym hsym h1 hL ht'
    have hmax : lens.length ≤ 8192 := ((build_ok _ _ _).1 h).2.1
    rw [build_table h, if_neg hpos.ne', List.getElem?_map, List.getElem?_range ht, Option.map_some,
      pack_symbol (by omega)]
    rw [Nat.shiftRight_eq_div_pow] at ht'
    rw [tableEntry_of_hasCode h h1 hL (by omega) ⟨hsym, rfl, ht'.symm⟩]
  · intro hnone
    rw [build_table h, if_neg hpos.ne', List.getElem?_map, List.getElem?_range ht, Option.map_some]
    rw [tableEntry_eq_sentinel h (by omega) ?_]
    · rfl
    · rintro L h1 hL sym ⟨hsym, rfl, hcode⟩
      exact hnone sym hsym h1 hL (by rw [Nat.shiftRight_eq_div_pow, hcode])
  · rw [build_tableMax16_of_greatest h h1 hL hcount habove, Nat.shiftLeft_eq]
    have htop := max16Of_add_one L (codeEnd lens L - 1)
    rw [Nat.sub_add_cancel (codeEnd_pos hcount)] at htop
    exact congrArg some (Nat.eq_sub_of_add_eq htop)

end Sys2Proof.Machine
end

