-- ==== Sys2Proof/Proofs/HuffmanCommands.lean ====
section
/-! PROOFS. `Decode` in the terms of the canonical code, and the commands `HUFF_BUILD` and `HUFF_DECODE`
(spec/41_huffman_model.md R151, R170, R171, R173). -/

namespace Sys2Proof.Machine

/-! ### Decode (R170) -/

section
variable {n L sym p : Nat} {lens Ls rest : List Nat} {m : Model}

/-- The ladder passes over the lengths whose codes all lie below the first bits of the peek. -/
theorem ladder_append_of_codeEnd_le (h : build n lens = .ok m)
    (hpass : ∀ K ∈ Ls, 1 ≤ K ∧ K ≤ 16 ∧ codeEnd lens K ≤ p / 2 ^ (16 - K)) :
    ladder m p (Ls ++ rest) = ladder m p rest := by
  induction Ls with
  | nil => rfl
  | cons K Ls ih =>
    obtain ⟨⟨h1, h16, hend⟩, hpass⟩ := List.forall_mem_cons.1 hpass
    rw [List.cons_append, ladder]
    rcases Nat.eq_zero_or_pos (lens.count K) with h0 | hpos
    · rw [build_row_of_count_eq_zero h h1 h16 h0]
      exact ih hpass
    · have hgreater : ¬ p ≤ max16Of K (codeEnd lens K - 1) := by
        have := codeEnd_pos hpos
        rw [le_max16Of_iff]
        omega
      rw [build_row_of_count_pos h h1 h16 hpos]
      exact (if_neg fun hc => hgreater hc.2).trans (ih hpass)

/-- The ladder stops at a length with a code that begins the peek. -/
theorem ladder_cons_of_hasCode (h : build n lens = .ok m) (h1 : 1 ≤ L) (h16 : L ≤ 16)
    (hcode : HasCode lens sym L (p / 2 ^ (16 - L))) : ladder m p (L :: rest) = .ok (sym, L) := by
  have hpos := hcode.count_pos
  obtain ⟨hstart, hend⟩ := hcode.bounds
  have hle : p ≤ max16Of L (codeEnd lens L - 1) := by
    rw [le_max16Of_iff]
    omega
  have hget := hcode.getElem?_sortedSymbols h1 h16
  obtain ⟨hused, -⟩ := List.getElem?_eq_some_iff.1 hget
  rw [length_sortedSymbols, ← build_used h] at hused
  rw [← build_sorted h] at hget
  rw [ladder, build_row_of_count_pos h h1 h16 hpos]
  simp only [Option.getD_some, if_pos (And.intro hpos hle)]
  rw [if_neg (by omega), List.getD_eq_getElem?_getD, hget, Option.getD_some]

/-- `Decode` gives the symbol whose code begins the peek. -/
theorem decodePeek_of_hasCode (h : build n lens = .ok m) (h1 : 1 ≤ L) (h16 : L ≤ 16)
    (hcode : HasCode lens sym L (p / 2 ^ (16 - L))) : decodePeek m p = .ok (sym, L) := by
  rw [decodePeek, codeLengths, maxCodeLen, range'_one_eq_append h1 h16, ladder_append_of_codeEnd_le h,
    ladder_cons_of_hasCode h h1 h16 hcode]
  intro K hK
  rw [List.mem_range'_1] at hK
  have hend := hcode.codeEnd_le_div (L := K) hK.1 (by omega)
  rw [div_two_pow_cut (by omega) h16] at hend
  exact ⟨hK.1, by omega, hend⟩

/-- A number that begins with no code lies behind the codes of every length: from one length to the next both the number
and the end of the codes double. -/
theorem codeEnd_le_of_not_hasCode (hnone : ∀ L, 1 ≤ L → L ≤ 16 → ∀ sym, ¬ HasCode lens sym L (p / 2 ^ (16 - L)))
    (h1 : 1 ≤ L) (h16 : L ≤ 16) : codeEnd lens L ≤ p / 2 ^ (16 - L) := by
  have hstep : ∀ L, 1 ≤ L → L ≤ 16 → codeStart lens L ≤ p / 2 ^ (16 - L) → codeEnd lens L ≤ p / 2 ^ (16 - L) :=
    fun L h1 h16 hstart => Nat.not_lt.1 fun hend =>
      not_exists.2 (hnone L h1 h16) (exists_hasCode_iff.2 ⟨hstart, hend⟩)
  induction L, h1 using Nat.le_induction with
  | base => exact hstep 1 le_rfl h16 (Nat.zero_le _)
  | succ L h1 ih =>
    have hend := ih (by omega)
    rw [← div_two_pow_cut (Nat.le_succ L) h16, Nat.succ_eq_add_one, Nat.add_sub_cancel_left, Nat.pow_one] at hend
    refine hstep (L + 1) (by omega) h16 ?_
    rw [codeStart_succ h1]
    omega

theorem decodePeek_of_not_hasCode (h : build n lens = .ok m)
    (hnone : ∀ L, 1 ≤ L → L ≤ 16 → ∀ sym, ¬ HasCode lens sym L (p / 2 ^ (16 - L))) :
    decodePeek m p = .error .symInvalid := by
  rw [decodePeek, ← List.append_nil codeLengths, ladder_append_of_codeEnd_le h, ladder]
  intro K hK
  obtain ⟨h1, h16⟩ := mem_codeLengths.1 hK
  exact ⟨h1, h16, codeEnd_le_of_not_hasCode hnone h1 h16⟩

end

/-! ### The stream's first bits -/

section
variable {s : State} {pos n L p : Nat} {m : Model} {c : ErrCode}

/-- Fewer bits at a position are the higher part of more bits there. -/
theorem State.bitsAt_eq_div (h : s.bitsWritten pos n) (hL : L ≤ n) :
    s.bitsAt pos L = s.bitsAt pos n / 2 ^ (n - L) := by
  have hlow : s.bitsAt (pos + L) (n - L) < 2 ^ (n - L) :=
    State.bitsAt_lt_of_bitsWritten (h.mono (Nat.le_add_right pos L) (by omega))
  have hsum := s.bitsAt_add pos L (n - L)
  rw [Nat.add_sub_cancel' hL] at hsum
  rw [hsum, Nat.mul_comm, Nat.mul_add_div (Nat.two_pow_pos _), Nat.div_eq_of_lt hlow, Nat.add_zero]

theorem decodeSym_of_error (hpeek : peek s 16 = .ok p) (hdec : decodePeek m p = .error c) :
    decodeSym m s = .error (.error c) := by
  rw [decodeSym, hpeek, attempt_ok_bind, hdec]
  rfl

end

/-! ### The commands, case by case -/

theorem cmdWord_huffBuild (k n : Nat) : cmdWord (.huffBuild k n) = wordOf 4 k n := rfl

theorem cmdWord_huffDecode (k : Nat) : cmdWord (.huffDecode k) = wordOf 5 k 0 := rfl

theorem slotOk_of_lt {k : Nat} (hk : k < 8) : slotOk k = true := decide_eq_true hk

theorem slotOk_of_le {k : Nat} (hk : 8 ≤ k) : slotOk k = false := decide_eq_false (Nat.not_lt.2 hk)

section
variable {s : State} {k n : Nat} {m : Model} {c : ErrCode}

/-- A build from `CL` is `Build` of its entries; a count above 8192 fails before any entry is read. -/
theorem buildFromCl_of_written (hwritten : n ≤ 8192 → ∀ a, a < n → (Memory.read s.cl a).isSome = true) :
    buildFromCl n s = orError (build n ((List.range n).map (entryOf s.cl))) := by
  rw [buildFromCl, lensFromCl]
  rcases Nat.lt_or_ge 8192 n with hn | hn
  · rw [if_neg (show ¬ n ≤ maxSyms from Nat.not_le.2 hn), attempt_ok_bind, build_of_lt hn, build_of_lt hn]
  · rw [if_pos (show n ≤ maxSyms from hn), readLens_written s 0 n (by simpa using hwritten hn), attempt_ok_bind]
    simp only [Nat.zero_add]
    rfl

theorem exec_huffBuild_of_le (herr : s.err = false) (hk : 8 ≤ k) :
    exec (.huffBuild k n) s = .next (s.withError 0x44 (wordOf 4 k n)) := by
  rw [exec, execHuffBuild, gate_open _ _ herr, if_pos (slotOk_of_le hk), raiseBy_eq_withError, cmdWord_huffBuild,
    ErrCode.code]

theorem exec_huffBuild_of_ok (herr : s.err = false) (hk : k < 8) (hbuild : buildFromCl n s = .ok m) :
    exec (.huffBuild k n) s = .next (s.install k n m) := by
  rw [exec, execHuffBuild, gate_open _ _ herr, if_neg (by simp [slotOk_of_lt hk]), hbuild, attempt_ok_bind, settle_ok]

theorem exec_huffBuild_of_error (herr : s.err = false) (hk : k < 8) (hbuild : buildFromCl n s = .error (.error c)) :
    exec (.huffBuild k n) s = .next ((s.setModel k none).withError c.code (wordOf 4 k n)) := by
  rw [exec, execHuffBuild, gate_open _ _ herr, if_neg (by simp [slotOk_of_lt hk]), hbuild, attempt_error_bind,
    settle_error]
  rfl

theorem exec_huffDecode_of_le (herr : s.err = false) (hk : 8 ≤ k) :
    exec (.huffDecode k) s = .next (s.withError 0x44 (wordOf 5 k 0)) := by
  rw [exec, execHuffDecode, gate_open _ _ herr, if_pos (slotOk_of_le hk), raiseBy_eq_withError, cmdWord_huffDecode,
    ErrCode.code]

theorem exec_huffDecode_of_not_valid (herr : s.err = false) (hk : k < 8) (hvalid : s.br.valid = false) :
    exec (.huffDecode k) s = .next (s.withError 0x45 (wordOf 5 k 0)) := by
  rw [exec, execHuffDecode, gate_open _ _ herr, if_neg (by simp [slotOk_of_lt hk]), if_pos hvalid,
    raiseBy_eq_withError, cmdWord_huffDecode, ErrCode.code]

theorem exec_huffDecode_of_not_built (herr : s.err = false) (hk : k < 8) (hvalid : s.br.valid = true)
    (hm : s.model k = none) : exec (.huffDecode k) s = .next (s.withError 0x46 (wordOf 5 k 0)) := by
  rw [exec, execHuffDecode, gate_open _ _ herr, if_neg (by simp [slotOk_of_lt hk]), if_neg (by simp [hvalid])]
  simp only [hm]
  rw [raiseBy_eq_withError, cmdWord_huffDecode, ErrCode.code]

theorem exec_huffDecode_of_ok {t : State} {r : Nat × Nat} (herr : s.err = false) (hk : k < 8)
    (hvalid : s.br.valid = true) (hm : s.model k = some m) (hdec : decodeSym m s = .ok (r, t)) :
    exec (.huffDecode k) s = .next (t.setResult (r.1 + r.2 * 2 ^ 16)) := by
  rw [exec, execHuffDecode, gate_open _ _ herr, if_neg (by simp [slotOk_of_lt hk]), if_neg (by simp [hvalid])]
  simp only [hm]
  rw [hdec, attempt_ok_bind, settle_ok]

theorem exec_huffDecode_of_error (herr : s.err = false) (hk : k < 8)
    (hvalid : s.br.valid = true) (hm : s.model k = some m) (hdec : decodeSym m s = .error (.error c)) :
    exec (.huffDecode k) s = .next (failDecode (.huffDecode k) s c) := by
  rw [exec, execHuffDecode, gate_open _ _ herr, if_neg (by simp [slotOk_of_lt hk]), if_neg (by simp [hvalid])]
  simp only [hm]
  rw [hdec, attempt_error_bind, settle_error]

end

/-! ### The statements -/

/-- Settles O24: behind the slot check the command runs `Build` on the entries of `CL`, the slot emptied before. -/
theorem huffBuildInstallsTheModel : Obligations.HuffBuildInstallsTheModel := by
  intro s k n herr
  refine ⟨exec_huffBuild_of_le herr, fun hk hwritten => ⟨fun m hm => ?_, fun c hc => ?_⟩⟩
  · have hbuild : buildFromCl n s = .ok m := by rw [buildFromCl_of_written hwritten, hm, orError]
    rw [exec_huffBuild_of_ok herr hk hbuild]
    rfl
  · have hbuild : buildFromCl n s = .error (.error c) := by rw [buildFromCl_of_written hwritten, hc, orError]
    rw [exec_huffBuild_of_error herr hk hbuild]
    rfl

/-- Settles O32: the 16-bit peek begins with the same codes as the stream; `Decode` finds the one that is there, or
answers `ERR_SYM_INVALID`. -/
theorem huffDecodeReadsOneSymbol : Obligations.HuffDecodeReadsOneSymbol := by
  intro s k herr
  refine ⟨exec_huffDecode_of_le herr, exec_huffDecode_of_not_valid herr, exec_huffDecode_of_not_built herr,
    fun hk hvalid hwritten m hm hlen hbuild => ⟨?_, fun hnone => ?_⟩⟩
  · rintro sym L hsym rfl hused hbits
    have h16 := getD_le_of_build hbuild sym
    have hmax : m.n ≤ 8192 := ((build_ok _ _ _).1 hbuild).2.1
    rw [State.bitsAt_eq_div hwritten h16] at hbits
    have hdec := decodePeek_of_hasCode hbuild (Nat.pos_of_ne_zero hused) h16 ⟨hlen ▸ hsym, rfl, hbits.symm⟩
    have hsym' : decodeSym m s = .ok ((sym, m.lens.getD sym 0), s.advance (m.lens.getD sym 0)) :=
      (decodeSym_ok _ _ _ _).2 ⟨_, peekAt_of_bitsWritten hwritten, hdec, rfl⟩
    rw [exec_huffDecode_of_ok herr hk hvalid hm hsym', pack_symbol (by omega)]
    rfl
  · have hdec : decodePeek m (s.bitsAt s.br.bitpos 16) = .error .symInvalid := by
      refine decodePeek_of_not_hasCode hbuild ?_
      rintro L h1 h16 sym ⟨hsym, hL, hcode⟩
      rw [← State.bitsAt_eq_div hwritten h16] at hcode
      exact hnone sym L (hlen ▸ hsym) hL.symm (by omega) hcode.symm
    have hsym := decodeSym_of_error (peekAt_of_bitsWritten hwritten) hdec
    exact ⟨_, exec_huffDecode_of_error herr hk hvalid hm hsym, rfl⟩

end Sys2Proof.Machine
end

