-- ==== Sys2Proof/Proofs/ModelReceive.lean ====
section
/-! PROOFS. Receiving a model (spec/42_model_rx.md): the events of the bootstrap alphabet (R198 to R202) and the header's
checks (R192 to R194), where the host has written the bits they read. -/

namespace Sys2Proof.Machine

/-! ### Memories -/

/-- What a run of copies leaves in a memory. -/
theorem Memory.read_writeList_replicate {w : Nat} (m : Memory w) (a b n : Nat) (v : BitVec w) :
    Memory.read (Memory.writeList m a (List.replicate n v)) b =
      if a ≤ b ∧ b < a + n then some v else Memory.read m b := by
  rw [Memory.read_writeList, List.length_replicate]
  split
  · rw [List.getElem?_replicate_of_lt (by omega)]
  · rfl

/-! ### A failed `MODEL_RX` in the terms of the statements (spec/60_exceptions.md R353, R354) -/

theorem failedModelRx_failModelRx (slot : Nat) (s : State) (c : ErrCode) :
    FailedModelRx slot c.code s (failModelRx slot s c) := rfl

section
variable {s t : State} {r : RxState} {i : Instr} {c : ErrCode}

theorem abortRunning_of_rx (hrx : s.activity = .rx r) : abortRunning s c = failModelRx r.slot s c := by
  rw [abortRunning, hrx]

/-- What `exec` does with an event that goes on. -/
theorem exec_event_of_ok (hfmt : i.fmt ≠ .cw) (hbody : eventBody i s = .ok t) : exec i s = .next t := by
  rw [exec_event i s hfmt, eventOutcome, hbody, settle_ok]

/-- An error of an event ends the running `MODEL_RX`. -/
theorem exec_event_of_error (hfmt : i.fmt ≠ .cw) (hrx : s.activity = .rx r)
    (hbody : eventBody i s = .error (.error c)) : ∃ t, exec i s = .next t ∧ FailedModelRx r.slot c.code s t := by
  rw [exec_event i s hfmt, eventOutcome, hbody, settle_error, abortRunning_of_rx hrx]
  exact ⟨_, rfl, failedModelRx_failModelRx _ _ _⟩

end

/-! ### The events, case by case (R198 to R202) -/

section
variable {s : State} {r : RxState} {least bits : Nat}

theorem eventBody_of_zeroRun {i : Instr}
    (hrow : (i, least, bits) = (.bootZeroRunSmall, 3, 3) ∨ (i, least, bits) = (.bootZeroRunLarge, 11, 7)) :
    i.fmt ≠ .cw ∧ eventBody i s = bootZeroRun least bits s := by
  rcases hrow with h | h <;> cases h <;> exact ⟨by decide, rfl⟩

theorem eventBody_of_repeat {i : Instr}
    (hrow : (i, least, bits) = (.bootRepeatSmall, 3, 2) ∨ (i, least, bits) = (.bootRepeatLarge, 7, 6)) :
    i.fmt ≠ .cw ∧ eventBody i s = bootRepeat least bits s := by
  rcases hrow with h | h <;> cases h <;> exact ⟨by decide, rfl⟩

/-- A literal stores its code length at the write offset and changes no other entry. -/
theorem bootLiteral_stores (hrx : s.activity = .rx r) (v : Nat) : ∃ t, bootLiteral v s = .ok t ∧
    t = { s with cl := t.cl, activity := .rx { r with ofs := r.ofs + 1 } } ∧
    ∀ a, Memory.read t.cl a = if a = r.ofs then some (BitVec.ofNat 8 v) else Memory.read s.cl a :=
  ⟨_, (bootLiteral_ok _ _ _).2 ⟨r, hrx, rfl⟩, rfl, fun a => Memory.read_write s.cl r.ofs a _⟩

theorem bootZeroRun_of_overflow (hrx : s.activity = .rx r) (hwritten : s.bitsWritten s.br.bitpos bits)
    (hroom : r.n - r.ofs < least + s.bitsAt s.br.bitpos bits) :
    bootZeroRun least bits s = .error (.error .modelRunOverflow) := by
  rw [bootZeroRun, (runningRx_ok _ _).2 hrx, attempt_ok_bind, take_of_bitsWritten hwritten, attempt_ok_bind]
  exact if_pos hroom

theorem bootRepeat_of_first (hrx : s.activity = .rx r) (hwritten : s.bitsWritten s.br.bitpos bits)
    (hfirst : r.ofs = 0) : bootRepeat least bits s = .error (.error .modelRepeatNoPrev) := by
  rw [bootRepeat, (runningRx_ok _ _).2 hrx, attempt_ok_bind, take_of_bitsWritten hwritten, attempt_ok_bind]
  exact if_pos hfirst

theorem bootRepeat_of_overflow (hrx : s.activity = .rx r) (hwritten : s.bitsWritten s.br.bitpos bits)
    (hofs : r.ofs ≠ 0) (hroom : r.n - r.ofs < least + s.bitsAt s.br.bitpos bits) :
    bootRepeat least bits s = .error (.error .modelRunOverflow) := by
  rw [bootRepeat, (runningRx_ok _ _).2 hrx, attempt_ok_bind, take_of_bitsWritten hwritten, attempt_ok_bind]
  exact (if_neg hofs).trans (if_pos hroom)

theorem bootRepeat_of_zero (hrx : s.activity = .rx r) (hwritten : s.bitsWritten s.br.bitpos bits)
    (hofs : r.ofs ≠ 0) (hroom : least + s.bitsAt s.br.bitpos bits ≤ r.n - r.ofs)
    (hprev : Memory.read s.cl (r.ofs - 1) = some 0) :
    bootRepeat least bits s = .error (.error .modelRepeatNoPrev) := by
  rw [bootRepeat, (runningRx_ok _ _).2 hrx, attempt_ok_bind, take_of_bitsWritten hwritten, attempt_ok_bind]
  simp only
  rw [if_neg hofs, if_neg (Nat.not_lt.2 hroom), State.advance_cl, readEntry_of_some _ _ _ _ hprev, attempt_ok_bind]
  exact if_pos rfl

end

/-! ### The header (R192 to R194) -/

section
variable {s t : State} {k n : Nat} {c : ErrCode}

theorem readCount_of_zero (hwritten : s.bitsWritten s.br.bitpos 14) (hn : s.bitsAt s.br.bitpos 14 = 0) :
    readCount s = .error (.error .modelEmpty) := by
  rw [readCount, countBits, take_of_bitsWritten hwritten, attempt_ok_bind]
  exact if_pos hn

theorem readCount_of_lt (hwritten : s.bitsWritten s.br.bitpos 14) (hn : 8192 < s.bitsAt s.br.bitpos 14) :
    readCount s = .error (.error .modelTooMany) := by
  rw [readCount, countBits, take_of_bitsWritten hwritten, attempt_ok_bind]
  exact (if_neg (Nat.ne_zero_of_lt hn)).trans (if_pos hn)

theorem readCount_of_le (hwritten : s.bitsWritten s.br.bitpos 14) (hpos : 0 < s.bitsAt s.br.bitpos 14)
    (hn : s.bitsAt s.br.bitpos 14 ≤ 8192) : readCount s = .ok (s.bitsAt s.br.bitpos 14, s.advance 14) :=
  (readCount_ok _ _ _).2 ⟨peekAt_of_bitsWritten hwritten, hpos, hn, rfl⟩

theorem readNumCodes_of_outside (hwritten : s.bitsWritten s.br.bitpos 5)
    (hk : s.bitsAt s.br.bitpos 5 = 0 ∨ 21 < s.bitsAt s.br.bitpos 5) :
    readNumCodes s = .error (.error .modelNumClCodes) := by
  rw [readNumCodes, numClCodesBits, take_of_bitsWritten hwritten, attempt_ok_bind]
  exact if_pos (hk.imp_left Nat.lt_one_iff.2)

theorem startModelRx_of_readCount_error (hcount : readCount s = .error (.error c)) :
    startModelRx k s = .error (.error c) := by
  rw [startModelRx, hcount, attempt_error_bind]

theorem startModelRx_of_readNumCodes_error (hcount : readCount s = .ok (n, t))
    (hcodes : readNumCodes t = .error (.error c)) : startModelRx k s = .error (.error c) := by
  rw [startModelRx, hcount, attempt_ok_bind]
  simp only
  rw [hcodes, attempt_error_bind]

/-- Behind its two checks an error of the header makes `MODEL_RX` fail. -/
theorem exec_modelRx_of_error (herr : s.err = false) (hk : k < 8) (hvalid : s.br.valid = true)
    (hstart : startModelRx k (s.setModel k none) = .error (.error c)) :
    ∃ t, exec (.modelRx k) s = .next t ∧ FailedModelRx k c.code s t := by
  rw [exec, execModelRx, gate_open _ _ herr, if_neg (by simp [slotOk_of_lt hk]), if_neg (by simp [hvalid]), hstart,
    attempt_error_bind, settle_error]
  exact ⟨_, rfl, failedModelRx_failModelRx _ _ _⟩

end

/-! ### The statements -/

/-- Settles O34: literals 0 to 15 and literal 16 are the same event, at the code length they name. -/
theorem bootLiteralStoresALength : Obligations.BootLiteralStoresALength := by
  refine fun s r hrx => ⟨fun v _ => ?_, ?_⟩
  · obtain ⟨t, hbody, hframe⟩ := bootLiteral_stores hrx v
    exact ⟨t, exec_event_of_ok nofun hbody, hframe⟩
  · obtain ⟨t, hbody, hframe⟩ := bootLiteral_stores hrx 16
    exact ⟨t, exec_event_of_ok (by decide) hbody, hframe⟩

/-- Settles O35: symbols 17 and 18 are one event with its own least run and number of extra bits. -/
theorem bootZeroRunSkips : Obligations.BootZeroRunSkips := by
  intro s r i least bits hrx hrow hwritten
  obtain ⟨hfmt, hbody⟩ := eventBody_of_zeroRun (s := s) hrow
  refine ⟨fun hroom => ?_, fun hroom => ?_⟩
  · have hskip := (bootZeroRun_ok least bits s _).2 ⟨r, _, hrx, peekAt_of_bitsWritten hwritten, hroom, rfl⟩
    exact exec_event_of_ok hfmt (hbody.trans hskip)
  · exact exec_event_of_error hfmt hrx (hbody.trans (bootZeroRun_of_overflow hrx hwritten hroom))

/-- Settles O36: the checks fail in their order, each with its error; past them the entry before the run fills it. -/
theorem bootRepeatCopies : Obligations.BootRepeatCopies := by
  intro s r i least bits hrx hrow hwritten
  obtain ⟨hfmt, hbody⟩ := eventBody_of_repeat (s := s) hrow
  refine ⟨fun hfirst => ?_, fun hofs hroom => ?_, fun hofs hroom hprev => ?_, fun prev hofs hroom hprev hne => ?_⟩
  · exact exec_event_of_error hfmt hrx (hbody.trans (bootRepeat_of_first hrx hwritten hfirst))
  · exact exec_event_of_error hfmt hrx (hbody.trans (bootRepeat_of_overflow hrx hwritten hofs hroom))
  · exact exec_event_of_error hfmt hrx (hbody.trans (bootRepeat_of_zero hrx hwritten hofs hroom hprev))
  · have hcopy := (bootRepeat_ok least bits s _).2
      ⟨r, _, prev, hrx, peekAt_of_bitsWritten hwritten, hofs, hroom, hprev, hne, rfl⟩
    exact ⟨_, exec_event_of_ok hfmt (hbody.trans hcopy), rfl,
      fun a => Memory.read_writeList_replicate s.cl r.ofs a _ prev⟩

/-- Settles O37: the symbol count stands in the first 14 bits and is checked first, the bootstrap count in the 5 after
them; emptying the slot before the header is read changes nothing of the stream. -/
theorem modelRxChecksItsHeader : Obligations.ModelRxChecksItsHeader := by
  intro s k herr hk hvalid hwritten
  have hcount : (s.setModel k none).bitsWritten s.br.bitpos 14 := hwritten.mono le_rfl (by omega)
  have hcodes : ((s.setModel k none).advance 14).bitsWritten (s.br.bitpos + 14) 5 :=
    hwritten.mono (by omega) (by omega)
  refine ⟨fun hn => ?_, fun hn => ?_, fun hpos hn hout => ?_⟩
  · exact exec_modelRx_of_error herr hk hvalid (startModelRx_of_readCount_error (readCount_of_zero hcount hn))
  · exact exec_modelRx_of_error herr hk hvalid (startModelRx_of_readCount_error (readCount_of_lt hcount hn))
  · exact exec_modelRx_of_error herr hk hvalid
      (startModelRx_of_readNumCodes_error (readCount_of_le hcount hpos hn) (readNumCodes_of_outside hcodes hout))

end Sys2Proof.Machine
end

