-- ==== Sys2Proof/Proofs/ChunkScan.lean ====
section
/-! PROOFS. The order in which `UNPACK_CHUNK` visits the chunks of a level (spec/43_unpack_chunk.md R232). -/

namespace Sys2Proof.Machine

/-! ### The columns of one chunk row -/

section
variable {columns cy cx : Nat}

theorem mem_chunkRowOrder : cx ∈ chunkRowOrder columns cy ↔ cx < columns := by
  unfold chunkRowOrder
  split <;> simp

theorem length_chunkRowOrder : (chunkRowOrder columns cy).length = columns := by
  unfold chunkRowOrder
  split <;> simp

/-- Even rows rise, odd rows fall. -/
theorem pairwise_chunkRowOrder :
    (chunkRowOrder columns cy).Pairwise fun a b => if cy % 2 = 0 then a < b else b < a := by
  unfold chunkRowOrder
  split
  · exact List.pairwise_lt_range
  · exact List.pairwise_reverse.2 List.pairwise_lt_range

end

/-! ### The scan -/

section
variable (faces rows columns : Nat)

theorem mem_chunkScan (pos : ChunkPos) :
    pos ∈ chunkScan faces rows columns ↔ pos.f < faces ∧ pos.cy < rows ∧ pos.cx < columns := by
  obtain ⟨f, cy, cx⟩ := pos
  simp only [chunkScan, List.mem_flatMap, List.mem_map, List.mem_range, mem_chunkRowOrder, ChunkPos.mk.injEq]
  constructor
  · rintro ⟨_, hf, _, hcy, _, hcx, rfl, rfl, rfl⟩
    exact ⟨hf, hcy, hcx⟩
  · rintro ⟨hf, hcy, hcx⟩
    exact ⟨f, hf, cy, hcy, cx, hcx, rfl, rfl, rfl⟩

theorem length_chunkScan : (chunkScan faces rows columns).length = faces * rows * columns := by
  simp only [chunkScan, List.length_flatMap, List.length_map, length_chunkRowOrder, List.map_const', List.length_range,
    List.sum_replicate, smul_eq_mul, Nat.mul_assoc]

/-- Faces outermost, then rows, then the row's own order. -/
theorem pairwise_chunkScan : (chunkScan faces rows columns).Pairwise fun a b =>
    a.f < b.f ∨ (a.f = b.f ∧ (a.cy < b.cy ∨ (a.cy = b.cy ∧ if a.cy % 2 = 0 then a.cx < b.cx else b.cx < a.cx))) := by
  refine List.pairwise_flatMap.2 ⟨fun f _ => List.pairwise_flatMap.2 ⟨fun cy _ => ?row, ?rows⟩, ?faces⟩
  case row =>
    exact List.pairwise_map.2 (pairwise_chunkRowOrder.imp fun h => .inr ⟨rfl, .inr ⟨rfl, h⟩⟩)
  case rows =>
    refine List.pairwise_lt_range.imp fun hlt a ha b hb => ?_
    obtain ⟨_, -, rfl⟩ := List.mem_map.1 ha
    obtain ⟨_, -, rfl⟩ := List.mem_map.1 hb
    exact .inr ⟨rfl, .inl hlt⟩
  case faces =>
    refine List.pairwise_lt_range.imp fun hlt a ha b hb => ?_
    obtain ⟨_, -, ha⟩ := List.mem_flatMap.1 ha
    obtain ⟨_, -, rfl⟩ := List.mem_map.1 ha
    obtain ⟨_, -, hb⟩ := List.mem_flatMap.1 hb
    obtain ⟨_, -, rfl⟩ := List.mem_map.1 hb
    exact .inl hlt

end

/-- Settles O52: a strictly ordered list that holds every chunk visits each exactly once. -/
theorem chunkScanCoversTheLevel : Obligations.ChunkScanCoversTheLevel := fun faces rows columns =>
  ⟨mem_chunkScan faces rows columns, length_chunkScan faces rows columns, pairwise_chunkScan faces rows columns⟩

end Sys2Proof.Machine
end

