-- ==== Sys2Proof/Proofs/ChunkCommand.lean ====
section
/-! PROOFS. The pieces of `UNPACK_CHUNK` (spec/43_unpack_chunk.md): delta-coded indices (R231), decodes inside a running
command, the bit-packed register (R233), the bytes of a color block (R235), one chunk and the whole command (R221). -/

namespace Sys2Proof.Machine

/-! ### Delta-coded indices (R231) -/

/-- A remainder by a palette's count fits the 16-bit index. -/
theorem deltaIndex_toNat {count : Nat} (idx : Half) (d : Nat) (hpos : 0 < count) (hle : count ≤ 65535) :
    (deltaIndex idx d count).toNat = (idx.toNat + d) % count := by
  have hlt : (idx.toNat + d) % count < count := Nat.mod_lt _ hpos
  rw [deltaIndex, BitVec.toNat_ofNat, Nat.mod_eq_of_lt (by omega)]

/-- In a palette of one entry every index is 0, whatever the delta. -/
@[simp] theorem deltaIndex_one (idx : Half) (d : Nat) : deltaIndex idx d 1 = 0 := by
  rw [deltaIndex, Nat.mod_one]
  rfl

/-- Only the index before the first delta may lie outside the palette, and the first remainder brings it inside. -/
theorem foldl_deltaIndex_toNat {count : Nat} (idx : Half) (d : Nat) (ds : List Nat) (hpos : 0 < count)
    (hle : count ≤ 65535) :
    ((d :: ds).foldl (fun i d => deltaIndex i d count) idx).toNat = (idx.toNat + (d :: ds).sum) % count := by
  induction ds generalizing idx d with
  | nil => exact deltaIndex_toNat idx d hpos hle
  | cons e rest ih =>
    calc ((d :: e :: rest).foldl (fun i d => deltaIndex i d count) idx).toNat
        = ((deltaIndex idx d count).toNat + (e :: rest).sum) % count := ih (deltaIndex idx d count) e
      _ = ((idx.toNat + d) % count + (e :: rest).sum) % count := by rw [deltaIndex_toNat idx d hpos hle]
      _ = (idx.toNat + (d :: e :: rest).sum) % count := by rw [Nat.mod_add_mod, Nat.add_assoc, ← List.sum_cons]

/-- Settles O54. -/
theorem deltasWrapByTheTrueRemainder : Obligations.DeltasWrapByTheTrueRemainder := by
  refine fun count idx ds hpos hle => ⟨fun d => deltaIndex_toNat idx d hpos hle, fun hne => ?_⟩
  obtain ⟨d, rest, rfl⟩ := List.exists_cons_of_ne_nil hne
  exact foldl_deltaIndex_toNat idx d rest hpos hle

/-! ### Decodes inside a running command

A decode sees the slots and the stream alone, so it gives the same symbol under any transient state and any `DST`. -/

/-- The state inside a command that has come to the transient state `a` and has made `m` of `DST`. -/
def State.during (s : State) (a : Activity) (m : Memory 8) : State := (s.setActivity a).setDst m

section
variable {s t u : State} {k d : Nat} {ks syms : List Nat}

theorem decodeSlot_during (a : Activity) (m : Memory 8) (h : decodeSlot k s = .ok (d, t)) :
    decodeSlot k (s.during a m) = .ok (d, t.during a m) := by
  obtain ⟨model, p, len, hmodel, hpeek, hsym, rfl⟩ := (decodeSlot_ok _ _ _ _).1 h
  have hpeek' : peek (s.during a m) 16 = .ok p := (peekAt_congr s _ _ _ rfl rfl rfl).trans hpeek
  exact (decodeSlot_ok _ _ _ _).2 ⟨model, p, len, hmodel, hpeek', hsym, rfl⟩

/-- A sequence of decodes is its first decode and the rest. -/
theorem decodeSeq_cons_ok : decodeSeq s (k :: ks) = .ok (syms, u) ↔
    ∃ d ds t, decodeSlot k s = .ok (d, t) ∧ decodeSeq t ks = .ok (ds, u) ∧ syms = d :: ds := by
  rw [decodeSeq, attempt_bind_ok]
  constructor
  · rintro ⟨⟨d, t⟩, hd, h⟩
    obtain ⟨⟨ds, u'⟩, hds, h⟩ := (attempt_bind_ok _ _ _).1 h
    cases h
    exact ⟨d, ds, t, hd, hds, rfl⟩
  · rintro ⟨d, ds, t, hd, hds, rfl⟩
    exact ⟨(d, t), hd, (attempt_bind_ok _ _ _).2 ⟨(ds, u), hds, rfl⟩⟩

theorem decodeSeq_during (a : Activity) (m : Memory 8) (h : decodeSeq s ks = .ok (syms, u)) :
    decodeSeq (s.during a m) ks = .ok (syms, u.during a m) := by
  induction ks generalizing s syms with
  | nil =>
    cases h
    rfl
  | cons k rest ih =>
    obtain ⟨d, ds, t, hd, hds, rfl⟩ := decodeSeq_cons_ok.1 h
    exact decodeSeq_cons_ok.2 ⟨d, ds, _, decodeSlot_during a m hd, ih hds, rfl⟩

theorem decodeSeq_advance (h : decodeSeq s ks = .ok (syms, u)) : ∃ n, u = s.advance n := by
  induction ks generalizing s syms with
  | nil =>
    cases h
    exact ⟨0, rfl⟩
  | cons k rest ih =>
    obtain ⟨d, ds, t, hd, hds, -⟩ := decodeSeq_cons_ok.1 h
    obtain ⟨m, rfl⟩ := decodeSlot_advance _ _ _ _ hd
    obtain ⟨n, rfl⟩ := ih hds
    exact ⟨m + n, State.advance_advance _ _ _⟩

end

/-! ### The bit-packed register (R233) -/

/-- A refilled register holds the first encoding in its low three bits. -/
theorem refilled_and_seven {v : Nat} (hv : v < 512) : ((BitVec.ofNat 10 v ||| 512) &&& 7).toNat = v % 8 := by
  have hlow : v % 2 ^ 10 = v := Nat.mod_eq_of_lt (by omega)
  rw [BitVec.toNat_and, BitVec.toNat_or, BitVec.toNat_ofNat, hlow]
  calc (v ||| 512) &&& 7 = (v ||| 512) % 8 := Nat.and_two_pow_sub_one_eq_mod _ 3
    _ = v % 8 ||| 512 % 8 := Nat.or_mod_two_pow (n := 3)
    _ = v % 8 := Nat.or_zero _

/-- From an exhausted register, a symbol below 512 gives its low three bits as the encoding. -/
theorem fetchChunk_of_exhausted {s t : State} {c : ChunkState} {v : Nat} {i : Instr} (hceb : c.ceb = 1)
    (hdecode : decodeSlot 0 s = .ok (v, t)) (hv : v < 512) (hi : decode .chunkenc (v % 8) = some i) :
    fetchChunk c s = .ok (i, t.setActivity (.chunk { c with ceb := (BitVec.ofNat 10 v ||| 512) >>> 3 })) := by
  have hrefill : refillEncodings c s = .ok (BitVec.ofNat 10 v ||| 512, t) := by
    rw [refillEncodings, if_pos hceb, hdecode, attempt_ok_bind]
    exact if_neg (Nat.not_le.2 hv)
  rw [fetchChunk, hrefill, attempt_ok_bind]
  simp only [refilled_and_seven hv, hi]

/-! ### The bytes of a color block (R235, spec/20_memory.md R66) -/

theorem le32_eq_leBytes (v : Word) : le32 v = leBytes 4 v.toNat := by
  have hbyte (i : Nat) : (v >>> i).setWidth 8 = BitVec.ofNat 8 (v.toNat / 2 ^ i) := by
    apply BitVec.eq_of_toNat_eq
    rw [BitVec.toNat_setWidth, BitVec.toNat_ushiftRight, BitVec.toNat_ofNat, Nat.shiftRight_eq_div_pow]
  have hfirst : v.setWidth 8 = BitVec.ofNat 8 (v.toNat / 2 ^ 0) := hbyte 0
  rw [le32, hfirst, hbyte, hbyte, hbyte]
  rfl

/-- The endpoint entry, then the selector entry. -/
def colorBytes (e sel : Word) : List Byte := leBytes 4 e.toNat ++ leBytes 4 sel.toNat

theorem colorPart_of_read {s : State} {ei si : Nat} {e sel : Word} (he : Memory.read s.ce ei = some e)
    (hsel : Memory.read s.cs si = some sel) : colorPart s ei si = .ok (colorBytes e sel) := by
  rw [colorPart, readEntry_of_some _ _ _ _ he, attempt_ok_bind, readEntry_of_some _ _ _ _ hsel, attempt_ok_bind,
    le32_eq_leBytes, le32_eq_leBytes, colorBytes]

/-- `DST` holds the bytes a block write has put there. -/
theorem State.dstHolds_writeList {t : State} {m : Memory 8} {a : Nat} {bytes : List Byte}
    (hdst : t.dst = Memory.writeList m a bytes) : t.dstHolds a bytes := by
  intro j hj
  rw [hdst, Memory.read_writeList, if_pos (by omega), Nat.add_sub_cancel_left]

/-! ### One chunk, and the whole command (R221) -/

section
variable {s t u : State} {c c' c'' : ChunkState} {pos : ChunkPos} {rest : List ChunkPos} {e : Nat}

theorem runTile_of_ok (hchunk : s.activity = .chunk c) (hscan : c.scan = pos :: rest)
    (htiles : decodeTileEndpoints (s.cfg.tileCount.getD e 0) c s (s.planes .chunk) = .ok (c', t))
    (hblocks : subBlocks (t.cfg.tilePattern.getD e []) pos c' t [0, 1, 2, 3] = .ok (c'', u)) :
    runTile e s = .ok (u.setActivity (.chunk c'')) := by
  simp only [runTile, hchunk, hscan]
  rw [htiles, attempt_ok_bind]
  simp only
  rw [hblocks, attempt_ok_bind]

/-- A level of one chunk takes one event. -/
theorem runToEnd_of_one_chunk (hchunk : s.activity = .chunk c) (hscan : c.scan = [pos]) (hevent : oneEvent s = .ok t) :
    runToEnd s = .ok t := by
  have hbound : eventBound s = 1 := by simp only [eventBound, hchunk, hscan, List.length_singleton]
  rw [runToEnd, hbound, runEvents, hchunk]
  simp only
  rw [hevent, attempt_ok_bind, runEvents]

/-- Behind the gate and its checks, in a format that is not handed to `EtcUnpack`, the command runs the chunk scheme. -/
theorem exec_unpackChunk_of_runToEnd (herr : s.err = false) (hchecks : checkUnpack .chunk s = none)
    (hetc : isEtc s.fmt = false) (hrun : runToEnd (s.setActivity (.chunk (initChunk s))) = .ok t) :
    exec .unpackChunk s = .next t := by
  rw [exec, execUnpackChunk, gate_open _ _ herr, hchecks]
  simp only [hetc, Bool.false_eq_true, if_false, hrun, settle_ok]

end

/-! ### The planes of `DXT1` (R224) -/

/-- A sound plane table leaves no choice for a format of one plane. -/
theorem eq_singleton_of_samePlanes {l : List Plane} {p : Plane} (h : Config.samePlanes l [p] = true) : l = [p] := by
  simp only [Config.samePlanes, List.length_singleton, List.all_cons, List.all_nil, Bool.and_true, Bool.and_eq_true,
    beq_iff_eq, List.contains_iff_mem] at h
  obtain ⟨hlength, hmem⟩ := h
  obtain ⟨q, rfl⟩ := List.length_eq_one_iff.1 hlength
  rw [List.mem_singleton.1 hmem]

theorem planes_chunk_of_dxt1 {s : State} (hwf : s.cfg.wf = true) (hfmt : s.fmt = .dxt1) : s.planes .chunk = [.c] := by
  have hplanes : Config.planesOk s.cfg.chunkPlanes = true := by
    simp only [Config.wf, Bool.and_eq_true] at hwf
    obtain ⟨⟨-, hchunk⟩, -⟩ := hwf
    exact hchunk
  simp only [Config.planesOk, Bool.and_eq_true] at hplanes
  obtain ⟨⟨⟨hdxt1, -⟩, -⟩, -⟩ := hplanes
  rw [State.planes, hfmt]
  exact eq_singleton_of_samePlanes hdxt1

end Sys2Proof.Machine
end

