-- ==== Sys2Proof/Proofs/OneBlockLevel.lean ====
section
/-! PROOFS. `UNPACK_CHUNK` on a level of one `DXT1` block over one-entry palettes (spec/43_unpack_chunk.md R241). With one
entry in each palette every running index stays 0, so the run is its decodes and one block write. -/

namespace Sys2Proof.Machine

/-! ### Chunks whose indices are all 0 -/

/-- A chunk's transient state while every running index and every tile's index is 0. -/
def ChunkState.zeroed (ceb : BitVec 10) (k : Nat) (scan : List ChunkPos) : ChunkState :=
  ⟨ceb, PlaneRegs.zero, PlaneRegs.zero, TileRegs.zero, k, scan⟩

theorem initChunk_eq_zeroed (s : State) : initChunk s = .zeroed 1 0 (chunkScan s.faces.toNat s.cy s.cx) := rfl

theorem tileIndices_zero (t : Nat) : tileIndices TileRegs.zero t = PlaneRegs.zero := by
  have hzero : (List.replicate 4 (0 : Half)).getD t 0 = 0 := by
    rw [List.getD_eq_getElem?_getD, List.getElem?_replicate]
    split <;> rfl
  simp only [tileIndices, TileRegs.get, TileRegs.zero, hzero, PlaneRegs.zero]

section
variable {s t u : State} {ceb : BitVec 10} {k k' d : Nat} {pos : ChunkPos} {scan : List ChunkPos} {pattern : List Nat}

/-- One tile over a one-entry endpoint palette: a decode, and no register changes. -/
theorem decodeTileEndpoints_of_one_entry (hce : s.ceCount = 1) (hdecode : decodeSlot 1 s = .ok (d, t)) :
    decodeTileEndpoints 1 (.zeroed ceb k scan) s [.c] = .ok (.zeroed ceb k scan, t) := by
  have hdelta : decodeEndpoint .c PlaneRegs.zero s = .ok (PlaneRegs.zero, t) := by
    refine (decodeEndpoint_ok _ _ _ _ _).2 ⟨d, hdecode, ?_⟩
    rw [State.epCount, hce]
    exact congrArg (PlaneRegs.zero.set .c) (deltaIndex_one _ d).symm
  have htiles : decodeTiles .c 0 (.zeroed ceb k scan) s 1 = .ok (.zeroed ceb k scan, t) := by
    rw [decodeTiles, ChunkState.zeroed, hdelta, attempt_ok_bind]
    rfl
  rw [decodeTileEndpoints, htiles, attempt_ok_bind]
  rfl

/-- A sub-block over a one-entry selector palette: a decode and a block write, and no index changes. -/
theorem subBlock_of_one_entry (hplanes : s.planes .chunk = [.c]) (hcs : s.csCount = 1)
    (hdecode : decodeSlot 2 s = .ok (d, t))
    (hwrite : writeBlock pos.f (2 * pos.cx + k % 2) (2 * pos.cy + k / 2) PlaneRegs.zero PlaneRegs.zero t = .ok u) :
    subBlock pattern pos k (.zeroed ceb k' scan) s = .ok (.zeroed ceb k scan, u) := by
  have hdelta : decodeSelectorDelta .c PlaneRegs.zero s = .ok (PlaneRegs.zero, t) := by
    refine (decodeSelectorDelta_ok _ _ _ _ _).2 ⟨d, hdecode, ?_⟩
    rw [State.selCount, hcs]
    exact congrArg (PlaneRegs.zero.set .c) (deltaIndex_one _ d).symm
  have hselectors : decodeSelectors PlaneRegs.zero s [.c] = .ok (PlaneRegs.zero, t) := by
    rw [decodeSelectors, hdelta, attempt_ok_bind]
    rfl
  rw [subBlock, hplanes, ChunkState.zeroed, hselectors, attempt_ok_bind, tileIndices_zero]
  simp only
  rw [hwrite, attempt_ok_bind]
  rfl

/-- Sub-blocks outside the image: their selectors are decoded and nothing is written (R236). -/
theorem subBlocks_of_hidden {ks syms : List Nat} (hplanes : s.planes .chunk = [.c]) (hcs : s.csCount = 1)
    (hhidden : ∀ k ∈ ks, s.visible (2 * pos.cx + k % 2) (2 * pos.cy + k / 2) = false)
    (hdecode : decodeSeq s (ks.map fun _ => 2) = .ok (syms, u)) :
    ∃ k', subBlocks pattern pos (.zeroed ceb k scan) s ks = .ok (.zeroed ceb k' scan, u) := by
  induction ks generalizing s k syms with
  | nil =>
    cases hdecode
    exact ⟨k, rfl⟩
  | cons i rest ih =>
    obtain ⟨d, ds, t, hd, hds, -⟩ := decodeSeq_cons_ok.1 hdecode
    obtain ⟨n, rfl⟩ := decodeSlot_advance _ _ _ _ hd
    have hwrite := (writeBlock_ok pos.f _ _ PlaneRegs.zero PlaneRegs.zero (s.advance n) _).2
      (.inl ⟨hhidden i List.mem_cons_self, rfl⟩)
    obtain ⟨k', hrest⟩ :=
      ih (s := s.advance n) (k := i) hplanes hcs (fun k hk => hhidden k (List.mem_cons_of_mem i hk)) hds
    exact ⟨k', by rw [subBlocks, subBlock_of_one_entry hplanes hcs hd hwrite, attempt_ok_bind]; exact hrest⟩

end

/-! ### A level of one block -/

/-- A level of one `DXT1` block over one-entry palettes, whose encoding 0 has one tile. -/
structure State.OneBlockLevel (s : State) (ce cs : Word) : Prop where
  fmt : s.fmt = .dxt1
  planes : s.planes .chunk = [.c]
  tiles : s.cfg.tileCount.getD 0 0 = 1
  faces : s.faces = 1
  lvlW : s.lvlW = 4
  lvlH : s.lvlH = 4
  ceCount : s.ceCount = 1
  csCount : s.csCount = 1
  dstMemSize : 8 ≤ s.cfg.dstMemSize
  readCe : Memory.read s.ce 0 = some ce
  readCs : Memory.read s.cs 0 = some cs

namespace State.OneBlockLevel

variable {s : State} {ce cs : Word}

theorem bx_eq (h : s.OneBlockLevel ce cs) : s.bx = 1 := by rw [State.bx, h.lvlW]; rfl

theorem by_eq (h : s.OneBlockLevel ce cs) : s.by' = 1 := by rw [State.by', h.lvlH]; rfl

theorem chunkScan_eq (h : s.OneBlockLevel ce cs) : chunkScan s.faces.toNat s.cy s.cx = [⟨0, 0, 0⟩] := by
  rw [State.cy, State.cx, h.bx_eq, h.by_eq, h.faces]
  rfl

/-- Neither the cursor nor what a running command changes belongs to the level. -/
theorem during (h : s.OneBlockLevel ce cs) (n : Nat) (a : Activity) (m : Memory 8) :
    ((s.advance n).during a m).OneBlockLevel ce cs :=
  ⟨h.fmt, h.planes, h.tiles, h.faces, h.lvlW, h.lvlH, h.ceCount, h.csCount, h.dstMemSize, h.readCe, h.readCs⟩

/-- The level's block is written at address 0. -/
theorem writeBlock_zero (h : s.OneBlockLevel ce cs) : writeBlock 0 0 0 PlaneRegs.zero PlaneRegs.zero s =
    .ok (s.setDst (Memory.writeList s.dst 0 (colorBytes ce cs))) := by
  have hvisible : s.visible 0 0 = true := by rw [State.visible, h.bx_eq, h.by_eq]; rfl
  have haddr : s.blockAddr 0 0 0 = 0 := by simp [State.blockAddr]
  have hbytes : blockBytes s PlaneRegs.zero PlaneRegs.zero = .ok (colorBytes ce cs) := by
    have hpart : planePart s .c PlaneRegs.zero PlaneRegs.zero = .ok (colorBytes ce cs) :=
      colorPart_of_read h.readCe h.readCs
    rw [blockBytes, h.fmt, blockPlanes, partsOf, hpart, attempt_ok_bind]
    rfl
  refine (writeBlock_ok _ _ _ _ _ _ _).2 (.inr ⟨hvisible, colorBytes ce cs, hbytes, ?_, by rw [haddr]⟩)
  rw [haddr, Nat.zero_add]
  exact h.dstMemSize

/-- The sub-blocks 1 to 3 of the level's chunk lie outside the image. -/
theorem visible_eq_false (h : s.OneBlockLevel ce cs) :
    ∀ k ∈ [1, 2, 3], s.visible (2 * 0 + k % 2) (2 * 0 + k / 2) = false := by
  simp only [State.visible, h.bx_eq, h.by_eq]
  decide

section
variable {u : State} {syms : List Nat} {ceb : BitVec 10} {k : Nat}

/-- The four sub-blocks of the level's chunk: four decodes, and the block. -/
theorem subBlocks_eq (h : s.OneBlockLevel ce cs) (hdecode : decodeSeq s [2, 2, 2, 2] = .ok (syms, u))
    (pattern : List Nat) (scan : List ChunkPos) :
    ∃ k', subBlocks pattern ⟨0, 0, 0⟩ (.zeroed ceb k scan) s [0, 1, 2, 3] =
      .ok (.zeroed ceb k' scan, u.during s.activity (Memory.writeList s.dst 0 (colorBytes ce cs))) := by
  obtain ⟨_, _, t, hfirst, hhidden, -⟩ := decodeSeq_cons_ok.1 hdecode
  obtain ⟨n, rfl⟩ := decodeSlot_advance _ _ _ _ hfirst
  have hblock := (h.during n s.activity s.dst).writeBlock_zero
  have hwritten := h.during n s.activity (Memory.writeList s.dst 0 (colorBytes ce cs))
  obtain ⟨k', hrest⟩ := subBlocks_of_hidden (ks := [1, 2, 3]) (pos := ⟨0, 0, 0⟩) hwritten.planes hwritten.csCount
    hwritten.visible_eq_false (decodeSeq_during s.activity _ hhidden)
  exact ⟨k', by rw [subBlocks, subBlock_of_one_entry h.planes h.csCount hfirst hblock, attempt_ok_bind]; exact hrest⟩

/-- The level's chunk under encoding 0: five decodes, and the block. -/
theorem runTile_zero (h : s.OneBlockLevel ce cs) (hchunk : s.activity = .chunk (.zeroed ceb k [⟨0, 0, 0⟩]))
    (hdecode : decodeSeq s [1, 2, 2, 2, 2] = .ok (syms, u)) :
    ∃ k', runTile 0 s = .ok (u.during (.chunk (.zeroed ceb k' [⟨0, 0, 0⟩]))
      (Memory.writeList s.dst 0 (colorBytes ce cs))) := by
  obtain ⟨_, _, t, hendpoint, hselectors, -⟩ := decodeSeq_cons_ok.1 hdecode
  obtain ⟨n, rfl⟩ := decodeSlot_advance _ _ _ _ hendpoint
  obtain ⟨k', hblocks⟩ := (h.during n s.activity s.dst).subBlocks_eq hselectors _ _
  refine ⟨k', runTile_of_ok hchunk rfl ?_ hblocks⟩
  rw [h.tiles, h.planes]
  exact decodeTileEndpoints_of_one_entry h.ceCount hendpoint

/-- The whole run: six decodes, and the block. -/
theorem runToEnd_eq {v : Nat} (h : s.OneBlockLevel ce cs)
    (hdecode : decodeSeq s [0, 1, 2, 2, 2, 2] = .ok (v :: syms, u)) (hv : v < 512) (hencoding : v % 8 = 0) :
    runToEnd (s.setActivity (.chunk (initChunk s))) =
      .ok (u.during .idle (Memory.writeList s.dst 0 (colorBytes ce cs))) := by
  obtain ⟨_, _, t, hcode, hrecord, hsyms⟩ := decodeSeq_cons_ok.1 hdecode
  cases hsyms
  obtain ⟨n, rfl⟩ := decodeSlot_advance _ _ _ _ hcode
  have hinit : initChunk s = .zeroed 1 0 [⟨0, 0, 0⟩] := by rw [initChunk_eq_zeroed, h.chunkScan_eq]
  rw [hinit]
  have hfetch := fetchChunk_of_exhausted (c := .zeroed 1 0 [⟨0, 0, 0⟩]) (i := .tilePattern0) rfl
    (decodeSlot_during (.chunk (.zeroed 1 0 [⟨0, 0, 0⟩])) s.dst hcode) hv (by rw [hencoding]; rfl)
  obtain ⟨k', hbody⟩ := (h.during n _ s.dst).runTile_zero
    (ceb := (BitVec.ofNat 10 v ||| 512) >>> 3) (k := 0) rfl (decodeSeq_during _ s.dst hrecord)
  exact runToEnd_of_one_chunk rfl rfl ((oneEvent_ok _ _).2 ⟨_, _, _, hfetch, hbody, rfl⟩)

end

/-- The level passes every check of the command. -/
theorem checkUnpack_eq_none (h : s.OneBlockLevel ce cs) (hvalid : s.br.valid = true)
    (hmodels : ∀ k ∈ [0, 1, 2], s.modelValid k = true) (hpitch : s.rowPitch = 8) (hsize : s.dstSize = 8) :
    checkUnpack .chunk s = none := by
  refine (checkUnpack_none .chunk s).2 ⟨hvalid, by rw [h.fmt]; rfl, by rw [h.planes]; exact hmodels,
    .inl (by rw [h.faces]; rfl), by rw [h.lvlW]; decide, by rw [h.lvlH]; decide, ?counts, ?pitch, ?size, ?memory⟩
  case counts =>
    rw [h.planes, List.forall_mem_singleton, State.epCount, State.selCount, h.ceCount, h.csCount]
    decide
  case pitch =>
    rw [h.bx_eq, State.bpb, h.fmt, hpitch]
    decide
  case size =>
    rw [h.by_eq, hpitch, hsize]
    decide
  case memory =>
    rw [h.faces, hsize]
    exact h.dstMemSize

end State.OneBlockLevel

/-- Settles O47: the level passes the checks, its run is six decodes and one block write at address 0. -/
theorem oneBlockLevelIsItsPaletteEntries : Obligations.OneBlockLevelIsItsPaletteEntries := by
  intro s u v d e0 e1 e2 e3 ce cs herr hidle hwf htiles _ hvalid hformat hfaces hlvlW hlvlH hce hcs hpitch hsize hmem
    hslot0 hslot1 hslot2 hreadCe hreadCs hdecode hv hencoding
  have hfmt : s.fmt = .dxt1 := by rw [State.fmt, hformat]; rfl
  have hlevel : s.OneBlockLevel ce cs := {
    fmt := hfmt
    planes := planes_chunk_of_dxt1 hwf hfmt
    tiles := by rw [htiles]; rfl
    faces := hfaces
    lvlW := hlvlW
    lvlH := hlvlH
    ceCount := hce
    csCount := hcs
    dstMemSize := hmem
    readCe := hreadCe
    readCs := hreadCs }
  have hmodels : ∀ k ∈ [0, 1, 2], s.modelValid k = true := by simp [hslot0, hslot1, hslot2]
  have hchecks := hlevel.checkUnpack_eq_none hvalid hmodels hpitch hsize
  have hrun := hlevel.runToEnd_eq hdecode hv hencoding
  refine ⟨_, exec_unpackChunk_of_runToEnd herr hchecks (by rw [hfmt]; rfl) hrun, ?_, ?_, fun a ha => ?_⟩
  · obtain ⟨n, rfl⟩ := decodeSeq_advance hdecode
    rw [← hidle]
    rfl
  · exact State.dstHolds_writeList rfl
  · have hlength : (colorBytes ce cs).length = 8 := rfl
    exact (Memory.read_writeList s.dst 0 a (colorBytes ce cs)).trans (if_neg (by omega))

end Sys2Proof.Machine
end

