-- ==== Sys2Proof/Proofs/BlockScan.lean ====
section
/-! PROOFS. The order in which `UNPACK_REFGRP` visits the blocks of a level, and the padded grid it visits
(spec/44_unpack_refgroup.md R270, spec/43_unpack_chunk.md R222). -/

namespace Sys2Proof.Machine

/-! ### The scan -/

section
variable (faces rows columns : Nat)

theorem mem_blockScan (pos : BlockPos) :
    pos ∈ blockScan faces rows columns ↔ pos.f < faces ∧ pos.y < rows ∧ pos.x < columns := by
  obtain ⟨f, y, x⟩ := pos
  simp only [blockScan, List.mem_flatMap, List.mem_map, List.mem_range, BlockPos.mk.injEq]
  constructor
  · rintro ⟨_, hf, _, hy, _, hx, rfl, rfl, rfl⟩
    exact ⟨hf, hy, hx⟩
  · rintro ⟨hf, hy, hx⟩
    exact ⟨f, hf, y, hy, x, hx, rfl, rfl, rfl⟩

theorem length_blockScan : (blockScan faces rows columns).length = faces * rows * columns := by
  simp only [blockScan, List.length_flatMap, List.length_map, List.map_const', List.length_range, List.sum_replicate,
    smul_eq_mul, Nat.mul_assoc]

/-- Faces outermost, then rows, then columns. -/
theorem pairwise_blockScan : (blockScan faces rows columns).Pairwise fun a b =>
    a.f < b.f ∨ (a.f = b.f ∧ (a.y < b.y ∨ (a.y = b.y ∧ a.x < b.x))) := by
  refine List.pairwise_flatMap.2 ⟨fun f _ => List.pairwise_flatMap.2 ⟨fun y _ => ?row, ?rows⟩, ?faces⟩
  case row => exact List.pairwise_map.2 (List.pairwise_lt_range.imp fun hlt => .inr ⟨rfl, .inr ⟨rfl, hlt⟩⟩)
  case rows =>
    refine List.pairwise_lt_range.imp fun hlt a ha b hb => ?_
    obtain ⟨_, -, rfl⟩ := List.mem_map.1 ha
    obtain ⟨_, -, rfl⟩ := List.mem_map.1 hb
    exact .inr ⟨rfl, .inl hlt⟩
  case faces =>
    refine List.pairwise_lt_range.imp fun hlt a ha b hb => .inl ?_
    obtain ⟨_, -, ha⟩ := List.mem_flatMap.1 ha
    obtain ⟨_, -, rfl⟩ := List.mem_map.1 ha
    obtain ⟨_, -, hb⟩ := List.mem_flatMap.1 hb
    obtain ⟨_, -, rfl⟩ := List.mem_map.1 hb
    exact hlt

end

/-! ### The padded grid (R222) -/

/-- Padding to an even number adds at most one. -/
theorem padded_bounds (n : Nat) :
    2 * ceilDiv n 2 % 2 = 0 ∧ n ≤ 2 * ceilDiv n 2 ∧ 2 * ceilDiv n 2 ≤ n + 1 := by
  unfold ceilDiv
  omega

/-- Settles O53: a strictly ordered list that holds every block visits each exactly once. -/
theorem blockScanCoversTheLevel : Obligations.BlockScanCoversTheLevel := by
  refine ⟨fun faces rows columns => ⟨mem_blockScan faces rows columns, length_blockScan faces rows columns,
    pairwise_blockScan faces rows columns⟩, fun s => ?_⟩
  obtain ⟨hevenW, hleW, hgeW⟩ := padded_bounds s.bx
  obtain ⟨hevenH, hleH, hgeH⟩ := padded_bounds s.by'
  exact ⟨hevenW, hevenH, hleW, hgeW, hleH, hgeH⟩

end Sys2Proof.Machine
end

