-- ==== Sys2Proof/Proofs/UnpackBlocks.lean ====
section
/-! PROOFS. What the two schemes share: what the checks of an unpack command leave true (spec/43_unpack_chunk.md R223), the
planes of a format in the order of its block (R224, R235), and the bytes and the write of one block (R235, spec/20_memory.md
R66, R72). -/

namespace Sys2Proof.Machine

/-! ### The registers of the planes -/

theorem PlaneRegs.get_set (r : PlaneRegs) (p q : Plane) (v : Half) :
    (r.set p v).get q = if q = p then v else r.get q := by
  cases p <;> cases q <;> rfl

@[simp] theorem PlaneRegs.set_get (r : PlaneRegs) (p : Plane) : r.set p (r.get p) = r := by
  cases p <;> rfl

theorem PlaneRegs.ext_get {r q : PlaneRegs} (h : ∀ p, r.get p = q.get p) : r = q := by
  cases r
  cases q
  exact congr (congr (congrArg PlaneRegs.mk (h .c)) (h .a0)) (h .a1)

theorem get_setPlanes (ps : List Plane) (old : PlaneRegs) (idx : Plane → Half) (p : Plane) :
    (setPlanes ps old idx).get p = if p ∈ ps then idx p else old.get p := by
  cases p <;> rfl

/-! ### What a level that passes the checks has (R223) -/

section
variable {s : State} {sch : Scheme}

theorem checkTable_eq_false (hchecks : s.firstCheck sch = none) : ∀ e ∈ s.checkTable sch, e.1 = false := by
  rw [State.firstCheck, Option.map_eq_none_iff, List.find?_eq_none] at hchecks
  exact fun e he => Bool.eq_false_iff.2 (hchecks e he)

/-- The palettes of the format's planes have entries. -/
theorem counts_pos_of_firstCheck (hchecks : s.firstCheck sch = none) {p : Plane} (hp : p ∈ s.planes sch) :
    0 < s.epCount p ∧ 0 < s.selCount p := by
  have hempty := checkTable_eq_false hchecks
    ((s.usesColor sch && (s.ceCount.toNat == 0 || s.csCount.toNat == 0))
      || (s.usesAlpha sch && (s.aeCount.toNat == 0 || s.asCount.toNat == 0)), 0x48) (by simp [State.checkTable])
  simp only [Bool.or_eq_false_iff, Bool.and_eq_false_imp, beq_eq_false_iff_ne, ← Nat.pos_iff_ne_zero] at hempty
  obtain ⟨hcolor, halpha⟩ := hempty
  cases p with
  | c => exact hcolor (List.contains_iff_mem.2 hp)
  | a0 => exact halpha (by rw [State.usesAlpha, List.contains_iff_mem.2 hp, Bool.true_or])
  | a1 => exact halpha (by rw [State.usesAlpha, List.contains_iff_mem.2 hp, Bool.or_true])

/-- Rows fit the pitch, faces fit `DST_SIZE`, and all faces fit the memory. -/
theorem levelFits_of_firstCheck (hchecks : s.firstCheck sch = none) : s.bx * s.bpb ≤ s.rowPitch.toNat ∧
    s.rowPitch.toNat * s.by' ≤ s.dstSize.toNat ∧ s.faces.toNat * s.dstSize.toNat ≤ s.cfg.dstMemSize := by
  have hall := checkTable_eq_false hchecks
  have hpitch := hall (decide (s.rowPitch.toNat < s.bx * s.bpb), 0x42) (by simp [State.checkTable])
  have hsize := hall (decide (s.dstSize.toNat < s.rowPitch.toNat * s.by')
    || decide (s.cfg.dstMemSize < s.faces.toNat * s.dstSize.toNat), 0x41) (by simp [State.checkTable])
  simp only [Bool.or_eq_false_iff, decide_eq_false_iff_not, Nat.not_lt] at hpitch hsize
  exact ⟨hpitch, hsize⟩

/-- A visible block of a face of the level lies inside `DST` (spec/20_memory.md R72). -/
theorem blockAddr_add_bpb_le (hchecks : s.firstCheck sch = none) {f x y : Nat} (hf : f < s.faces.toNat)
    (hvisible : s.visible x y = true) : s.blockAddr f x y + s.bpb ≤ s.cfg.dstMemSize := by
  obtain ⟨hpitch, hsize, hmemory⟩ := levelFits_of_firstCheck hchecks
  simp only [State.visible, Bool.and_eq_true, decide_eq_true_eq] at hvisible
  obtain ⟨hx, hy⟩ := hvisible
  have hrow : x * s.bpb + s.bpb ≤ s.rowPitch.toNat := by
    rw [← Nat.succ_mul]
    exact (Nat.mul_le_mul_right _ hx).trans hpitch
  have hface : y * s.rowPitch.toNat + s.rowPitch.toNat ≤ s.dstSize.toNat := by
    rw [← Nat.succ_mul, Nat.mul_comm]
    exact (Nat.mul_le_mul_left _ hy).trans hsize
  have hlevel : f * s.dstSize.toNat + s.dstSize.toNat ≤ s.cfg.dstMemSize := by
    rw [← Nat.succ_mul]
    exact (Nat.mul_le_mul_right _ hf).trans hmemory
  rw [State.blockAddr]
  omega

end

theorem selCount_le (s : State) (p : Plane) : s.selCount p ≤ 65535 := by
  have hhalf (v : Half) : v.toNat ≤ 65535 := Nat.le_of_lt_succ v.isLt
  cases p
  · exact hhalf s.csCount
  · exact hhalf s.asCount
  · exact hhalf s.asCount

/-! ### The planes of a format (R224) -/

theorem perm_of_samePlanes {l m : List Plane} (hm : m.Nodup) (h : Config.samePlanes l m = true) : m.Perm l := by
  simp only [Config.samePlanes, Bool.and_eq_true, beq_iff_eq, List.all_eq_true, List.contains_iff_mem] at h
  obtain ⟨hlength, hmem⟩ := h
  exact (hm.subperm hmem).perm_of_length_le hlength.le

section
variable {s : State}

theorem fmt_of_dxtFormat (hdxt : s.dxtFormat) : s.fmt = .dxt1 ∨ s.fmt = .dxt5 ∨ s.fmt = .dxt5a ∨ s.fmt = .dxn := by
  simp only [State.fmt, formatOf]
  rcases hdxt with h | h | h | h <;> simp [h]

theorem planesOk_planeTable (hwf : s.cfg.wf = true) (sch : Scheme) : Config.planesOk (planeTable s.cfg sch) = true := by
  simp only [Config.wf, Bool.and_eq_true] at hwf
  obtain ⟨⟨-, hchunk⟩, hrefgrp⟩ := hwf
  cases sch
  · exact hchunk
  · exact hrefgrp

/-- A sound plane table lists the planes of the format's block, each once, in an order of its own. -/
theorem blockPlanes_perm_planes (hwf : s.cfg.wf = true) (hdxt : s.dxtFormat) (sch : Scheme) :
    (blockPlanes s.fmt).Perm (s.planes sch) := by
  have hplanes := planesOk_planeTable hwf sch
  simp only [Config.planesOk, Bool.and_eq_true] at hplanes
  obtain ⟨⟨⟨hdxt1, hdxt5⟩, hdxt5a⟩, hdxn⟩ := hplanes
  rw [State.planes]
  rcases fmt_of_dxtFormat hdxt with h | h | h | h <;> rw [h]
  · exact perm_of_samePlanes (by decide) hdxt1
  · exact perm_of_samePlanes (by decide) hdxt5
  · exact perm_of_samePlanes (by decide) hdxt5a
  · exact perm_of_samePlanes (by decide) hdxn

theorem nodup_planes (hwf : s.cfg.wf = true) (hdxt : s.dxtFormat) (sch : Scheme) : (s.planes sch).Nodup := by
  have hnodup : (blockPlanes s.fmt).Nodup := by cases s.fmt <;> decide
  exact (blockPlanes_perm_planes hwf hdxt sch).nodup_iff.1 hnodup

/-- `BPB` is eight bytes for each plane. -/
theorem bpb_eq_of_dxtFormat (hdxt : s.dxtFormat) : s.bpb = 8 * (blockPlanes s.fmt).length := by
  rw [State.bpb]
  rcases fmt_of_dxtFormat hdxt with h | h | h | h <;> rw [h] <;> rfl

/-- A block is the parts of its planes, one after another (R235). -/
theorem blockOf_eq_flatMap (hdxt : s.dxtFormat) (ei si : Plane → Nat) :
    s.blockOf ei si = (blockPlanes s.fmt).flatMap fun p => s.partOf p (ei p) (si p) := by
  simp only [State.blockOf, State.fmt, formatOf]
  rcases hdxt with h | h | h | h <;> simp [h, blockPlanes]

/-- A block depends on the indices of its own planes alone. -/
theorem blockOf_congr (hdxt : s.dxtFormat) {ei si ei' si' : Plane → Nat}
    (h : ∀ p ∈ blockPlanes s.fmt, ei p = ei' p ∧ si p = si' p) : s.blockOf ei si = s.blockOf ei' si' := by
  rw [blockOf_eq_flatMap hdxt, blockOf_eq_flatMap hdxt]
  refine List.flatMap_congr fun p hp => ?_
  obtain ⟨hei, hsi⟩ := h p hp
  rw [hei, hsi]

end

/-! ### The bytes of a block (R235, spec/20_memory.md R66) -/

theorem setWidth_ushiftRight {w : Nat} (v : BitVec w) (i : Nat) :
    (v >>> i).setWidth 8 = BitVec.ofNat 8 (v.toNat / 2 ^ i) := by
  apply BitVec.eq_of_toNat_eq
  rw [BitVec.toNat_setWidth, BitVec.toNat_ushiftRight, BitVec.toNat_ofNat, Nat.shiftRight_eq_div_pow]

theorem le16_eq_leBytes (v : Half) : le16 v = leBytes 2 v.toNat := by
  have hfirst : v.setWidth 8 = BitVec.ofNat 8 (v.toNat / 2 ^ 0) := setWidth_ushiftRight v 0
  rw [le16, hfirst, setWidth_ushiftRight]
  rfl

theorem readEntry_of_written {w : Nat} (sp : Space) {m : Memory w} {a : Nat} (h : (Memory.read m a).isSome = true) :
    ∃ v, readEntry sp m a = .ok v ∧ v.toNat = entryOf m a := by
  obtain ⟨v, hv⟩ := Option.isSome_iff_exists.1 h
  exact ⟨v, readEntry_of_some _ _ _ _ hv, by rw [entryOf, hv, Option.getD_some]⟩

section
variable {s : State}

theorem colorPart_of_written {e i : Nat} (he : (Memory.read s.ce e).isSome = true)
    (hi : (Memory.read s.cs i).isSome = true) : colorPart s e i = .ok (s.partOf .c e i) := by
  obtain ⟨v, hv⟩ := Option.isSome_iff_exists.1 he
  obtain ⟨u, hu⟩ := Option.isSome_iff_exists.1 hi
  rw [colorPart_of_read hv hu, colorBytes, State.partOf, entryOf, entryOf, hv, hu, Option.getD_some, Option.getD_some]

theorem alphaPart_of_written {e i : Nat} (he : (Memory.read s.ae e).isSome = true)
    (hi : ∀ j < 3, (Memory.read s.aSel (3 * i + j)).isSome = true) : alphaPart s e i = .ok (s.partOf .a0 e i) := by
  obtain ⟨v, hv, hve⟩ := readEntry_of_written .ae he
  obtain ⟨u0, hu0, hui0⟩ := readEntry_of_written .aSel (hi 0 (by decide))
  obtain ⟨u1, hu1, hui1⟩ := readEntry_of_written .aSel (hi 1 (by decide))
  obtain ⟨u2, hu2, hui2⟩ := readEntry_of_written .aSel (hi 2 (by decide))
  rw [Nat.add_zero] at hu0 hui0
  simp only [alphaPart, State.partOf, hv, hu0, hu1, hu2, attempt_ok_bind, le16_eq_leBytes, hve, hui0, hui1, hui2]

/-- Indices below the counts of a plane whose palettes the host has written. -/
def State.holdsEntries (s : State) (ei si : PlaneRegs) (p : Plane) : Prop :=
  s.palettesWritten p ∧ (ei.get p).toNat < s.epCount p ∧ (si.get p).toNat < s.selCount p

variable {ei si : PlaneRegs}

/-- A part is the entries at the plane's indices. -/
theorem planePart_of_holdsEntries {p : Plane} (h : s.holdsEntries ei si p) :
    planePart s p ei si = .ok (s.partOf p (ei.get p).toNat (si.get p).toNat) := by
  obtain ⟨hwritten, hei, hsi⟩ := h
  cases p with
  | c =>
    obtain ⟨hep, hsel⟩ := hwritten
    exact colorPart_of_written (hep _ hei) (hsel _ hsi)
  | a0 =>
    obtain ⟨hep, hsel⟩ := hwritten
    have hsi : si.a0.toNat < s.asCount.toNat := hsi
    exact alphaPart_of_written (hep _ hei) fun j hj => hsel _ (by omega)
  | a1 =>
    obtain ⟨hep, hsel⟩ := hwritten
    have hsi : si.a1.toNat < s.asCount.toNat := hsi
    exact alphaPart_of_written (hep _ hei) fun j hj => hsel _ (by omega)

theorem partsOf_of_holdsEntries {ps : List Plane} (h : ∀ p ∈ ps, s.holdsEntries ei si p) :
    partsOf s ei si ps = .ok (ps.flatMap fun p => s.partOf p (ei.get p).toNat (si.get p).toNat) := by
  induction ps with
  | nil => rfl
  | cons p rest ih =>
    obtain ⟨hp, hrest⟩ := List.forall_mem_cons.1 h
    rw [partsOf, planePart_of_holdsEntries hp, attempt_ok_bind, ih hrest, attempt_ok_bind, List.flatMap_cons]

theorem length_partOf (p : Plane) (e i : Nat) : (s.partOf p e i).length = 8 := by
  cases p <;> rfl

theorem length_blockOf (hdxt : s.dxtFormat) (ei si : Plane → Nat) : (s.blockOf ei si).length = s.bpb := by
  rw [blockOf_eq_flatMap hdxt, bpb_eq_of_dxtFormat hdxt, List.length_flatMap]
  simp only [length_partOf, List.map_const', List.sum_replicate, smul_eq_mul, Nat.mul_comm]

/-! ### The write of a block (spec/20_memory.md R72) -/

/-- `DST` after the block at column `x`, row `y` of face `f`: the block at its address if it is visible. -/
def State.dstAfterBlock (s : State) (f x y : Nat) (block : List Byte) : Memory 8 :=
  if s.visible x y = true then Memory.writeList s.dst (s.blockAddr f x y) block else s.dst

theorem writeBlock_of_holdsEntries {sch : Scheme} {f x y : Nat} (hdxt : s.dxtFormat) (hchecks : s.firstCheck sch = none)
    (hf : f < s.faces.toNat) (hentries : ∀ p ∈ blockPlanes s.fmt, s.holdsEntries ei si p) :
    writeBlock f x y ei si s = .ok (s.setDst (s.dstAfterBlock f x y
      (s.blockOf (fun p => (ei.get p).toNat) fun p => (si.get p).toNat))) := by
  cases hvisible : s.visible x y with
  | false =>
    rw [State.dstAfterBlock, hvisible, if_neg Bool.false_ne_true]
    exact (writeBlock_ok _ _ _ _ _ _ _).2 (.inl ⟨hvisible, rfl⟩)
  | true =>
    rw [State.dstAfterBlock, if_pos hvisible]
    refine (writeBlock_ok _ _ _ _ _ _ _).2 (.inr ⟨hvisible, _, ?bytes, ?inside, rfl⟩)
    case bytes => rw [blockBytes, partsOf_of_holdsEntries hentries, blockOf_eq_flatMap hdxt]
    case inside =>
      rw [length_blockOf hdxt]
      exact blockAddr_add_bpb_le hchecks hf hvisible

/-- Nothing but the bytes of a visible block changes. -/
theorem read_dstAfterBlock {f x y a : Nat} {block : List Byte}
    (ha : s.visible x y = true → a < s.blockAddr f x y ∨ s.blockAddr f x y + block.length ≤ a) :
    Memory.read (s.dstAfterBlock f x y block) a = Memory.read s.dst a := by
  rw [State.dstAfterBlock]
  split
  case isTrue hvisible =>
    have houtside := ha hvisible
    rw [Memory.read_writeList, if_neg (by omega)]
  case isFalse => rfl

theorem State.dstHolds_dstAfterBlock {t : State} {f x y : Nat} {block : List Byte}
    (hdst : t.dst = s.dstAfterBlock f x y block) (hvisible : s.visible x y = true) :
    t.dstHolds (s.blockAddr f x y) block := by
  rw [State.dstAfterBlock, if_pos hvisible] at hdst
  exact State.dstHolds_writeList hdst

end

end Sys2Proof.Machine
end

