-- ==== Sys2Proof/Proofs/RefgroupBlock.lean ====
section
/-! PROOFS. What follows the sub-code of a block of `UNPACK_REFGRP`: its selectors, its write, and the scan's move
(spec/44_unpack_refgroup.md R268, R269). -/

namespace Sys2Proof.Machine

/-! ### The selectors of one plane (R268) -/

/-- The symbol of a plane among those decoded for the planes `ps` in their order. -/
def planeSymbol (ps : List Plane) (syms : List Nat) (p : Plane) : Nat := syms.getD (ps.idxOf p) 0

theorem planeSymbol_cons_self (p : Plane) (ps : List Plane) (d : Nat) (ds : List Nat) :
    planeSymbol (p :: ps) (d :: ds) p = d := by
  rw [planeSymbol, List.idxOf_cons_self, List.getD_cons_zero]

theorem planeSymbol_cons_of_ne {p q : Plane} (hne : p ≠ q) (ps : List Plane) (d : Nat) (ds : List Nat) :
    planeSymbol (p :: ps) (d :: ds) q = planeSymbol ps ds q := by
  rw [planeSymbol, List.idxOf_cons_ne _ hne, List.getD_cons_succ, planeSymbol]

/-- The block's selector index of a plane, by the running index and the symbol: a delta on the index with `RG_SEL_DELTA`,
the symbol itself without. -/
def State.blockSelectorRG (s : State) (p : Plane) (running : Half) (v : Nat) : Half :=
  if s.cfg.rgSelDelta then deltaIndex running v (s.selCount p) else BitVec.ofNat 16 v

/-- The running selector index of a plane after the symbol; without `RG_SEL_DELTA` none is kept. -/
def State.runningSelectorRG (s : State) (p : Plane) (running : Half) (v : Nat) : Half :=
  if s.cfg.rgSelDelta then deltaIndex running v (s.selCount p) else running

/-- A symbol that raises no error: with `RG_SEL_DELTA` any, without it an index of the palette. -/
def State.selectorInRange (s : State) (p : Plane) (v : Nat) : Prop := s.cfg.rgSelDelta = false → v < s.selCount p

section
variable {s t u : State} {p : Plane} {v : Nat}

theorem runningSelectorRG_toNat (running : Half) (hpos : 0 < s.selCount p) :
    (s.runningSelectorRG p running v).toNat =
      if s.cfg.rgSelDelta then (running.toNat + v) % s.selCount p else running.toNat := by
  rw [State.runningSelectorRG]
  split
  · exact deltaIndex_toNat running v hpos (selCount_le s p)
  · rfl

theorem blockSelectorRG_toNat (running : Half) (hrange : s.selectorInRange p v) :
    (s.blockSelectorRG p running v).toNat =
      if s.cfg.rgSelDelta then (s.runningSelectorRG p running v).toNat else v := by
  rw [State.blockSelectorRG, State.runningSelectorRG]
  cases hmode : s.cfg.rgSelDelta with
  | true => rfl
  | false =>
    have hlt := hrange hmode
    have hle := selCount_le s p
    exact Nat.mod_eq_of_lt (by omega)

theorem blockSelectorRG_lt (running : Half) (hpos : 0 < s.selCount p) (hrange : s.selectorInRange p v) :
    (s.blockSelectorRG p running v).toNat < s.selCount p := by
  rw [blockSelectorRG_toNat running hrange, runningSelectorRG_toNat running hpos]
  cases hmode : s.cfg.rgSelDelta with
  | true => exact Nat.mod_lt _ hpos
  | false => exact hrange hmode

theorem decodeSelectorRG_of_inRange {sp si : PlaneRegs} (hdecode : decodeSlot p.selSlot s = .ok (v, t))
    (hrange : s.selectorInRange p v) : decodeSelectorRG p sp si s =
      .ok (sp.set p (s.runningSelectorRG p (sp.get p) v), si.set p (s.blockSelectorRG p (sp.get p) v), t) := by
  obtain ⟨n, rfl⟩ := decodeSlot_advance _ _ _ _ hdecode
  rw [decodeSelectorRG, State.runningSelectorRG, State.blockSelectorRG]
  cases hmode : s.cfg.rgSelDelta with
  | true =>
    have hdelta := (decodeSelectorDelta_ok p sp _ s _).2 ⟨v, hdecode, rfl⟩
    rw [if_pos rfl, hdelta, attempt_ok_bind]
    simp only [if_true, PlaneRegs.get_set]
  | false =>
    have hlt : ¬ (s.advance n).selCount p ≤ v := Nat.not_le.2 (hrange hmode)
    simp only [Bool.false_eq_true, if_false, hdecode, attempt_ok_bind, if_neg hlt, PlaneRegs.set_get]

theorem decodeSelectorRG_of_outside {sp si : PlaneRegs} (hdecode : decodeSlot p.selSlot s = .ok (v, t))
    (hmode : s.cfg.rgSelDelta = false) (hge : s.selCount p ≤ v) :
    decodeSelectorRG p sp si s = .error (.error .symValue) := by
  obtain ⟨n, rfl⟩ := decodeSlot_advance _ _ _ _ hdecode
  have hge : (s.advance n).selCount p ≤ v := hge
  simp only [decodeSelectorRG, hmode, Bool.false_eq_true, if_false, hdecode, attempt_ok_bind, if_pos hge, failWith]

end

/-! ### The selectors of a block (R268) -/

/-- Setting the first plane and then the others sets them all. -/
theorem setPlanes_cons {p : Plane} {ps : List Plane} (old : PlaneRegs) {v : Half}
    {idx idx' : Plane → Half} (hfirst : idx p = v) (hrest : ∀ q ∈ ps, idx q = idx' q) :
    setPlanes (p :: ps) old idx = setPlanes ps (old.set p v) idx' := by
  refine PlaneRegs.ext_get fun q => ?_
  rw [get_setPlanes, get_setPlanes, PlaneRegs.get_set]
  by_cases hq : q ∈ ps
  · rw [if_pos (List.mem_cons_of_mem p hq), if_pos hq, hrest q hq]
  · rw [if_neg hq]
    by_cases hqp : q = p
    · rw [if_pos hqp, hqp, if_pos List.mem_cons_self, hfirst]
    · rw [if_neg hqp, if_neg (by simp [hqp, hq])]

/-- The running selector indices after a block. -/
def State.runningSelectorsRG (s : State) (ps : List Plane) (syms : List Nat) (sp : PlaneRegs) : PlaneRegs :=
  setPlanes ps sp fun p => s.runningSelectorRG p (sp.get p) (planeSymbol ps syms p)

/-- The selector indices of a block; a plane the format does not have keeps `si`. -/
def State.blockSelectorsRG (s : State) (ps : List Plane) (syms : List Nat) (sp si : PlaneRegs) : PlaneRegs :=
  setPlanes ps si fun p => s.blockSelectorRG p (sp.get p) (planeSymbol ps syms p)

section
variable {s : State} {ps : List Plane} {syms : List Nat} (sp : PlaneRegs) {p : Plane}

theorem runningSelectorsRG_toNat (hp : p ∈ ps) (hpos : 0 < s.selCount p) :
    ((s.runningSelectorsRG ps syms sp).get p).toNat = if s.cfg.rgSelDelta
      then ((sp.get p).toNat + planeSymbol ps syms p) % s.selCount p else (sp.get p).toNat := by
  rw [State.runningSelectorsRG, get_setPlanes, if_pos hp, runningSelectorRG_toNat _ hpos]

theorem runningSelectorsRG_of_notMem (hp : p ∉ ps) :
    (s.runningSelectorsRG ps syms sp).get p = sp.get p := by
  rw [State.runningSelectorsRG, get_setPlanes, if_neg hp]

theorem blockSelectorsRG_toNat (si : PlaneRegs) (hp : p ∈ ps)
    (hrange : s.selectorInRange p (planeSymbol ps syms p)) :
    ((s.blockSelectorsRG ps syms sp si).get p).toNat = if s.cfg.rgSelDelta
      then ((s.runningSelectorsRG ps syms sp).get p).toNat else planeSymbol ps syms p := by
  rw [State.blockSelectorsRG, State.runningSelectorsRG, get_setPlanes, get_setPlanes, if_pos hp, if_pos hp,
    blockSelectorRG_toNat _ hrange]

theorem blockSelectorsRG_lt (si : PlaneRegs) (hp : p ∈ ps) (hpos : 0 < s.selCount p)
    (hrange : s.selectorInRange p (planeSymbol ps syms p)) :
    ((s.blockSelectorsRG ps syms sp si).get p).toNat < s.selCount p := by
  rw [State.blockSelectorsRG, get_setPlanes, if_pos hp]
  exact blockSelectorRG_lt _ hpos hrange

end

section
variable {s u : State} {ps : List Plane} {syms : List Nat}

/-- Each plane's indices follow from its own symbol. -/
theorem decodeSelectorsRG_of_inRange (hnodup : ps.Nodup) (sp si : PlaneRegs)
    (hdecode : decodeSeq s (ps.map Plane.selSlot) = .ok (syms, u))
    (hrange : ∀ p ∈ ps, s.selectorInRange p (planeSymbol ps syms p)) :
    decodeSelectorsRG sp si s ps =
      .ok (s.runningSelectorsRG ps syms sp, s.blockSelectorsRG ps syms sp si, u) := by
  induction ps generalizing s sp si syms with
  | nil =>
    cases hdecode
    rfl
  | cons p rest ih =>
    obtain ⟨hp, hnodup⟩ := List.nodup_cons.1 hnodup
    obtain ⟨d, ds, t, hfirst, hothers, rfl⟩ := decodeSeq_cons_ok.1 hdecode
    obtain ⟨n, rfl⟩ := decodeSlot_advance _ _ _ _ hfirst
    have hself := planeSymbol_cons_self p rest d ds
    have hne : ∀ q ∈ rest, q ≠ p := fun q hq hqp => hp (hqp ▸ hq)
    have hother : ∀ q ∈ rest, planeSymbol (p :: rest) (d :: ds) q = planeSymbol rest ds q :=
      fun q hq => planeSymbol_cons_of_ne (hne q hq).symm rest d ds
    obtain ⟨hrangep, hranges⟩ := List.forall_mem_cons.1 hrange
    rw [hself] at hrangep
    have hranges : ∀ q ∈ rest, (s.advance n).selectorInRange q (planeSymbol rest ds q) :=
      fun q hq => hother q hq ▸ hranges q hq
    have hkept : ∀ q ∈ rest, (sp.set p (s.runningSelectorRG p (sp.get p) d)).get q = sp.get q :=
      fun q hq => by rw [PlaneRegs.get_set, if_neg (hne q hq)]
    have hrunning : s.runningSelectorsRG (p :: rest) (d :: ds) sp =
        (s.advance n).runningSelectorsRG rest ds (sp.set p (s.runningSelectorRG p (sp.get p) d)) :=
      setPlanes_cons sp (by rw [hself]) fun q hq => by rw [hother q hq, hkept q hq]; rfl
    have hblock : s.blockSelectorsRG (p :: rest) (d :: ds) sp si =
        (s.advance n).blockSelectorsRG rest ds (sp.set p (s.runningSelectorRG p (sp.get p) d))
          (si.set p (s.blockSelectorRG p (sp.get p) d)) :=
      setPlanes_cons si (by rw [hself]) fun q hq => by rw [hother q hq, hkept q hq]; rfl
    rw [decodeSelectorsRG, decodeSelectorRG_of_inRange hfirst hrangep, attempt_ok_bind, hrunning, hblock]
    exact ih hnodup _ _ hothers hranges

/-- An absolute index at or above its palette's count is an error, whatever the planes before it hold. -/
theorem decodeSelectorsRG_of_outside (hmode : s.cfg.rgSelDelta = false) (sp si : PlaneRegs)
    (hdecode : decodeSeq s (ps.map Plane.selSlot) = .ok (syms, u))
    (houtside : ∃ p ∈ ps, s.selCount p ≤ planeSymbol ps syms p) :
    decodeSelectorsRG sp si s ps = .error (.error .symValue) := by
  induction ps generalizing s sp si syms with
  | nil => simp at houtside
  | cons p rest ih =>
    obtain ⟨d, ds, t, hfirst, hothers, rfl⟩ := decodeSeq_cons_ok.1 hdecode
    obtain ⟨n, rfl⟩ := decodeSlot_advance _ _ _ _ hfirst
    obtain ⟨q, hq, hge⟩ := houtside
    rw [decodeSelectorsRG]
    by_cases hd : d < s.selCount p
    · have hqp : p ≠ q := by
        rintro rfl
        rw [planeSymbol_cons_self] at hge
        omega
      rw [planeSymbol_cons_of_ne hqp] at hge
      rw [decodeSelectorRG_of_inRange hfirst fun _ => hd, attempt_ok_bind]
      exact ih (s := s.advance n) hmode _ _ hothers ⟨q, List.mem_of_ne_of_mem hqp.symm hq, hge⟩
    · rw [decodeSelectorRG_of_outside hfirst hmode (Nat.not_lt.1 hd), attempt_error_bind]

end

/-! ### The end of a block (R269) -/

section
variable {s t u : State} {g : RefState} {pos : BlockPos} {rest : List BlockPos} {sp si : PlaneRegs}

theorem nextBlock_of_scan (hscan : g.scan = pos :: rest) :
    nextBlock g s = s.setActivity (if rest = [] then .idle else .refgrp { g with scan := rest }) := by
  have hcases := nextBlock_cases g s
  rw [hscan, List.tail_cons] at hcases
  rcases hcases with ⟨hlast, heq⟩ | ⟨hmore, heq⟩
  · rw [heq, if_pos hlast]
  · rw [heq, if_neg hmore]

theorem retireRef_of_ok (hscan : g.scan = pos :: rest)
    (hselectors : decodeSelectorsRG g.sp PlaneRegs.zero s (s.planes .refgrp) = .ok (sp, si, t))
    (hwrite : writeBlock pos.f pos.x pos.y g.ep si t = .ok u) : retireRef g s =
      .ok (u.setActivity (if rest = [] then .idle else .refgrp { g with sp := sp, scan := rest })) := by
  rw [retireRef, hscan]
  simp only
  rw [hselectors, attempt_ok_bind]
  simp only
  rw [hwrite, attempt_ok_bind, nextBlock_of_scan rfl]

theorem retireRef_of_selectors_error {e : Halt} (hscan : g.scan = pos :: rest)
    (hselectors : decodeSelectorsRG g.sp PlaneRegs.zero s (s.planes .refgrp) = .error e) :
    retireRef g s = .error e := by
  rw [retireRef, hscan]
  simp only
  rw [hselectors, attempt_error_bind]

end

section
variable {s u : State} {g : RefState} {pos : BlockPos} {rest : List BlockPos} {syms : List Nat}

/-- The bytes of a block by its endpoint indices and the symbols of its selectors. -/
def State.blockRG (s : State) (ep sp : PlaneRegs) (syms : List Nat) : List Byte :=
  s.blockOf (fun p => (ep.get p).toNat) fun p =>
    if s.cfg.rgSelDelta then (sp.get p).toNat else planeSymbol (s.planes .refgrp) syms p

/-- With every selector in range the block ends without an error. -/
theorem retireRef_of_inRange (hscan : g.scan = pos :: rest) (hwf : s.cfg.wf = true) (hdxt : s.dxtFormat)
    (hchecks : s.firstCheck .refgrp = none) (hf : pos.f < s.faces.toNat)
    (hentries : ∀ p ∈ s.planes .refgrp, s.palettesWritten p ∧ (g.ep.get p).toNat < s.epCount p)
    (hdecode : decodeSeq s ((s.planes .refgrp).map Plane.selSlot) = .ok (syms, u))
    (hrange : ∀ p ∈ s.planes .refgrp, s.selectorInRange p (planeSymbol (s.planes .refgrp) syms p)) :
    retireRef g s = .ok ((u.setDst (s.dstAfterBlock pos.f pos.x pos.y
      (s.blockRG g.ep (s.runningSelectorsRG (s.planes .refgrp) syms g.sp) syms))).setActivity (if rest = [] then .idle
        else .refgrp { g with sp := s.runningSelectorsRG (s.planes .refgrp) syms g.sp, scan := rest })) := by
  have hselectors := decodeSelectorsRG_of_inRange (nodup_planes hwf hdxt .refgrp) g.sp PlaneRegs.zero hdecode hrange
  have hmem : ∀ p ∈ blockPlanes s.fmt, p ∈ s.planes .refgrp :=
    fun p hp => (blockPlanes_perm_planes hwf hdxt .refgrp).mem_iff.1 hp
  have hholds : ∀ p ∈ blockPlanes s.fmt,
      s.holdsEntries g.ep (s.blockSelectorsRG (s.planes .refgrp) syms g.sp PlaneRegs.zero) p := fun p hp => by
    obtain ⟨hwritten, hep⟩ := hentries p (hmem p hp)
    obtain ⟨-, hpos⟩ := counts_pos_of_firstCheck hchecks (hmem p hp)
    exact ⟨hwritten, hep, blockSelectorsRG_lt _ _ (hmem p hp) hpos (hrange p (hmem p hp))⟩
  obtain ⟨n, rfl⟩ := decodeSeq_advance hdecode
  refine retireRef_of_ok hscan hselectors ?_
  have hblock : s.blockRG g.ep (s.runningSelectorsRG (s.planes .refgrp) syms g.sp) syms = s.blockOf
      (fun p => (g.ep.get p).toNat)
      fun p => ((s.blockSelectorsRG (s.planes .refgrp) syms g.sp PlaneRegs.zero).get p).toNat :=
    blockOf_congr hdxt fun p hp => ⟨rfl, (blockSelectorsRG_toNat _ _ (hmem p hp) (hrange p (hmem p hp))).symm⟩
  rw [hblock]
  exact writeBlock_of_holdsEntries (s := s.advance n) hdxt hchecks hf hholds

end

/-- Settles O51: the selectors follow plane by plane, and the block written is that of its indices. -/
theorem blocksEndWithTheirSelectors : Obligations.BlocksEndWithTheirSelectors := by
  intro s u g pos rest ps syms hscan hps hwf hdxt hchecks hf hentries hdecode
  subst hps
  refine ⟨fun hmode houtside => ?_, fun hrange => ?_⟩
  · exact retireRef_of_selectors_error hscan (decodeSelectorsRG_of_outside hmode _ _ hdecode houtside)
  have hretire := retireRef_of_inRange hscan hwf hdxt hchecks hf hentries hdecode fun p hp hmode => hrange hmode p hp
  obtain ⟨n, rfl⟩ := decodeSeq_advance hdecode
  refine ⟨_, _, hretire, rfl, fun p hp => ?_, fun p hp => runningSelectorsRG_of_notMem _ hp, fun hvisible => ?_,
    fun a ha => ?_⟩
  · obtain ⟨-, hpos⟩ := counts_pos_of_firstCheck hchecks hp
    exact runningSelectorsRG_toNat _ hp hpos
  · exact State.dstHolds_dstAfterBlock (s := s) rfl hvisible
  · refine read_dstAfterBlock (s := s) fun hvisible => ?_
    rw [State.blockRG, length_blockOf hdxt]
    exact ha hvisible

end Sys2Proof.Machine
end

