-- ==== Sys2Proof/Proofs/Housekeeping.lean ====
section
/-! PROOFS. The housekeeping commands `NOP`, `CLR_ERR` and `SOFT_RESET` (spec/45_host_contract.md R321 to R323), the reset
values (spec/10_state.md R48) and the words of `NOP` with a must-be-zero bit set (spec/30_encoding.md R104). -/

namespace Sys2Proof.Machine

/-! ### The reset values (R48) -/

theorem State.reset_model (k : Nat) : State.reset.model k = none := by
  have hslot : State.reset.models[k]? = if k < 8 then some none else none := Vector.getElem?_replicate
  rw [State.model, hslot]
  split <;> rfl

theorem State.reset_status : State.reset.status = 0 := by decide

theorem State.reset_registersReset : State.reset.registersReset :=
  ⟨rfl, rfl, rfl, State.reset_status, rfl, rfl, rfl, rfl, rfl, rfl, rfl, rfl, rfl, rfl, rfl, rfl, rfl, rfl, rfl, rfl, rfl,
    rfl, State.reset_model⟩

/-- A register, flag or slot of the soft-reset machine is that of the machine after hardware reset. -/
theorem State.softReset_registersReset (s : State) : s.softReset.registersReset := State.reset_registersReset

theorem State.softReset_sameMemories (s : State) : s.sameMemories s.softReset :=
  ⟨rfl, rfl, rfl, rfl, rfl, rfl, rfl⟩

/-! ### The commands -/

section
variable (s : State)

theorem exec_softReset : exec .softReset s = .next s.softReset := rfl

theorem hostAccess_hardReset : hostAccess .hardReset s = .next s.hardReset := rfl

theorem exec_clrErr : exec .clrErr s = .next s.clearError := rfl

/-- With `ERR` = 1 the gate ignores the command, and with `ERR` = 0 the command itself does nothing. -/
theorem exec_nop : exec .nop s = .next s := by
  cases herr : s.err with
  | true => exact exec_of_err herr rfl (by decide) (by decide)
  | false => exact gate_open s _ herr

end

/-! ### The words whose `OP` is that of `NOP` (R104) -/

theorem decode_cw_of_opField_nop {w : Nat} (hop : opField w = 0x0D) :
    decode .cw w = whenZero (aField w + bField w) .nop := by
  rw [decode_cw]
  simp only [decodeCommand, hop]

/-- Only the encoding of `NOP` itself is a command. -/
theorem decode_cw_eq_none_of_ne_nop {w : Nat} (hop : opField w = 0x0D) (hne : encode .nop ≠ w) :
    decode .cw w = none := by
  rw [Option.eq_none_iff_forall_ne_some]
  intro i hi
  obtain ⟨-, -, henc⟩ := decode_cw_some hi
  rw [decode_cw_of_opField_nop hop] at hi
  obtain ⟨-, rfl⟩ := whenZero_eq_some.1 hi
  exact hne henc

theorem wordOf_nop_toNat {b : Nat} (hb : b < 2 ^ 24) : (wordOf 0x0D 0 b).toNat = 0x0D * 2 ^ 24 + b := by
  rw [wordOf, BitVec.toNat_ofNat]
  omega

theorem decode_wordOf_nop_eq_none {b : Nat} (hpos : 0 < b) (hb : b < 2 ^ 24) :
    decode .cw (wordOf 0x0D 0 b).toNat = none := by
  rw [wordOf_nop_toNat hb]
  refine decode_cw_eq_none_of_ne_nop ?_ ?_
  · unfold opField
    omega
  · simp only [encode, packWord]
    omega

/-! ### The statements -/

/-- Settles O15: hardware reset is defined as the soft reset without the memories. -/
theorem softResetKeepsTheMemories : Obligations.SoftResetKeepsTheMemories := fun s =>
  ⟨s.softReset, exec_softReset s, s.softReset_registersReset, s.softReset_sameMemories, rfl, rfl, rfl, rfl, rfl,
    hostAccess_hardReset s⟩

/-- Settles O16. -/
theorem clrErrClearsTheError : Obligations.ClrErrClearsTheError := exec_clrErr

/-- Settles O17: a word with the `OP` of `NOP` and a bit of `A` or `B` set decodes to nothing, so it is illegal. -/
theorem nopChangesNothing : Obligations.NopChangesNothing := by
  refine ⟨exec_nop, fun s rest b hpos hb hidle herr hpend => ?_⟩
  rw [step_cmd_of_decode_none hidle hpend (decode_wordOf_nop_eq_none hpos hb)]
  exact illegalCommand_of_not_err _ herr

end Sys2Proof.Machine
end

