-- ==== Sys2Proof/Proofs/ErrorGate.lean ====
section
/-! PROOFS. What a write to `CMD` does while `ERR` is 1 (spec/60_exceptions.md R351): `CLR_ERR` and `SOFT_RESET` have no
gate, and every other word meets it. -/

namespace Sys2Proof.Machine

section
variable {s : State} {rest : List HostAction}

theorem step_write_clrErr (hidle : s.activity = .idle) (hpend : s.pending = .write .reg 0 32 0x0E000000 :: rest) :
    step s = .next { s with pending := rest }.clearError := by
  have hdec : decode .cw (0x0E000000 : Word).toNat = some .clrErr := by decide
  rw [step_cmd_of_decode_some hidle hpend hdec, exec_clrErr]

theorem step_write_softReset (hidle : s.activity = .idle) (hpend : s.pending = .write .reg 0 32 0x0F000000 :: rest) :
    step s = .next { s with pending := rest }.softReset := by
  have hdec : decode .cw (0x0F000000 : Word).toNat = some .softReset := by decide
  rw [step_cmd_of_decode_some hidle hpend hdec, exec_softReset]

end

/-- Settles O6: the two words that pass the gate run their commands; that every other word is ignored is the second half
of O5. -/
theorem errorGateHolds : Obligations.ErrorGateHolds := by
  intro s rest w herr hidle hpend
  refine ⟨?clrErr, ?softReset, ?ignored⟩
  case clrErr =>
    rintro rfl
    exact step_write_clrErr hidle hpend
  case softReset =>
    rintro rfl
    exact ⟨_, step_write_softReset hidle hpend, State.softReset_registersReset _, State.softReset_sameMemories _, rfl⟩
  case ignored =>
    obtain ⟨-, hignored⟩ := illegalWordsRaise s rest w hidle hpend
    exact hignored herr

end Sys2Proof.Machine
end

