-- ==== Sys2Proof/Proofs/HardReset.lean ====
section
/-! PROOFS. The state after reset, and a step in which the host asserts hardware reset
(spec/70_reset_and_hazards.md R380, spec/10_state.md R48, R49). -/

namespace Sys2Proof.Machine

/-! ### What hardware reset leaves -/

/-- With all seven memories empty, no location holds a value. -/
theorem State.memoriesUnwritten_of_eq_nil {t : State} (hsrc : t.src = []) (hdst : t.dst = []) (hcl : t.cl = [])
    (hce : t.ce = []) (hcs : t.cs = []) (hae : t.ae = []) (haSel : t.aSel = []) : t.memoriesUnwritten := by
  intro a
  simp only [hsrc, hdst, hcl, hce, hcs, hae, haSel, Memory.read_nil, and_self]

theorem State.reset_memoriesUnwritten : State.reset.memoriesUnwritten :=
  State.memoriesUnwritten_of_eq_nil rfl rfl rfl rfl rfl rfl rfl

section
variable (s : State)

theorem State.hardReset_memoriesUnwritten : s.hardReset.memoriesUnwritten :=
  State.memoriesUnwritten_of_eq_nil rfl rfl rfl rfl rfl rfl rfl

/-- Registers, flags and slots do not depend on the memories, in which alone the two resets differ. -/
theorem State.hardReset_registersReset : s.hardReset.registersReset := s.softReset_registersReset

end

/-! ### A step with a host access that is no command (R30) -/

section
variable {s : State} {rest : List HostAction}

theorem step_of_commandWord_eq_none {a : HostAction} (hidle : s.activity = .idle) (hpend : s.pending = a :: rest)
    (hword : commandWord a = none) : step s = hostAccess a { s with pending := rest } := by
  simp only [step, hidle, hpend, runHostAction, hword]

/-- Asserting hardware reset is no write to `CMD`, so neither the decoder nor the `ERR` gate stands before it. -/
theorem step_hardReset (hidle : s.activity = .idle) (hpend : s.pending = .hardReset :: rest) :
    step s = .next { s with pending := rest }.hardReset := by
  rw [step_of_commandWord_eq_none hidle hpend rfl, hostAccess_hardReset]

end

/-- Settles O14: the state after reset has the reset values, and a step that asserts hardware reset gives every register,
flag, slot and memory the same values again, whatever the state before it. -/
theorem resetClearsTheRegisters : Obligations.ResetClearsTheRegisters :=
  ⟨State.reset_registersReset, State.reset_memoriesUnwritten, rfl, fun _ _ hidle hpend =>
    ⟨_, step_hardReset hidle hpend, State.hardReset_registersReset _, State.hardReset_memoriesUnwritten _, rfl, rfl,
      rfl⟩⟩

end Sys2Proof.Machine
end

