-- ==== Sys2Proof/Proofs/EncodeDecode.lean ====
section
/-! PROOFS. Encoding and decoding are inverse to each other in all four formats (spec/30_encoding.md R91 to R104, R109,
R112, R114). -/

namespace Sys2Proof.Machine

/-! ### Encode, then decode -/

theorem encode_lt {i : Instr} (hwf : i.wf = true) : encode i < 2 ^ i.fmt.width := by
  cases i
  case getbits n => exact Laws.FieldWidth.getbits n hwf
  case readbits n => exact Laws.FieldWidth.readbits n hwf
  case huffBuild k n => exact Laws.FieldWidth.huffBuild k n hwf
  case huffDecode k => exact Laws.FieldWidth.huffDecode k hwf
  case modelRx k => exact Laws.FieldWidth.modelRx k hwf
  case bootLiteral015 v => exact Laws.FieldWidth.bootLiteral015 v hwf
  all_goals decide

/-- A command word put together from fields that fit has these fields. -/
theorem fields_packWord {op a b : Nat} (ha : a < 2 ^ 8) (hb : b < 2 ^ 16) :
    opField (packWord op a b) = op ∧ aField (packWord op a b) = a ∧ bField (packWord op a b) = b :=
  ⟨opField_packWord ha hb, aField_packWord ha hb, bField_packWord hb⟩

theorem decode_encode {i : Instr} (hwf : i.wf = true) : decode i.fmt (encode i) = some i := by
  cases i
  case getbits n =>
    have hn : n < 64 := of_decide_eq_true hwf
    obtain ⟨hop, ha, hb⟩ := fields_packWord (op := 2) (a := 0) (b := n) (by decide) (by omega)
    simp only [Instr.fmt, decode_cw, encode, decodeCommand, hop, ha, hb]
    exact whenZero_eq_some.2 ⟨by omega, congrArg _ (Nat.mod_eq_of_lt hn)⟩
  case readbits n =>
    have hn : n < 64 := of_decide_eq_true hwf
    obtain ⟨hop, ha, hb⟩ := fields_packWord (op := 3) (a := 0) (b := n) (by decide) (by omega)
    simp only [Instr.fmt, decode_cw, encode, decodeCommand, hop, ha, hb]
    exact whenZero_eq_some.2 ⟨by omega, congrArg _ (Nat.mod_eq_of_lt hn)⟩
  case huffBuild k n =>
    simp only [Instr.wf, Bool.and_eq_true, decide_eq_true_eq] at hwf
    obtain ⟨hk, hn⟩ := hwf
    obtain ⟨hop, ha, hb⟩ := fields_packWord (op := 4) (a := k) (b := n) hk (by omega)
    simp only [Instr.fmt, decode_cw, encode, decodeCommand, hop, ha, hb]
    exact whenZero_eq_some.2 ⟨by omega, congrArg _ (Nat.mod_eq_of_lt hn)⟩
  case huffDecode k =>
    obtain ⟨hop, ha, hb⟩ := fields_packWord (op := 5) (a := k) (b := 0) (of_decide_eq_true hwf) (by decide)
    simp only [Instr.fmt, decode_cw, encode, decodeCommand, hop, ha, hb]
    exact whenZero_eq_some.2 ⟨rfl, rfl⟩
  case modelRx k =>
    obtain ⟨hop, ha, hb⟩ := fields_packWord (op := 6) (a := k) (b := 0) (of_decide_eq_true hwf) (by decide)
    simp only [Instr.fmt, decode_cw, encode, decodeCommand, hop, ha, hb]
    exact whenZero_eq_some.2 ⟨rfl, rfl⟩
  case bootLiteral015 v => exact if_pos (of_decide_eq_true hwf)
  all_goals rfl

/-! ### Decode, then encode -/

section
variable {w : Nat} {i : Instr}

theorem decode_bootsym_some (h : decode .bootsym w = some i) : i.wf = true ∧ i.fmt = .bootsym ∧ encode i = w := by
  simp only [decode, decodeBootSym] at h
  split at h
  case isTrue hlt =>
    cases h
    exact ⟨decide_eq_true hlt, rfl, rfl⟩
  case isFalse =>
    split at h <;> cases h <;> exact ⟨rfl, rfl, rfl⟩

theorem decode_subcode_some (h : decode .subcode w = some i) : i.wf = true ∧ i.fmt = .subcode ∧ encode i = w := by
  simp only [decode, decodeSubcode] at h
  split at h <;> cases h <;> exact ⟨rfl, rfl, rfl⟩

theorem decode_chunkenc_some (h : decode .chunkenc w = some i) :
    i.wf = true ∧ i.fmt = .chunkenc ∧ encode i = w := by
  simp only [decode, decodeChunkEnc] at h
  split at h <;> cases h <;> exact ⟨rfl, rfl, rfl⟩

end

/-! ### The statements -/

/-- Settles O1: an encoding fits its format, and its fields are the operands. -/
theorem decodeEncodeAgree : Obligations.DecodeEncodeAgree := fun _ hwf => ⟨encode_lt hwf, decode_encode hwf⟩

/-- Settles O2: in each format a number decodes by its value alone, and the encoding is that value. -/
theorem encodeDecodeAgree : Obligations.EncodeDecodeAgree := by
  intro f w i h
  cases f with
  | cw =>
    obtain ⟨hfmt, hwf, henc⟩ := decode_cw_some h
    exact ⟨hwf, hfmt, henc⟩
  | bootsym => exact decode_bootsym_some h
  | subcode => exact decode_subcode_some h
  | chunkenc => exact decode_chunkenc_some h

/-- Settles O4: the words are closed numbers, so decoding them is a computation. -/
theorem writtenWordsDecode : Obligations.WrittenWordsDecode := by
  unfold Obligations.WrittenWordsDecode
  decide

end Sys2Proof.Machine
end

