-- ==== Sys2Proof/Proofs/StepRuns.lean ====
section
/-! PROOFS. What a step runs: the command of a write to `CMD` (spec/10_state.md R30), and inside a command the stream's next
event (log 15). -/

namespace Sys2Proof.Machine

/-! ### Inside a command -/

section
variable {s u v t : State} {i : Instr}

theorem step_of_not_idle (hrunning : s.activity ≠ .idle) : step s = stepEvent s := by
  rw [step]
  split
  case h_1 hidle => exact absurd hidle hrunning
  all_goals rfl

theorem stepEvent_of_fetch (hfetch : fetchEvent s = .ok (i, u)) : stepEvent s = afterEvent (exec i u) := by
  rw [stepEvent, hfetch]

theorem afterEvent_next (hretire : retireEvent v = .ok t) : afterEvent (.next v) = .next t := by
  rw [afterEvent, hretire, settle_ok]

end

/-! ### The statements -/

/-- Settles O7. -/
theorem stepRunsTheCommand : Obligations.StepRunsTheCommand := fun _ _ _ _ hidle hpend hdec =>
  step_cmd_of_decode_some hidle hpend hdec

/-- Settles O8: the step is what follows the event, and a fault or a refusal passes through. -/
theorem stepRunsTheStreamEvent : Obligations.StepRunsTheStreamEvent := by
  intro s u i hrunning hfetch
  rw [step_of_not_idle hrunning, stepEvent_of_fetch hfetch]
  refine ⟨fun v t hexec hretire => ?_, fun f hexec => ?_, fun r hexec => ?_⟩
  · rw [hexec, afterEvent_next hretire]
  · rw [hexec, afterEvent]
  · rw [hexec, afterEvent]

/-- Settles O49: the sub-code reaches its block, and the rule it needs is not given. -/
theorem diagonalNeedsItsRule : Obligations.DiagonalNeedsItsRule := by
  intro s g pos rest hrefgrp hscan hrule
  have hbody : refDiagonal s = refuseWith .diagRuleNotGiven := by
    simp only [refDiagonal, applyReference, hrefgrp, hscan, hrule, Bool.false_eq_true, if_false, refuseWith,
      attempt_error_bind]
  rw [exec, execRefDiagonal, eventOutcome, hbody, refuseWith, settle_refuse]

end Sys2Proof.Machine
end

