-- ==== Sys2Proof/Proofs/Status.lean ====
section
/-! PROOFS. The `STATUS` word bit by bit (spec/10_state.md R27 to R29). -/

namespace Sys2Proof.Machine

/-! ### Bits put together -/

theorem sum_toNat_mul_two_pow_lt (f : Nat → Bool) (n : Nat) :
    ((List.range n).map fun k => (f k).toNat * 2 ^ k).sum < 2 ^ n := by
  induction n with
  | zero => exact Nat.one_pos
  | succ n ih =>
    have hterm : (f n).toNat * 2 ^ n ≤ 1 * 2 ^ n := Nat.mul_le_mul_right _ (Bool.toNat_le (f n))
    rw [List.range_succ, List.map_append, List.sum_append, List.map_singleton, List.sum_singleton, Nat.pow_succ]
    omega

/-- A sum of bits at rising places has these bits. -/
theorem testBit_sum_toNat_mul_two_pow (f : Nat → Bool) (n i : Nat) :
    (((List.range n).map fun k => (f k).toNat * 2 ^ k).sum).testBit i = (decide (i < n) && f i) := by
  induction n with
  | zero => simp
  | succ n ih =>
    rw [List.range_succ, List.map_append, List.sum_append, List.map_singleton, List.sum_singleton, Nat.add_comm,
      Nat.mul_comm, Nat.testBit_two_pow_mul_add _ (sum_toNat_mul_two_pow_lt f n), ih, Nat.testBit_bool_toNat]
    rcases lt_trichotomy i n with hi | rfl | hi
    · simp [hi, Nat.lt_succ_of_lt hi]
    · simp
    · have hsub : i - n ≠ 0 := by omega
      have hge : ¬ i < n + 1 := by omega
      simp [Nat.not_lt.2 hi.le, hsub, hge]

/-! ### The word -/

/-- The bits below `MODEL_VALID`. -/
def State.flagBits (s : State) : Nat := s.err.toNat + s.br.valid.toNat * 2

theorem State.flagBits_testBit (s : State) : s.flagBits.testBit 0 = s.err ∧ s.flagBits.testBit 1 = s.br.valid ∧
    s.flagBits < 2 ^ 2 := by
  unfold State.flagBits
  cases s.err <;> cases s.br.valid <;> decide

/-- The flags are the low byte of `STATUS`, the valid bits of the slots the next one. -/
theorem State.status_getLsbD (s : State) {b : Nat} (hb : b < 32) : s.status.getLsbD b =
    if b < 8 then s.flagBits.testBit b else decide (b - 8 < 8) && s.modelValid (b - 8) := by
  obtain ⟨-, -, hflags⟩ := s.flagBits_testBit
  have hmodels : s.modelValidBits.testBit (b - 8) = (decide (b - 8 < 8) && s.modelValid (b - 8)) :=
    testBit_sum_toNat_mul_two_pow s.modelValid numModels (b - 8)
  have hword : s.err.toNat + s.br.valid.toNat * 2 + s.modelValidBits * 2 ^ 8 = 2 ^ 8 * s.modelValidBits + s.flagBits := by
    unfold State.flagBits
    omega
  rw [State.status, BitVec.getLsbD_ofNat, hword, Nat.testBit_two_pow_mul_add _ (by omega), hmodels, decide_eq_true hb,
    Bool.true_and]

/-- Settles O58: bits 0 and 1 are the flags, bits 8 to 15 the slots; no other bit is in either sum. -/
theorem statusShowsTheFlags : Obligations.StatusShowsTheFlags := by
  intro s
  obtain ⟨herr, hvalid, hflags⟩ := s.flagBits_testBit
  refine ⟨?_, ?_, fun k hk => ?_, fun b hb => ?_, rfl, ?_, rfl⟩
  · rw [s.status_getLsbD (by decide), if_pos (by decide), herr]
  · rw [s.status_getLsbD (by decide), if_pos (by decide), hvalid]
  · rw [s.status_getLsbD (by omega), if_neg (by omega), Nat.add_sub_cancel_left, decide_eq_true hk, Bool.true_and]
    rfl
  · rcases Nat.lt_or_ge b 32 with hlt | hge
    · rw [s.status_getLsbD hlt]
      split
      case isTrue hlow =>
        have hle : 2 ^ 2 ≤ 2 ^ b := Nat.pow_le_pow_right (by decide) (by omega)
        exact Nat.testBit_lt_two_pow (hflags.trans_le hle)
      case isFalse hhigh =>
        rw [decide_eq_false (by omega), Bool.false_and]
    · exact BitVec.getLsbD_of_ge _ _ hge
  · exact BitVec.toNat_setWidth_of_le (by decide)

end Sys2Proof.Machine
end

