-- ==== Sys2Proof/Proofs/PrefixCodes.lean ====
section
/-! PROOFS. Prefix-freeness of the codes of a built model (spec/41_huffman_model.md R167), the two-step decode (R172) and
the round trip through a stream of codes (R175). -/

namespace Sys2Proof.Machine

section
variable {n L K p sym : Nat} {lens : List Nat} {m : Model}

/-! ### No code begins another (R167) -/

/-- Settles O30: cut to a shorter length a code lies behind all codes of that length, and two symbols of one length have
their own codes. -/
theorem codesArePrefixFree : Obligations.CodesArePrefixFree := by
  rintro n lens m rfl h a b ha hb hne hused hle heq
  have hcodeA := hasCode_canonicalCode ha
  have hcodeB := hasCode_canonicalCode hb
  rcases hle.eq_or_lt with heqLen | hlt
  · rw [heqLen, Nat.sub_self, Nat.shiftRight_zero] at heq
    rw [← heqLen, heq] at hcodeB
    obtain ⟨-, hgetA⟩ := hasCode_iff.1 hcodeA
    obtain ⟨-, hgetB⟩ := hasCode_iff.1 hcodeB
    exact hne (Option.some.inj (hgetA.symm.trans hgetB))
  · have hend := hcodeB.codeEnd_le_div (Nat.pos_of_ne_zero hused) hlt
    rw [Nat.shiftRight_eq_div_pow] at heq
    rw [heq] at hend
    exact absurd hcodeA.bounds.2 (Nat.not_lt.2 hend)

/-! ### The two-step decode (R172) -/

/-- The ladder passes over the lengths no symbol has. -/
theorem ladder_append_of_count_eq_zero {Ls rest : List Nat} (h : build n lens = .ok m)
    (hunused : ∀ K ∈ Ls, 1 ≤ K ∧ K ≤ 16 ∧ lens.count K = 0) : ladder m p (Ls ++ rest) = ladder m p rest := by
  induction Ls with
  | nil => rfl
  | cons K Ls ih =>
    obtain ⟨⟨h1, h16, h0⟩, hunused⟩ := List.forall_mem_cons.1 hunused
    rw [List.cons_append, ladder, build_row_of_count_eq_zero h h1 h16 h0]
    exact ih hunused

/-- From the least length in use on, the ladder finds what it finds from length 1 on. -/
theorem ladder_from_minLen (h : build n lens = .ok m) :
    ladder m p (codeLengths.filter fun L => decide (m.minLen.getD 1 ≤ L)) = decodePeek m p := by
  cases hmin : m.minLen with
  | none =>
    have hall : ∀ L ∈ codeLengths, decide ((none : Option Nat).getD 1 ≤ L) = true := fun L hL =>
      decide_eq_true (mem_codeLengths.1 hL).1
    rw [List.filter_eq_self.2 hall, decodePeek]
  | some L =>
    obtain ⟨h1, h16, -, hbelow⟩ := (build_minLen_eq_some_iff h).1 hmin
    have hdropped : ∀ K ∈ List.range' 1 (L - 1), ¬ decide ((some L).getD 1 ≤ K) = true := by
      intro K hK
      rw [List.mem_range'_1] at hK
      simp only [Option.getD_some, decide_eq_true_eq]
      omega
    have hkept : ∀ K ∈ L :: List.range' (L + 1) (16 - L), decide ((some L).getD 1 ≤ K) = true := by
      intro K hK
      rw [List.mem_cons, List.mem_range'_1] at hK
      simp only [Option.getD_some, decide_eq_true_eq]
      omega
    rw [decodePeek, codeLengths, maxCodeLen, range'_one_eq_append h1 h16, List.filter_append,
      List.filter_eq_nil_iff.2 hdropped, List.filter_eq_self.2 hkept, List.nil_append,
      ladder_append_of_count_eq_zero h]
    intro K hK
    rw [List.mem_range'_1] at hK
    exact ⟨hK.1, by omega, hbelow K hK.1 (by omega)⟩

/-- A number below the end of some length's codes begins with a code of at most that length. -/
theorem exists_hasCode_of_lt_codeEnd (h1 : 1 ≤ L) (h16 : L ≤ 16) (hlt : p / 2 ^ (16 - L) < codeEnd lens L) :
    ∃ K sym, 1 ≤ K ∧ K ≤ L ∧ HasCode lens sym K (p / 2 ^ (16 - K)) := by
  by_contra hnone
  have hall : ∀ K, 1 ≤ K → K ≤ 16 → ∀ sym, ¬ HasCode lens sym K (p / 2 ^ (16 - K)) := by
    intro K hK hK16 sym hcode
    rcases Nat.lt_or_ge L K with hLK | hKL
    · have hend := hcode.codeEnd_le_div h1 hLK
      rw [div_two_pow_cut hLK.le hK16] at hend
      omega
    · exact hnone ⟨K, sym, hK, hKL, hcode⟩
  exact absurd (codeEnd_le_of_not_hasCode hall h1 h16) (Nat.not_le.2 hlt)

/-- A peek up to `table_max16` begins with a code short enough for the direct table. -/
theorem exists_hasCode_of_le_tableMax16 {top : Nat} (h : build n lens = .ok m) (htop : m.tableMax16 = some top)
    (hp : p ≤ top) : ∃ K sym, 1 ≤ K ∧ K ≤ m.tableBits ∧ HasCode lens sym K (p / 2 ^ (16 - K)) := by
  rw [build_tableMax16 h] at htop
  obtain ⟨L, hL, hmax⟩ := List.exists_of_findSome?_eq_some htop
  rw [List.mem_reverse, List.mem_range'_1] at hL
  obtain ⟨h1, hbits⟩ := hL
  have h11 := build_tableBits_le h
  have h16 : L ≤ 16 := by omega
  rcases Nat.eq_zero_or_pos (lens.count L) with h0 | hpos
  · rw [build_row_of_count_eq_zero h h1 h16 h0] at hmax
    cases hmax
  · rw [build_row_of_count_pos h h1 h16 hpos] at hmax
    cases hmax
    have hend := codeEnd_pos hpos
    have hlast : p / 2 ^ (16 - L) ≤ codeEnd lens L - 1 := le_max16Of_iff.1 hp
    obtain ⟨K, sym, hK, hKL, hcode⟩ := exists_hasCode_of_lt_codeEnd (p := p) (lens := lens) h1 h16 (by omega)
    exact ⟨K, sym, hK, by omega, hcode⟩

/-- The direct table's entry for a peek that begins with a short code. -/
theorem table_getD_of_hasCode (h : build n lens = .ok m) (h1 : 1 ≤ K) (hK : K ≤ m.tableBits) (hp : p < 2 ^ 16)
    (hcode : HasCode lens sym K (p / 2 ^ (16 - K))) :
    m.table.getD (p / 2 ^ (16 - m.tableBits)) sentinel = BitVec.ofNat 32 (sym + K * 2 ^ 16) := by
  have h11 := build_tableBits_le h
  have hindex : p / 2 ^ (16 - m.tableBits) < 2 ^ m.tableBits := by
    rwa [Nat.div_lt_iff_lt_mul (Nat.two_pow_pos _), ← Nat.pow_add, Nat.add_sub_cancel' (by omega)]
  rw [← div_two_pow_cut hK (by omega : m.tableBits ≤ 16)] at hcode
  rw [build_table h, if_neg (by omega), List.getD_eq_getElem?_getD, List.getElem?_map, List.getElem?_range hindex,
    Option.map_some, Option.getD_some, tableEntry_of_hasCode h h1 hK (by omega) hcode]

/-- A packed entry is not the sentinel, and its halves are the symbol and the length. -/
theorem unpack_symbol (hsym : sym ≤ 8192) (hK : K ≤ 16) :
    (BitVec.ofNat 32 (sym + K * 2 ^ 16)).toNat ≠ sentinel.toNat ∧
    (BitVec.ofNat 32 (sym + K * 2 ^ 16)).toNat % 2 ^ 16 = sym ∧
    (BitVec.ofNat 32 (sym + K * 2 ^ 16)).toNat / 2 ^ 16 = K := by
  have hsentinel : sentinel.toNat = 2 ^ 32 - 1 := rfl
  rw [BitVec.toNat_ofNat, hsentinel]
  omega

/-- Settles O31: below `table_max16` the table holds the code the ladder finds; above it the ladder starts at the least
length in use. -/
theorem twoStepDecodeAgrees : Obligations.TwoStepDecodeAgrees := by
  rintro n lens m rfl h p hp
  have hmax : lens.length ≤ 8192 := ((build_ok _ _ _).1 h).2.1
  simp only [decodeTwoStep, ladder_from_minLen h]
  cases htop : m.tableMax16 with
  | none => rfl
  | some top =>
    simp only
    split
    case isFalse => rfl
    case isTrue hdirect =>
      obtain ⟨K, sym, h1, hK, hcode⟩ := exists_hasCode_of_le_tableMax16 h htop hdirect.2
      have h11 := build_tableBits_le h
      have hsym : sym < lens.length := hcode.1
      obtain ⟨hne, hlow, hhigh⟩ := unpack_symbol (sym := sym) (K := K) (by omega) (by omega)
      rw [table_getD_of_hasCode h h1 hK hp hcode, if_neg hne, hlow, hhigh,
        decodePeek_of_hasCode h h1 (by omega) hcode]

end

/-! ### The round trip (R175) -/

section
variable {s : State} {lens : List Nat} {pos n : Nat}

theorem length_natBits (w v : Nat) : (natBits w v).length = w := by
  rw [natBits, List.length_map, List.length_range]

theorem length_codeBits (lens : List Nat) (sym : Nat) : (codeBits lens sym).length = lens.getD sym 0 :=
  length_natBits _ _

/-- A stream holds two runs of bits one after the other. -/
theorem State.holds_append {xs ys : List Nat} : s.holds pos (xs ++ ys) ↔ s.holds pos xs ∧ s.holds (pos + xs.length) ys := by
  simp only [State.holds, List.length_append]
  constructor
  · intro h
    refine ⟨fun i hi => ?_, fun i hi => ?_⟩
    · rw [h i (by omega), List.getD_append _ _ _ _ hi]
    · rw [Nat.add_assoc, h _ (by omega), List.getD_append_right _ _ _ _ (by omega), Nat.add_sub_cancel_left]
  · rintro ⟨hxs, hys⟩ i hi
    rcases Nat.lt_or_ge i xs.length with hlt | hge
    · rw [hxs i hlt, List.getD_append _ _ _ _ hlt]
    · rw [List.getD_append_right _ _ _ _ hge, ← hys (i - xs.length) (by omega)]
      congr 1
      omega

/-- A stream that holds the bits of a number gives the number. -/
theorem State.bitsAt_of_holds {w v : Nat} (h : s.holds pos (natBits w v)) (hv : v < 2 ^ w) : s.bitsAt pos w = v := by
  have hprefix : ∀ k, k ≤ w → s.bitsAt pos k = v / 2 ^ (w - k) := by
    intro k
    induction k with
    | zero =>
      intro _
      rw [State.bitsAt_zero, Nat.sub_zero, Nat.div_eq_of_lt hv]
    | succ k ih =>
      intro hk
      have hbit : s.bitAt (pos + k) = v / 2 ^ (w - 1 - k) % 2 := by
        rw [h k (by rw [length_natBits]; omega), natBits]
        simp [List.getD_eq_getElem?_getD, List.getElem?_range (show k < w from hk)]
      have hexp : w - k = w - 1 - k + 1 := by omega
      rw [State.bitsAt_succ, ih (by omega), hbit, hexp, Nat.pow_succ, ← Nat.div_div_eq_div_mul,
        show w - (k + 1) = w - 1 - k by omega]
      omega
  rw [hprefix w le_rfl, Nat.sub_self, Nat.pow_zero, Nat.div_one]

/-- One decode where the stream holds a symbol's canonical code and the bits looked ahead are written. -/
theorem decodeSym_of_holds {m : Model} {sym : Nat} (h : build n lens = .ok m) (hsym : sym < lens.length)
    (hused : lens.getD sym 0 ≠ 0) (hholds : s.holds s.br.bitpos (codeBits lens sym))
    (hwritten : s.bitsWritten s.br.bitpos 16) :
    decodeSym m s = .ok ((sym, lens.getD sym 0), s.advance (lens.getD sym 0)) := by
  have h16 := getD_le_of_build h sym
  have hpos := Nat.pos_of_ne_zero hused
  have hlt : canonicalCode lens sym < 2 ^ lens.getD sym 0 :=
    (hasCode_canonicalCode hsym).bounds.2.trans_le (codeEnd_le_of_build h hpos h16)
  have hcode := State.bitsAt_of_holds hholds hlt
  rw [State.bitsAt_eq_div hwritten h16] at hcode
  exact (decodeSym_ok _ _ _ _).2
    ⟨_, peekAt_of_bitsWritten hwritten, decodePeek_of_hasCode h hpos h16 ⟨hsym, rfl, hcode.symm⟩, rfl⟩

end

/-- Settles O33: one code after another, each decode leaves the cursor at the next code. -/
theorem roundTripRecoversTheSymbols : Obligations.RoundTripRecoversTheSymbols := by
  rintro n lens m syms s rfl h hsyms hholds hwritten
  induction syms generalizing s with
  | nil => rfl
  | cons sym rest ih =>
    obtain ⟨⟨hsym, hused⟩, hrest⟩ := List.forall_mem_cons.1 hsyms
    rw [List.flatMap_cons] at hholds hwritten
    obtain ⟨hfirst, hothers⟩ := State.holds_append.1 hholds
    rw [length_codeBits] at hothers
    rw [List.length_append, length_codeBits] at hwritten
    have hdecode := decodeSym_of_holds h hsym hused hfirst (hwritten.mono le_rfl (by omega))
    have hmany := ih (s.advance (lens.getD sym 0)) hrest hothers (hwritten.mono (Nat.le_add_right _ _) (by simp; omega))
    rw [List.length_cons, decodeMany, hdecode, attempt_ok_bind]
    simp only [hmany, attempt_ok_bind, State.advance_advance, List.map_cons, List.sum_cons]

end Sys2Proof.Machine
end

