-- ==== Sys2Proof/Proofs/ReaderLimits.lean ====
section
/-! PROOFS. Reads at the limits of the buffer: past its end (spec/40_bit_reader.md R131, R139, R142), and at a bit that
nothing has written (spec/10_state.md R49). -/

namespace Sys2Proof.Machine

/-! ### Past the end of the buffer -/

section
variable {s : State} {n : Nat}

/-- Past the end no byte of `SRC` is needed. -/
theorem bitsWritten_past (hpast : 8 * s.br.len.toNat ≤ s.br.bitpos ∨ n = 0) : s.bitsWritten s.br.bitpos n :=
  fun p hp hlt hbuffer => by omega

theorem bitsAt_past (hpast : 8 * s.br.len.toNat ≤ s.br.bitpos ∨ n = 0) : s.bitsAt s.br.bitpos n = 0 := by
  rcases hpast with hpast | rfl
  · have hpeek := peekAt_of_bitsWritten (bitsWritten_past (n := n) (.inl hpast))
    rw [peekAt_past s s.br.bitpos n hpast] at hpeek
    exact (Except.ok.inj hpeek).symm
  · exact State.bitsAt_zero s _

end

/-- Settles O21: a read past the end is a read of written bits that are all 0. -/
theorem readsPastTheEndGiveZero : Obligations.ReadsPastTheEndGiveZero := by
  intro s n herr hvalid hpast
  refine ⟨fun hn => ?_, fun hn => ?_⟩
  · rw [exec_getbits_of_take herr hn hvalid (take_of_bitsWritten (bitsWritten_past hpast)), bitsAt_past hpast]
    rfl
  · rw [exec_readbits_of_takeLong herr hn hvalid (takeLong_of_bitsWritten (bitsWritten_past hpast)), bitsAt_past hpast]
    rfl

/-! ### A bit nothing has written -/

/-- Bit `q` lies in the buffer, nothing has written it, and the bits from the cursor up to it are written. -/
structure State.FirstUnwritten (s : State) (q : Nat) : Prop where
  le : s.br.bitpos ≤ q
  inBuffer : q / 8 < s.br.len.toNat
  unwritten : Memory.read s.src (s.br.base.toNat + q / 8) = none
  before : s.bitsWritten s.br.bitpos (q - s.br.bitpos)

/-- The fault of a read that reaches bit `q`. -/
def State.faultAt (s : State) (q : Nat) : Halt := .fault (.unwrittenRead .src (s.br.base.toNat + q / 8))

section
variable {s : State} {q n : Nat}

theorem peek_of_firstUnwritten (h : s.FirstUnwritten q) (hq : q < s.br.bitpos + n) :
    peek s n = .error (s.faultAt q) := by
  have hle := h.le
  have hbit : streamBit s q = .error (s.faultAt q) := by
    rw [streamBit, if_pos h.inBuffer, readEntry, h.unwritten, attempt_error_bind, State.faultAt]
  unfold peek
  induction n with
  | zero => omega
  | succ n ih =>
    rw [peekAt]
    rcases Nat.lt_or_ge q (s.br.bitpos + n) with hlt | hge
    · rw [ih hlt, attempt_error_bind]
    · have hlast : s.br.bitpos + n = q := by omega
      rw [peekAt_of_bitsWritten (h.before.mono le_rfl (by omega)), attempt_ok_bind, hlast, hbit, attempt_error_bind]

theorem take_of_firstUnwritten (h : s.FirstUnwritten q) (hq : q < s.br.bitpos + n) :
    take s n = .error (s.faultAt q) := by
  rw [take, peek_of_firstUnwritten h hq, attempt_error_bind]

/-- Reading on before the bit does not change which bit is the first. -/
theorem State.FirstUnwritten.advance (h : s.FirstUnwritten q) (hq : s.br.bitpos + n ≤ q) :
    (s.advance n).FirstUnwritten q :=
  ⟨hq, h.inBuffer, h.unwritten, h.before.mono (Nat.le_add_right _ _) (by simp; omega)⟩

theorem takeLong_of_firstUnwritten (h : s.FirstUnwritten q) (hq : q < s.br.bitpos + n) :
    takeLong s n = .error (s.faultAt q) := by
  rw [takeLong]
  split
  case isTrue => exact take_of_firstUnwritten h hq
  case isFalse hlong =>
    rcases Nat.lt_or_ge q (s.br.bitpos + (n - 16)) with hlt | hge
    · rw [take_of_firstUnwritten h hlt, attempt_error_bind]
    · have hhigh : s.bitsWritten s.br.bitpos (n - 16) := h.before.mono le_rfl (by omega)
      have hlow : take (s.advance (n - 16)) 16 = .error (s.faultAt q) :=
        take_of_firstUnwritten (h.advance hge) (by simp only [State.advance_br]; omega)
      rw [take_of_bitsWritten hhigh, attempt_ok_bind]
      simp only [hlow, attempt_error_bind]

theorem decodeSym_of_firstUnwritten (m : Model) (h : s.FirstUnwritten q) (hq : q < s.br.bitpos + 16) :
    decodeSym m s = .error (s.faultAt q) := by
  rw [decodeSym, peek_of_firstUnwritten h hq, attempt_error_bind]

theorem startModelRx_of_firstUnwritten (k : Nat) (h : s.FirstUnwritten q) (hq : q < s.br.bitpos + 14) :
    startModelRx k s = .error (s.faultAt q) := by
  rw [startModelRx, readCount, countBits, take_of_firstUnwritten h hq, attempt_error_bind, attempt_error_bind]

end

/-- Settles O23: each command begins with a read that reaches the bit. -/
theorem unwrittenSourceFaults : Obligations.UnwrittenSourceFaults := by
  intro s q herr hvalid hle hbuffer hunwritten hbefore
  have hfirst : s.FirstUnwritten q := ⟨hle, hbuffer, hunwritten, hbefore⟩
  have hnotInvalid : ¬ s.br.valid = false := by simp [hvalid]
  have hslot : ∀ {k}, k < 8 → ¬ slotOk k = false := fun hk => by simp [slotOk_of_lt hk]
  refine ⟨fun n hn hq => ?_, fun n hn hq => ?_, fun k hk hm hq => ?_, fun k hk hq => ?_⟩
  · rw [exec, execGetbits, gate_open _ _ herr, if_neg (Nat.not_lt.2 hn), if_neg hnotInvalid,
      take_of_firstUnwritten hfirst hq, attempt_error_bind, State.faultAt, settle_fault]
  · rw [exec, execReadbits, gate_open _ _ herr, if_neg (Nat.not_lt.2 hn), if_neg hnotInvalid,
      takeLong_of_firstUnwritten hfirst hq, attempt_error_bind, State.faultAt, settle_fault]
  · obtain ⟨m, hm⟩ := Option.isSome_iff_exists.1 hm
    rw [exec, execHuffDecode, gate_open _ _ herr, if_neg (hslot hk), if_neg hnotInvalid]
    simp only [hm]
    rw [decodeSym_of_firstUnwritten m hfirst hq, attempt_error_bind, State.faultAt, settle_fault]
  · have hempty : (s.setModel k none).FirstUnwritten q := ⟨hle, hbuffer, hunwritten, hbefore⟩
    rw [exec, execModelRx, gate_open _ _ herr, if_neg (hslot hk), if_neg hnotInvalid,
      startModelRx_of_firstUnwritten k hempty hq, attempt_error_bind, State.faultAt, settle_fault]
    rfl

end Sys2Proof.Machine
end

