-- ==== Sys2Proof/Proofs/UnpackChecks.lean ====
section
/-! PROOFS. The checks of the commands that read a stream: the eight checks of an unpack command against the table of
spec/43_unpack_chunk.md R223, and the reader that must be valid (spec/40_bit_reader.md R134). -/

namespace Sys2Proof.Machine

/-! ### The conditions of the table (R223) -/

section
variable (s : State) (sch : Scheme)

/-- Something about a plane holds of some plane of a list when it holds of one the list has. -/
theorem any_planes (ps : List Plane) (f : Plane → Bool) : ps.any f =
    (ps.contains .c && f .c || (ps.contains .a0 && f .a0 || ps.contains .a1 && f .a1)) := by
  rw [Bool.eq_iff_iff]
  simp only [List.any_eq_true, Bool.or_eq_true, Bool.and_eq_true, List.contains_iff_mem]
  constructor
  · rintro ⟨p, hp, hf⟩
    cases p
    · exact .inl ⟨hp, hf⟩
    · exact .inr (.inl ⟨hp, hf⟩)
    · exact .inr (.inr ⟨hp, hf⟩)
  · rintro (⟨hp, hf⟩ | ⟨hp, hf⟩ | ⟨hp, hf⟩) <;> exact ⟨_, hp, hf⟩

/-- The two alpha planes share their slots and palettes. -/
theorem any_planes_of_alpha (f : Plane → Bool) (halpha : f .a0 = f .a1) :
    (s.planes sch).any f = (s.usesColor sch && f .c || s.usesAlpha sch && f .a0) := by
  rw [any_planes, ← halpha, ← Bool.and_or_distrib_right, State.usesColor, State.usesAlpha]

theorem hasUnpack_eq_false_iff : hasUnpack s.cfg s.fmt = false ↔
    (s.format.toNat == 1 || decide (9 ≤ s.format.toNat)
      || (decide (5 ≤ s.format.toNat) && !s.cfg.etcUnpackGiven)) = true := by
  unfold State.fmt formatOf
  generalize s.format.toNat = n
  split
  case h_10 =>
    simp only [imp_false] at *
    have hreserved : 9 ≤ n := by omega
    simp [hasUnpack, hreserved]
  all_goals simp [hasUnpack]

theorem needSlots_any : (needSlots (s.planes sch)).any (fun k => !s.modelValid k) =
    (!s.modelValid 0 || (s.usesColor sch && (!s.modelValid 1 || !s.modelValid 2))
      || (s.usesAlpha sch && (!s.modelValid 3 || !s.modelValid 4))) := by
  have hplanes := any_planes_of_alpha s sch (fun p => !s.modelValid p.epSlot || !s.modelValid p.selSlot) rfl
  rw [needSlots, List.any_cons, List.any_flatMap, Bool.or_assoc]
  simp only [List.any_cons, List.any_nil, Bool.or_false, Plane.epSlot, Plane.selSlot] at hplanes ⊢
  rw [← hplanes]

theorem counts_any : (s.planes sch).any (fun p => s.epCount p == 0 || s.selCount p == 0) =
    ((s.usesColor sch && (s.ceCount.toNat == 0 || s.csCount.toNat == 0))
      || (s.usesAlpha sch && (s.aeCount.toNat == 0 || s.asCount.toNat == 0))) :=
  any_planes_of_alpha s sch _ rfl

/-! ### The order of the table -/

/-- The first condition that holds is the first of the table or the first of the others. -/
theorem map_find?_cons (b : Bool) (c : Byte) (rest : List (Bool × Byte)) :
    (((b, c) :: rest).find? fun e => e.1).map (fun e => e.2) =
      if b = true then some c else (rest.find? fun e => e.1).map fun e => e.2 := by
  cases b <;> rfl

/-- The model's checks are the conditions of the table, in its order, with its codes. -/
theorem checkUnpack_map_code : (checkUnpack sch s).map ErrCode.code = s.firstCheck sch := by
  have hfaces : s.faces.toNat ≠ 1 ∧ s.faces.toNat ≠ 6 ↔ (s.faces.toNat != 1 && s.faces.toNat != 6) = true := by simp
  have hlevel : s.lvlW.toNat = 0 ∨ s.lvlH.toNat = 0 ↔ (s.lvlW.toNat == 0 || s.lvlH.toNat == 0) = true := by
    rw [Bool.or_eq_true, beq_iff_eq, beq_iff_eq]
  have hsize : s.dstSize.toNat < s.rowPitch.toNat * s.by' ∨ s.cfg.dstMemSize < s.faces.toNat * s.dstSize.toNat ↔
      (decide (s.dstSize.toNat < s.rowPitch.toNat * s.by')
        || decide (s.cfg.dstMemSize < s.faces.toNat * s.dstSize.toNat)) = true := by
    rw [Bool.or_eq_true, decide_eq_true_eq, decide_eq_true_eq]
  simp only [State.firstCheck, State.checkTable, map_find?_cons, List.find?_nil, Option.map_none]
  rw [checkUnpack, needSlots_any, counts_any]
  simp only [apply_ite (Option.map ErrCode.code), Option.map_some, Option.map_none, ErrCode.code]
  refine if_congr (by simp) rfl (if_congr (hasUnpack_eq_false_iff s) rfl (if_congr Iff.rfl rfl
    (if_congr hfaces rfl (if_congr hlevel rfl (if_congr Iff.rfl rfl (if_congr ?_ rfl (if_congr hsize rfl rfl)))))))
  rw [decide_eq_true_eq]

variable {s sch}

theorem checkUnpack_eq_none_iff : checkUnpack sch s = none ↔ s.firstCheck sch = none := by
  rw [← checkUnpack_map_code, Option.map_eq_none_iff]

/-! ### The commands at a check that fails -/

theorem cmdWord_unpackChunk : cmdWord .unpackChunk = wordOf 7 0 0 := rfl

theorem cmdWord_unpackRefgrp : cmdWord .unpackRefgrp = wordOf 8 0 0 := rfl

theorem exec_unpackChunk_of_check {c : ErrCode} (herr : s.err = false) (hcheck : checkUnpack .chunk s = some c) :
    exec .unpackChunk s = .next (s.withError c.code (wordOf 7 0 0)) := by
  rw [exec, execUnpackChunk, gate_open _ _ herr, hcheck]
  simp only [raiseBy_eq_withError, cmdWord_unpackChunk]

theorem exec_unpackRefgrp_of_check {c : ErrCode} (herr : s.err = false) (hcheck : checkUnpack .refgrp s = some c) :
    exec .unpackRefgrp s = .next (s.withError c.code (wordOf 8 0 0)) := by
  rw [exec, execUnpackRefgrp, gate_open _ _ herr, hcheck]
  simp only [raiseBy_eq_withError, cmdWord_unpackRefgrp]

theorem exec_modelRx_of_le {k : Nat} (herr : s.err = false) (hk : 8 ≤ k) :
    exec (.modelRx k) s = .next (rejectModelRx k s .operand) := by
  rw [exec, execModelRx, gate_open _ _ herr, if_pos (slotOk_of_le hk)]

theorem exec_modelRx_of_not_valid {k : Nat} (herr : s.err = false) (hk : k < 8) (hvalid : s.br.valid = false) :
    exec (.modelRx k) s = .next (rejectModelRx k s .brNotStarted) := by
  rw [exec, execModelRx, gate_open _ _ herr, if_neg (by simp [slotOk_of_lt hk]), if_pos hvalid]

theorem rejectedModelRx_rejectModelRx (k : Nat) (s : State) (c : ErrCode) :
    RejectedModelRx k c.code s (rejectModelRx k s c) := rfl

theorem checkUnpack_of_not_valid (sch : Scheme) (hvalid : s.br.valid = false) :
    checkUnpack sch s = some .brNotStarted := if_pos hvalid

end

/-! ### The statements -/

/-- Settles O22: the reader is what each command checks first behind its operand. -/
theorem streamCommandsNeedAReader : Obligations.StreamCommandsNeedAReader := by
  intro s herr hvalid
  refine ⟨fun n hn => exec_getbits_of_not_valid herr hn hvalid, fun n hn => exec_readbits_of_not_valid herr hn hvalid,
    fun k hk => exec_huffDecode_of_not_valid herr hk hvalid, fun k hk => ?_,
    exec_unpackChunk_of_check herr (checkUnpack_of_not_valid _ hvalid),
    exec_unpackRefgrp_of_check herr (checkUnpack_of_not_valid _ hvalid)⟩
  exact ⟨_, exec_modelRx_of_not_valid herr hk hvalid, rejectedModelRx_rejectModelRx k s .brNotStarted⟩

section
variable {s : State} (hwf : s.cfg.wf = true) (hdxt : s.dxtFormat) (sch : Scheme)

include hwf hdxt

/-- A sound configuration gives a format the planes of its block. -/
theorem contains_planes (p : Plane) : (s.planes sch).contains p = (blockPlanes s.fmt).contains p := by
  rw [Bool.eq_iff_iff, List.contains_iff_mem, List.contains_iff_mem, (blockPlanes_perm_planes hwf hdxt sch).mem_iff]

theorem usesColor_eq : s.usesColor sch = (blockPlanes s.fmt).contains .c := contains_planes hwf hdxt sch .c

theorem usesAlpha_eq : s.usesAlpha sch =
    ((blockPlanes s.fmt).contains .a0 || (blockPlanes s.fmt).contains .a1) := by
  rw [State.usesAlpha, contains_planes hwf hdxt sch, contains_planes hwf hdxt sch]

end

/-- Settles O42: the model's checks are the rows of the table, and the planes of a format are those of its block. -/
theorem unpackChecksInOrder : Obligations.UnpackChecksInOrder := by
  intro s herr
  refine ⟨fun c hc => ?_, fun c hc => ?_, checkUnpack_map_code s, fun hwf sch => ?_⟩
  · rw [← checkUnpack_map_code, Option.map_eq_some_iff] at hc
    obtain ⟨e, he, rfl⟩ := hc
    exact exec_unpackChunk_of_check herr he
  · rw [← checkUnpack_map_code, Option.map_eq_some_iff] at hc
    obtain ⟨e, he, rfl⟩ := hc
    exact exec_unpackRefgrp_of_check herr he
  · have hcolor := fun hdxt => usesColor_eq hwf hdxt sch
    have halpha := fun hdxt => usesAlpha_eq hwf hdxt sch
    refine ⟨fun h => ?_, fun h => ?_, fun h => ?_, fun h => ?_⟩
    all_goals
      have hdxt : s.dxtFormat := by simp [State.dxtFormat, h]
      rw [hcolor hdxt, halpha hdxt, State.bpb, State.fmt, formatOf, h]
      decide

end Sys2Proof.Machine
end

