-- ==== Sys2Proof/Proofs/EventFrames.lean ====
section
/-! PROOFS. What one event of a running stream command leaves: the cursor, `DST` in blocks, `CL` from the write offset on
and the transient state, by what is running (spec/42_model_rx.md R198 to R203, spec/43_unpack_chunk.md R221,
spec/44_unpack_refgroup.md R261). -/

namespace Sys2Proof.Machine

/-! ### Runs of writes to `DST` -/

/-- `m'` is `m` after writes of byte strings at addresses that `P` allows. -/
inductive Memory.WrittenBy (P : Nat → List Byte → Prop) : Memory 8 → Memory 8 → Prop where
  | refl (m : Memory 8) : Memory.WrittenBy P m m
  | write {m m' : Memory 8} (h : Memory.WrittenBy P m m') {a : Nat} {bytes : List Byte} (hP : P a bytes) :
      Memory.WrittenBy P m (Memory.writeList m' a bytes)

namespace Memory.WrittenBy

variable {P Q : Nat → List Byte → Prop} {m m' m'' : Memory 8}

theorem trans (h : WrittenBy P m m') (h' : WrittenBy P m' m'') : WrittenBy P m m'' := by
  induction h' with
  | refl => exact h
  | write _ hP ih => exact .write ih hP

theorem mono (hPQ : ∀ a bytes, P a bytes → Q a bytes) (h : WrittenBy P m m') : WrittenBy Q m m' := by
  induction h with
  | refl => exact .refl _
  | write _ hP ih => exact .write ih (hPQ _ _ hP)

theorem keeps_wf (h : WrittenBy P m m') (hwf : Memory.wf m = true) : Memory.wf m' = true := by
  induction h with
  | refl => exact hwf
  | write _ _ ih => exact Memory.writeList_wf _ _ _ ih

theorem keeps_below {size : Nat} (hfits : ∀ a bytes, P a bytes → a + bytes.length ≤ size) (h : WrittenBy P m m')
    (hbelow : Memory.below m size = true) : Memory.below m' size = true := by
  induction h with
  | refl => exact hbelow
  | write _ hP ih => exact Memory.writeList_below _ _ _ _ ih (hfits _ _ hP)

/-- An address outside every write keeps its byte. -/
theorem read_eq {a : Nat} (houtside : ∀ b bytes, P b bytes → a < b ∨ b + bytes.length ≤ a) (h : WrittenBy P m m') :
    Memory.read m' a = Memory.read m a := by
  induction h with
  | refl => rfl
  | write _ hP ih =>
    have := houtside _ _ hP
    rw [Memory.read_writeList, if_neg (by omega), ih]

end Memory.WrittenBy

/-- The writes of a visible block of face `f`: at its address, eight bytes for each plane, inside the memory
(spec/43_unpack_chunk.md R235, spec/20_memory.md R72). -/
def State.blockWrite (s : State) (f a : Nat) (bytes : List Byte) : Prop :=
  ∃ x y, s.visible x y = true ∧ a = s.blockAddr f x y ∧ bytes.length = 8 * (blockPlanes s.fmt).length ∧
    a + bytes.length ≤ s.cfg.dstMemSize

section
variable (s : State) (n f : Nat) (a : Activity) (m : Memory 8)

@[simp] theorem State.advance_blockWrite : (s.advance n).blockWrite f = s.blockWrite f := rfl
@[simp] theorem State.setActivity_blockWrite : (s.setActivity a).blockWrite f = s.blockWrite f := rfl
@[simp] theorem State.setDst_blockWrite : (s.setDst m).blockWrite f = s.blockWrite f := rfl

end

theorem writeBlock_writtenBy {f x y : Nat} {ei si : PlaneRegs} {s t : State}
    (h : writeBlock f x y ei si s = .ok t) :
    ∃ d, Memory.WrittenBy (s.blockWrite f) s.dst d ∧ t = s.setDst d := by
  rcases (writeBlock_ok _ _ _ _ _ _ _).1 h with ⟨-, rfl⟩ | ⟨hvisible, bytes, hbytes, hfits, rfl⟩
  · exact ⟨t.dst, .refl _, rfl⟩
  · exact ⟨_, .write (.refl _) ⟨x, y, hvisible, rfl, partsOf_length _ _ _ _ _ hbytes, hfits⟩, rfl⟩

/-! ### One chunk -/

section
variable {s t u : State} {c c' : ChunkState} {i : Instr}

theorem subBlocks_writtenBy {ks pattern : List Nat} {pos : ChunkPos}
    (h : subBlocks pattern pos c s ks = .ok (c', t)) :
    ∃ n d, Memory.WrittenBy (s.blockWrite pos.f) s.dst d ∧ t = (s.advance n).setDst d ∧ c'.scan = c.scan := by
  induction ks generalizing c s with
  | nil =>
    cases h
    exact ⟨0, _, .refl _, rfl, rfl⟩
  | cons k rest ih =>
    obtain ⟨⟨c1, u⟩, hu, h⟩ := (attempt_bind_ok _ _ _).1 h
    obtain ⟨m, sp, -, rfl, hw⟩ := subBlock_ok _ _ _ _ _ _ _ hu
    obtain ⟨d, hd, rfl⟩ := writeBlock_writtenBy hw
    obtain ⟨n, d', hd', rfl, hscan⟩ := ih h
    refine ⟨m + n, d', hd.trans hd', ?_, hscan⟩
    rw [← State.advance_advance]
    rfl

theorem runTile_writtenBy {e : Nat} (h : runTile e s = .ok t) :
    ∃ c pos rest n d c', s.activity = .chunk c ∧ c.scan = pos :: rest ∧ c'.scan = c.scan ∧
      Memory.WrittenBy (s.blockWrite pos.f) s.dst d ∧ t = ((s.advance n).setDst d).setActivity (.chunk c') := by
  unfold runTile at h
  split at h
  case h_1 | h_2 | h_3 => cases h
  case h_4 c hc =>
    split at h
    case h_1 => cases h
    case h_2 pos rest hpos =>
      obtain ⟨⟨c1, u⟩, hu, h⟩ := (attempt_bind_ok _ _ _).1 h
      obtain ⟨⟨c2, v⟩, hv, h⟩ := (attempt_bind_ok _ _ _).1 h
      cases h
      obtain ⟨⟨m, rfl⟩, ep, tep, rfl⟩ := decodeTileEndpoints_ok _ _ _ _ _ _ hu
      obtain ⟨n, d, hd, rfl, hscan⟩ := subBlocks_writtenBy hv
      exact ⟨c, pos, rest, m + n, d, c2, hc, hpos, hscan, hd, by rw [← State.advance_advance]⟩

/-- A chunk encoding is one of the eight tile patterns. -/
theorem eventBody_of_decode_chunkenc {w : Nat} (h : decode .chunkenc w = some i) :
    ∃ e, e < 8 ∧ ∀ s, eventBody i s = runTile e s := by
  simp only [decode, decodeChunkEnc] at h
  split at h <;> cases h <;> exact ⟨_, by decide, fun _ => rfl⟩

/-- One event of `UNPACK_CHUNK`: the first chunk of the scan, whose face alone is written. -/
theorem oneEvent_chunk_ok (hchunk : s.activity = .chunk c) (h : oneEvent s = .ok t) :
    ∃ pos rest n d c', c.scan = pos :: rest ∧ c'.scan = rest ∧ Memory.WrittenBy (s.blockWrite pos.f) s.dst d ∧
      t = ((s.advance n).setDst d).setActivity (if rest = [] then .idle else .chunk c') := by
  obtain ⟨i, u, v, hfetch, hbody, hretire⟩ := (oneEvent_ok _ _).1 h
  rw [fetchEvent, hchunk] at hfetch
  obtain ⟨ceb, m, -, hdec, rfl⟩ := fetchChunk_ok _ _ _ _ hfetch
  obtain ⟨e, -, heq⟩ := eventBody_of_decode_chunkenc hdec
  rw [heq] at hbody
  obtain ⟨c1, pos, rest, n, d, c2, hc1, hscan, hkept, hd, rfl⟩ := runTile_writtenBy hbody
  cases hc1
  have hscan : c.scan = pos :: rest := hscan
  have htail : c2.scan.tail = rest := by rw [hkept, hscan, List.tail_cons]
  refine ⟨pos, rest, m + n, d, { c2 with scan := rest }, hscan, rfl, hd, ?_⟩
  rw [← State.advance_advance]
  rcases retireChunk_ok _ _ _ hretire with ⟨hlast, rfl⟩ | ⟨hmore, rfl⟩
  · rw [htail] at hlast
    rw [if_pos hlast]
    rfl
  · rw [htail] at hmore ⊢
    rw [if_neg hmore]
    rfl

end

/-! ### One block of the reference-group scheme -/

section
variable {s t u : State} {g g' : RefState} {i : Instr}

theorem diagonal_scan (s : State) (pos : BlockPos) (ps : List Plane) (g : RefState) :
    (diagonal s pos ps g).scan = g.scan := by
  unfold diagonal
  induction ps generalizing g with
  | nil => rfl
  | cons p rest ih => exact ih (diagonalPlane s pos p g)

/-- A sub-code sets the transient registers and moves the cursor; the scan stays. -/
theorem eventBody_of_decode_subcode {w : Nat} (hdec : decode .subcode w = some i) (h : eventBody i s = .ok t) :
    ∃ g n g', s.activity = .refgrp g ∧ g'.scan = g.scan ∧ t = (s.advance n).setActivity (.refgrp g') := by
  have hkeeps : ∀ change, (∀ pos ps g g' u, change pos ps g s = .ok (g', u) → g'.scan = g.scan ∧ ∃ n, u = s.advance n) →
      applyReference change s = .ok t →
      ∃ g n g', s.activity = .refgrp g ∧ g'.scan = g.scan ∧ t = (s.advance n).setActivity (.refgrp g') := by
    intro change hchange h
    obtain ⟨g, pos, rest, g', u, hg, -, hok, rfl⟩ := (applyReference_ok _ _ _).1 h
    obtain ⟨hscan, n, rfl⟩ := hchange _ _ _ _ _ hok
    exact ⟨g, n, cacheIndices (s.planes .refgrp) pos.x g', hg, hscan, rfl⟩
  simp only [decode, decodeSubcode] at hdec
  split at hdec <;> cases hdec <;>
    simp only [eventBody, refFreshDelta, refFromAbove, refDiagonal, refKeepRunning] at h <;> refine hkeeps _ ?_ h <;>
    intro pos ps g g' u hok
  · obtain ⟨hadvance, ep, rfl⟩ := freshDelta_ok _ _ _ _ _ hok
    exact ⟨rfl, hadvance⟩
  · cases hok
    exact ⟨rfl, 0, rfl⟩
  · split at hok
    case isTrue =>
      cases hok
      exact ⟨diagonal_scan s pos ps g, 0, rfl⟩
    case isFalse => cases hok
  · cases hok
    exact ⟨rfl, 0, rfl⟩

theorem retireRef_writtenBy (h : retireRef g s = .ok t) :
    ∃ pos rest n d g', g.scan = pos :: rest ∧ g'.scan = rest ∧ Memory.WrittenBy (s.blockWrite pos.f) s.dst d ∧
      t = ((s.advance n).setDst d).setActivity (if rest = [] then .idle else .refgrp g') := by
  obtain ⟨pos, rest, n, sp, si, d, hscan, -, hwrite, rfl⟩ := retireRef_ok _ _ _ h
  obtain ⟨d', hd', heq⟩ := writeBlock_writtenBy hwrite
  obtain rfl : d = d' := congrArg State.dst heq
  exact ⟨pos, rest, n, d, { g with sp := sp, scan := rest }, hscan, rfl, hd', nextBlock_of_scan hscan⟩

/-- Fetching a sub-code answers the instruction of a sub-code; the scan stays. -/
theorem fetchRef_decode (h : fetchRef g s = .ok (i, t)) :
    ∃ w n g', decode .subcode w = some i ∧ g'.scan = g.scan ∧ t = (s.advance n).setActivity (.refgrp g') := by
  obtain ⟨n, rg, col, diag, ht⟩ := fetchRef_ok _ _ _ _ h
  unfold fetchRef at h
  split at h
  case h_1 => cases h
  case h_2 pos rest hscan =>
    obtain ⟨⟨g1, u⟩, hu, h⟩ := (attempt_bind_ok _ _ _).1 h
    simp only at h
    split at h
    case h_1 j hj =>
      obtain ⟨rfl, -⟩ := Prod.mk.inj (Except.ok.inj h)
      exact ⟨_, n, { g with rg := rg, col := col, diag := diag }, hj, rfl, ht⟩
    case h_2 => cases h

/-- One event of `UNPACK_REFGRP`: the first block of the scan. -/
theorem oneEvent_refgrp_ok (hrefgrp : s.activity = .refgrp g) (h : oneEvent s = .ok t) :
    ∃ pos rest n d g', g.scan = pos :: rest ∧ g'.scan = rest ∧ Memory.WrittenBy (s.blockWrite pos.f) s.dst d ∧
      t = ((s.advance n).setDst d).setActivity (if rest = [] then .idle else .refgrp g') := by
  obtain ⟨i, u, v, hfetch, hbody, hretire⟩ := (oneEvent_ok _ _).1 h
  rw [fetchEvent, hrefgrp] at hfetch
  obtain ⟨w, m, g1, hdec, hscan1, rfl⟩ := fetchRef_decode hfetch
  obtain ⟨g2, n, g3, hg2, hscan3, rfl⟩ := eventBody_of_decode_subcode hdec hbody
  cases hg2
  simp only [retireEvent, State.setActivity_activity] at hretire
  obtain ⟨pos, rest, l, d, g4, hscan, hrest, hd, rfl⟩ := retireRef_writtenBy hretire
  simp only [State.setActivity_blockWrite, State.advance_blockWrite, State.setActivity_dst, State.advance_dst] at hd
  refine ⟨pos, rest, m + n + l, d, g4, ?_, hrest, hd, ?_⟩
  · rw [← hscan1, ← hscan3, hscan]
  · rw [← State.advance_advance, ← State.advance_advance]
    rfl

end

/-! ### One event of `MODEL_RX` -/

section
variable {s t : State} {r : RxState} {i : Instr}

/-- A bootstrap symbol moves the write offset on by at least one, and writes code lengths from the offset on. -/
theorem eventBody_of_decode_bootsym {w : Nat} (hdec : decode .bootsym w = some i) (hrx : s.activity = .rx r)
    (h : eventBody i s = .ok t) : ∃ n k vs, 1 ≤ k ∧ vs.length ≤ k ∧ (r.ofs < r.n → r.ofs + k ≤ r.n) ∧
      t = ((s.advance n).setCl (Memory.writeList s.cl r.ofs vs)).setActivity (.rx { r with ofs := r.ofs + k }) := by
  have hliteral : ∀ v, bootLiteral v s = .ok t → ∃ n k vs, 1 ≤ k ∧ vs.length ≤ k ∧ (r.ofs < r.n → r.ofs + k ≤ r.n) ∧
      t = ((s.advance n).setCl (Memory.writeList s.cl r.ofs vs)).setActivity (.rx { r with ofs := r.ofs + k }) := by
    intro v h
    obtain ⟨r', hr', rfl⟩ := (bootLiteral_ok _ _ _).1 h
    cases hrx.symm.trans hr'
    exact ⟨0, 1, [BitVec.ofNat 8 v], le_rfl, le_rfl, fun h => h, rfl⟩
  have hzero : ∀ least bits, 1 ≤ least → bootZeroRun least bits s = .ok t →
      ∃ n k vs, 1 ≤ k ∧ vs.length ≤ k ∧ (r.ofs < r.n → r.ofs + k ≤ r.n) ∧
      t = ((s.advance n).setCl (Memory.writeList s.cl r.ofs vs)).setActivity (.rx { r with ofs := r.ofs + k }) := by
    intro least bits hleast h
    obtain ⟨r', extra, hr', -, hroom, rfl⟩ := (bootZeroRun_ok _ _ _ _).1 h
    cases hrx.symm.trans hr'
    exact ⟨bits, least + extra, [], by omega, Nat.zero_le _, fun h => by omega, rfl⟩
  have hrepeat : ∀ least bits, 1 ≤ least → bootRepeat least bits s = .ok t →
      ∃ n k vs, 1 ≤ k ∧ vs.length ≤ k ∧ (r.ofs < r.n → r.ofs + k ≤ r.n) ∧
      t = ((s.advance n).setCl (Memory.writeList s.cl r.ofs vs)).setActivity (.rx { r with ofs := r.ofs + k }) := by
    intro least bits hleast h
    obtain ⟨r', extra, prev, hr', -, -, hroom, -, -, rfl⟩ := (bootRepeat_ok _ _ _ _).1 h
    cases hrx.symm.trans hr'
    exact ⟨bits, least + extra, List.replicate (least + extra) prev, by omega, by simp, fun h => by omega, rfl⟩
  simp only [decode, decodeBootSym] at hdec
  split at hdec
  case isTrue =>
    cases hdec
    exact hliteral w h
  case isFalse =>
    split at hdec <;> cases hdec
    · exact hliteral 16 h
    · exact hzero 3 3 (by decide) h
    · exact hzero 11 7 (by decide) h
    · exact hrepeat 3 2 (by decide) h
    · exact hrepeat 7 6 (by decide) h

/-- One event of `MODEL_RX`: the array fills up from the write offset on; once it is full the model is built from it. -/
theorem oneEvent_rx_ok (hrx : s.activity = .rx r) (h : oneEvent s = .ok t) :
    ∃ n k vs, 1 ≤ k ∧ vs.length ≤ k ∧ (r.ofs < r.n → r.ofs + k ≤ r.n) ∧
      ((r.ofs + k < r.n ∧ t = ((s.advance n).setCl (Memory.writeList s.cl r.ofs vs)).setActivity
          (.rx { r with ofs := r.ofs + k })) ∨
       (r.n ≤ r.ofs + k ∧ ∃ lens m, lens.length = r.n ∧ build r.n lens = .ok m ∧
        t = (((s.advance n).setCl (Memory.writeList s.cl r.ofs vs)).install r.slot r.n m).setActivity .idle)) := by
  obtain ⟨i, u, v, hfetch, hbody, hretire⟩ := (oneEvent_ok _ _).1 h
  rw [fetchEvent, hrx] at hfetch
  obtain ⟨p, sym, len, -, -, hdec, rfl⟩ := fetchBoot_ok _ _ _ _ hfetch
  obtain ⟨n, k, vs, hk, hvs, hroom, rfl⟩ := eventBody_of_decode_bootsym (s := s.advance len) hdec hrx hbody
  refine ⟨len + n, k, vs, hk, hvs, hroom, ?_⟩
  rw [← State.advance_advance]
  have hretire : retireBoot { r with ofs := r.ofs + k } _ = .ok t := hretire
  rw [retireBoot] at hretire
  split at hretire
  case isTrue hmore =>
    cases hretire
    exact .inl ⟨hmore, rfl⟩
  case isFalse hfull =>
    obtain ⟨lens, m, -, hlen, hbuild, rfl⟩ := finishModelRx_ok _ _ _ hretire
    exact .inr ⟨Nat.not_lt.1 hfull, lens, m, hlen, hbuild, rfl⟩

end

end Sys2Proof.Machine
end

