-- ==== Sys2Proof/Proofs/CommandRuns.lean ====
section
/-! PROOFS. A stream command is the run of its events (spec/20_memory.md R75, spec/70_reset_and_hazards.md R396): each event
leaves fewer to come, so the run ends, and what the run leaves is put together from its events. -/

namespace Sys2Proof.Machine

/-! ### A run ends -/

/-- A bound on the events still to come: code lengths, chunks or blocks. -/
def State.eventsLeft (s : State) : Nat :=
  match s.activity with
  | .idle => 0
  | .rx r => r.n - r.ofs
  | .chunk c => c.scan.length
  | .refgrp g => g.scan.length

/-- No command is running, or the running one has an event to come. -/
def State.proper (s : State) : Prop := s.activity = .idle ∨ 0 < s.eventsLeft

section
variable {s t u : State}

/-- After an event the command has ended, or it has fewer events to come, and one at least. -/
theorem oneEvent_eventsLeft (hrunning : s.activity ≠ .idle) (h : oneEvent s = .ok u) :
    u.activity = .idle ∨ (0 < u.eventsLeft ∧ u.eventsLeft < s.eventsLeft) := by
  cases hs : s.activity with
  | idle => exact absurd hs hrunning
  | rx r =>
    obtain ⟨n, k, vs, hk, -, -, ⟨hmore, rfl⟩ | ⟨-, lens, m, -, -, rfl⟩⟩ := oneEvent_rx_ok hs h
    · right
      simp only [State.eventsLeft, hs, State.setActivity_activity]
      omega
    · exact .inl rfl
  | chunk c =>
    obtain ⟨pos, rest, n, d, c', hscan, rfl, -, rfl⟩ := oneEvent_chunk_ok hs h
    by_cases hlast : c'.scan = []
    · exact .inl (if_pos hlast)
    · have hpos := List.length_pos_iff.2 hlast
      right
      simp only [State.eventsLeft, hs, State.setActivity_activity, if_neg hlast, hscan, List.length_cons]
      omega
  | refgrp g =>
    obtain ⟨pos, rest, n, d, g', hscan, rfl, -, rfl⟩ := oneEvent_refgrp_ok hs h
    by_cases hlast : g'.scan = []
    · exact .inl (if_pos hlast)
    · have hpos := List.length_pos_iff.2 hlast
      right
      simp only [State.eventsLeft, hs, State.setActivity_activity, if_neg hlast, hscan, List.length_cons]
      omega

theorem runEvents_of_idle (bound : Nat) (hidle : s.activity = .idle) : runEvents s bound = .ok s := by
  cases bound with
  | zero => rfl
  | succ b => rw [runEvents, hidle]

theorem runEvents_of_running (bound : Nat) (hrunning : s.activity ≠ .idle) :
    runEvents s (bound + 1) = oneEvent s >>= fun u => runEvents u bound := by
  rw [runEvents]
  split
  case h_1 hidle => exact absurd hidle hrunning
  all_goals rfl

theorem eventRun_of_idle (hidle : s.activity = .idle) : EventRun s t ↔ t = s := by
  constructor
  · intro h
    cases h with
    | ended => rfl
    | event _ _ _ hrunning => exact absurd hidle hrunning
  · rintro rfl
    exact .ended _ hidle

theorem eventRun_of_running (hrunning : s.activity ≠ .idle) :
    EventRun s t ↔ ∃ u, oneEvent s = .ok u ∧ EventRun u t := by
  constructor
  · intro h
    cases h with
    | ended _ hidle => exact absurd hidle hrunning
    | event _ u _ _ hu ht => exact ⟨u, hu, ht⟩
  · rintro ⟨u, hu, ht⟩
    exact .event s u t hrunning hu ht

/-- With a bound of at least the events to come, the bound is never what stops the run. -/
theorem runEvents_eq_ok_iff {bound : Nat} (hproper : s.proper) (hbound : s.eventsLeft ≤ bound) :
    runEvents s bound = .ok t ↔ EventRun s t := by
  induction bound generalizing s with
  | zero =>
    have hidle : s.activity = .idle := hproper.resolve_right (by omega)
    rw [runEvents_of_idle 0 hidle, eventRun_of_idle hidle, Except.ok.injEq, eq_comm]
  | succ b ih =>
    by_cases hidle : s.activity = .idle
    · rw [runEvents_of_idle _ hidle, eventRun_of_idle hidle, Except.ok.injEq, eq_comm]
    · rw [runEvents_of_running b hidle, attempt_bind_ok, eventRun_of_running hidle]
      refine exists_congr fun u => and_congr_right fun hu => ?_
      rcases oneEvent_eventsLeft hidle hu with hended | ⟨hpos, hlt⟩
      · have hzero : u.eventsLeft = 0 := by rw [State.eventsLeft, hended]
        exact ih (.inl hended) (by omega)
      · exact ih (.inr hpos) (by omega)

theorem eventsLeft_le_eventBound (s : State) : s.eventsLeft ≤ eventBound s := by
  unfold State.eventsLeft eventBound
  cases s.activity with
  | rx r => exact Nat.sub_le _ _
  | idle | chunk | refgrp => exact le_rfl

theorem runToEnd_eq_ok_iff (hproper : s.proper) : runToEnd s = .ok t ↔ EventRun s t :=
  runEvents_eq_ok_iff hproper (eventsLeft_le_eventBound s)

end

/-! ### The unpack commands, both schemes at once -/

/-- The command of a scheme. -/
def unpackInstr : Scheme → Instr
  | .chunk => .unpackChunk
  | .refgrp => .unpackRefgrp

/-- The state in which a scheme's events start. -/
def State.startUnpack (s : State) : Scheme → State
  | .chunk => s.setActivity (.chunk (initChunk s))
  | .refgrp => s.setActivity (.refgrp (initRefgrp s))

section
variable {s t : State} {sch : Scheme}

theorem exec_unpackInstr (sch : Scheme) (s : State) : exec (unpackInstr sch) s = gate s fun s =>
    match checkUnpack sch s with
    | some c => raiseBy (unpackInstr sch) c s
    | none => settle (failUnpack (unpackInstr sch) s)
        (if isEtc s.fmt then runEtc sch s else runToEnd (s.startUnpack sch)) := by
  cases sch <;> rfl

/-- The level has a block. -/
theorem level_pos (hchecks : s.firstCheck sch = none) : 0 < s.faces.toNat ∧ 0 < s.bx ∧ 0 < s.by' := by
  obtain ⟨-, -, -, hfaces, hw, hh, -⟩ := (checkUnpack_none sch s).1 (checkUnpack_eq_none_iff.2 hchecks)
  unfold State.bx State.by' ceilDiv
  omega

/-- Behind the checks the scan is not empty. -/
theorem startUnpack_proper (hchecks : s.firstCheck sch = none) : (s.startUnpack sch).proper := by
  obtain ⟨hfaces, hbx, hby⟩ := level_pos hchecks
  refine .inr ?_
  cases sch with
  | chunk =>
    have hlen : (s.startUnpack .chunk).eventsLeft = s.faces.toNat * s.cy * s.cx := length_chunkScan _ _ _
    have hcx : 0 < s.cx := by unfold State.cx ceilDiv; omega
    have hcy : 0 < s.cy := by unfold State.cy ceilDiv; omega
    rw [hlen]
    positivity
  | refgrp =>
    have hlen : (s.startUnpack .refgrp).eventsLeft = s.faces.toNat * s.h2 * s.w2 := length_blockScan _ _ _
    have hw : 0 < s.w2 := by unfold State.w2 ceilDiv; omega
    have hh : 0 < s.h2 := by unfold State.h2 ceilDiv; omega
    rw [hlen]
    positivity

/-- A format with unpack semantics that is not handed to `EtcUnpack` is one the spec gives a reconstruction. -/
theorem dxtFormat_of_not_isEtc (hchecks : s.firstCheck sch = none) (hetc : isEtc s.fmt = false) : s.dxtFormat := by
  obtain ⟨-, hunpack, -⟩ := (checkUnpack_none sch s).1 (checkUnpack_eq_none_iff.2 hchecks)
  unfold State.dxtFormat
  unfold State.fmt formatOf at hunpack hetc
  generalize s.format.toNat = n at hunpack hetc ⊢
  split at hunpack <;> simp_all [hasUnpack, isEtc]

theorem isEtc_of_dxtFormat (hdxt : s.dxtFormat) : isEtc s.fmt = false := by
  rcases fmt_of_dxtFormat hdxt with h | h | h | h <;> rw [h] <;> rfl

/-- Behind the gate and the checks, in a `DXT` format, the command is the run of its events. -/
theorem exec_unpackInstr_of_checks (herr : s.err = false) (hchecks : s.firstCheck sch = none) (hdxt : s.dxtFormat) :
    exec (unpackInstr sch) s = settle (failUnpack (unpackInstr sch) s) (runToEnd (s.startUnpack sch)) := by
  rw [exec_unpackInstr, gate_open _ _ herr, checkUnpack_eq_none_iff.2 hchecks]
  simp only [isEtc_of_dxtFormat hdxt, Bool.false_eq_true, if_false]

end

/-! ### What the events of an unpack command leave -/

/-- A write of a block of the level: visible, at its address, `BPB` bytes, inside the memory. -/
def State.levelWrite (s : State) (a : Nat) (bytes : List Byte) : Prop :=
  ∃ f x y, f < s.faces.toNat ∧ s.visible x y = true ∧ a = s.blockAddr f x y ∧ bytes.length = s.bpb ∧
    a + bytes.length ≤ s.cfg.dstMemSize

/-- An unpack command is running and its scan stays inside the level's faces, or none is running. -/
def State.scansLevel (s : State) : Prop :=
  match s.activity with
  | .idle => True
  | .rx _ => False
  | .chunk c => ∀ pos ∈ c.scan, pos.f < s.faces.toNat
  | .refgrp g => ∀ pos ∈ g.scan, pos.f < s.faces.toNat

section
variable {s t u : State} {sch : Scheme}

theorem levelWrite_of_blockWrite (hdxt : s.dxtFormat) {f a : Nat} {bytes : List Byte} (hf : f < s.faces.toNat)
    (h : s.blockWrite f a bytes) : s.levelWrite a bytes := by
  obtain ⟨x, y, hvisible, ha, hlength, hfits⟩ := h
  exact ⟨f, x, y, hf, hvisible, ha, hlength.trans (bpb_eq_of_dxtFormat hdxt).symm, hfits⟩

/-- An event of an unpack command moves the cursor and writes blocks of the level; the scan stays inside it. -/
theorem oneEvent_unpack (hdxt : s.dxtFormat) (hscan : s.scansLevel) (hrunning : s.activity ≠ .idle)
    (h : oneEvent s = .ok u) : ∃ n d a, u = ((s.advance n).setDst d).setActivity a ∧ u.scansLevel ∧
      Memory.WrittenBy s.levelWrite s.dst d := by
  unfold State.scansLevel at hscan
  cases hs : s.activity with
  | idle => exact absurd hs hrunning
  | rx r =>
    rw [hs] at hscan
    exact hscan.elim
  | chunk c =>
    have hscan : ∀ pos ∈ c.scan, pos.f < s.faces.toNat := by rwa [hs] at hscan
    obtain ⟨pos, rest, n, d, c', hc, hrest, hd, rfl⟩ := oneEvent_chunk_ok hs h
    obtain ⟨hf, hothers⟩ := List.forall_mem_cons.1 (hc ▸ hscan)
    refine ⟨n, d, _, rfl, ?_, hd.mono fun _ _ => levelWrite_of_blockWrite hdxt hf⟩
    unfold State.scansLevel
    rw [State.setActivity_activity]
    split_ifs
    · trivial
    · have hkept : ∀ pos ∈ c'.scan, pos.f < s.faces.toNat := by rwa [hrest]
      exact hkept
  | refgrp g =>
    have hscan : ∀ pos ∈ g.scan, pos.f < s.faces.toNat := by rwa [hs] at hscan
    obtain ⟨pos, rest, n, d, g', hg, hrest, hd, rfl⟩ := oneEvent_refgrp_ok hs h
    obtain ⟨hf, hothers⟩ := List.forall_mem_cons.1 (hg ▸ hscan)
    refine ⟨n, d, _, rfl, ?_, hd.mono fun _ _ => levelWrite_of_blockWrite hdxt hf⟩
    unfold State.scansLevel
    rw [State.setActivity_activity]
    split_ifs
    · trivial
    · have hkept : ∀ pos ∈ g'.scan, pos.f < s.faces.toNat := by rwa [hrest]
      exact hkept

/-- So does a run of them, and it ends with no command running. -/
theorem EventRun.unpack (h : EventRun s t) (hdxt : s.dxtFormat) (hscan : s.scansLevel) :
    ∃ n d, t = ((s.advance n).setDst d).setActivity .idle ∧ Memory.WrittenBy s.levelWrite s.dst d := by
  induction h with
  | ended s hidle => exact ⟨0, s.dst, by rw [← hidle]; rfl, .refl _⟩
  | event s u t hrunning hu _ ih =>
    obtain ⟨m, d, a, rfl, hscan', hd⟩ := oneEvent_unpack hdxt hscan hrunning hu
    obtain ⟨n, d', rfl, hd'⟩ := ih hdxt hscan'
    refine ⟨m + n, d', ?_, hd.trans hd'⟩
    rw [← State.advance_advance]
    rfl

theorem startUnpack_scansLevel (s : State) (sch : Scheme) : (s.startUnpack sch).scansLevel := by
  cases sch with
  | chunk => exact fun pos hpos => ((mem_chunkScan _ _ _ pos).1 hpos).1
  | refgrp => exact fun pos hpos => ((mem_blockScan _ _ _ pos).1 hpos).1

/-- A reconstruction by an `EtcUnpack` writes blocks of the level alone. -/
theorem runProgram_writtenBy {prog : EtcProgram} (h : runProgram prog s = .ok t) :
    ∃ n d, t = (s.advance n).setDst d ∧ Memory.WrittenBy s.levelWrite s.dst d := by
  induction prog generalizing s with
  | done =>
    cases h
    exact ⟨0, t.dst, rfl, .refl _⟩
  | fail c => cases h
  | decode k next ih =>
    obtain ⟨⟨v, u⟩, hu, h⟩ := (attempt_bind_ok _ _ _).1 h
    obtain ⟨m, rfl⟩ := decodeSlot_advance _ _ _ _ hu
    obtain ⟨n, d, rfl, hd⟩ := ih _ h
    exact ⟨m + n, d, by rw [State.advance_advance], hd⟩
  | peek n next ih =>
    obtain ⟨v, -, h⟩ := (attempt_bind_ok _ _ _).1 h
    exact ih _ h
  | skip m next ih =>
    obtain ⟨n, d, rfl, hd⟩ := ih h
    exact ⟨m + n, d, by rw [State.advance_advance], hd⟩
  | entry pal i next ih =>
    simp only [runProgram] at h
    split at h
    · cases h
    · obtain ⟨v, -, h⟩ := (attempt_bind_ok _ _ _).1 h
      exact ih _ h
  | block f x y bytes next ih =>
    obtain ⟨u, hu, h⟩ := (attempt_bind_ok _ _ _).1 h
    obtain ⟨n, d, rfl, hd⟩ := ih h
    rcases (writeEtcBlock_ok _ _ _ _ _ _).1 hu with ⟨-, rfl⟩ | ⟨hf, hvisible, hfits, rfl⟩
    · exact ⟨n, d, rfl, hd⟩
    · have hlength : ((List.range s.bpb).map bytes).length = s.bpb := by simp
      exact ⟨n, d, rfl, .trans (.write (.refl _) ⟨f, x, y, hf, hvisible, rfl, hlength, hlength.symm ▸ hfits⟩) hd⟩

/-- What an unpack command that ends without an error leaves. -/
def State.UnpackedTo (s t : State) : Prop :=
  ∃ n d a, t = ((s.advance n).setDst d).setActivity a ∧ (a = .idle ∨ a = s.activity) ∧
    Memory.WrittenBy s.levelWrite s.dst d

/-- An unpack command is ignored, fails a check, unpacks, or fails. -/
theorem exec_unpackInstr_next (h : exec (unpackInstr sch) s = .next t) :
    (s.err = true ∧ t = s) ∨
    (s.err = false ∧
      ((∃ c, s.firstCheck sch ≠ none ∧ t = s.raiseError (cmdWord (unpackInstr sch)) c) ∨
       (s.firstCheck sch = none ∧ s.UnpackedTo t) ∨
       (s.firstCheck sch = none ∧ ∃ c, t = failUnpack (unpackInstr sch) s c))) := by
  rw [exec_unpackInstr] at h
  rcases (gate_next _ _ _).1 h with h | ⟨herr, h⟩
  · exact .inl h
  refine .inr ⟨herr, ?_⟩
  split at h
  case h_1 c hc =>
    have hcheck : s.firstCheck sch ≠ none := fun h => by rw [checkUnpack_eq_none_iff.2 h] at hc; cases hc
    exact .inl ⟨c, hcheck, ((raiseBy_next _ _ _ _).1 h).symm⟩
  case h_2 hc =>
    have hchecks := checkUnpack_eq_none_iff.1 hc
    rcases (settle_next _ _ _).1 h with h | ⟨c, -, rfl⟩
    · refine .inr (.inl ⟨hchecks, ?_⟩)
      cases hetc : isEtc s.fmt with
      | true =>
        rw [hetc, if_pos rfl] at h
        obtain ⟨n, d, rfl, hd⟩ := runProgram_writtenBy h
        exact ⟨n, d, s.activity, rfl, .inr rfl, hd⟩
      | false =>
        rw [hetc, if_neg Bool.false_ne_true, runToEnd_eq_ok_iff (startUnpack_proper hchecks)] at h
        have hdxt := dxtFormat_of_not_isEtc hchecks hetc
        cases sch with
        | chunk =>
          obtain ⟨n, d, rfl, hd⟩ := h.unpack hdxt (startUnpack_scansLevel s .chunk)
          exact ⟨n, d, .idle, rfl, .inl rfl, hd⟩
        | refgrp =>
          obtain ⟨n, d, rfl, hd⟩ := h.unpack hdxt (startUnpack_scansLevel s .refgrp)
          exact ⟨n, d, .idle, rfl, .inl rfl, hd⟩
    · exact .inr (.inr ⟨hchecks, c, rfl⟩)

end

/-! ### What the events of `MODEL_RX` leave -/

/-- `CL` stays canonical and inside its space. -/
def ClKept (l l' : Memory 8) : Prop :=
  (Memory.wf l = true → Memory.wf l' = true) ∧ (Memory.below l maxSyms = true → Memory.below l' maxSyms = true)

/-- What a `MODEL_RX` into slot `k` that ends without an error leaves: the slot holds the model built of `n` lengths. -/
def State.ReceivedTo (k n : Nat) (s t : State) : Prop :=
  ∃ b l lens m, t = { s with
      br := { s.br with bitpos := s.br.bitpos + b }, cl := l, models := s.models.setIfInBounds k (some m)
      clCount := BitVec.ofNat 14 n, activity := .idle } ∧
    lens.length = n ∧ build n lens = .ok m ∧ ClKept s.cl l

section
variable {s t u : State} {r : RxState} {k : Nat}

theorem State.ReceivedTo.err {n : Nat} (h : s.ReceivedTo k n t) : t.err = s.err := by
  obtain ⟨b, l, lens, m, rfl, -⟩ := h
  rfl

theorem ClKept.writeList {l : Memory 8} {a : Nat} {vs : List Byte} (hle : a + vs.length ≤ maxSyms) :
    ClKept l (Memory.writeList l a vs) :=
  ⟨Memory.writeList_wf _ _ _, fun h => Memory.writeList_below _ _ _ _ h hle⟩

theorem ClKept.trans {l l' l'' : Memory 8} (h : ClKept l l') (h' : ClKept l' l'') : ClKept l l'' :=
  ⟨h'.1 ∘ h.1, h'.2 ∘ h.2⟩

theorem EventRun.received (h : EventRun s t) (hrx : s.activity = .rx r) (hofs : r.ofs < r.n) (hn : r.n ≤ maxSyms) :
    s.ReceivedTo r.slot r.n t := by
  induction h generalizing r with
  | ended s hidle =>
    rw [hidle] at hrx
    cases hrx
  | event s u t _ hu ht ih =>
    obtain ⟨n, k, vs, -, hvs, hroom, hcases⟩ := oneEvent_rx_ok hrx hu
    have hkept : ClKept s.cl (Memory.writeList s.cl r.ofs vs) := .writeList (by have := hroom hofs; omega)
    rcases hcases with ⟨hmore, rfl⟩ | ⟨-, lens, m, hlen, hbuild, rfl⟩
    · obtain ⟨b, l, lens, m, rfl, hlen, hbuild, hkept'⟩ := ih rfl hmore hn
      refine ⟨n + b, l, lens, m, ?_, hlen, hbuild, hkept.trans hkept'⟩
      rw [← Nat.add_assoc]
      rfl
    · obtain rfl := (eventRun_of_idle rfl).1 ht
      refine ⟨n, Memory.writeList s.cl r.ofs vs, lens, m, ?_, hlen, hbuild, hkept⟩
      simp only [State.install, State.setModel, State.setCl, State.advance, State.setActivity]

/-- Behind its header `MODEL_RX` has a symbol to receive. -/
theorem startModelRx_proper (h : startModelRx k s = .ok u) : u.proper := by
  obtain ⟨n, boot, bits, bl, hpos, -, -, -, rfl⟩ := startModelRx_ok _ _ _ h
  exact .inr hpos

/-- A received model: the header and the run of the events. -/
theorem received_of_startModelRx (hstart : startModelRx k (s.setModel k none) = .ok u) (hrun : EventRun u t) :
    ∃ n, 0 < n ∧ n ≤ maxSyms ∧ s.ReceivedTo k n t := by
  obtain ⟨n, boot, bits, bl, hpos, hn, -, -, rfl⟩ := startModelRx_ok _ _ _ hstart
  obtain ⟨b, l, lens, m, rfl, hlen, hbuild, hkept⟩ := hrun.received rfl hpos hn
  have hfill : ClKept s.cl (Memory.fillBelow s.cl n fun _ => 0) :=
    ⟨Memory.fillBelow_wf _ _ _, fun h => Memory.fillBelow_below _ _ _ _ h hn⟩
  refine ⟨n, hpos, hn, bits + b, l, lens, m, ?_, hlen, hbuild, hfill.trans hkept⟩
  have hslot : (s.models.setIfInBounds k none).setIfInBounds k (some m) = s.models.setIfInBounds k (some m) := by
    ext i hi
    simp only [Vector.getElem_setIfInBounds]
    split <;> rfl
  simp only [State.setModel, State.setCl, State.advance, State.setActivity, hslot, Nat.add_assoc]

/-- `MODEL_RX` is ignored, fails one of its two checks, receives a model, or fails. -/
theorem exec_modelRx_next (h : exec (.modelRx k) s = .next t) :
    (s.err = true ∧ t = s) ∨
    (s.err = false ∧
      ((8 ≤ k ∧ t = rejectModelRx k s .operand) ∨
       (k < 8 ∧ s.br.valid = false ∧ t = rejectModelRx k s .brNotStarted) ∨
       (k < 8 ∧ s.br.valid = true ∧ ∃ n, 0 < n ∧ n ≤ maxSyms ∧ s.ReceivedTo k n t) ∨
       (k < 8 ∧ s.br.valid = true ∧ ∃ c, t = failModelRx k s c))) := by
  rcases execModelRx_next k s t h with h | ⟨herr, h | h | ⟨hk, hvalid, ⟨u, hu, hrun⟩ | hfail⟩⟩
  · exact .inl h
  · exact .inr ⟨herr, .inl h⟩
  · exact .inr ⟨herr, .inr (.inl h)⟩
  · rw [runToEnd_eq_ok_iff (startModelRx_proper hu)] at hrun
    exact .inr ⟨herr, .inr (.inr (.inl ⟨hk, hvalid, received_of_startModelRx hu hrun⟩))⟩
  · exact .inr ⟨herr, .inr (.inr (.inr ⟨hk, hvalid, hfail⟩))⟩

end

/-! ### The statement -/

section
variable {s t u : State}

theorem EventRun.err_of_unpack (h : EventRun s t) (hdxt : s.dxtFormat) (hscan : s.scansLevel) : t.err = s.err := by
  obtain ⟨n, d, rfl, -⟩ := h.unpack hdxt hscan
  rfl

/-- A `DXT` unpack that ends without an error is the run of its events. -/
theorem exec_unpackInstr_iff_eventRun {sch : Scheme} (herr : s.err = false) (hdxt : s.dxtFormat)
    (hchecks : s.firstCheck sch = none) :
    (exec (unpackInstr sch) s = .next t ∧ t.err = false) ↔ EventRun (s.startUnpack sch) t := by
  rw [exec_unpackInstr_of_checks herr hchecks hdxt, settle_next, runToEnd_eq_ok_iff (startUnpack_proper hchecks)]
  constructor
  · rintro ⟨h | ⟨c, -, rfl⟩, hok⟩
    · exact h
    · cases hok
  · intro h
    refine ⟨.inl h, ?_⟩
    cases sch with
    | chunk => exact (h.err_of_unpack hdxt (startUnpack_scansLevel s .chunk)).trans herr
    | refgrp => exact (h.err_of_unpack hdxt (startUnpack_scansLevel s .refgrp)).trans herr

theorem exec_modelRx_iff_eventRun {k : Nat} (herr : s.err = false) (hk : k < 8) (hvalid : s.br.valid = true)
    (hstart : startModelRx k (s.setModel k none) = .ok u) :
    (exec (.modelRx k) s = .next t ∧ t.err = false) ↔ EventRun u t := by
  rw [exec, execModelRx, gate_open _ _ herr, if_neg (by simp [slotOk_of_lt hk]), if_neg (by simp [hvalid]), hstart,
    attempt_ok_bind, settle_next, runToEnd_eq_ok_iff (startModelRx_proper hstart)]
  constructor
  · rintro ⟨h | ⟨c, -, rfl⟩, hok⟩
    · exact h
    · cases hok
  · intro h
    obtain ⟨n, -, -, hreceived⟩ := received_of_startModelRx hstart h
    exact ⟨.inl h, hreceived.err.trans herr⟩

end

/-- Settles O9: the events of a command run out within its bound, and no event of a run that goes on sets `ERR`. -/
theorem commandsAreTheirEvents : Obligations.CommandsAreTheirEvents := fun _ _ herr =>
  ⟨fun hdxt hchecks => exec_unpackInstr_iff_eventRun (sch := .chunk) herr hdxt hchecks,
    fun hdxt hchecks => exec_unpackInstr_iff_eventRun (sch := .refgrp) herr hdxt hchecks,
    fun _ _ hk hvalid hstart => exec_modelRx_iff_eventRun herr hk hvalid hstart⟩

end Sys2Proof.Machine
end

