-- ==== Sys2Proof/Proofs/CommandFrames.lean ====
section
/-! PROOFS. What each command can leave: the ways it can end, and from them its frame (spec/10_state.md R50), what an error
keeps (spec/60_exceptions.md R352 to R355) and what an unpack command writes (spec/20_memory.md R63). -/

namespace Sys2Proof.Machine

/-! ### The ends of a command -/

/-- A command that ends by answering a value in `RESULT`. -/
def Instr.answersValue (i : Instr) : Prop := (∃ n, i = .getbits n) ∨ (∃ n, i = .readbits n) ∨ ∃ k, i = .huffDecode k

/-- The ways a command can end in a next state. -/
inductive CommandEnd (s : State) : Instr → State → Prop where
  | ignored (i : Instr) (herr : s.err = true) : CommandEnd s i s
  | nothing (herr : s.err = false) : CommandEnd s .nop s
  | cleared : CommandEnd s .clrErr s.clearError
  | reset : CommandEnd s .softReset s.softReset
  | checkFailed (i : Instr) (c : ErrCode) : CommandEnd s i (s.raiseError (cmdWord i) c)
  | started (herr : s.err = false) (hpos : s.arg1 ≠ 0) (hfits : s.arg0.toNat + s.arg1.toNat ≤ s.cfg.srcSize) :
      CommandEnd s .brStart { s with br := ⟨s.arg0, s.arg1, 0, true, false⟩ }
  | answered (i : Instr) (hi : Instr.answersValue i) (herr : s.err = false) (n v : Nat) :
      CommandEnd s i ((s.advance n).setResult v)
  | readFailed (i : Instr) (hi : Instr.answersValue i) (c : ErrCode) : CommandEnd s i (failDecode i s c)
  | built (k n : Nat) (herr : s.err = false) (m : Model) (hbuild : buildFromCl n s = .ok m) :
      CommandEnd s (.huffBuild k n) (s.install k n m)
  | buildFailed (k n : Nat) (c : ErrCode) :
      CommandEnd s (.huffBuild k n) ((s.setModel k none).raiseError (cmdWord (.huffBuild k n)) c)
  | receiveRejected (k : Nat) (c : ErrCode) : CommandEnd s (.modelRx k) (rejectModelRx k s c)
  | received (k n : Nat) (t : State) (herr : s.err = false) (hn : n ≤ maxSyms) (h : s.ReceivedTo k n t) :
      CommandEnd s (.modelRx k) t
  | receiveFailed (k : Nat) (c : ErrCode) : CommandEnd s (.modelRx k)
      { s.raiseError (cmdWord (.modelRx k)) c with
        models := s.models.setIfInBounds k none, activity := .idle, cl := freeLengths s.cl s.freeCtr
        br := { s.br with valid := false, atReset := false, bitpos := Config.free (s.freeCtr + 1) 0 }
        freeCtr := s.freeCtr + 2 }
  | unpacked (sch : Scheme) (t : State) (herr : s.err = false) (hchecks : s.firstCheck sch = none)
      (h : s.UnpackedTo t) : CommandEnd s (unpackInstr sch) t
  | unpackFailed (sch : Scheme) (c : ErrCode) : CommandEnd s (unpackInstr sch)
      { s.raiseError (cmdWord (unpackInstr sch)) c with
        activity := .idle, dst := Memory.forgetBelow s.dst s.faceBytes
        br := { s.br with valid := false, atReset := false, bitpos := Config.free s.freeCtr 0 }
        freeCtr := s.freeCtr + 1 }

section
variable {s t : State} {i : Instr}

theorem commandEnd_of_settle_read (hi : Instr.answersValue i) (herr : s.err = false) {a : Attempt (Nat × State)}
    (ha : ∀ v u, a = .ok (v, u) → ∃ n, u = s.advance n)
    (h : settle (failDecode i s) (a >>= fun r => .ok (r.2.setResult r.1)) = .next t) : CommandEnd s i t := by
  rcases (settle_next _ _ _).1 h with h | ⟨c, -, rfl⟩
  · obtain ⟨⟨v, u⟩, hu, h⟩ := (attempt_bind_ok _ _ _).1 h
    cases h
    obtain ⟨n, rfl⟩ := ha v u hu
    exact .answered i hi herr n v
  · exact .readFailed i hi c

theorem commandEnd_brStart (h : execBrStart s = .next t) : CommandEnd s .brStart t := by
  rcases (gate_next _ _ _).1 h with ⟨herr, rfl⟩ | ⟨herr, h⟩
  · exact .ignored _ herr
  · split at h
    case isTrue => exact (raiseBy_next _ _ _ _).1 h ▸ .checkFailed _ _
    case isFalse hpos =>
      split at h
      case isTrue => exact (raiseBy_next _ _ _ _).1 h ▸ .checkFailed _ _
      case isFalse hfits =>
        cases h
        exact .started herr hpos (Nat.not_lt.1 hfits)

theorem commandEnd_getbits {n : Nat} (h : execGetbits n s = .next t) : CommandEnd s (.getbits n) t := by
  rcases (gate_next _ _ _).1 h with ⟨herr, rfl⟩ | ⟨herr, h⟩
  · exact .ignored _ herr
  · split at h
    case isTrue => exact (raiseBy_next _ _ _ _).1 h ▸ .checkFailed _ _
    case isFalse =>
      split at h
      case isTrue => exact (raiseBy_next _ _ _ _).1 h ▸ .checkFailed _ _
      case isFalse =>
        exact commandEnd_of_settle_read (.inl ⟨n, rfl⟩) herr (fun v u hu => ⟨n, ((take_ok _ _ _ _).1 hu).2⟩) h

theorem commandEnd_readbits {n : Nat} (h : execReadbits n s = .next t) : CommandEnd s (.readbits n) t := by
  rcases (gate_next _ _ _).1 h with ⟨herr, rfl⟩ | ⟨herr, h⟩
  · exact .ignored _ herr
  · split at h
    case isTrue => exact (raiseBy_next _ _ _ _).1 h ▸ .checkFailed _ _
    case isFalse =>
      split at h
      case isTrue => exact (raiseBy_next _ _ _ _).1 h ▸ .checkFailed _ _
      case isFalse =>
        exact commandEnd_of_settle_read (.inr (.inl ⟨n, rfl⟩)) herr (fun v u hu => ⟨n, takeLong_ok _ _ _ _ hu⟩) h

theorem commandEnd_huffBuild {k n : Nat} (h : exec (.huffBuild k n) s = .next t) : CommandEnd s (.huffBuild k n) t := by
  rcases execHuffBuild_next k n s t h with ⟨herr, rfl⟩ | ⟨herr, ⟨-, rfl⟩ | ⟨-, m, hm, rfl⟩ | ⟨-, c, -, rfl⟩⟩
  · exact .ignored _ herr
  · exact .checkFailed _ _
  · exact .built k n herr m hm
  · exact .buildFailed k n c

theorem commandEnd_huffDecode {k : Nat} (h : exec (.huffDecode k) s = .next t) : CommandEnd s (.huffDecode k) t := by
  have hi : Instr.answersValue (.huffDecode k) := .inr (.inr ⟨k, rfl⟩)
  rcases execHuffDecode_next k s t h with ⟨herr, rfl⟩ | ⟨herr, ⟨c, rfl, -⟩ | ⟨-, -, m, -, hend⟩⟩
  · exact .ignored _ herr
  · exact .checkFailed _ c
  · rcases hend with ⟨p, sym, len, -, -, rfl⟩ | ⟨c, -, rfl⟩
    · exact .answered _ hi herr len _
    · exact .readFailed _ hi c

theorem commandEnd_modelRx {k : Nat} (h : exec (.modelRx k) s = .next t) : CommandEnd s (.modelRx k) t := by
  rcases exec_modelRx_next h with ⟨herr, rfl⟩ |
    ⟨herr, ⟨-, rfl⟩ | ⟨-, -, rfl⟩ | ⟨-, -, n, -, hn, hreceived⟩ | ⟨-, -, c, rfl⟩⟩
  · exact .ignored _ herr
  · exact .receiveRejected k _
  · exact .receiveRejected k _
  · exact .received k n t herr hn hreceived
  · exact failModelRx_eq k s c ▸ .receiveFailed k c

theorem commandEnd_unpackInstr {sch : Scheme} (h : exec (unpackInstr sch) s = .next t) :
    CommandEnd s (unpackInstr sch) t := by
  rcases exec_unpackInstr_next h with ⟨herr, rfl⟩ | ⟨herr, ⟨c, -, rfl⟩ | ⟨hchecks, hunpacked⟩ | ⟨-, c, rfl⟩⟩
  · exact .ignored _ herr
  · exact .checkFailed _ c
  · exact .unpacked sch t herr hchecks hunpacked
  · exact failUnpack_eq _ s c ▸ .unpackFailed sch c

/-- Every command ends in one of these ways. -/
theorem exec_command_next (hcw : i.fmt = .cw) (h : exec i s = .next t) : CommandEnd s i t := by
  cases i with
  | brStart => exact commandEnd_brStart h
  | getbits n => exact commandEnd_getbits h
  | readbits n => exact commandEnd_readbits h
  | huffBuild k n => exact commandEnd_huffBuild h
  | huffDecode k => exact commandEnd_huffDecode h
  | modelRx k => exact commandEnd_modelRx h
  | unpackChunk => exact commandEnd_unpackInstr (sch := .chunk) h
  | unpackRefgrp => exact commandEnd_unpackInstr (sch := .refgrp) h
  | nop =>
    rcases (gate_next _ _ _).1 h with ⟨herr, rfl⟩ | ⟨herr, h⟩
    · exact .ignored _ herr
    · cases h
      exact .nothing herr
  | clrErr =>
    cases h
    exact .cleared
  | softReset =>
    cases h
    exact .reset
  | _ => cases hcw

end

/-! ### The statements -/

section
variable {s t : State}

theorem failedDecode_failDecode (i : Instr) (s : State) (c : ErrCode) :
    FailedDecode c.code (cmdWord i) s (failDecode i s c) := rfl

/-- A byte past the face regions is kept by a failed unpack. -/
theorem failedUnpack_failUnpack (i : Instr) (s : State) (c : ErrCode) :
    FailedUnpack c.code (cmdWord i) s (failUnpack i s c) := by
  refine ⟨rfl, fun a ha => ?_⟩
  have hdst : (failUnpack i s c).dst = Memory.forgetBelow s.dst s.faceBytes := rfl
  rw [hdst, Memory.read_forgetBelow, if_neg (show ¬ a < s.faceBytes from Nat.not_lt.2 ha)]

theorem State.UnpackedTo.err (h : s.UnpackedTo t) : t.err = s.err := by
  obtain ⟨n, d, a, rfl, -⟩ := h
  rfl

end

/-- What any command but `SOFT_RESET` may write: `RESULT`, the error registers, `CL_COUNT`, the reader, the slots, `CL`,
`DST` and the model's own fields for a running command and for free values. -/
def CommandFrame (s t : State) : Prop :=
  t = { s with
    result := t.result, err := t.err, errCode := t.errCode, errInfo := t.errInfo, clCount := t.clCount, br := t.br
    models := t.models, cl := t.cl, dst := t.dst, activity := t.activity, freeCtr := t.freeCtr }

namespace CommandFrame

variable {s t : State}

theorem sameConfig (h : CommandFrame s t) : s.sameConfig t := by
  rw [h]
  exact ⟨rfl, rfl, rfl, rfl, rfl, rfl, rfl, rfl, rfl, rfl⟩

theorem samePalettes (h : CommandFrame s t) : s.samePalettes t := by
  rw [h]
  exact ⟨rfl, rfl, rfl, rfl⟩

theorem arg0 (h : CommandFrame s t) : t.arg0 = s.arg0 := by rw [h]
theorem arg1 (h : CommandFrame s t) : t.arg1 = s.arg1 := by rw [h]
theorem src (h : CommandFrame s t) : t.src = s.src := by rw [h]
theorem cfg (h : CommandFrame s t) : t.cfg = s.cfg := by rw [h]
theorem pending (h : CommandFrame s t) : t.pending = s.pending := by rw [h]
theorem busData (h : CommandFrame s t) : t.busData = s.busData := by rw [h]

end CommandFrame

theorem CommandEnd.frame_or_reset {s t : State} {i : Instr} (h : CommandEnd s i t) :
    CommandFrame s t ∨ (i = .softReset ∧ t = s.softReset) := by
  cases h with
  | reset => exact .inr ⟨rfl, rfl⟩
  | received k n _ _ _ h =>
    obtain ⟨b, l, lens, m, rfl, -⟩ := h
    exact .inl rfl
  | unpacked sch _ _ _ h =>
    obtain ⟨n, d, a, rfl, -⟩ := h
    exact .inl rfl
  | _ => exact .inl rfl

theorem CommandEnd.frame {s t : State} {i : Instr} (h : CommandEnd s i t) (hi : i ≠ .softReset) : CommandFrame s t :=
  h.frame_or_reset.resolve_right fun hreset => hi hreset.1

/-- Settles O39: each of these commands, past its checks, ends without an error or as its failure says. -/
theorem lateErrorsLeaveWhatTheRulesSay : Obligations.LateErrorsLeaveWhatTheRulesSay := by
  intro s t herr herrt
  have hunpack : ∀ sch, s.firstCheck sch = none → exec (unpackInstr sch) s = .next t →
      FailedUnpack t.errCode (cmdWord (unpackInstr sch)) s t := by
    intro sch hchecks h
    rcases exec_unpackInstr_next h with ⟨herr', -⟩ | ⟨-, ⟨c, hfails, -⟩ | ⟨-, hunpacked⟩ | ⟨-, c, rfl⟩⟩
    · simp [herr] at herr'
    · exact absurd hchecks hfails
    · simp [hunpacked.err, herr] at herrt
    · exact failedUnpack_failUnpack _ s c
  refine ⟨fun k m hk hvalid hm h => ?_, fun k hk hvalid h => ?_, fun k hk h => ?_, fun k hk hvalid h => ?_,
    hunpack .chunk, hunpack .refgrp⟩
  · rcases execHuffDecode_next k s t h with ⟨herr', -⟩ | ⟨-, ⟨c, -, hfails⟩ | ⟨-, -, m', -, hend⟩⟩
    · simp [herr] at herr'
    · simp [hvalid, hm, Nat.not_le.2 hk] at hfails
    · rcases hend with ⟨p, sym, len, -, -, rfl⟩ | ⟨c, -, rfl⟩
      · simp [herr] at herrt
      · exact failedDecode_failDecode _ s c
  · rcases exec_modelRx_next h with ⟨herr', -⟩ | ⟨-, ⟨hge, -⟩ | ⟨-, hnot, -⟩ | ⟨-, -, n, -, -, hreceived⟩ | ⟨-, -, c, rfl⟩⟩
    · simp [herr] at herr'
    · omega
    · simp [hvalid] at hnot
    · simp [hreceived.err, herr] at herrt
    · exact failedModelRx_failModelRx k s c
  · rw [exec_modelRx_of_le herr hk] at h
    cases h
    exact rejectedModelRx_rejectModelRx k s .operand
  · rw [exec_modelRx_of_not_valid herr hk hvalid] at h
    cases h
    exact rejectedModelRx_rejectModelRx k s .brNotStarted

/-- Settles O40: the ends of a command that raise an error. -/
theorem errorsAreRecorded : Obligations.ErrorsAreRecorded := by
  intro i s t hcw herr h herrt
  have hend := exec_command_next hcw h
  have hreset : i ≠ .softReset := by
    rintro rfl
    cases h
    cases herrt
  have hframe := hend.frame hreset
  suffices (∃ c : ErrCode, t.errCode = c.code) ∧ t.errInfo = cmdWord i ∧ t.result = s.result ∧ t.clCount = s.clCount by
    obtain ⟨hcode, hinfo, hresult, hcount⟩ := this
    exact ⟨hcode, hinfo, hresult, hcount, hframe.arg0, hframe.arg1, hframe.sameConfig, hframe.samePalettes, hframe.src⟩
  cases hend with
  | ignored | nothing => simp [herr] at herrt
  | started | answered | built => simp [herr] at herrt
  | cleared | reset => cases herrt
  | received k n _ _ _ h => simp [h.err, herr] at herrt
  | unpacked sch _ _ _ h => simp [h.err, herr] at herrt
  | checkFailed _ c | readFailed _ _ c | buildFailed _ _ c | receiveRejected _ c | receiveFailed _ c | unpackFailed _ c =>
    exact ⟨⟨c, rfl⟩, rfl, rfl, rfl⟩

theorem model_eq_of_setModel {s t : State} {j k : Nat} {m : Option Model} (h : t.models = (s.setModel k m).models)
    (hj : j ≠ k) : t.model j = s.model j := by
  have hmodel : t.model j = (s.setModel k m).model j := by rw [State.model, State.model, h]
  rw [hmodel, State.model_setModel, if_neg (fun h => hj h.1.symm)]

/-- Settles O41: the frame of the ends of each command. -/
theorem commandsWriteOnlyTheirState : Obligations.CommandsWriteOnlyTheirState := by
  intro i s t hcw h
  have hend := exec_command_next hcw h
  refine ⟨?_, fun hreset => ?_, ?_, ?_, ?_, ?_, ?_, ?_⟩
  · by_cases hreset : i = .softReset
    · subst hreset
      cases h
      exact ⟨⟨rfl, rfl, rfl, rfl⟩, rfl, rfl, rfl, rfl⟩
    · have hframe := hend.frame hreset
      exact ⟨hframe.samePalettes, hframe.src, hframe.cfg, hframe.pending, hframe.busData⟩
  · have hframe := hend.frame hreset
    exact ⟨hframe.arg0, hframe.arg1, hframe.sameConfig⟩
  · intro hget hread hdecode hreset
    cases hend with
    | answered _ hi => simp_all [Instr.answersValue]
    | reset => exact absurd rfl hreset
    | received k n _ _ _ h =>
      obtain ⟨b, l, lens, m, rfl, -⟩ := h
      rfl
    | unpacked sch _ _ _ h =>
      obtain ⟨n, d, a, rfl, -⟩ := h
      rfl
    | _ => rfl
  · intro hi
    cases hend with
    | started | reset | receiveRejected | received | receiveFailed => simp at hi
    | answered _ hi' | readFailed _ hi' =>
      obtain rfl | rfl | ⟨k, n, rfl⟩ := hi <;> simp [Instr.answersValue] at hi'
    | unpacked sch | unpackFailed sch => cases sch <;> simp [unpackInstr] at hi
    | _ => rfl
  · intro hbuild hreceive hreset
    cases hend with
    | reset => exact absurd rfl hreset
    | built k n | buildFailed k n => exact absurd rfl (hbuild k n)
    | received k | receiveRejected k | receiveFailed k => exact absurd rfl (hreceive k)
    | unpacked sch _ _ _ h =>
      obtain ⟨n, d, a, rfl, -⟩ := h
      exact ⟨rfl, rfl⟩
    | _ => exact ⟨rfl, rfl⟩
  · intro k hi j hj
    cases hend with
    | ignored | nothing | checkFailed => rfl
    | built k' n _ m =>
      have hk : k' = k := by simpa using hi
      exact model_eq_of_setModel (m := some m) rfl (hk ▸ hj)
    | buildFailed k' n c =>
      have hk : k' = k := by simpa using hi
      exact model_eq_of_setModel (m := none) rfl (hk ▸ hj)
    | receiveRejected k' c | receiveFailed k' c =>
      have hk : k' = k := by simpa using hi
      exact model_eq_of_setModel (m := none) rfl (hk ▸ hj)
    | received k' n _ _ _ h =>
      have hk : k' = k := by simpa using hi
      obtain ⟨b, l, lens, m, rfl, -⟩ := h
      exact model_eq_of_setModel (m := some m) rfl (hk ▸ hj)
    | cleared | reset | started => simp at hi
    | answered _ hi' | readFailed _ hi' =>
      obtain ⟨n, rfl⟩ | rfl := hi <;> simp [Instr.answersValue] at hi'
    | unpacked sch | unpackFailed sch => cases sch <;> simp [unpackInstr] at hi
  · intro hreceive
    cases hend with
    | received k | receiveRejected k | receiveFailed k => exact absurd rfl (hreceive k)
    | unpacked sch _ _ _ h =>
      obtain ⟨n, d, a, rfl, -⟩ := h
      rfl
    | _ => rfl
  · intro hchunk hrefgrp
    cases hend with
    | unpacked sch | unpackFailed sch =>
      cases sch
      · exact absurd rfl hchunk
      · exact absurd rfl hrefgrp
    | received k n _ _ _ h =>
      obtain ⟨b, l, lens, m, rfl, -⟩ := h
      rfl
    | _ => rfl

end Sys2Proof.Machine
end

