-- ==== Sys2Proof/Proofs/FaceWrites.lean ====
section
/-! PROOFS. Where an unpack command can write: its visible blocks lie inside the face regions, and those inside `DST`
(spec/20_memory.md R63, R72, spec/60_exceptions.md R355). -/

namespace Sys2Proof.Machine

section
variable {s t : State} {sch : Scheme}

/-- A visible block lies inside its face region, and the region inside `DST`. -/
theorem blockAddr_in_face (hchecks : s.firstCheck sch = none) {f x y : Nat} (hf : f < s.faces.toNat) (hx : x < s.bx)
    (hy : y < s.by') : f * s.dstSize.toNat ≤ s.blockAddr f x y ∧
      s.blockAddr f x y + s.bpb ≤ (f + 1) * s.dstSize.toNat ∧ (f + 1) * s.dstSize.toNat ≤ s.cfg.dstMemSize := by
  obtain ⟨hpitch, hsize, hmemory⟩ := levelFits_of_firstCheck hchecks
  have hrow : (x + 1) * s.bpb ≤ s.rowPitch.toNat := (Nat.mul_le_mul_right _ hx).trans hpitch
  have hface : (y + 1) * s.rowPitch.toNat ≤ s.dstSize.toNat := by
    rw [Nat.mul_comm]
    exact (Nat.mul_le_mul_left _ hy).trans hsize
  have hlevel : (f + 1) * s.dstSize.toNat ≤ s.cfg.dstMemSize := (Nat.mul_le_mul_right _ hf).trans hmemory
  rw [Nat.succ_mul] at hrow hface
  rw [State.blockAddr]
  refine ⟨by omega, ?_, hlevel⟩
  rw [Nat.succ_mul]
  omega

/-- A write of a block of the level covers addresses of that visible block alone. -/
theorem State.levelWrite.inVisibleBlock {a b : Nat} {bytes : List Byte} (h : s.levelWrite a bytes) (hle : a ≤ b)
    (hlt : b < a + bytes.length) : s.inVisibleBlock b := by
  obtain ⟨f, x, y, hf, hvisible, rfl, hlength, -⟩ := h
  simp only [State.visible, Bool.and_eq_true, decide_eq_true_eq] at hvisible
  exact ⟨f, x, y, hf, hvisible.1, hvisible.2, hle, hlength ▸ hlt⟩

/-- What an unpack that ends without an error keeps of `DST`. -/
theorem State.UnpackedTo.read_dst {a : Nat} (h : s.UnpackedTo t) (ha : ¬ s.inVisibleBlock a) :
    Memory.read t.dst a = Memory.read s.dst a := by
  obtain ⟨n, d, act, rfl, -, hd⟩ := h
  refine hd.read_eq fun b bytes hb => ?_
  by_contra hinside
  exact ha (hb.inVisibleBlock (by omega) (by omega))

/-- Past the face regions there is no visible block. -/
theorem not_inVisibleBlock_of_le (hchecks : s.firstCheck sch = none) {a : Nat}
    (ha : s.faces.toNat * s.dstSize.toNat ≤ a) : ¬ s.inVisibleBlock a := by
  rintro ⟨f, x, y, hf, hx, hy, -, hlt⟩
  obtain ⟨-, hinside, -⟩ := blockAddr_in_face hchecks hf hx hy
  have : (f + 1) * s.dstSize.toNat ≤ s.faces.toNat * s.dstSize.toNat := Nat.mul_le_mul_right _ hf
  omega

theorem unpackInstr_writes (h : exec (unpackInstr sch) s = .next t) :
    (s.firstCheck sch ≠ none → t.dst = s.dst) ∧
    (∀ a, s.faces.toNat * s.dstSize.toNat ≤ a → Memory.read t.dst a = Memory.read s.dst a) ∧
    (t.err = false → ∀ a, ¬ s.inVisibleBlock a → Memory.read t.dst a = Memory.read s.dst a) := by
  rcases exec_unpackInstr_next h with ⟨-, rfl⟩ | ⟨-, ⟨c, -, rfl⟩ | ⟨hchecks, hunpacked⟩ | ⟨hchecks, c, rfl⟩⟩
  · exact ⟨fun _ => rfl, fun _ _ => rfl, fun _ _ _ => rfl⟩
  · exact ⟨fun _ => rfl, fun _ _ => rfl, fun _ _ _ => rfl⟩
  · exact ⟨fun hfails => absurd hchecks hfails,
      fun a ha => hunpacked.read_dst (not_inVisibleBlock_of_le hchecks ha), fun _ a ha => hunpacked.read_dst ha⟩
  · refine ⟨fun hfails => absurd hchecks hfails, (failedUnpack_failUnpack _ s c).2, fun herr => ?_⟩
    rw [failUnpack_eq] at herr
    cases herr

end

/-- Settles O55: the ends of an unpack command, and where its blocks lie. -/
theorem unpackWritesOnlyItsFaces : Obligations.UnpackWritesOnlyItsFaces := by
  intro s t i sch hi h
  have hinstr : i = unpackInstr sch := by rcases hi with hi | hi <;> cases hi <;> rfl
  subst hinstr
  obtain ⟨hfailed, houtside, hok⟩ := unpackInstr_writes h
  exact ⟨hfailed, houtside, hok, fun hchecks f x y hf hx hy => blockAddr_in_face hchecks hf hx hy⟩

end Sys2Proof.Machine
end

