-- ==== Sys2Proof/Proofs/HostPort.lean ====
section
/-! PROOFS. The host's accesses: the check before each, the register window (spec/10_state.md R29, R39, R40) and the
memories (spec/20_memory.md R60, R67). -/

namespace Sys2Proof.Machine

/-! ### A step with a host access -/

section
variable {s : State} {sp : Space} {addr width : Nat} {v : Word} {rest : List HostAction}

theorem checkAccess_ok {sp : Space} {addr width : Nat} (h : checkAccess s sp addr width = .ok ()) :
    accessDefined sp addr width = true ∧ addr < spaceSize s.cfg sp := by
  unfold checkAccess at h
  split at h
  case isTrue => cases h
  case isFalse hdefined =>
    split at h
    case isTrue => cases h
    case isFalse hlt => exact ⟨by simpa using hdefined, Nat.not_le.1 hlt⟩

theorem checkAccess_of_lt (hdefined : accessDefined sp addr width = true) (haddr : addr < spaceSize s.cfg sp) :
    checkAccess s sp addr width = .ok () := by
  rw [checkAccess, if_neg (by simp [hdefined]), if_neg (Nat.not_le.2 haddr)]

theorem checkAccess_of_not_defined (hdefined : accessDefined sp addr width = false) :
    checkAccess s sp addr width = refuseWith (.hostAccessUndefined sp addr width) := if_pos hdefined

theorem checkAccess_of_le (hdefined : accessDefined sp addr width = true) (haddr : spaceSize s.cfg sp ≤ addr) :
    checkAccess s sp addr width = .error (.fault (.noSuchAddress sp addr)) := by
  rw [checkAccess, if_neg (by simp [hdefined]), if_pos haddr]

/-- A write that is no command: not to `CMD`, or of another width. -/
theorem commandWord_write (hno : sp ≠ .reg ∨ addr ≠ 0 ∨ width ≠ 32) : commandWord (.write sp addr width v) = none := by
  cases sp with
  | reg =>
    refine if_neg fun ⟨haddr, hwidth⟩ => ?_
    rcases hno with h | h | h
    · exact h rfl
    · exact h haddr
    · exact h hwidth
  | _ => rfl

/-- A write or read that its check stops. -/
theorem step_of_checkAccess_error {e : Halt} (hidle : s.activity = .idle) (hno : sp ≠ .reg ∨ addr ≠ 0 ∨ width ≠ 32)
    (hpend : s.pending = .write sp addr width v :: rest ∨ s.pending = .read sp addr width :: rest)
    (hcheck : checkAccess s sp addr width = .error e) : step s = settle (fun _ => { s with pending := rest }) (.error e) := by
  have hcheck : checkAccess { s with pending := rest } sp addr width = .error e := hcheck
  rcases hpend with hpend | hpend
  · rw [step_of_commandWord_eq_none hidle hpend (commandWord_write hno), hostAccess, afterCheck, hcheck]
    rfl
  · rw [step_of_commandWord_eq_none hidle hpend rfl, hostAccess, afterCheck, hcheck]
    rfl

/-- A write that passes its check. -/
theorem step_write (hidle : s.activity = .idle) (hno : sp ≠ .reg ∨ addr ≠ 0) (hdefined : accessDefined sp addr width = true)
    (haddr : addr < spaceSize s.cfg sp) (hpend : s.pending = .write sp addr width v :: rest) :
    step s = .next (hostStore { s with pending := rest } sp addr v) := by
  have hcheck : checkAccess { s with pending := rest } sp addr width = .ok () := checkAccess_of_lt hdefined haddr
  rw [step_of_commandWord_eq_none hidle hpend (commandWord_write (hno.imp_right .inl)), hostAccess, afterCheck, hcheck]
  rfl

/-- A read that passes its check. -/
theorem step_read (hidle : s.activity = .idle) (hdefined : accessDefined sp addr width = true)
    (haddr : addr < spaceSize s.cfg sp) (hpend : s.pending = .read sp addr width :: rest) :
    step s = .next { (hostLoad { s with pending := rest } sp addr).2 with
      busData := (hostLoad { s with pending := rest } sp addr).1 } := by
  have hcheck : checkAccess { s with pending := rest } sp addr width = .ok () := checkAccess_of_lt hdefined haddr
  rw [step_of_commandWord_eq_none hidle hpend rfl, hostAccess, afterCheck, hcheck]
  rfl

end

/-- A host read leaves the state as it is, or uses a free value. -/
theorem hostLoad_state (s : State) (sp : Space) (addr : Nat) :
    (hostLoad s sp addr).2 = s ∨ (hostLoad s sp addr).2 = s.useFree := by
  have hview : ∀ v, (readerView s v).2 = s ∨ (readerView s v).2 = s.useFree := by
    intro v
    unfold readerView
    split
    · exact .inl rfl
    · exact .inr rfl
  have hmemory : ∀ {w : Nat} (m : Memory w), (memoryView s m addr).2 = s ∨ (memoryView s m addr).2 = s.useFree := by
    intro w m
    unfold memoryView
    split
    · exact .inl rfl
    · exact .inr rfl
  cases sp with
  | reg =>
    unfold hostLoad readReg
    dsimp only
    split
    case h_18 | h_19 | h_20 | h_21 => exact hview _
    all_goals exact .inl rfl
  | src | dst | cl | ce | cs | ae | aSel => exact hmemory _

/-! ### The memories (R60, R67) -/

section
variable {s t : State} {sp sp' : Space} {a b : Nat} {v : Word}

theorem accessDefined_of_memory (hsp : sp ≠ .reg) (a width : Nat) :
    accessDefined sp a width = (width == unitWidth sp) := by
  rw [accessDefined, bne_iff_ne.2 hsp, Bool.true_or, Bool.and_true]

theorem memoryView_of_read {w : Nat} {m : Memory w} {x : BitVec w} (hread : Memory.read m a = some x) :
    memoryView s m a = (x.setWidth 32, s) := by
  rw [memoryView, hread]

theorem memoryView_fst {w : Nat} {m m' : Memory w} (hread : Memory.read m' a = Memory.read m a)
    (hfree : t.freeCtr = s.freeCtr) : (memoryView t m' a).1 = (memoryView s m a).1 := by
  unfold memoryView
  rw [hread]
  split
  · rfl
  · rw [State.freeBits, State.freeBits, hfree]

/-- A stored unit reads back. -/
theorem memoryView_write {w : Nat} (s : State) (m : Memory w) (a : Nat) (x : BitVec w) :
    memoryView s (Memory.write m a x) a = (x.setWidth 32, s) :=
  memoryView_of_read ((Memory.read_write _ _ _ _).trans (if_pos rfl))

theorem hostLoad_hostStore (hsp : sp ≠ .reg) : hostLoad (hostStore s sp a v) sp a =
    ((v.setWidth (unitWidth sp)).setWidth 32, hostStore s sp a v) := by
  cases sp with
  | reg => exact absurd rfl hsp
  | ce | cs =>
    refine (memoryView_write _ _ _ _).trans ?_
    rw [unitWidth, BitVec.setWidth_eq, BitVec.setWidth_eq]
  | _ => exact memoryView_write _ _ _ _

/-- Another unit keeps what the host reads of it. -/
theorem hostLoad_hostStore_of_ne (hsp : sp ≠ .reg) (hsp' : sp' ≠ .reg) (hne : sp' ≠ sp ∨ b ≠ a) :
    (hostLoad (hostStore s sp a v) sp' b).1 = (hostLoad s sp' b).1 := by
  have hread : ∀ {w : Nat} (m : Memory w) (x : BitVec w), b ≠ a → Memory.read (Memory.write m a x) b = Memory.read m b :=
    fun m x hb => (Memory.read_write _ _ _ _).trans (if_neg hb)
  by_cases heq : sp' = sp
  · subst heq
    have hb : b ≠ a := hne.resolve_left fun h => h rfl
    cases sp' with
    | reg => exact absurd rfl hsp
    | _ => exact memoryView_fst (hread _ _ hb) rfl
  · cases sp' with
    | reg => exact absurd rfl hsp'
    | src | dst | cl | ce | cs | ae | aSel =>
      cases sp <;> simp only [ne_eq, not_true_eq_false, reduceCtorEq] at heq hsp <;> exact memoryView_fst rfl rfl

/-- What a store to a memory leaves of the registers. -/
theorem hostStore_keeps (hsp : sp ≠ .reg) : (hostStore s sp a v).err = s.err ∧ (hostStore s sp a v).models = s.models ∧
    (sp ≠ .src → (hostStore s sp a v).br = s.br) ∧ (hostStore s sp a v).activity = s.activity ∧
    (hostStore s sp a v).pending = s.pending ∧ (hostStore s sp a v).cfg = s.cfg := by
  cases sp with
  | reg => exact absurd rfl hsp
  | src => exact ⟨rfl, rfl, fun h => absurd rfl h, rfl, rfl, rfl⟩
  | _ => exact ⟨rfl, rfl, fun _ => rfl, rfl, rfl, rfl⟩

/-- The queue of accesses is no part of what a store does. -/
theorem hostStore_pending (hsp : sp ≠ .reg) (rest : List HostAction) :
    { hostStore s sp a v with pending := rest } = hostStore { s with pending := rest } sp a v := by
  cases sp with
  | reg => exact absurd rfl hsp
  | _ => rfl

theorem hostLoad_pending (hsp : sp ≠ .reg) (rest : List HostAction) :
    (hostLoad { s with pending := rest } sp a).1 = (hostLoad s sp a).1 := by
  cases sp with
  | reg => exact absurd rfl hsp
  | _ => exact memoryView_fst rfl rfl

theorem toNat_unit (v : Word) :
    ((v.setWidth (unitWidth sp)).setWidth 32).toNat = v.toNat % 2 ^ unitWidth sp := by
  have hle : unitWidth sp ≤ 32 := by cases sp <;> decide
  rw [BitVec.toNat_setWidth_of_le hle, BitVec.toNat_setWidth]

end

/-- Settles O59: the check of an access, and what a store and a load of one unit do. -/
theorem hostMemoriesHoldWhatIsWritten : Obligations.HostMemoriesHoldWhatIsWritten := by
  intro s sp a width v rest hidle hsp
  refine ⟨fun hwidth hpend => ?_, fun hwidth haddr hpend => ?_, fun hwidth haddr hpend => ?_⟩
  · have hdefined : accessDefined sp a width = false := by
      rw [accessDefined_of_memory hsp]
      exact beq_eq_false_iff_ne.2 hwidth
    exact step_of_checkAccess_error hidle (.inl hsp) hpend (checkAccess_of_not_defined hdefined)
  · have hdefined : accessDefined sp a width = true := by
      rw [accessDefined_of_memory hsp]
      exact beq_iff_eq.2 hwidth
    exact step_of_checkAccess_error hidle (.inl hsp) hpend (checkAccess_of_le hdefined haddr)
  · have hdefined : accessDefined sp a width = true := by
      rw [accessDefined_of_memory hsp]
      exact beq_iff_eq.2 hwidth
    obtain ⟨herr, hmodels, hbr, hactivity, hpending, hcfg⟩ :=
      hostStore_keeps (s := { s with pending := .read sp a width :: rest }) (a := a) (v := v) hsp
    refine ⟨_, _, step_write hidle (.inl hsp) hdefined haddr hpend,
      step_read (hactivity.trans hidle) hdefined (hcfg.symm ▸ haddr) hpending, ?_, ?_, herr, hmodels, hbr,
      fun sp' b hsp' hne => (hostLoad_hostStore_of_ne hsp hsp' hne).trans (hostLoad_pending hsp' _)⟩
    · rw [hostStore_pending hsp, hostLoad_hostStore hsp, hwidth]
      exact toNat_unit v
    · rw [hostStore_pending hsp, hostLoad_hostStore hsp]
      exact (hostStore_keeps hsp).2.2.2.2.1

/-! ### The register window (spec/10_state.md R29, R39, R40) -/

section
variable {s t : State} {off other : Nat} {v : Word}

/-- A register write, field by field. -/
theorem writeReg_eq_ite (s : State) (off : Nat) (v : Word) : writeReg s off v = { s with
    arg0 := if off = 0x04 then v else s.arg0
    arg1 := if off = 0x08 then v else s.arg1
    format := if off = 0x20 then v.setWidth 4 else s.format
    faces := if off = 0x24 then v.setWidth 3 else s.faces
    lvlW := if off = 0x28 then v.setWidth 16 else s.lvlW
    lvlH := if off = 0x2C then v.setWidth 16 else s.lvlH
    rowPitch := if off = 0x30 then v else s.rowPitch
    dstSize := if off = 0x34 then v else s.dstSize
    ceCount := if off = 0x38 then v.setWidth 16 else s.ceCount
    csCount := if off = 0x3C then v.setWidth 16 else s.csCount
    aeCount := if off = 0x40 then v.setWidth 16 else s.aeCount
    asCount := if off = 0x44 then v.setWidth 16 else s.asCount } := by
  unfold writeReg
  split
  case h_13 =>
    simp only [imp_false] at *
    simp [*]
  all_goals rfl

theorem readerView_of_shown (h : s.br.valid = true ∨ s.br.atReset = true) (w : Word) : readerView s w = (w, s) := by
  rcases h with h | h <;> simp [readerView, h]

theorem readerView_fst (hbr : t.br = s.br) (hfree : t.freeCtr = s.freeCtr) (w : Word) :
    (readerView t w).1 = (readerView s w).1 := by
  unfold readerView
  rw [hbr]
  split
  · rfl
  · rw [State.freeBits, State.freeBits, hfree]

/-- Another register keeps what it shows. -/
theorem readReg_writeReg_of_ne (hne : other ≠ off) : (readReg (writeReg s off v) other).1 = (readReg s other).1 := by
  rw [writeReg_eq_ite]
  unfold readReg
  split
  case h_18 | h_19 | h_20 | h_21 => refine readerView_fst ?_ ?_ _ <;> rfl
  all_goals simp [Ne.symm hne, State.status, State.modelValidBits, State.modelValid, State.model]

/-- A read uses a free value only where it shows a reader that is not valid. -/
theorem readReg_snd (h : off < 0x50 ∨ 0x5C < off ∨ s.br.valid = true) : (readReg s off).2 = s := by
  unfold readReg
  split
  case h_18 | h_19 | h_20 | h_21 =>
    have hvalid : s.br.valid = true := by simpa using h
    rw [readerView_of_shown (.inl hvalid)]
  all_goals rfl

/-- The queue of accesses is no part of what a register shows. -/
theorem readReg_pending (s : State) (rest : List HostAction) (off : Nat) :
    (readReg { s with pending := rest } off).1 = (readReg s off).1 := by
  unfold readReg
  split
  case h_18 | h_19 | h_20 | h_21 => refine readerView_fst ?_ ?_ _ <;> rfl
  all_goals rfl

/-- The registers the host can write, with the bits each keeps. -/
def writableFields : List (Nat × Nat) :=
  [(0x04, 32), (0x08, 32), (0x20, 4), (0x24, 3), (0x28, 16), (0x2C, 16), (0x30, 32), (0x34, 32), (0x38, 16), (0x3C, 16),
    (0x40, 16), (0x44, 16)]

/-- The registers that only show what the core holds. -/
def readOnlyViews : List Nat := [0x0C, 0x10, 0x14, 0x18, 0x48, 0x50, 0x54, 0x58, 0x5C]

theorem writeReg_keeps (s : State) (off : Nat) (v : Word) : (writeReg s off v).pending = s.pending ∧
    (writeReg s off v).br = s.br ∧ (writeReg s off v).status = s.status ∧ (writeReg s off v).result = s.result ∧
    s.sameMemories (writeReg s off v) ∧ (writeReg s off v).models = s.models := by
  rw [writeReg_eq_ite]
  exact ⟨rfl, rfl, rfl, rfl, ⟨rfl, rfl, rfl, rfl, rfl, rfl, rfl⟩, rfl⟩

/-- A writable register keeps the written value masked to its field. -/
theorem readReg_writeReg_same {w : Nat} (h : (off, w) ∈ writableFields) :
    (readReg (writeReg s off v) off).1.toNat = v.toNat % 2 ^ w := by
  have hnarrow : ∀ n ≤ 32, ((v.setWidth n).setWidth 32).toNat = v.toNat % 2 ^ n := fun n hn => by
    rw [BitVec.toNat_setWidth_of_le hn, BitVec.toNat_setWidth]
  have hwide : v.toNat = v.toNat % 2 ^ 32 := (Nat.mod_eq_of_lt v.isLt).symm
  simp only [writableFields, List.mem_cons, Prod.mk.injEq, List.not_mem_nil, or_false] at h
  obtain ⟨rfl, rfl⟩ | ⟨rfl, rfl⟩ | ⟨rfl, rfl⟩ | ⟨rfl, rfl⟩ | ⟨rfl, rfl⟩ | ⟨rfl, rfl⟩ | ⟨rfl, rfl⟩ | ⟨rfl, rfl⟩ |
    ⟨rfl, rfl⟩ | ⟨rfl, rfl⟩ | ⟨rfl, rfl⟩ | ⟨rfl, rfl⟩ := h
  case inl | inr.inl | inr.inr.inr.inr.inr.inr.inl | inr.inr.inr.inr.inr.inr.inr.inl => exact hwide
  all_goals exact hnarrow _ (by decide)

/-- Every other offset ignores writes. -/
theorem writeReg_of_not_writable (h : off ∉ writableFields.map Prod.fst) : writeReg s off v = s := by
  simp only [writableFields, List.map_cons, List.map_nil, List.mem_cons, List.not_mem_nil, or_false, not_or] at h
  rw [writeReg_eq_ite]
  simp [h]

/-- `CMD` and the reserved offsets read 0. -/
theorem readReg_of_reserved (h : off ∉ writableFields.map Prod.fst) (h' : off ∉ readOnlyViews) :
    (readReg s off).1 = 0 := by
  unfold readReg
  split
  case h_22 => rfl
  all_goals simp [writableFields, readOnlyViews] at h h'

theorem accessDefined_reg (off width : Nat) : accessDefined .reg off width = true ↔ width = 32 ∧ off % 4 = 0 := by
  simp [accessDefined, unitWidth]

end

/-- Settles O57: each offset's register, the check of an access, and what a write and a read of one word do. -/
theorem registerWindowHolds : Obligations.RegisterWindowHolds := by
  unfold Obligations.RegisterWindowHolds
  intro fields views shows readerShows
  refine ⟨fun s => ⟨?_, fun hvalid => ?_, ?_⟩, fun s rest off width v hidle hpend => ⟨fun hbad => ?_, ?_⟩,
    fun s rest off v hidle hlt halign => ?_⟩
  · simp only [shows, List.forall_mem_cons]
    exact ⟨rfl, rfl, rfl, BitVec.toNat_setWidth_of_le (by decide), BitVec.toNat_setWidth_of_le (by decide),
      BitVec.toNat_setWidth_of_le (by decide), BitVec.toNat_setWidth_of_le (by decide), rfl, rfl,
      BitVec.toNat_setWidth_of_le (by decide), BitVec.toNat_setWidth_of_le (by decide),
      BitVec.toNat_setWidth_of_le (by decide), BitVec.toNat_setWidth_of_le (by decide),
      BitVec.toNat_setWidth_of_le (by decide), List.forall_mem_nil _⟩
  · have hview : ∀ w, (readerView s w).1 = w := fun w => by rw [readerView_of_shown (.inl hvalid)]
    simp only [readerShows, List.forall_mem_cons]
    exact ⟨congrArg _ (hview _), congrArg _ (hview _), (congrArg _ (hview _)).trans (BitVec.toNat_ofNat _ _),
      (congrArg _ (hview _)).trans (BitVec.toNat_ofNat _ _), List.forall_mem_nil _⟩
  · have hreset : ∀ t, exec .softReset s = .next t → t = s.softReset := fun t h => (Host.Outcome.next.inj h).symm
    simp only [readerShows, List.forall_mem_cons]
    exact ⟨⟨rfl, fun t h => by rw [hreset t h]; rfl⟩, ⟨rfl, fun t h => by rw [hreset t h]; rfl⟩,
      ⟨rfl, fun t h => by rw [hreset t h]; rfl⟩,
      ⟨rfl, fun t h => by rw [hreset t h]; simp [readReg, readerView, State.softReset, State.reset, BitReader.reset]⟩,
      List.forall_mem_nil _⟩
  · have hdefined : accessDefined .reg off width = false := by
      rw [Bool.eq_false_iff, ne_eq, accessDefined_reg]
      omega
    exact step_of_checkAccess_error hidle (by omega) hpend (checkAccess_of_not_defined hdefined)
  · intro hwidth halign hle
    exact step_of_checkAccess_error hidle (by omega) hpend
      (checkAccess_of_le ((accessDefined_reg _ _).2 ⟨hwidth, halign⟩) hle)
  · have hdefined : accessDefined .reg off 32 = true := (accessDefined_reg _ _).2 ⟨rfl, halign⟩
    refine ⟨fun hoff hpend => ?_, fun hpend => ?_⟩
    · obtain ⟨hpending, hbr, hstatus, hresult, hmemories, hmodels⟩ := writeReg_keeps { s with pending := rest } off v
      exact ⟨_, step_write hidle (.inr hoff) hdefined hlt hpend, hpending, hbr, hstatus, hresult, hmemories, hmodels,
        fun w hw => readReg_writeReg_same hw,
        fun other hne => (readReg_writeReg_of_ne hne).trans (readReg_pending s rest other),
        fun hother => writeReg_of_not_writable hother⟩
    · refine ⟨_, step_read hidle hdefined hlt hpend, ?_, fun hshown => ⟨readReg_pending s rest off, ?_⟩,
        fun hfield hview => readReg_of_reserved hfield hview⟩
      · rcases hostLoad_state { s with pending := rest } .reg off with h | h
        · rw [h]
        · rw [h]
          rfl
      · have hsame := congrArg State.freeCtr (readReg_snd (s := { s with pending := rest }) hshown)
        exact hsame

end Sys2Proof.Machine
end

