-- ==== Sys2Proof/Proofs/StepKeeps.lean ====
section
/-! PROOFS. What every step keeps: the invariant of the sound states (spec/10_state.md R25, R28, spec/20_memory.md R60), the
parameters (spec/10_state.md R20), and the reader that only `BR_START` makes valid (R25). -/

namespace Sys2Proof.Machine

/-! ### The parts of a sound state -/

/-- A memory in canonical form inside its space. -/
def Memory.Fits {w : Nat} (m : Memory w) (size : Nat) : Prop := Memory.wf m = true ∧ Memory.below m size = true

theorem State.memoriesOk_iff (s : State) : s.memoriesOk = true ↔
    Memory.Fits s.cl maxSyms ∧ Memory.Fits s.ce palMax ∧ Memory.Fits s.cs palMax ∧ Memory.Fits s.ae palMax ∧
    Memory.Fits s.aSel (3 * palMax) ∧ Memory.Fits s.src s.cfg.srcSize ∧ Memory.Fits s.dst s.cfg.dstMemSize := by
  simp only [State.memoriesOk, Memory.Fits, Bool.and_eq_true, and_assoc]

theorem Memory.Fits.write {w : Nat} {m : Memory w} {size a : Nat} (h : Memory.Fits m size) (ha : a < size)
    (v : BitVec w) : Memory.Fits (Memory.write m a v) size :=
  ⟨Memory.write_wf _ _ _ h.1, Memory.write_below _ _ _ _ h.2 ha⟩

theorem Memory.Fits.forgetBelow {w : Nat} {m : Memory w} {size : Nat} (h : Memory.Fits m size) (n : Nat) :
    Memory.Fits (Memory.forgetBelow m n) size :=
  ⟨Memory.forgetBelow_wf _ _ h.1, Memory.forgetBelow_below _ _ _ h.2⟩

theorem Memory.Fits.freeLengths {m : Memory 8} (h : Memory.Fits m maxSyms) (k : Nat) :
    Memory.Fits (freeLengths m k) maxSyms :=
  ⟨freeLengths_wf _ _ h.1, freeLengths_below _ _ h.2⟩

theorem Memory.Fits.writtenBy {s : State} {m m' : Memory 8} (h : Memory.Fits m s.cfg.dstMemSize)
    (hm : Memory.WrittenBy s.levelWrite m m') : Memory.Fits m' s.cfg.dstMemSize := by
  refine ⟨hm.keeps_wf h.1, hm.keeps_below ?_ h.2⟩
  rintro a bytes ⟨f, x, y, -, -, -, -, hfits⟩
  exact hfits

section
variable {s t : State}

/-- Setting a slot to what `Build` makes, or emptying it, keeps the slots sound. -/
theorem slotsOk_of_setModel {k : Nat} {m : Option Model} (h : s.slotsOk) (hmodels : t.models = (s.setModel k m).models)
    (hm : ∀ m', m = some m' → m'.lens.length = m'.n ∧ build m'.n m'.lens = .ok m') : t.slotsOk := by
  intro j m' hj
  have hmodel : t.model j = (s.setModel k m).model j := by rw [State.model, State.model, hmodels]
  rw [hmodel, State.model_setModel] at hj
  split at hj
  · exact hm m' hj
  · exact h j m' hj

theorem built_of_build {n : Nat} {lens : List Nat} {m : Model} (hlen : lens.length = n) (hbuild : build n lens = .ok m) :
    m.lens.length = m.n ∧ build m.n m.lens = .ok m := by
  obtain ⟨hn, hlens⟩ := build_n_lens n lens m hbuild
  rw [hn, hlens]
  exact ⟨hlen, hbuild⟩

theorem toNat_clCount_of_build {n : Nat} {lens : List Nat} {m : Model} (hbuild : build n lens = .ok m) :
    (BitVec.ofNat 14 n).toNat ≤ maxSyms := by
  have hn : n ≤ maxSyms := ((build_ok _ _ _).1 hbuild).2.1
  have : maxSyms < 2 ^ 14 := by decide
  rw [BitVec.toNat_ofNat, Nat.mod_eq_of_lt (by omega)]
  exact hn

theorem errorOk_of_raised {c : ErrCode} (herr : t.err = true) (hcode : t.errCode = c.code) : t.errorOk :=
  ⟨fun h => absurd herr (by simp [h]), fun _ => ⟨c, hcode⟩⟩

theorem readerOk_of_not_valid (hvalid : t.br.valid = false) : t.readerOk := fun h => absurd h (by simp [hvalid])

/-- After a command: what its frame leaves open must be sound again. -/
theorem State.Sound.of_command (h : s.Sound) (hframe : CommandFrame s t) (hidle : t.activity = .idle)
    (hcl : Memory.Fits t.cl maxSyms) (hdst : Memory.Fits t.dst s.cfg.dstMemSize) (herr : t.errorOk)
    (hreader : t.readerOk) (hslots : t.slotsOk) (hcount : t.clCount.toNat ≤ maxSyms) : t.Sound := by
  obtain ⟨-, hmem, -⟩ := h
  obtain ⟨-, hce, hcs, hae, haSel, hsrc, -⟩ := (State.memoriesOk_iff s).1 hmem
  obtain ⟨ece, ecs, eae, easel⟩ := hframe.samePalettes
  refine ⟨hidle, (State.memoriesOk_iff t).2 ⟨hcl, ?_⟩, herr, hreader, hslots, hcount⟩
  rw [ece, ecs, eae, easel, hframe.src, hframe.cfg]
  exact ⟨hce, hcs, hae, haSel, hsrc, hdst⟩

theorem State.model_reset (k : Nat) : State.reset.model k = none := by
  by_cases hk : k < 8
  · interval_cases k <;> rfl
  · exact State.model_none_of_ge _ _ (Nat.not_lt.1 hk)

theorem State.Sound.softReset (h : s.Sound) : s.softReset.Sound := by
  obtain ⟨-, hmem, -⟩ := h
  refine ⟨rfl, hmem, ⟨fun _ => ⟨rfl, rfl⟩, fun h => by cases h⟩, readerOk_of_not_valid rfl, fun k m hm => ?_, Nat.zero_le _⟩
  exact absurd ((State.model_reset k).symm.trans hm) (by simp)

/-- Every end of a command from a sound state is sound. -/
theorem CommandEnd.sound {i : Instr} (h : CommandEnd s i t) (hsound : s.Sound) : t.Sound := by
  obtain ⟨hidle, hmem, herr, hreader, hslots, hcount⟩ := id hsound
  obtain ⟨hcl, -, -, -, -, -, hdst⟩ := (State.memoriesOk_iff s).1 hmem
  obtain hframe | ⟨-, rfl⟩ := h.frame_or_reset
  case inr => exact hsound.softReset
  have hof := hsound.of_command hframe
  cases h with
  | ignored | nothing => exact hsound
  | reset => exact hsound.softReset
  | cleared => exact hof hidle hcl hdst ⟨fun _ => ⟨rfl, rfl⟩, fun h => by cases h⟩ hreader hslots hcount
  | checkFailed _ c => exact hof hidle hcl hdst (errorOk_of_raised rfl rfl) hreader hslots hcount
  | started _ hpos hfits =>
    have hlen : 1 ≤ s.arg1.toNat := Nat.one_le_iff_ne_zero.2 fun h => hpos (BitVec.eq_of_toNat_eq h)
    exact hof hidle hcl hdst herr (fun _ => ⟨hlen, hfits, rfl⟩) hslots hcount
  | answered => exact hof hidle hcl hdst herr hreader hslots hcount
  | readFailed _ _ c => exact hof hidle hcl hdst (errorOk_of_raised rfl rfl) (readerOk_of_not_valid rfl) hslots hcount
  | built k n _ m hbuild =>
    obtain ⟨lens, -, hlen, hbuild⟩ := buildFromCl_ok _ _ _ hbuild
    exact hof hidle hcl hdst herr hreader
      (slotsOk_of_setModel hslots rfl fun m' hm' => Option.some.inj hm' ▸ built_of_build hlen hbuild)
      (toNat_clCount_of_build hbuild)
  | buildFailed k n c =>
    exact hof hidle hcl hdst (errorOk_of_raised rfl rfl) hreader
      (slotsOk_of_setModel (k := k) (m := none) hslots rfl fun m' hm' => by cases hm') hcount
  | receiveRejected k c =>
    exact hof hidle (hcl.freeLengths _) hdst (errorOk_of_raised rfl rfl) hreader
      (slotsOk_of_setModel (k := k) (m := none) hslots rfl fun m' hm' => by cases hm') hcount
  | receiveFailed k c =>
    exact hof rfl (hcl.freeLengths _) hdst (errorOk_of_raised rfl rfl) (readerOk_of_not_valid rfl)
      (slotsOk_of_setModel (k := k) (m := none) hslots rfl fun m' hm' => by cases hm') hcount
  | received k n _ _ _ h =>
    obtain ⟨b, l, lens, m, rfl, hlen, hbuild, hkept⟩ := h
    exact hof rfl ⟨hkept.1 hcl.1, hkept.2 hcl.2⟩ hdst herr hreader
      (slotsOk_of_setModel hslots rfl fun m' hm' => Option.some.inj hm' ▸ built_of_build hlen hbuild)
      (toNat_clCount_of_build hbuild)
  | unpacked sch _ _ _ h =>
    obtain ⟨n, d, a, rfl, ha, hd⟩ := h
    exact hof (ha.elim id fun h => h.trans hidle) hcl (hdst.writtenBy hd) herr hreader hslots hcount
  | unpackFailed sch c =>
    exact hof rfl hcl (hdst.forgetBelow _) (errorOk_of_raised rfl rfl) (readerOk_of_not_valid rfl) hslots hcount

end

/-! ### Host accesses -/

section
variable {s t : State} {a : HostAction}

/-- A register write sets operands and configuration registers alone. -/
theorem writeReg_eq (s : State) (offset : Nat) (v : Word) : writeReg s offset v = { s with
    arg0 := (writeReg s offset v).arg0, arg1 := (writeReg s offset v).arg1, format := (writeReg s offset v).format
    faces := (writeReg s offset v).faces, lvlW := (writeReg s offset v).lvlW, lvlH := (writeReg s offset v).lvlH
    rowPitch := (writeReg s offset v).rowPitch, dstSize := (writeReg s offset v).dstSize
    ceCount := (writeReg s offset v).ceCount, csCount := (writeReg s offset v).csCount
    aeCount := (writeReg s offset v).aeCount, asCount := (writeReg s offset v).asCount } := by
  unfold writeReg
  split <;> rfl

theorem State.Sound.hostStore {sp : Space} {addr : Nat} (h : s.Sound) (haddr : addr < spaceSize s.cfg sp) (v : Word) :
    (hostStore s sp addr v).Sound := by
  obtain ⟨hidle, hmem, herr, hreader, hslots, hcount⟩ := id h
  obtain ⟨hcl, hce, hcs, hae, haSel, hsrc, hdst⟩ := (State.memoriesOk_iff s).1 hmem
  cases sp with
  | reg =>
    rw [Machine.hostStore, writeReg_eq]
    exact h
  | src => exact ⟨hidle, (State.memoriesOk_iff _).2 ⟨hcl, hce, hcs, hae, haSel, hsrc.write haddr _, hdst⟩, herr,
      readerOk_of_not_valid rfl, hslots, hcount⟩
  | dst => exact ⟨hidle, (State.memoriesOk_iff _).2 ⟨hcl, hce, hcs, hae, haSel, hsrc, hdst.write haddr _⟩, herr, hreader,
      hslots, hcount⟩
  | cl => exact ⟨hidle, (State.memoriesOk_iff _).2 ⟨hcl.write haddr _, hce, hcs, hae, haSel, hsrc, hdst⟩, herr, hreader,
      hslots, hcount⟩
  | ce => exact ⟨hidle, (State.memoriesOk_iff _).2 ⟨hcl, hce.write haddr _, hcs, hae, haSel, hsrc, hdst⟩, herr, hreader,
      hslots, hcount⟩
  | cs => exact ⟨hidle, (State.memoriesOk_iff _).2 ⟨hcl, hce, hcs.write haddr _, hae, haSel, hsrc, hdst⟩, herr, hreader,
      hslots, hcount⟩
  | ae => exact ⟨hidle, (State.memoriesOk_iff _).2 ⟨hcl, hce, hcs, hae.write haddr _, haSel, hsrc, hdst⟩, herr, hreader,
      hslots, hcount⟩
  | aSel => exact ⟨hidle, (State.memoriesOk_iff _).2 ⟨hcl, hce, hcs, hae, haSel.write haddr _, hsrc, hdst⟩, herr, hreader,
      hslots, hcount⟩

theorem State.Sound.hardReset (h : s.Sound) : s.hardReset.Sound := by
  obtain ⟨hidle, -, herr, hreader, hslots, hcount⟩ := h.softReset
  exact ⟨hidle, rfl, herr, hreader, hslots, hcount⟩

theorem State.Sound.hostAccess (h : s.Sound) (ha : hostAccess a s = .next t) : t.Sound := by
  rcases hostAccess_next a s t ha with ⟨sp, addr, width, v, -, hcheck, rfl⟩ | ⟨sp, addr, width, -, -, rfl⟩ | ⟨-, rfl⟩
  · exact h.hostStore (checkAccess_ok hcheck).2 v
  · rcases hostLoad_state s sp addr with hs | hs <;> rw [hs] <;> exact h
  · exact h.hardReset

/-- An illegal word is ignored or raises `ERR_ILLEGAL_CMD`. -/
theorem illegalCommand_next {w : Word} (h : illegalCommand w s = .next t) :
    t = s ∨ t = s.raiseError w .illegalCmd := by
  rcases (gate_next _ _ _).1 h with ⟨-, rfl⟩ | ⟨-, h⟩
  · exact .inl rfl
  · cases h
    exact .inr rfl

end

/-- The format of a decoded command word. -/
theorem fmt_of_decode_cw {w : Nat} {i : Instr} (h : decode .cw w = some i) : i.fmt = .cw :=
  (encodeDecodeAgree .cw w i h).2.1

/-- Settles O10: each case of a step keeps each part of the invariant. -/
theorem stepKeepsSound : Obligations.StepKeepsSound := by
  intro s t hsound h
  rcases step_next s t h with ⟨-, -, rfl⟩ | ⟨-, a, rest, -, ⟨w, i, -, hdec, h⟩ | ⟨w, -, -, h⟩ | ⟨-, h⟩⟩ | ⟨hrunning, -⟩
  · exact hsound
  · exact (exec_command_next (fmt_of_decode_cw hdec) h).sound hsound
  · have hs : State.Sound { s with pending := rest } := hsound
    obtain ⟨hidle, hmem, -, hreader, hslots, hcount⟩ := id hs
    rcases illegalCommand_next h with rfl | rfl
    · exact hs
    · exact ⟨hidle, hmem, errorOk_of_raised (c := .illegalCmd) rfl rfl, hreader, hslots, hcount⟩
  · have hs : State.Sound { s with pending := rest } := hsound
    exact hs.hostAccess h
  · exact absurd hsound.1 hrunning

/-- Settles O11: the state after reset is what `SOFT_RESET` makes of any state with no memory written. -/
theorem resetIsSound : Obligations.ResetIsSound := by
  have hnone : ∀ k, State.reset.model k = none := State.model_reset
  exact ⟨rfl, rfl, ⟨fun _ => ⟨rfl, rfl⟩, fun h => (nomatch h)⟩, readerOk_of_not_valid rfl,
    fun k m hm => absurd ((hnone k).symm.trans hm) (by simp), Nat.zero_le _⟩

/-! ### Inside a command -/

/-- What a piece of a step keeps: the parameters, and a reader that is not valid. -/
def Continues (s t : State) : Prop := t.cfg = s.cfg ∧ (t.br.valid = true → s.br.valid = true)

section
variable {s t u : State} {i : Instr}

theorem Continues.refl (s : State) : Continues s s := ⟨rfl, id⟩

theorem Continues.trans (h : Continues s t) (h' : Continues t u) : Continues s u :=
  ⟨h'.1.trans h.1, h.2 ∘ h'.2⟩

theorem fetchEvent_continues (h : fetchEvent s = .ok (i, t)) : Continues s t ∧ i.fmt ≠ .cw := by
  unfold fetchEvent at h
  split at h
  case h_1 => cases h
  case h_2 r hr =>
    obtain ⟨p, sym, len, -, -, hdec, rfl⟩ := fetchBoot_ok _ _ _ _ h
    exact ⟨⟨rfl, id⟩, by simp [(decode_bootsym_some hdec).2.1]⟩
  case h_3 c hc =>
    obtain ⟨ceb, n, -, hdec, rfl⟩ := fetchChunk_ok _ _ _ _ h
    exact ⟨⟨rfl, id⟩, by simp [(decode_chunkenc_some hdec).2.1]⟩
  case h_4 g hg =>
    obtain ⟨w, n, g', hdec, -, rfl⟩ := fetchRef_decode h
    exact ⟨⟨rfl, id⟩, by simp [(decode_subcode_some hdec).2.1]⟩

theorem eventBody_continues (h : eventBody i s = .ok t) : Continues s t := by
  have hsubcode : ∀ w, decode .subcode w = some i → Continues s t := by
    intro w hdec
    obtain ⟨g, n, g', -, -, rfl⟩ := eventBody_of_decode_subcode hdec h
    exact ⟨rfl, id⟩
  cases i with
  | bootLiteral015 | bootLiteral16 =>
    obtain ⟨r, -, rfl⟩ := (bootLiteral_ok _ _ _).1 h
    exact ⟨rfl, id⟩
  | bootZeroRunSmall | bootZeroRunLarge =>
    obtain ⟨r, extra, -, -, -, rfl⟩ := (bootZeroRun_ok _ _ _ _).1 h
    exact ⟨rfl, id⟩
  | bootRepeatSmall | bootRepeatLarge =>
    obtain ⟨r, extra, prev, -, -, -, -, -, -, rfl⟩ := (bootRepeat_ok _ _ _ _).1 h
    exact ⟨rfl, id⟩
  | refFreshDelta => exact hsubcode 0 rfl
  | refFromAbove => exact hsubcode 1 rfl
  | refDiagonal => exact hsubcode 2 rfl
  | refKeepRunning => exact hsubcode 3 rfl
  | tilePattern0 | tilePattern1 | tilePattern2 | tilePattern3 | tilePattern4 | tilePattern5 | tilePattern6
    | tilePattern7 =>
    obtain ⟨c, pos, rest, n, d, c', -, -, -, -, rfl⟩ := runTile_writtenBy h
    exact ⟨rfl, id⟩
  | _ => cases h

theorem retireEvent_continues (h : retireEvent s = .ok t) : Continues s t := by
  unfold retireEvent at h
  split at h
  case h_1 =>
    cases h
    exact .refl _
  case h_2 r hr =>
    unfold retireBoot at h
    split at h
    case isTrue =>
      cases h
      exact .refl _
    case isFalse =>
      obtain ⟨lens, m, -, -, -, rfl⟩ := finishModelRx_ok _ _ _ h
      exact ⟨rfl, id⟩
  case h_3 c hc =>
    rcases retireChunk_ok _ _ _ h with ⟨-, rfl⟩ | ⟨-, rfl⟩ <;> exact ⟨rfl, id⟩
  case h_4 g hg =>
    obtain ⟨pos, rest, n, d, g', -, -, -, rfl⟩ := retireRef_writtenBy h
    exact ⟨rfl, id⟩

theorem abortRunning_continues (s : State) (c : ErrCode) : Continues s (abortRunning s c) := by
  unfold abortRunning
  split
  · exact ⟨rfl, id⟩
  · rw [failModelRx_eq]
    exact ⟨rfl, fun h => by cases h⟩
  · rw [failUnpack_eq]
    exact ⟨rfl, fun h => by cases h⟩
  · rw [failUnpack_eq]
    exact ⟨rfl, fun h => by cases h⟩

/-- A piece that goes on, or else ends the command. -/
theorem settle_continues {a : Attempt State} (ha : ∀ u, a = .ok u → Continues s u)
    (h : settle (abortRunning s) a = .next t) : Continues s t := by
  rcases (settle_next _ _ _).1 h with h | ⟨c, -, rfl⟩
  · exact ha t h
  · exact abortRunning_continues s c

theorem stepEvent_continues (h : stepEvent s = .next t) : Continues s t := by
  unfold stepEvent at h
  split at h
  case h_1 => exact settle_continues (fun u hu => by cases hu) h
  case h_2 i u hfetch =>
    obtain ⟨hfetched, hfmt⟩ := fetchEvent_continues hfetch
    rw [exec_event i u hfmt] at h
    refine hfetched.trans ?_
    cases hbody : eventOutcome (eventBody i) u with
    | next v =>
      rw [hbody] at h
      have hrun : Continues u v := settle_continues (fun _ => eventBody_continues) hbody
      exact hrun.trans (settle_continues (fun _ => retireEvent_continues) h)
    | fault f =>
      rw [hbody] at h
      cases h
    | refused r =>
      rw [hbody] at h
      cases h

/-! ### Between commands -/

theorem illegalCommand_continues {w : Word} (h : illegalCommand w s = .next t) : Continues s t := by
  rcases illegalCommand_next h with rfl | rfl <;> exact ⟨rfl, id⟩

theorem hostAccess_continues {a : HostAction} (h : hostAccess a s = .next t) : Continues s t := by
  rcases hostAccess_next a s t h with ⟨sp, addr, width, v, -, -, rfl⟩ | ⟨sp, addr, width, -, -, rfl⟩ | ⟨-, rfl⟩
  · cases sp with
    | reg =>
      rw [hostStore, writeReg_eq]
      exact ⟨rfl, id⟩
    | src => exact ⟨rfl, fun h => by cases h⟩
    | _ => exact ⟨rfl, id⟩
  · rcases hostLoad_state s sp addr with hs | hs <;> rw [hs] <;> exact ⟨rfl, id⟩
  · exact ⟨rfl, fun h => by cases h⟩

theorem CommandEnd.cfg (h : CommandEnd s i t) : t.cfg = s.cfg := by
  rcases h.frame_or_reset with hframe | ⟨-, rfl⟩
  · exact hframe.cfg
  · rfl

/-- Only `BR_START` makes the reader valid, and only without an error. -/
theorem CommandEnd.valid (h : CommandEnd s i t) (hs : s.br.valid = false) (ht : t.br.valid = true) :
    i = .brStart ∧ s.err = false ∧ t.err = false := by
  cases h with
  | started herr => exact ⟨rfl, herr, herr⟩
  | reset | readFailed | receiveFailed | unpackFailed => cases ht
  | received k n _ _ _ h =>
    obtain ⟨b, l, lens, m, rfl, -⟩ := h
    exact absurd (hs.symm.trans ht) (by simp)
  | unpacked sch _ _ _ h =>
    obtain ⟨n, d, a, rfl, -⟩ := h
    exact absurd (hs.symm.trans ht) (by simp)
  | _ => exact absurd (hs.symm.trans ht) (by simp)

end

/-- Settles O12: each piece of a step keeps the parameters. -/
theorem stepKeepsParameters : Obligations.StepKeepsParameters := by
  intro s t h
  rcases step_next s t h with ⟨-, -, rfl⟩ | ⟨-, a, rest, -, ⟨w, i, -, hdec, h⟩ | ⟨w, -, -, h⟩ | ⟨-, h⟩⟩ | ⟨-, h⟩
  · rfl
  · exact (exec_command_next (fmt_of_decode_cw hdec) h).cfg
  · exact (illegalCommand_continues h).1
  · exact (hostAccess_continues h).1
  · exact (stepEvent_continues h).1

/-! ### A host write to `SRC` (spec/20_memory.md R78) -/

section
variable {s t : State}

theorem commandWord_eq_some {a : HostAction} {w : Word} (h : commandWord a = some w) : a = .write .reg 0 32 w := by
  unfold commandWord at h
  split at h
  case h_1 addr width v =>
    split at h
    case isTrue hcmd =>
      obtain ⟨haddr, hwidth⟩ := hcmd
      rw [haddr, hwidth, Option.some.inj h]
      rfl
    case isFalse => cases h
  all_goals cases h

theorem word_of_decode_brStart {w : Word} (h : decode .cw w.toNat = some .brStart) : w = 0x01000000 := by
  obtain ⟨-, -, henc⟩ := encodeDecodeAgree .cw w.toNat _ h
  exact BitVec.eq_of_toNat_eq (henc.symm.trans (by decide))

/-- A `BR_START` that raises no error starts the reader on `SRC` as it is. -/
theorem CommandEnd.reader_of_brStart {i : Instr} (h : CommandEnd s i t) (hi : i = .brStart) (ht : t.err = false) :
    t.br.valid = true ∧ t.br.bitpos = 0 ∧ t.src = s.src := by
  cases h with
  | started => exact ⟨rfl, rfl, rfl⟩
  | ignored _ herr => exact absurd (herr.symm.trans ht) (by simp)
  | checkFailed => cases ht
  | answered _ hi' | readFailed _ hi' => simp [Instr.answersValue, hi] at hi'
  | unpacked sch | unpackFailed sch => cases sch <;> cases hi
  | _ => cases hi

end

/-- Settles O60: the write, the checks of the six commands, and the reader that every other step leaves not valid. -/
theorem sourceWriteStopsTheReader : Obligations.SourceWriteStopsTheReader := by
  refine ⟨fun s a v rest hidle herr ha hpend => ?_, fun s t h hs ht => ?_⟩
  · refine ⟨hostStore { s with pending := rest } .src a v, step_write hidle (.inl (by simp)) rfl ha hpend, rfl, herr, rfl,
      ?_, fun b hb => ?_, ?_⟩
    · exact (Memory.read_write _ _ _ _).trans (if_pos rfl)
    · exact (Memory.read_write _ _ _ _).trans (if_neg hb)
    · obtain ⟨hget, hread, hdecode, hreceive, hchunk, hrefgrp⟩ := 
        streamCommandsNeedAReader (hostStore { s with pending := rest } .src a v) herr rfl
      refine ⟨hget, hread, hdecode, hreceive, hchunk, hrefgrp, fun u hu herru => ?_⟩
      obtain ⟨hvalid, hpos, hsrc⟩ := (exec_command_next rfl hu).reader_of_brStart rfl herru
      exact ⟨hvalid, hpos, fun p b hp hb => streamBit_of_read hp (hsrc ▸ hb)⟩
  · rcases step_next s t h with
      ⟨-, -, rfl⟩ | ⟨hidle, a, rest, hpend, ⟨w, i, hw, hdec, h⟩ | ⟨w, -, -, h⟩ | ⟨-, h⟩⟩ | ⟨-, h⟩
    · exact absurd (hs.symm.trans ht) (by simp)
    · obtain ⟨rfl, herr, herrt⟩ := (exec_command_next (fmt_of_decode_cw hdec) h).valid hs ht
      rw [commandWord_eq_some hw, word_of_decode_brStart hdec] at hpend
      exact ⟨hidle, herr, herrt, rest, hpend⟩
    · exact absurd (hs.symm.trans ((illegalCommand_continues h).2 ht)) (by simp)
    · exact absurd (hs.symm.trans ((hostAccess_continues h).2 ht)) (by simp)
    · exact absurd (hs.symm.trans ((stepEvent_continues h).2 ht)) (by simp)

end Sys2Proof.Machine
end

