-- ==== Sys2Proof/Proofs/ChunkRegister.lean ====
section
/-! PROOFS. The bit-packed register of chunk encodings (spec/43_unpack_chunk.md R233). -/

namespace Sys2Proof.Machine

theorem decode_chunkenc_tileInstr {e : Nat} (he : e < 8) : decode .chunkenc e = some (tileInstr e) := by
  interval_cases e <;> rfl

/-- A refilled register is the symbol with bit 9 set. -/
theorem toNat_refilled {v : Nat} (hv : v < 512) : (BitVec.ofNat 10 v ||| 512).toNat = v + 512 := by
  have hor : v ||| 512 = v + 512 := by
    rw [Nat.or_comm, Nat.add_comm]
    exact (Nat.two_pow_add_eq_or_of_lt (i := 9) hv 1).symm
  rw [BitVec.toNat_or, BitVec.toNat_ofNat, Nat.mod_eq_of_lt (by omega)]
  exact hor

theorem toNat_and_seven (ceb : BitVec 10) : (ceb &&& 7).toNat = ceb.toNat % 8 := by
  rw [BitVec.toNat_and]
  exact Nat.and_two_pow_sub_one_eq_mod _ 3

theorem ushiftRight_three (ceb : BitVec 10) : ceb >>> 3 = BitVec.ofNat 10 (ceb.toNat / 8) := by
  apply BitVec.eq_of_toNat_eq
  rw [BitVec.toNat_ushiftRight, BitVec.toNat_ofNat, Nat.shiftRight_eq_div_pow, Nat.mod_eq_of_lt (by omega)]

section
variable {s u : State} {c : ChunkState} {v : Nat}

/-- A symbol too large for an exhausted register. -/
theorem fetchChunk_of_le (hceb : c.ceb = 1) (hdecode : decodeSlot 0 s = .ok (v, u)) (hv : 512 ≤ v) :
    fetchChunk c s = .error (.error .symValue) := by
  have hrefill : refillEncodings c s = .error (.error .symValue) := by
    rw [refillEncodings, if_pos hceb, hdecode, attempt_ok_bind]
    exact if_pos hv
  rw [fetchChunk, hrefill, attempt_error_bind]

/-- An exhausted register is refilled, and the symbol's low field is the encoding. -/
theorem fetchChunk_of_refill (hceb : c.ceb = 1) (hdecode : decodeSlot 0 s = .ok (v, u)) (hv : v < 512) :
    fetchChunk c s =
      .ok (tileInstr (v % 8), u.setActivity (.chunk { c with ceb := BitVec.ofNat 10 ((v + 512) / 8) })) := by
  rw [fetchChunk_of_exhausted hceb hdecode hv (decode_chunkenc_tileInstr (Nat.mod_lt _ (by decide))), ushiftRight_three,
    toNat_refilled hv]

/-- A register that is not exhausted gives its low field without a decode. -/
theorem fetchChunk_of_ne (hceb : c.ceb ≠ 1) : fetchChunk c s =
    .ok (tileInstr (c.ceb.toNat % 8), s.setActivity (.chunk { c with ceb := BitVec.ofNat 10 (c.ceb.toNat / 8) })) := by
  have hdec := decode_chunkenc_tileInstr (Nat.mod_lt c.ceb.toNat (by decide : 0 < 8))
  rw [fetchChunk, refillEncodings, if_neg hceb, attempt_ok_bind]
  simp only [toNat_and_seven, hdec, ushiftRight_three]

end

/-- Settles O46: bit 9 marks three fields still to use, so the third shift leaves 1. -/
theorem chunkEncodingsComeInThrees : Obligations.ChunkEncodingsComeInThrees :=
  ⟨fun _ _ _ _ hceb hdecode => ⟨fetchChunk_of_le hceb hdecode, fetchChunk_of_refill hceb hdecode⟩,
    fun _ _ => fetchChunk_of_ne, fun _ _ => by omega⟩

end Sys2Proof.Machine
end

