-- ==== Sys2Proof/Proofs/Subcodes.lean ====
section
/-! PROOFS. The group register and the sub-codes of `UNPACK_REFGRP` (spec/44_unpack_refgroup.md R264 to R267). -/

namespace Sys2Proof.Machine

/-! ### The group register (R264, R265) -/

section
variable {s u : State} {g g' : RefState} {pos : BlockPos} {rest : List BlockPos} {v : Nat}

/-- On an even row the low field is used, the next one kept for the block below, and the register shifted by both. -/
theorem subCode_of_even (hy : pos.y % 2 = 0) : subCode pos g = (g.rg.toNat % 4, { g with
    rg := BitVec.ofNat 8 (g.rg.toNat / 16)
    col := g.col.set pos.x { g.column pos.x with kind := BitVec.ofNat 2 (g.rg.toNat / 4) } }) := by
  have hlow : (g.rg &&& 3).toNat = g.rg.toNat % 4 := by
    rw [BitVec.toNat_and]
    exact Nat.and_two_pow_sub_one_eq_mod _ 2
  have hkept : ((g.rg >>> 2) &&& 3).setWidth 2 = BitVec.ofNat 2 (g.rg.toNat / 4) := by
    apply BitVec.eq_of_toNat_eq
    have hand : (g.rg.toNat / 4) &&& 3 = g.rg.toNat / 4 % 4 := Nat.and_two_pow_sub_one_eq_mod _ 2
    rw [BitVec.toNat_setWidth, BitVec.toNat_and, BitVec.toNat_ushiftRight, Nat.shiftRight_eq_div_pow,
      BitVec.toNat_ofNat]
    exact (congrArg (· % 2 ^ 2) hand).trans (Nat.mod_mod _ _)
  have hshift : g.rg >>> 4 = BitVec.ofNat 8 (g.rg.toNat / 16) := by
    apply BitVec.eq_of_toNat_eq
    rw [BitVec.toNat_ushiftRight, BitVec.toNat_ofNat, Nat.shiftRight_eq_div_pow, Nat.mod_eq_of_lt (by omega)]
  rw [subCode, if_pos hy, hlow, hkept, hshift]
  rfl

/-- On an odd row the field that the block above has kept. -/
theorem subCode_of_odd (hy : pos.y % 2 = 1) : subCode pos g = ((g.column pos.x).kind.toNat, g) := by
  rw [subCode, if_neg (by omega)]

theorem exists_decode_subcode {k : Nat} (hk : k < 4) : ∃ i, decode .subcode k = some i := by
  interval_cases k <;> exact ⟨_, rfl⟩

theorem fetchRef_of_loadGroup {i : Instr} (hscan : g.scan = pos :: rest)
    (hload : loadGroup pos (enterFace pos g) s = .ok (g', u)) (hi : decode .subcode (subCode pos g').1 = some i) :
    fetchRef g s = .ok (i, u.setActivity (.refgrp (subCode pos g').2)) := by
  rw [fetchRef, hscan]
  simp only
  rw [hload, attempt_ok_bind]
  simp only [hi]

/-- At the top-left block of a neighbourhood one symbol is decoded. -/
theorem loadGroup_of_decode (hy : pos.y % 2 = 0) (hx : pos.x % 2 = 0) (hdecode : decodeSlot 0 s = .ok (v, u))
    (hv : v < 256) : loadGroup pos g s = .ok ({ g with rg := BitVec.ofNat 8 v }, u) := by
  rw [loadGroup, if_pos ⟨hy, hx⟩, hdecode, attempt_ok_bind]
  exact if_neg (Nat.not_le.2 hv)

theorem fetchRef_of_le (hscan : g.scan = pos :: rest) (hy : pos.y % 2 = 0) (hx : pos.x % 2 = 0)
    (hdecode : decodeSlot 0 s = .ok (v, u)) (hv : 256 ≤ v) : fetchRef g s = .error (.error .symValue) := by
  have hload : loadGroup pos (enterFace pos g) s = .error (.error .symValue) := by
    rw [loadGroup, if_pos ⟨hy, hx⟩, hdecode, attempt_ok_bind]
    exact if_pos hv
  rw [fetchRef, hscan]
  simp only
  rw [hload, attempt_error_bind]

/-- Elsewhere none is. -/
theorem loadGroup_of_inside (hinside : pos.y % 2 = 1 ∨ pos.x % 2 = 1) : loadGroup pos g s = .ok (g, s) := by
  rw [loadGroup, if_neg (by omega)]

theorem enterFace_of_inside (hinside : pos.y % 2 = 1 ∨ pos.x % 2 = 1) : enterFace pos g = g := by
  rw [enterFace, if_neg (by omega)]

/-- The fetch at a top-left block. -/
theorem fetchRef_of_topLeft (hscan : g.scan = pos :: rest) (hy : pos.y % 2 = 0) (hx : pos.x % 2 = 0)
    (hdecode : decodeSlot 0 s = .ok (v, u)) (hv : v < 256) : ∃ i, decode .subcode (v % 4) = some i ∧
      fetchRef g s = .ok (i, u.setActivity (.refgrp { enterFace pos g with
        rg := BitVec.ofNat 8 (v / 16)
        col := (enterFace pos g).col.set pos.x
          { (enterFace pos g).column pos.x with kind := BitVec.ofNat 2 (v / 4) } })) := by
  obtain ⟨i, hi⟩ := exists_decode_subcode (Nat.mod_lt v (by decide : 0 < 4))
  have hrg : (BitVec.ofNat 8 v).toNat = v := by rw [BitVec.toNat_ofNat, Nat.mod_eq_of_lt hv]
  have hsub := subCode_of_even (g := { enterFace pos g with rg := BitVec.ofNat 8 v }) hy
  simp only [hrg] at hsub
  have hfetch := fetchRef_of_loadGroup (i := i) hscan (loadGroup_of_decode hy hx hdecode hv) (by rw [hsub]; exact hi)
  rw [hsub] at hfetch
  exact ⟨i, hi, hfetch⟩

/-- The fetch at the right-hand block of an even row. -/
theorem fetchRef_of_topRight (hscan : g.scan = pos :: rest) (hy : pos.y % 2 = 0) (hx : pos.x % 2 = 1) :
    ∃ i, decode .subcode (g.rg.toNat % 4) = some i ∧ fetchRef g s = .ok (i, s.setActivity (.refgrp { g with
      rg := BitVec.ofNat 8 (g.rg.toNat / 16)
      col := g.col.set pos.x { g.column pos.x with kind := BitVec.ofNat 2 (g.rg.toNat / 4) } })) := by
  obtain ⟨i, hi⟩ := exists_decode_subcode (Nat.mod_lt g.rg.toNat (by decide : 0 < 4))
  have hload : loadGroup pos (enterFace pos g) s = .ok (g, s) := by
    rw [enterFace_of_inside (.inr hx), loadGroup_of_inside (.inr hx)]
  have hfetch := fetchRef_of_loadGroup (i := i) hscan hload (by rw [subCode_of_even hy]; exact hi)
  rw [subCode_of_even hy] at hfetch
  exact ⟨i, hi, hfetch⟩

/-- The fetch on an odd row. -/
theorem fetchRef_of_bottom (hscan : g.scan = pos :: rest) (hy : pos.y % 2 = 1) :
    ∃ i, decode .subcode (g.column pos.x).kind.toNat = some i ∧ fetchRef g s = .ok (i, s.setActivity (.refgrp g)) := by
  obtain ⟨i, hi⟩ := exists_decode_subcode (g.column pos.x).kind.isLt
  have hload : loadGroup pos (enterFace pos g) s = .ok (g, s) := by
    rw [enterFace_of_inside (.inl hy), loadGroup_of_inside (.inl hy)]
  have hfetch := fetchRef_of_loadGroup (i := i) hscan hload (by rw [subCode_of_odd hy]; exact hi)
  rw [subCode_of_odd hy] at hfetch
  exact ⟨i, hi, hfetch⟩

end

/-- Settles O50: the three kinds of position, and a symbol too large. -/
theorem subcodesAreUnpacked : Obligations.SubcodesAreUnpacked := by
  intro s u g g0 pos rest hscan hg0
  have henter : enterFace pos g = g0 := hg0.symm
  subst henter
  exact ⟨fun v hy hx hdecode => ⟨fetchRef_of_le hscan hy hx hdecode, fetchRef_of_topLeft hscan hy hx hdecode⟩,
    fetchRef_of_topRight hscan, fetchRef_of_bottom hscan⟩

/-! ### The sub-codes (R266, R267) -/

/-- Setting each plane in turn to a value of its own. -/
theorem foldl_set_eq_setPlanes (ps : List Plane) (r : PlaneRegs) (idx : Plane → Half) :
    ps.foldl (fun r p => r.set p (idx p)) r = setPlanes ps r idx := by
  induction ps generalizing r with
  | nil => rfl
  | cons p rest ih => rw [List.foldl_cons, ih, setPlanes_cons r rfl fun _ _ => rfl]

theorem epCount_le (s : State) (p : Plane) : s.epCount p ≤ 65535 := by
  have hhalf (v : Half) : v.toNat ≤ 65535 := Nat.le_of_lt_succ v.isLt
  cases p
  · exact hhalf s.ceCount
  · exact hhalf s.aeCount
  · exact hhalf s.aeCount

theorem cacheIndices_eq (ps : List Plane) (x : Nat) (g : RefState) : cacheIndices ps x g =
    { g with col := g.col.set x { g.column x with idx := setPlanes ps (g.column x).idx g.ep.get } } := by
  rw [cacheIndices, foldl_set_eq_setPlanes]
  rfl

/-- The running indices after a fresh delta for each plane. -/
def State.freshIndices (s : State) (ps : List Plane) (syms : List Nat) (ep : PlaneRegs) : PlaneRegs :=
  setPlanes ps ep fun p => deltaIndex (ep.get p) (planeSymbol ps syms p) (s.epCount p)

section
variable {s u : State} {g : RefState} {ps : List Plane} {syms : List Nat} {pos : BlockPos} {rest : List BlockPos}

/-- Sub-code 0: each plane's index follows from its own symbol. -/
theorem freshDelta_of_decodeSeq (hnodup : ps.Nodup) (hdecode : decodeSeq s (ps.map Plane.epSlot) = .ok (syms, u)) :
    freshDelta g s ps = .ok ({ g with ep := s.freshIndices ps syms g.ep }, u) := by
  induction ps generalizing s g syms with
  | nil =>
    cases hdecode
    rfl
  | cons p rest ih =>
    obtain ⟨hp, hnodup⟩ := List.nodup_cons.1 hnodup
    obtain ⟨d, ds, t, hfirst, hothers, rfl⟩ := decodeSeq_cons_ok.1 hdecode
    obtain ⟨n, rfl⟩ := decodeSlot_advance _ _ _ _ hfirst
    have hne : ∀ q ∈ rest, q ≠ p := fun q hq hqp => hp (hqp ▸ hq)
    have hdelta := (decodeEndpoint_ok p g.ep _ s _).2 ⟨d, hfirst, rfl⟩
    rw [freshDelta, hdelta, attempt_ok_bind]
    have hindices : s.freshIndices (p :: rest) (d :: ds) g.ep =
        (s.advance n).freshIndices rest ds (g.ep.set p (deltaIndex (g.ep.get p) d (s.epCount p))) := by
      refine setPlanes_cons g.ep (by rw [planeSymbol_cons_self]) fun q hq => ?_
      rw [planeSymbol_cons_of_ne (hne q hq).symm, PlaneRegs.get_set, if_neg (hne q hq)]
      rfl
    rw [hindices]
    exact ih (g := { g with ep := g.ep.set p _ }) hnodup hothers

/-- Sub-code 2: each plane in turn takes what `DiagRule` answers. -/
theorem diagonal_eq (s : State) (pos : BlockPos) (ps : List Plane) (g : RefState) : diagonal s pos ps g =
    { g with ep := (diagonalAnswers s pos g ps).1, diag := (diagonalAnswers s pos g ps).2 } := by
  induction ps generalizing g with
  | nil => rfl
  | cons p rest ih => exact ih (diagonalPlane s pos p g)

theorem get_diagonalAnswers (s : State) (pos : BlockPos) (g : RefState) {p : Plane}
    (hcounts : ∀ p ∈ ps, 0 < s.epCount p) :
    (p ∈ ps → ((diagonalAnswers s pos g ps).1.get p).toNat < s.epCount p) ∧
    (p ∉ ps → (diagonalAnswers s pos g ps).1.get p = g.ep.get p) := by
  induction ps generalizing g with
  | nil => exact ⟨fun h => by simp at h, fun _ => rfl⟩
  | cons q rest ih =>
    obtain ⟨hq, hrest⟩ := List.forall_mem_cons.1 hcounts
    have hstep : diagonalAnswers s pos g (q :: rest) = diagonalAnswers s pos (diagonalPlane s pos q g) rest := rfl
    obtain ⟨hin, hout⟩ := ih (diagonalPlane s pos q g) hrest
    have hget : ∀ r, (diagonalPlane s pos q g).ep.get r = if r = q then BitVec.ofNat 16
        ((Config.diagRule ⟨s.fmt, q, pos.x, pos.y, g.ep, g.col, g.diag⟩).1 % s.epCount q) else g.ep.get r :=
      fun r => PlaneRegs.get_set _ _ _ _
    rw [hstep]
    refine ⟨fun hp => ?_, fun hp => ?_⟩
    · by_cases hmem : p ∈ rest
      · exact hin hmem
      · obtain rfl : p = q := (List.mem_cons.1 hp).resolve_right hmem
        have hlt := Nat.mod_lt (Config.diagRule ⟨s.fmt, p, pos.x, pos.y, g.ep, g.col, g.diag⟩).1 hq
        have hle := epCount_le s p
        rw [hout hmem, hget, if_pos rfl, BitVec.toNat_ofNat, Nat.mod_eq_of_lt (by omega)]
        exact hlt
    · obtain ⟨hne, hmem⟩ := not_or.1 (List.mem_cons.not.1 hp)
      rw [hout hmem, hget, if_neg hne]

/-- A sub-code sets the running indices, then the column keeps them. -/
theorem applyReference_of_ok {change : BlockPos → List Plane → RefState → State → Attempt (RefState × State)}
    {ep : PlaneRegs} {diag : Nat} (hactivity : s.activity = .refgrp g) (hscan : g.scan = pos :: rest)
    (hchange : change pos (s.planes .refgrp) g s = .ok ({ g with ep := ep, diag := diag }, u))
    (hu : ∃ n, u = s.advance n) : applyReference change s =
      .ok (u.setActivity (.refgrp { referenced (s.planes .refgrp) pos.x g ep with diag := diag })) := by
  obtain ⟨n, rfl⟩ := hu
  refine (applyReference_ok change s _).2 ⟨g, pos, rest, _, _, hactivity, hscan, hchange, ?_⟩
  have hcache := cacheIndices_eq (s.planes .refgrp) pos.x { g with ep := ep, diag := diag }
  have hplanes : (s.advance n).planes .refgrp = s.planes .refgrp := rfl
  rw [hplanes, hcache]
  rfl

theorem refFreshDelta_of_decodeSeq (hactivity : s.activity = .refgrp g) (hscan : g.scan = pos :: rest)
    (hnodup : (s.planes .refgrp).Nodup) (hdecode : decodeSeq s ((s.planes .refgrp).map Plane.epSlot) = .ok (syms, u)) :
    refFreshDelta s = .ok (u.setActivity (.refgrp (referenced (s.planes .refgrp) pos.x g
      (s.freshIndices (s.planes .refgrp) syms g.ep)))) :=
  applyReference_of_ok (change := fun _ ps g s => freshDelta g s ps) (diag := g.diag) hactivity hscan
    (freshDelta_of_decodeSeq hnodup hdecode) (decodeSeq_advance hdecode)

theorem refFromAbove_of_scan (hactivity : s.activity = .refgrp g) (hscan : g.scan = pos :: rest) :
    refFromAbove s = .ok (s.setActivity (.refgrp (referenced (s.planes .refgrp) pos.x g
      (setPlanes (s.planes .refgrp) g.ep fun p => (g.column pos.x).idx.get p)))) := by
  have habove : fromAbove (s.planes .refgrp) pos.x g =
      { g with ep := setPlanes (s.planes .refgrp) g.ep fun p => (g.column pos.x).idx.get p } := by
    rw [fromAbove, foldl_set_eq_setPlanes]
  exact applyReference_of_ok (change := fun pos ps g s => .ok (fromAbove ps pos.x g, s)) (diag := g.diag) hactivity
    hscan (congrArg (fun g => Except.ok (g, s)) habove) ⟨0, rfl⟩

theorem refKeepRunning_of_scan (hactivity : s.activity = .refgrp g) (hscan : g.scan = pos :: rest) :
    refKeepRunning s = .ok (s.setActivity (.refgrp (referenced (s.planes .refgrp) pos.x g g.ep))) :=
  applyReference_of_ok (change := fun _ _ g s => .ok (g, s)) (ep := g.ep) (diag := g.diag) hactivity hscan rfl ⟨0, rfl⟩

theorem refDiagonal_of_scan (hactivity : s.activity = .refgrp g) (hscan : g.scan = pos :: rest)
    (hgiven : s.cfg.diagRuleGiven = true) : refDiagonal s = .ok (s.setActivity (.refgrp
      { referenced (s.planes .refgrp) pos.x g (diagonalAnswers s pos g (s.planes .refgrp)).1 with
        diag := (diagonalAnswers s pos g (s.planes .refgrp)).2 })) := by
  refine applyReference_of_ok hactivity hscan ?_ ⟨0, rfl⟩
  rw [if_pos hgiven, diagonal_eq]

end

/-- Settles O48: what each sub-code does to the running indices before the column keeps them. -/
theorem subcodesSetTheIndices : Obligations.SubcodesSetTheIndices := by
  intro s g pos rest ps hactivity hscan hps hnodup hcounts
  subst hps
  refine ⟨fun syms u hdecode => ?_, exec_event_of_ok (by decide) (refFromAbove_of_scan hactivity hscan),
    exec_event_of_ok (by decide) (refKeepRunning_of_scan hactivity hscan), fun hgiven ep diag hanswers => ?_⟩
  · have hbody := refFreshDelta_of_decodeSeq hactivity hscan hnodup hdecode
    obtain ⟨n, rfl⟩ := decodeSeq_advance hdecode
    exact exec_event_of_ok (by decide) hbody
  · have hbody := refDiagonal_of_scan hactivity hscan hgiven
    rw [← hanswers] at hbody
    have hget := fun p => get_diagonalAnswers s pos g (p := p) hcounts
    rw [← hanswers] at hget
    exact ⟨exec_event_of_ok (by decide) hbody, fun p => (hget p).1, fun p => (hget p).2⟩

end Sys2Proof.Machine
end

