-- ==== Sys2Proof/Proofs/PlacedBlocks.lean ====
section
/-! PROOFS. Blocks written one after another: visible blocks of a level at different places do not overlap, so each holds
its bytes at the end (spec/20_memory.md R66, R72). -/

namespace Sys2Proof.Machine

/-- A block of the level: its face, column and row, and its bytes. -/
structure PlacedBlock where
  f : Nat
  x : Nat
  y : Nat
  bytes : List Byte

/-- `DST` after a block is written where it is visible. -/
def State.writePlaced (s : State) (m : Memory 8) (b : PlacedBlock) : Memory 8 :=
  (s.setDst m).dstAfterBlock b.f b.x b.y b.bytes

/-- `DST` after blocks are written in this order. -/
def State.writeAll (s : State) (m : Memory 8) (bs : List PlacedBlock) : Memory 8 := bs.foldl s.writePlaced m

/-- A block of a face of the level, of `BPB` bytes. -/
def State.placed (s : State) (b : PlacedBlock) : Prop := b.f < s.faces.toNat ∧ b.bytes.length = s.bpb

/-- Two blocks at different places. -/
def PlacedBlock.Apart (a b : PlacedBlock) : Prop := a.f ≠ b.f ∨ a.x ≠ b.x ∨ a.y ≠ b.y

section
variable {s : State} {sch : Scheme} {m : Memory 8} {b : PlacedBlock} {bs : List PlacedBlock} {a : Nat}

theorem State.writeAll_append (s : State) (m : Memory 8) (bs bs' : List PlacedBlock) :
    s.writeAll m (bs ++ bs') = s.writeAll (s.writeAll m bs) bs' := List.foldl_append

/-- What lies outside every visible block keeps its bytes. -/
theorem read_writeAll (houtside : ∀ b ∈ bs, s.visible b.x b.y = true →
      a < s.blockAddr b.f b.x b.y ∨ s.blockAddr b.f b.x b.y + b.bytes.length ≤ a) :
    Memory.read (s.writeAll m bs) a = Memory.read m a := by
  induction bs generalizing m with
  | nil => rfl
  | cons b rest ih =>
    obtain ⟨hb, hrest⟩ := List.forall_mem_cons.1 houtside
    exact (ih hrest).trans (read_dstAfterBlock (s := s.setDst m) hb)

/-- Visible blocks at different places of the level do not overlap. -/
theorem blockAddr_disjoint (hchecks : s.firstCheck sch = none) {f x y f' x' y' : Nat} (hvisible : s.visible x y = true)
    (hvisible' : s.visible x' y' = true) (hapart : f ≠ f' ∨ x ≠ x' ∨ y ≠ y') :
    s.blockAddr f x y + s.bpb ≤ s.blockAddr f' x' y' ∨ s.blockAddr f' x' y' + s.bpb ≤ s.blockAddr f x y := by
  simp only [State.visible, Bool.and_eq_true, decide_eq_true_eq] at hvisible hvisible'
  obtain ⟨hpitch, hsize, -⟩ := levelFits_of_firstCheck hchecks
  have hrow : ∀ x < s.bx, x * s.bpb + s.bpb ≤ s.rowPitch.toNat := fun x hx => by
    rw [← Nat.succ_mul]
    exact (Nat.mul_le_mul_right _ hx).trans hpitch
  have hface : ∀ y < s.by', y * s.rowPitch.toNat + s.rowPitch.toNat ≤ s.dstSize.toNat := fun y hy => by
    rw [← Nat.succ_mul, Nat.mul_comm]
    exact (Nat.mul_le_mul_left _ hy).trans hsize
  have hbefore : ∀ {i j : Nat} (n : Nat), i < j → i * n + n ≤ j * n := fun n h => by
    rw [← Nat.succ_mul]
    exact Nat.mul_le_mul_right _ h
  have hx := hrow x hvisible.1
  have hx' := hrow x' hvisible'.1
  have hy := hface y hvisible.2
  have hy' := hface y' hvisible'.2
  simp only [State.blockAddr]
  rcases Nat.lt_trichotomy f f' with hlt | rfl | hlt
  · have := hbefore s.dstSize.toNat hlt
    omega
  · rcases Nat.lt_trichotomy y y' with hlt | rfl | hlt
    · have := hbefore s.rowPitch.toNat hlt
      omega
    · rcases Nat.lt_trichotomy x x' with hlt | rfl | hlt
      · have := hbefore s.bpb hlt
        omega
      · simp at hapart
      · have := hbefore s.bpb hlt
        omega
    · have := hbefore s.rowPitch.toNat hlt
      omega
  · have := hbefore s.dstSize.toNat hlt
    omega

/-- Of blocks at different places each visible one holds its bytes at the end. -/
theorem read_writeAll_of_mem (hchecks : s.firstCheck sch = none) (hplaced : ∀ b ∈ bs, s.placed b)
    (hapart : bs.Pairwise PlacedBlock.Apart) (hb : b ∈ bs) (hvisible : s.visible b.x b.y = true) {j : Nat}
    (hj : j < b.bytes.length) :
    Memory.read (s.writeAll m bs) (s.blockAddr b.f b.x b.y + j) = b.bytes[j]? := by
  obtain ⟨before, after, rfl⟩ := List.append_of_mem hb
  obtain ⟨-, hafter, -⟩ := List.pairwise_append.1 hapart
  obtain ⟨hapart', -⟩ := List.pairwise_cons.1 hafter
  have hlength : b.bytes.length = s.bpb := (hplaced b hb).2
  rw [State.writeAll_append]
  have hlater : Memory.read (s.writeAll (s.writePlaced (s.writeAll m before) b) after) (s.blockAddr b.f b.x b.y + j) =
      Memory.read (s.writePlaced (s.writeAll m before) b) (s.blockAddr b.f b.x b.y + j) := by
    refine read_writeAll fun c hc hvisible' => ?_
    have hlength' : c.bytes.length = s.bpb :=
      (hplaced c (List.mem_append_right _ (List.mem_cons_of_mem _ hc))).2
    have := blockAddr_disjoint (f := b.f) (f' := c.f) hchecks hvisible hvisible' (hapart' c hc)
    omega
  have hwritten : (s.setDst (s.writePlaced (s.writeAll m before) b)).dstHolds (s.blockAddr b.f b.x b.y) b.bytes :=
    State.dstHolds_dstAfterBlock (s := s.setDst (s.writeAll m before)) rfl hvisible
  exact hlater.trans (hwritten j hj)

end

end Sys2Proof.Machine
end

