-- ==== Sys2Proof/Proofs/ChunkRecord.lean ====
section
/-! PROOFS. The decodes of a chunk record (spec/43_unpack_chunk.md R234, R236): each plane's registers follow from its own
symbols, whatever the other planes' are. -/

namespace Sys2Proof.Machine

/-! ### Sequences of decodes -/

section
variable {s t u : State} {ks ks' : List Nat} {syms : List Nat}

theorem decodeSeq_append_ok : decodeSeq s (ks ++ ks') = .ok (syms, u) ↔
    ∃ xs ys t, decodeSeq s ks = .ok (xs, t) ∧ decodeSeq t ks' = .ok (ys, u) ∧ syms = xs ++ ys := by
  induction ks generalizing s syms with
  | nil =>
    constructor
    · exact fun h => ⟨[], syms, s, rfl, h, rfl⟩
    · rintro ⟨xs, ys, t, h, h', rfl⟩
      cases h
      exact h'
  | cons k rest ih =>
    rw [List.cons_append, decodeSeq_cons_ok]
    constructor
    · rintro ⟨d, ds, t, hd, h, rfl⟩
      obtain ⟨xs, ys, t', hxs, hys, rfl⟩ := ih.1 h
      exact ⟨d :: xs, ys, t', decodeSeq_cons_ok.2 ⟨d, xs, t, hd, hxs, rfl⟩, hys, rfl⟩
    · rintro ⟨xs, ys, t', h, hys, rfl⟩
      obtain ⟨d, ds, t, hd, hds, rfl⟩ := decodeSeq_cons_ok.1 h
      exact ⟨d, ds ++ ys, t, hd, ih.2 ⟨ds, ys, t', hds, hys, rfl⟩, rfl⟩

/-- There is one symbol for each slot. -/
theorem length_of_decodeSeq (h : decodeSeq s ks = .ok (syms, u)) : syms.length = ks.length := by
  induction ks generalizing s syms with
  | nil =>
    cases h
    rfl
  | cons k rest ih =>
    obtain ⟨d, ds, t, -, hds, rfl⟩ := decodeSeq_cons_ok.1 h
    rw [List.length_cons, List.length_cons, ih hds]

/-- The symbols of the first slots are the first symbols. -/
theorem decodeSeq_append_of_length {xs ys : List Nat} (h : decodeSeq s (ks ++ ks') = .ok (xs ++ ys, u))
    (hlength : xs.length = ks.length) : ∃ t, decodeSeq s ks = .ok (xs, t) ∧ decodeSeq t ks' = .ok (ys, u) := by
  obtain ⟨xs', ys', t, hxs, hys, heq⟩ := decodeSeq_append_ok.1 h
  obtain ⟨rfl, rfl⟩ := List.append_inj heq (hlength.trans (length_of_decodeSeq hxs).symm)
  exact ⟨t, hxs, hys⟩

end

/-! ### Running indices -/

/-- An index after deltas. -/
def runDeltas (count : Nat) (idx : Half) (ds : List Nat) : Half := ds.foldl (fun i d => deltaIndex i d count) idx

theorem runDeltas_append (count : Nat) (idx : Half) (ds ds' : List Nat) :
    runDeltas count idx (ds ++ ds') = runDeltas count (runDeltas count idx ds) ds' := List.foldl_append

theorem runDeltas_toNat {count : Nat} {ds : List Nat} (idx : Half) (hne : ds ≠ []) (hpos : 0 < count)
    (hle : count ≤ 65535) : (runDeltas count idx ds).toNat = (idx.toNat + ds.sum) % count := by
  obtain ⟨d, rest, rfl⟩ := List.exists_cons_of_ne_nil hne
  exact foldl_deltaIndex_toNat idx d rest hpos hle

/-! ### The tile registers -/

theorem PlaneRegs.set_set (r : PlaneRegs) (p : Plane) (v w : Half) : (r.set p v).set p w = r.set p w := by
  cases p <;> rfl

section
variable {r : TileRegs} {p q : Plane} {i k : Nat} {v : Half}

theorem TileRegs.full_set (h : r.full) : (r.set p i v).full := by
  obtain ⟨hc, ha0, ha1⟩ := h
  cases p
  · exact ⟨List.length_set.trans hc, ha0, ha1⟩
  · exact ⟨hc, List.length_set.trans ha0, ha1⟩
  · exact ⟨hc, ha0, List.length_set.trans ha1⟩

theorem TileRegs.get_set (h : r.full) (hi : i < 4) :
    (r.set p i v).get q k = if q = p ∧ k = i then v else r.get q k := by
  have hlist : ∀ l : List Half, l.length = 4 → (l.set i v).getD k 0 = if k = i then v else l.getD k 0 := by
    intro l hl
    rw [List.getD_eq_getElem?_getD, List.getD_eq_getElem?_getD, List.getElem?_set]
    by_cases hki : i = k
    · subst hki
      simp [hl, hi]
    · simp [hki, Ne.symm hki]
  obtain ⟨hc, ha0, ha1⟩ := h
  cases p <;> cases q <;>
    simp only [TileRegs.set, TileRegs.get, hlist _ hc, hlist _ ha0, hlist _ ha1, true_and, reduceCtorEq, false_and,
      if_false]

end

/-! ### The endpoints of a chunk (R234) -/

section
variable {s u : State} {c : ChunkState} {p : Plane} {ps : List Plane} {ds : List Nat} {i todo tiles : Nat}

/-- One plane: the tiles take the running index one after another. -/
theorem decodeTiles_of_decodeSeq (hi : i + todo ≤ 4) (hfull : c.tep.full)
    (hdecode : decodeSeq s (List.replicate todo p.epSlot) = .ok (ds, u)) :
    ∃ tep, decodeTiles p i c s todo =
        .ok ({ c with ep := c.ep.set p (runDeltas (s.epCount p) (c.ep.get p) ds), tep := tep }, u) ∧ tep.full ∧
      ∀ q k, tep.get q k = if q = p ∧ i ≤ k ∧ k < i + todo
        then runDeltas (s.epCount p) (c.ep.get p) (ds.take (k - i + 1)) else c.tep.get q k := by
  induction todo generalizing i c s ds with
  | zero =>
    cases hdecode
    refine ⟨c.tep, ?_, hfull, fun q k => (if_neg (by omega)).symm⟩
    rw [decodeTiles, runDeltas, List.foldl_nil, PlaneRegs.set_get]
  | succ todo ih =>
    obtain ⟨d, rest, t, hfirst, hothers, rfl⟩ := decodeSeq_cons_ok.1 hdecode
    obtain ⟨n, rfl⟩ := decodeSlot_advance _ _ _ _ hfirst
    have hdelta := (decodeEndpoint_ok p c.ep _ s _).2 ⟨d, hfirst, rfl⟩
    have hget : (c.ep.set p (deltaIndex (c.ep.get p) d (s.epCount p))).get p = deltaIndex (c.ep.get p) d (s.epCount p) := by
      rw [PlaneRegs.get_set, if_pos rfl]
    obtain ⟨tep, heq, hfull', htep⟩ := ih (s := s.advance n) (i := i + 1) (c := { c with
      ep := c.ep.set p (deltaIndex (c.ep.get p) d (s.epCount p))
      tep := c.tep.set p i (deltaIndex (c.ep.get p) d (s.epCount p)) }) (by omega) (TileRegs.full_set hfull) hothers
    refine ⟨tep, ?_, hfull', fun q k => ?_⟩
    · rw [decodeTiles, hdelta, attempt_ok_bind]
      simp only [hget] at heq ⊢
      rw [heq, PlaneRegs.set_set]
      rfl
    · rw [htep, TileRegs.get_set hfull (by omega), hget]
      by_cases hq : q = p
      · simp only [hq, true_and]
        rcases Nat.lt_trichotomy k i with hlt | rfl | hlt
        · rw [if_neg (by omega), if_neg (by omega), if_neg (by omega)]
        · rw [if_neg (by omega), if_pos rfl, if_pos (by omega), Nat.sub_self]
          rfl
        · by_cases hin : k < i + (todo + 1)
          · have hk : k - i = k - (i + 1) + 1 := by omega
            rw [if_pos (by omega), if_pos (by omega), hk, List.take_succ_cons]
            rfl
          · rw [if_neg (by omega), if_neg (by omega), if_neg (by omega)]
      · simp only [hq, false_and, if_false]

/-- The deltas of plane `p` among the symbols of a chunk's endpoints, `tiles` for each plane in turn. -/
def planeDeltas (ps : List Plane) (tiles : Nat) (syms : List Nat) (p : Plane) : List Nat :=
  (syms.drop (ps.idxOf p * tiles)).take tiles

theorem planeDeltas_cons_self {xs : List Nat} (hlength : xs.length = tiles) (ys : List Nat) :
    planeDeltas (p :: ps) tiles (xs ++ ys) p = xs := by
  rw [planeDeltas, List.idxOf_cons_self, Nat.zero_mul, List.drop_zero, List.take_left' hlength]

theorem planeDeltas_cons_of_ne {q : Plane} {xs : List Nat} (hlength : xs.length = tiles) (hne : p ≠ q) (ys : List Nat) :
    planeDeltas (p :: ps) tiles (xs ++ ys) q = planeDeltas ps tiles ys q := by
  rw [planeDeltas, List.idxOf_cons_ne _ hne, Nat.succ_mul, Nat.add_comm, ← hlength,
    List.drop_length_add_append, planeDeltas]

/-- All planes: each one's registers follow from its own deltas. -/
theorem decodeTileEndpoints_of_decodeSeq (htiles : tiles ≤ 4) (hnodup : ps.Nodup) (hfull : c.tep.full)
    (hdecode : decodeSeq s (ps.flatMap fun p => List.replicate tiles p.epSlot) = .ok (ds, u)) :
    ∃ tep, decodeTileEndpoints tiles c s ps = .ok ({ c with
        ep := setPlanes ps c.ep fun p => runDeltas (s.epCount p) (c.ep.get p) (planeDeltas ps tiles ds p), tep := tep }, u) ∧
      tep.full ∧ ∀ q k, tep.get q k = if q ∈ ps ∧ k < tiles
        then runDeltas (s.epCount q) (c.ep.get q) ((planeDeltas ps tiles ds q).take (k + 1)) else c.tep.get q k := by
  induction ps generalizing s c ds with
  | nil =>
    cases hdecode
    exact ⟨c.tep, rfl, hfull, fun q k => (if_neg (by simp)).symm⟩
  | cons p rest ih =>
    obtain ⟨hp, hnodup⟩ := List.nodup_cons.1 hnodup
    rw [List.flatMap_cons] at hdecode
    obtain ⟨xs, ys, t, hxs, hys, rfl⟩ := decodeSeq_append_ok.1 hdecode
    have hlength : xs.length = tiles := (length_of_decodeSeq hxs).trans (List.length_replicate ..)
    obtain ⟨tep1, heq1, hfull1, htep1⟩ := decodeTiles_of_decodeSeq (i := 0) (by omega) hfull hxs
    obtain ⟨n, rfl⟩ := decodeSeq_advance hxs
    obtain ⟨tep, heq, hfull', htep⟩ := ih (s := s.advance n) (c := { c with
      ep := c.ep.set p (runDeltas (s.epCount p) (c.ep.get p) xs), tep := tep1 }) hnodup hfull1 hys
    have hne : ∀ q ∈ rest, q ≠ p := fun q hq hqp => hp (hqp ▸ hq)
    refine ⟨tep, ?_, hfull', fun q k => ?_⟩
    · have hindices : (setPlanes (p :: rest) c.ep fun q =>
          runDeltas (s.epCount q) (c.ep.get q) (planeDeltas (p :: rest) tiles (xs ++ ys) q)) =
          setPlanes rest (c.ep.set p (runDeltas (s.epCount p) (c.ep.get p) xs)) fun q =>
            runDeltas (s.epCount q) ((c.ep.set p (runDeltas (s.epCount p) (c.ep.get p) xs)).get q)
              (planeDeltas rest tiles ys q) := by
        refine setPlanes_cons c.ep (by rw [planeDeltas_cons_self hlength]) fun q hq => ?_
        rw [planeDeltas_cons_of_ne hlength (hne q hq).symm, PlaneRegs.get_set, if_neg (hne q hq)]
      rw [decodeTileEndpoints, heq1, attempt_ok_bind, hindices]
      exact heq
    · rw [htep, htep1]
      by_cases hq : q ∈ rest
      · have hqp : q ≠ p := hne q hq
        rw [planeDeltas_cons_of_ne hlength hqp.symm, PlaneRegs.get_set, if_neg hqp]
        simp only [hq, hqp, List.mem_cons_of_mem, true_and, false_and, if_false]
        rfl
      · by_cases hqp : q = p
        · subst hqp
          simp only [hq, planeDeltas_cons_self hlength, List.mem_cons_self, true_and, false_and, if_false, Nat.zero_le,
            Nat.zero_add, Nat.sub_zero]
        · simp only [hq, hqp, List.mem_cons, false_and, or_self, if_false]

end

/-! ### The selectors of a sub-block (R236) -/

/-- The running selector indices after one sub-block's symbols. -/
def State.nextSelectors (s : State) (ps : List Plane) (syms : List Nat) (sp : PlaneRegs) : PlaneRegs :=
  setPlanes ps sp fun p => deltaIndex (sp.get p) (planeSymbol ps syms p) (s.selCount p)

theorem decodeSelectors_of_decodeSeq {s u : State} {ps : List Plane} {syms : List Nat} (sp : PlaneRegs)
    (hnodup : ps.Nodup) (hdecode : decodeSeq s (ps.map Plane.selSlot) = .ok (syms, u)) :
    decodeSelectors sp s ps = .ok (s.nextSelectors ps syms sp, u) := by
  induction ps generalizing s sp syms with
  | nil =>
    cases hdecode
    rfl
  | cons p rest ih =>
    obtain ⟨hp, hnodup⟩ := List.nodup_cons.1 hnodup
    obtain ⟨d, ds, t, hfirst, hothers, rfl⟩ := decodeSeq_cons_ok.1 hdecode
    obtain ⟨n, rfl⟩ := decodeSlot_advance _ _ _ _ hfirst
    have hne : ∀ q ∈ rest, q ≠ p := fun q hq hqp => hp (hqp ▸ hq)
    have hdelta := (decodeSelectorDelta_ok p sp _ s _).2 ⟨d, hfirst, rfl⟩
    have hindices : s.nextSelectors (p :: rest) (d :: ds) sp =
        (s.advance n).nextSelectors rest ds (sp.set p (deltaIndex (sp.get p) d (s.selCount p))) := by
      refine setPlanes_cons sp (by rw [planeSymbol_cons_self]) fun q hq => ?_
      rw [planeSymbol_cons_of_ne (hne q hq).symm, PlaneRegs.get_set, if_neg (hne q hq)]
      rfl
    rw [decodeSelectors, hdelta, attempt_ok_bind, hindices]
    exact ih _ hnodup hothers

end Sys2Proof.Machine
end

