-- ==== Sys2Proof/Proofs/ChunkBlocks.lean ====
section
/-! PROOFS. One chunk from the symbols of its record (spec/43_unpack_chunk.md R234, R236): the running indices, and the four
sub-blocks written where they are visible. -/

namespace Sys2Proof.Machine

/-! ### The selectors of the sub-blocks, one after another -/

/-- The running selector indices after `n` sub-blocks whose symbols are `rows 0`, `rows 1`, … -/
def State.selectorsAfter (s : State) (ps : List Plane) (rows : Nat → List Nat) (sp : PlaneRegs) (n : Nat) : PlaneRegs :=
  (List.range n).foldl (fun sp j => s.nextSelectors ps (rows j) sp) sp

section
variable {s u : State} {ps : List Plane} {rows : Nat → List Nat} {sp : PlaneRegs} {n : Nat} {p : Plane}

theorem selectorsAfter_succ : s.selectorsAfter ps rows sp (n + 1) =
    s.nextSelectors ps (rows n) (s.selectorsAfter ps rows sp n) := by
  rw [State.selectorsAfter, List.range_succ, List.foldl_concat, State.selectorsAfter]

/-- Each plane's index runs over its own deltas. -/
theorem get_selectorsAfter (hp : p ∈ ps) : (s.selectorsAfter ps rows sp n).get p =
    runDeltas (s.selCount p) (sp.get p) ((List.range n).map fun j => planeSymbol ps (rows j) p) := by
  induction n with
  | zero => rfl
  | succ n ih =>
    rw [selectorsAfter_succ, State.nextSelectors, get_setPlanes, if_pos hp, ih, List.range_succ, List.map_append,
      runDeltas_append]
    rfl

theorem get_selectorsAfter_of_notMem (hp : p ∉ ps) : (s.selectorsAfter ps rows sp n).get p = sp.get p := by
  induction n with
  | zero => rfl
  | succ n ih => rw [selectorsAfter_succ, State.nextSelectors, get_setPlanes, if_neg hp, ih]

end

/-! ### The sub-blocks (R236) -/

/-- Sub-block `k` of the chunk at `pos`: its place, and the entries at its tile's endpoints and its own selectors. -/
def State.subBlockOf (s : State) (pattern : List Nat) (pos : ChunkPos) (tep : TileRegs) (sp : PlaneRegs) (k : Nat) :
    PlacedBlock where
  f := pos.f
  x := 2 * pos.cx + k % 2
  y := 2 * pos.cy + k / 2
  bytes := s.blockOf (fun p => (tep.get p (pattern.getD k 0)).toNat) fun p => (sp.get p).toNat

theorem get_tileIndices (tep : TileRegs) (t : Nat) (p : Plane) : (tileIndices tep t).get p = tep.get p t := by
  cases p <;> rfl

theorem subBlocks_concat_of_ok {pattern : List Nat} {pos : ChunkPos} {ks : List Nat} {k : Nat} {c c' c'' : ChunkState}
    {s t u : State} (h : subBlocks pattern pos c s ks = .ok (c', t)) (h' : subBlock pattern pos k c' t = .ok (c'', u)) :
    subBlocks pattern pos c s (ks ++ [k]) = .ok (c'', u) := by
  induction ks generalizing c s with
  | nil =>
    cases h
    rw [List.nil_append, subBlocks, h', attempt_ok_bind]
    rfl
  | cons i rest ih =>
    obtain ⟨⟨c1, v⟩, hv, h⟩ := (attempt_bind_ok _ _ _).1 h
    rw [List.cons_append, subBlocks, hv, attempt_ok_bind]
    exact ih h

section
variable {s u : State} {c : ChunkState} {pos : ChunkPos} {pattern : List Nat} {rows : Nat → List Nat} {n : Nat}

/-- One sub-block, where `DST` has come to `d`. -/
theorem subBlock_of_decodeSeq {k : Nat} {syms : List Nat} (hwf : s.cfg.wf = true) (hdxt : s.dxtFormat)
    (hchecks : s.firstCheck .chunk = none) (hf : pos.f < s.faces.toNat)
    (hwritten : ∀ p ∈ s.planes .chunk, s.palettesWritten p)
    (hep : ∀ p ∈ s.planes .chunk, (c.tep.get p (pattern.getD k 0)).toNat < s.epCount p) (d : Memory 8)
    (hdecode : decodeSeq s ((s.planes .chunk).map Plane.selSlot) = .ok (syms, u)) :
    subBlock pattern pos k c (s.setDst d) = .ok
      ({ c with sp := s.nextSelectors (s.planes .chunk) syms c.sp, k := k },
        u.setDst (s.writePlaced d (s.subBlockOf pattern pos c.tep (s.nextSelectors (s.planes .chunk) syms c.sp) k))) := by
  have hselectors := decodeSelectors_of_decodeSeq c.sp (nodup_planes hwf hdxt .chunk)
    (decodeSeq_during s.activity d hdecode)
  obtain ⟨n, rfl⟩ := decodeSeq_advance hdecode
  have hentries : ∀ p ∈ blockPlanes s.fmt, s.holdsEntries (tileIndices c.tep (pattern.getD k 0))
      (s.nextSelectors (s.planes .chunk) syms c.sp) p := by
    intro p hp
    have hp := (blockPlanes_perm_planes hwf hdxt .chunk).mem_iff.1 hp
    obtain ⟨-, hpos⟩ := counts_pos_of_firstCheck hchecks hp
    refine ⟨hwritten p hp, by rw [get_tileIndices]; exact hep p hp, ?_⟩
    rw [State.nextSelectors, get_setPlanes, if_pos hp, deltaIndex_toNat _ _ hpos (selCount_le s p)]
    exact Nat.mod_lt _ hpos
  have hwrite := writeBlock_of_holdsEntries (s := (s.advance n).setDst d) (x := 2 * pos.cx + k % 2)
    (y := 2 * pos.cy + k / 2) hdxt hchecks hf hentries
  simp only [get_tileIndices] at hwrite
  have hselectors : decodeSelectors c.sp (s.setDst d) ((s.setDst d).planes .chunk) =
      .ok (s.nextSelectors (s.planes .chunk) syms c.sp, (s.advance n).setDst d) := hselectors
  rw [subBlock, hselectors, attempt_ok_bind]
  simp only
  rw [hwrite, attempt_ok_bind]
  rfl

/-- The first `n` sub-blocks. -/
theorem subBlocks_of_decodeSeq (hwf : s.cfg.wf = true) (hdxt : s.dxtFormat) (hchecks : s.firstCheck .chunk = none)
    (hf : pos.f < s.faces.toNat) (hwritten : ∀ p ∈ s.planes .chunk, s.palettesWritten p)
    (hep : ∀ p ∈ s.planes .chunk, ∀ k < n, (c.tep.get p (pattern.getD k 0)).toNat < s.epCount p)
    (hrows : ∀ j < n, (rows j).length = (s.planes .chunk).length)
    (hdecode : decodeSeq s ((List.range n).flatMap fun _ => (s.planes .chunk).map Plane.selSlot) =
      .ok ((List.range n).flatMap rows, u)) :
    subBlocks pattern pos c s (List.range n) = .ok
      ({ c with sp := s.selectorsAfter (s.planes .chunk) rows c.sp n, k := if n = 0 then c.k else n - 1 },
        u.setDst (s.writeAll s.dst ((List.range n).map fun k => s.subBlockOf pattern pos c.tep
          (s.selectorsAfter (s.planes .chunk) rows c.sp (k + 1)) k))) := by
  induction n generalizing u with
  | zero =>
    cases hdecode
    rfl
  | succ n ih =>
    rw [List.range_succ, List.flatMap_append, List.flatMap_append, List.flatMap_singleton, List.flatMap_singleton]
      at hdecode
    obtain ⟨t, hbefore, hlast⟩ := decodeSeq_append_of_length hdecode (by
      simp only [List.length_flatMap, List.length_map]
      exact congrArg List.sum (List.map_congr_left fun j hj => hrows j (Nat.lt_succ_of_lt (List.mem_range.1 hj))))
    have hprefix := ih (fun p hp k hk => hep p hp k (Nat.lt_succ_of_lt hk))
      (fun j hj => hrows j (Nat.lt_succ_of_lt hj)) hbefore
    obtain ⟨m, rfl⟩ := decodeSeq_advance hbefore
    obtain ⟨l, rfl⟩ := decodeSeq_advance hlast
    rw [List.range_succ, if_neg n.succ_ne_zero, List.map_append, State.writeAll_append]
    refine subBlocks_concat_of_ok hprefix ?_
    rw [List.map_singleton, selectorsAfter_succ]
    exact subBlock_of_decodeSeq (s := s.advance m)
      (c := { c with sp := s.selectorsAfter (s.planes .chunk) rows c.sp n, k := if n = 0 then c.k else n - 1 })
      hwf hdxt hchecks hf hwritten (fun p hp => hep p hp n (Nat.lt_succ_self n)) _ hlast

end

/-! ### The symbols of a record, plane by plane -/

section
variable {ps : List Plane} {tiles n : Nat} {xs ys : List Nat} {p : Plane}

theorem sum_range_getD (l : List Nat) (a n : Nat) :
    ((List.range n).map fun j => l.getD (a + j) 0).sum = ((l.drop a).take n).sum := by
  induction n with
  | zero => rfl
  | succ n ih =>
    rw [List.range_succ, List.map_append, List.sum_append, ih, List.take_add_one, List.sum_append, List.getElem?_drop]
    simp only [List.map_cons, List.map_nil, List.sum_singleton, List.getD_eq_getElem?_getD]
    cases l[a + n]? <;> rfl

/-- Row `j` of symbols, one for each plane. -/
def symbolRow (ps : List Plane) (ys : List Nat) (j : Nat) : List Nat := (ys.drop (j * ps.length)).take ps.length

theorem length_symbolRow {j : Nat} (hlength : ys.length = n * ps.length) (hj : j < n) :
    (symbolRow ps ys j).length = ps.length := by
  have hle : (j + 1) * ps.length ≤ n * ps.length := Nat.mul_le_mul_right _ hj
  rw [Nat.succ_mul] at hle
  rw [symbolRow, List.length_take, List.length_drop, hlength]
  exact Nat.min_eq_left (by omega)

/-- The symbols are their rows. -/
theorem flatMap_symbolRow (ps : List Plane) (ys : List Nat) (n : Nat) :
    (List.range n).flatMap (symbolRow ps ys) = ys.take (n * ps.length) := by
  induction n with
  | zero => simp
  | succ n ih =>
    rw [List.range_succ, List.flatMap_append, ih, List.flatMap_singleton, Nat.succ_mul, List.take_add, symbolRow]

theorem length_endpointSlots (ps : List Plane) (tiles : Nat) :
    (ps.flatMap fun p => List.replicate tiles p.epSlot).length = ps.length * tiles := by
  simp only [List.length_flatMap, List.length_replicate, List.map_const', List.sum_replicate, smul_eq_mul]

theorem length_selectorSlots (ps : List Plane) (n : Nat) :
    ((List.range n).flatMap fun _ => ps.map Plane.selSlot).length = n * ps.length := by
  simp only [List.length_flatMap, List.length_map, List.map_const', List.length_range, List.sum_replicate, smul_eq_mul]

/-- The deltas of a plane's tiles stand one after another. -/
theorem endpointDeltas_eq_sum (hlength : xs.length = ps.length * tiles) (hp : p ∈ ps) (hn : n ≤ tiles) :
    endpointDeltas ps tiles (xs ++ ys) p n = ((planeDeltas ps tiles xs p).take n).sum := by
  have hinside : ps.idxOf p * tiles + tiles ≤ xs.length := by
    rw [hlength, ← Nat.succ_mul]
    exact Nat.mul_le_mul_right _ (List.idxOf_lt_length_of_mem hp)
  have hdrop : n ≤ (xs.drop (ps.idxOf p * tiles)).length := by rw [List.length_drop]; omega
  rw [endpointDeltas, sum_range_getD, List.drop_append_of_le_length (by omega), List.take_append_of_le_length hdrop,
    planeDeltas, List.take_take, Nat.min_eq_left hn]

theorem length_planeDeltas (hlength : xs.length = ps.length * tiles) (hp : p ∈ ps) :
    (planeDeltas ps tiles xs p).length = tiles := by
  have hinside : ps.idxOf p * tiles + tiles ≤ xs.length := by
    rw [hlength, ← Nat.succ_mul]
    exact Nat.mul_le_mul_right _ (List.idxOf_lt_length_of_mem hp)
  rw [planeDeltas, List.length_take, List.length_drop]
  omega

/-- The selectors of the sub-blocks stand in rows behind the endpoints. -/
theorem selectorDeltas_eq_sum (hlength : xs.length = ps.length * tiles) (hp : p ∈ ps) : selectorDeltas ps tiles (xs ++ ys) p n =
    ((List.range n).map fun j => planeSymbol ps ((ys.drop (j * ps.length)).take ps.length) p).sum := by
  refine congrArg List.sum (List.map_congr_left fun j _ => ?_)
  have hidx := List.idxOf_lt_length_of_mem hp
  rw [planeSymbol, Nat.add_assoc, ← hlength, List.getD_append_right _ _ _ _ (Nat.le_add_right _ _),
    Nat.add_sub_cancel_left, List.getD_eq_getElem?_getD, List.getD_eq_getElem?_getD, List.getElem?_take_of_lt hidx,
    List.getElem?_drop]

end

/-! ### One chunk (R221) -/

/-- What the tile tables hold for an encoding (R226): 1 to 4 tiles, and a pattern of tiles. -/
theorem tiles_of_wf {cfg : Config} (hwf : cfg.wf = true) {e : Nat} (he : e < 8) :
    1 ≤ cfg.tileCount.getD e 0 ∧ cfg.tileCount.getD e 0 ≤ 4 ∧
    ∀ k < 4, (cfg.tilePattern.getD e []).getD k 0 < cfg.tileCount.getD e 0 := by
  simp only [Config.wf, Bool.and_eq_true, beq_iff_eq, List.all_eq_true, decide_eq_true_eq, List.mem_range] at hwf
  obtain ⟨⟨⟨⟨⟨⟨⟨-, hlength⟩, -⟩, hcounts⟩, hpatterns⟩, -⟩, -⟩, -⟩ := hwf
  have hcount : cfg.tileCount.getD e 0 = cfg.tileCount[e]'(by omega) := by simp [hlength, he]
  obtain ⟨hfour, htiles⟩ := hpatterns e he
  refine ⟨?_, ?_, fun k hk => htiles _ ?_⟩
  · rw [hcount]
    exact (hcounts _ (List.getElem_mem _)).1
  · rw [hcount]
    exact (hcounts _ (List.getElem_mem _)).2
  · rw [List.getD_eq_getElem (cfg.tilePattern.getD e []) 0 (by rw [hfour]; exact hk)]
    exact List.getElem_mem _

/-- Sub-block `k` of a chunk by the symbols of its record. -/
def State.rebuiltBlock (s : State) (c : ChunkState) (pos : ChunkPos) (e : Nat) (syms : List Nat) (k : Nat) :
    PlacedBlock where
  f := pos.f
  x := 2 * pos.cx + k % 2
  y := 2 * pos.cy + k / 2
  bytes := s.blockOf
    (fun p => tileEndpoint s c (s.planes .chunk) (s.cfg.tileCount.getD e 0) syms p
      ((s.cfg.tilePattern.getD e []).getD k 0))
    fun p => blockSelector s c (s.planes .chunk) (s.cfg.tileCount.getD e 0) syms p k

/-- The registers after a chunk, by the symbols of its record. -/
def State.ChunkRebuilt (s : State) (c c' : ChunkState) (ps : List Plane) (tiles : Nat) (syms : List Nat) : Prop :=
  c'.scan = c.scan ∧ c'.ceb = c.ceb ∧ c'.k = 3 ∧ c'.tep.full ∧
  (∀ p ∈ ps, (c'.ep.get p).toNat = tileEndpoint s c ps tiles syms p (tiles - 1) ∧
    (c'.sp.get p).toNat = blockSelector s c ps tiles syms p 3 ∧
    ∀ i, i < 4 → if i < tiles then (c'.tep.get p i).toNat = tileEndpoint s c ps tiles syms p i
      else c'.tep.get p i = c.tep.get p i) ∧
  ∀ p, p ∉ ps → c'.ep.get p = c.ep.get p ∧ c'.sp.get p = c.sp.get p ∧ ∀ i, c'.tep.get p i = c.tep.get p i

section
variable {s u : State} {c : ChunkState} {pos : ChunkPos} {rest : List ChunkPos} {e : Nat} {syms : List Nat}

variable {ps : List Plane} {tiles i k : Nat} {xs ys : List Nat} {p : Plane} {tep : TileRegs}

/-- A tile's endpoint index is the sum of its plane's deltas up to it. -/
theorem runDeltas_eq_tileEndpoint (hlength : xs.length = ps.length * tiles) (hp : p ∈ ps) (hpos : 0 < s.epCount p)
    (hi : i < tiles) : (runDeltas (s.epCount p) (c.ep.get p) ((planeDeltas ps tiles xs p).take (i + 1))).toNat =
      tileEndpoint s c ps tiles (xs ++ ys) p i := by
  have hne : (planeDeltas ps tiles xs p).take (i + 1) ≠ [] := by
    refine List.ne_nil_of_length_pos ?_
    rw [List.length_take, length_planeDeltas hlength hp]
    omega
  rw [runDeltas_toNat _ hne hpos (epCount_le s p), tileEndpoint, endpointDeltas_eq_sum hlength hp hi]

/-- A sub-block's selector index is the sum of its plane's deltas up to it. -/
theorem selectorsAfter_eq_blockSelector (hlength : xs.length = ps.length * tiles) (hp : p ∈ ps) (hpos : 0 < s.selCount p) :
    ((s.selectorsAfter ps (symbolRow ps ys) c.sp (k + 1)).get p).toNat =
      blockSelector s c ps tiles (xs ++ ys) p k := by
  rw [get_selectorsAfter hp, runDeltas_toNat _ (by simp) hpos (selCount_le s p), blockSelector,
    selectorDeltas_eq_sum hlength hp]
  rfl

/-- The registers after a chunk whose endpoint symbols are `xs` and whose selector symbols are `ys`. -/
def State.registersAfter (s : State) (c : ChunkState) (ps : List Plane) (tiles : Nat) (tep : TileRegs) (xs ys : List Nat) :
    ChunkState :=
  { c with
    tep := tep
    ep := setPlanes ps c.ep fun p => runDeltas (s.epCount p) (c.ep.get p) (planeDeltas ps tiles xs p)
    sp := s.selectorsAfter ps (symbolRow ps ys) c.sp 4
    k := 3 }

theorem chunkRebuilt_registersAfter (hlength : xs.length = ps.length * tiles) (hone : 1 ≤ tiles) (hfull : tep.full)
    (hcounts : ∀ p ∈ ps, 0 < s.epCount p ∧ 0 < s.selCount p)
    (htep : ∀ q k, tep.get q k = if q ∈ ps ∧ k < tiles
      then runDeltas (s.epCount q) (c.ep.get q) ((planeDeltas ps tiles xs q).take (k + 1)) else c.tep.get q k) :
    s.ChunkRebuilt c (s.registersAfter c ps tiles tep xs ys) ps tiles (xs ++ ys) := by
  refine ⟨rfl, rfl, rfl, hfull, fun p hp => ⟨?_, ?_, fun i _ => ?_⟩, fun p hp => ⟨?_, ?_, fun i => ?_⟩⟩
  · have hlast := runDeltas_eq_tileEndpoint (c := c) (ys := ys) hlength hp (hcounts p hp).1 (Nat.sub_one_lt_of_le hone le_rfl)
    rw [Nat.sub_add_cancel hone, List.take_of_length_le (length_planeDeltas hlength hp).le] at hlast
    rw [State.registersAfter, get_setPlanes, if_pos hp, hlast]
  · exact selectorsAfter_eq_blockSelector hlength hp (hcounts p hp).2
  · rw [State.registersAfter, htep]
    split_ifs with hi hboth hboth
    · exact runDeltas_eq_tileEndpoint hlength hp (hcounts p hp).1 hi
    · exact absurd ⟨hp, hi⟩ hboth
    · exact absurd hboth.2 hi
    · rfl
  · rw [State.registersAfter, get_setPlanes, if_neg hp]
  · exact get_selectorsAfter_of_notMem hp
  · rw [State.registersAfter, htep, if_neg (fun h => hp h.1)]

/-- A sub-block at the registers' indices is the one that the record's symbols give. -/
theorem subBlockOf_eq_rebuiltBlock (hwf : s.cfg.wf = true) (hdxt : s.dxtFormat)
    (hendpoint : ∀ p ∈ s.planes .chunk, (tep.get p ((s.cfg.tilePattern.getD e []).getD k 0)).toNat =
      tileEndpoint s c (s.planes .chunk) (s.cfg.tileCount.getD e 0) syms p ((s.cfg.tilePattern.getD e []).getD k 0))
    {sp : PlaneRegs} (hselector : ∀ p ∈ s.planes .chunk,
      (sp.get p).toNat = blockSelector s c (s.planes .chunk) (s.cfg.tileCount.getD e 0) syms p k) :
    s.subBlockOf (s.cfg.tilePattern.getD e []) pos tep sp k = s.rebuiltBlock c pos e syms k := by
  rw [State.subBlockOf, State.rebuiltBlock, blockOf_congr hdxt fun p hp => ?_]
  have hp := (blockPlanes_perm_planes hwf hdxt .chunk).mem_iff.1 hp
  exact ⟨hendpoint p hp, hselector p hp⟩

/-- One chunk under encoding `e`. -/
theorem runTile_of_symbols (he : e < 8) (hchunk : s.activity = .chunk c) (hscan : c.scan = pos :: rest)
    (hfull : c.tep.full) (hf : pos.f < s.faces.toNat) (hwf : s.cfg.wf = true) (hdxt : s.dxtFormat)
    (hchecks : s.firstCheck .chunk = none) (hwritten : ∀ p ∈ s.planes .chunk, s.palettesWritten p)
    (hdecode : decodeSeq s (chunkSlots (s.planes .chunk) (s.cfg.tileCount.getD e 0)) = .ok (syms, u)) :
    ∃ c', s.ChunkRebuilt c c' (s.planes .chunk) (s.cfg.tileCount.getD e 0) syms ∧
      runTile e s = .ok ((u.setDst (s.writeAll s.dst ((List.range 4).map (s.rebuiltBlock c pos e syms)))).setActivity
        (.chunk c')) := by
  obtain ⟨hone, hfour, hpattern⟩ := tiles_of_wf hwf he
  have hcounts : ∀ p ∈ s.planes .chunk, 0 < s.epCount p ∧ 0 < s.selCount p :=
    fun p hp => counts_pos_of_firstCheck hchecks hp
  obtain ⟨xs, ys, t, hxs, hys, rfl⟩ := decodeSeq_append_ok.1 hdecode
  have hxlen := (length_of_decodeSeq hxs).trans (length_endpointSlots _ _)
  have hylen := (length_of_decodeSeq hys).trans (length_selectorSlots _ _)
  obtain ⟨tep, hendpoints, htepfull, htep⟩ :=
    decodeTileEndpoints_of_decodeSeq hfour (nodup_planes hwf hdxt .chunk) hfull hxs
  obtain ⟨n, rfl⟩ := decodeSeq_advance hxs
  have hendpoint : ∀ p ∈ s.planes .chunk, ∀ k < 4, (tep.get p ((s.cfg.tilePattern.getD e []).getD k 0)).toNat =
      tileEndpoint s c (s.planes .chunk) (s.cfg.tileCount.getD e 0) (xs ++ ys) p
        ((s.cfg.tilePattern.getD e []).getD k 0) := fun p hp k hk => by
    rw [htep, if_pos ⟨hp, hpattern k hk⟩, runDeltas_eq_tileEndpoint hxlen hp (hcounts p hp).1 (hpattern k hk)]
  have hblocks := subBlocks_of_decodeSeq (s := s.advance n) (pos := pos) (n := 4)
    (c := { c with
      tep := tep
      ep := setPlanes (s.planes .chunk) c.ep fun p =>
        runDeltas (s.epCount p) (c.ep.get p) (planeDeltas (s.planes .chunk) (s.cfg.tileCount.getD e 0) xs p) })
    (pattern := s.cfg.tilePattern.getD e []) (rows := symbolRow (s.planes .chunk) ys) hwf hdxt hchecks hf hwritten
    (fun p hp k hk => by
      rw [hendpoint p hp k hk]
      exact Nat.mod_lt _ (hcounts p hp).1)
    (fun j hj => length_symbolRow hylen hj) (by rw [flatMap_symbolRow, ← hylen, List.take_length]; exact hys)
  have hsame : (List.range 4).map (fun k => s.subBlockOf (s.cfg.tilePattern.getD e []) pos tep
      (s.selectorsAfter (s.planes .chunk) (symbolRow (s.planes .chunk) ys) c.sp (k + 1)) k) =
        (List.range 4).map (s.rebuiltBlock c pos e (xs ++ ys)) :=
    List.map_congr_left fun k hk => subBlockOf_eq_rebuiltBlock hwf hdxt
      (fun p hp => hendpoint p hp k (List.mem_range.1 hk))
      fun p hp => selectorsAfter_eq_blockSelector hxlen hp (hcounts p hp).2
  refine ⟨s.registersAfter c (s.planes .chunk) (s.cfg.tileCount.getD e 0) tep xs ys,
    chunkRebuilt_registersAfter hxlen hone htepfull hcounts htep, (runTile_of_ok hchunk hscan hendpoints hblocks).trans ?_⟩
  rw [← hsame]
  rfl

/-- The four sub-blocks of a chunk are different blocks of the level. -/
theorem pairwise_rebuiltBlocks : ((List.range 4).map (s.rebuiltBlock c pos e syms)).Pairwise PlacedBlock.Apart := by
  refine List.pairwise_map.2 (List.pairwise_lt_range.imp fun {i j} hij => ?_)
  simp only [PlacedBlock.Apart, State.rebuiltBlock]
  omega

theorem length_rebuiltBlock (hdxt : s.dxtFormat) : (s.rebuiltBlock c pos e syms k).bytes.length = s.bpb := by
  rw [State.rebuiltBlock, length_blockOf hdxt]

theorem placed_rebuiltBlocks (hf : pos.f < s.faces.toNat) (hdxt : s.dxtFormat) :
    ∀ b ∈ (List.range 4).map (s.rebuiltBlock c pos e syms), s.placed b :=
  List.forall_mem_map.2 fun _ _ => ⟨hf, length_rebuiltBlock hdxt⟩

theorem eventBody_tileInstr (he : e < 8) : eventBody (tileInstr e) s = runTile e s := by interval_cases e <;> rfl

theorem fmt_tileInstr (he : e < 8) : (tileInstr e).fmt ≠ .cw := by interval_cases e <;> decide

end

/-- Settles O45: the record's symbols give the indices, and the four sub-blocks do not overlap. -/
theorem tilePatternsRebuildAChunk : Obligations.TilePatternsRebuildAChunk := by
  intro s u c pos rest e syms ps tiles he hchunk hscan hfull hf hwf hdxt hchecks hps htiles hwritten hdecode
  subst hps htiles
  obtain ⟨c', ⟨hscan', hceb, hk, htep, hplanes, hothers⟩, hrun⟩ :=
    runTile_of_symbols he hchunk hscan hfull hf hwf hdxt hchecks hwritten hdecode
  obtain ⟨n, rfl⟩ := decodeSeq_advance hdecode
  refine ⟨_, c', exec_event_of_ok (fmt_tileInstr he) ((eventBody_tileInstr he).trans hrun), rfl, hscan', hceb, hk, htep,
    hplanes, hothers, fun k hk hvisible j hj => ?_, fun a houtside => ?_⟩
  · exact read_writeAll_of_mem hchecks (placed_rebuiltBlocks hf hdxt) pairwise_rebuiltBlocks
      (List.mem_map_of_mem (List.mem_range.2 hk)) hvisible hj
  · refine read_writeAll (List.forall_mem_map.2 fun k hk hvisible => ?_)
    rw [length_rebuiltBlock hdxt]
    exact houtside k (List.mem_range.1 hk) hvisible

end Sys2Proof.Machine
end

