-- ==== Sys2Proof/Proofs/LevelRuns.lean ====
section
/-! PROOFS. Runs over a whole level: an unpack command goes from position to position of its scan, each event writes the
blocks of its position, and at the end every visible block of the level is written once (spec/43_unpack_chunk.md R221,
spec/44_unpack_refgroup.md R261). -/

namespace Sys2Proof.Machine

/-! ### A run by its positions -/

/-- Positions passed one after another, up to the one at which the command has ended. -/
theorem EventRun.of_positions {P : Nat → State → Prop} {len : Nat} (hend : ∀ u, P len u → u.activity = .idle)
    (hstep : ∀ j, j < len → ∀ u, P j u → u.activity ≠ .idle ∧ ∃ v, oneEvent u = .ok v ∧ P (j + 1) v) {j : Nat} {u : State}
    (hj : j ≤ len) (hu : P j u) : ∃ t, EventRun u t ∧ P len t := by
  induction hrest : len - j generalizing j u with
  | zero =>
    obtain rfl : j = len := by omega
    exact ⟨u, .ended u (hend u hu), hu⟩
  | succ m ih =>
    obtain ⟨hrunning, v, hv, hnext⟩ := hstep j (by omega) u hu
    obtain ⟨t, hrun, ht⟩ := ih (by omega) hnext (by omega)
    exact ⟨t, .event u v t hrunning hv hrun, ht⟩

/-- An unpack command whose events pass every position ends where they do. -/
theorem exec_unpackInstr_of_positions {s : State} {sch : Scheme} {P : Nat → State → Prop} {len : Nat}
    (herr : s.err = false) (hdxt : s.dxtFormat) (hchecks : s.firstCheck sch = none) (hstart : P 0 (s.startUnpack sch))
    (hend : ∀ u, P len u → u.activity = .idle)
    (hstep : ∀ j, j < len → ∀ u, P j u → u.activity ≠ .idle ∧ ∃ v, oneEvent u = .ok v ∧ P (j + 1) v) :
    ∃ t, exec (unpackInstr sch) s = .next t ∧ P len t := by
  obtain ⟨t, hrun, ht⟩ := EventRun.of_positions hend hstep (Nat.zero_le len) hstart
  exact ⟨t, ((exec_unpackInstr_iff_eventRun herr hdxt hchecks).2 hrun).1, ht⟩

/-! ### The states inside an unpack command -/

/-- The state inside an unpack command: the cursor `n` bits on, these blocks written. -/
def State.unpacking (s : State) (n : Nat) (bs : List PlacedBlock) (a : Activity) : State :=
  ((s.advance n).setDst (s.writeAll s.dst bs)).setActivity a

section
variable {s u : State} {n k d l bound : Nat} {ks syms : List Nat} {bs : List PlacedBlock} {a : Activity}

@[simp] theorem State.unpacking_activity : (s.unpacking n bs a).activity = a := rfl

theorem State.setActivity_unpacking (a' : Activity) : (s.unpacking n bs a).setActivity a' = s.unpacking n bs a' := rfl

/-- A decode depends on neither the blocks written nor the registers. -/
theorem decodeSlot_unpacking (h : decodeSlot k (s.advance n) = .ok (d, s.advance l)) :
    decodeSlot k (s.unpacking n bs a) = .ok (d, s.unpacking l bs a) :=
  decodeSlot_during a (s.writeAll s.dst bs) h

theorem decodeSeq_unpacking (h : decodeSeq (s.advance n) ks = .ok (syms, s.advance l)) :
    decodeSeq (s.unpacking n bs a) ks = .ok (syms, s.unpacking l bs a) :=
  decodeSeq_during a (s.writeAll s.dst bs) h

/-- A stream that is decodable at every position stays so. -/
theorem State.decodable.advance (h : s.decodable k bound) (n : Nat) : (s.advance n).decodable k bound := by
  obtain ⟨m, hm, hall⟩ := h
  exact ⟨m, hm, fun pos p hle hp => hall pos p ((Nat.le_add_right _ n).trans hle) hp⟩

/-- A decode of a decodable slot. -/
theorem decodeSlot_of_decodable (hsource : s.sourceWritten) (h : s.decodable k bound) (n : Nat) :
    ∃ d l, decodeSlot k (s.advance n) = .ok (d, s.advance l) ∧ d < bound := by
  obtain ⟨d, l, hd, hlt⟩ := decodeSlot_decodable k bound (s.advance n) hsource (h.advance n)
  exact ⟨d, n + l, by rw [← State.advance_advance]; exact hd, hlt⟩

/-- Decodes of decodable slots. -/
theorem decodeSeq_of_decodable {α : Type} {xs : List α} {slot bnd : α → Nat} (hsource : s.sourceWritten)
    (h : ∀ x ∈ xs, s.decodable (slot x) (bnd x)) (n : Nat) : ∃ syms l,
      decodeSeq (s.advance n) (xs.map slot) = .ok (syms, s.advance l) ∧ List.Forall₂ (fun x d => d < bnd x) xs syms := by
  induction xs generalizing n with
  | nil => exact ⟨[], n, rfl, .nil⟩
  | cons x rest ih =>
    obtain ⟨hx, hrest⟩ := List.forall_mem_cons.1 h
    obtain ⟨d, m, hd, hlt⟩ := decodeSlot_of_decodable hsource hx n
    obtain ⟨syms, l, hsyms, hall⟩ := ih hrest m
    exact ⟨d :: syms, l, decodeSeq_cons_ok.2 ⟨d, syms, _, hd, hsyms, rfl⟩, .cons hlt hall⟩

end

/-! ### The blocks of a level -/

/-- The place of a block: its face, column and row. -/
def PlacedBlock.place (b : PlacedBlock) : Nat × Nat × Nat := (b.f, b.x, b.y)

/-- A block holds entries of its planes' palettes at indices below their counts. -/
def State.holdsSomeEntries (s : State) (sch : Scheme) (b : PlacedBlock) : Prop :=
  ∃ ei si : Plane → Nat, (∀ p ∈ s.planes sch, ei p < s.epCount p ∧ si p < s.selCount p) ∧ b.bytes = s.blockOf ei si

section
variable {s : State} {sch : Scheme} {n : Nat} {bs : List PlacedBlock} {b : PlacedBlock}

theorem State.holdsSomeEntries.length_bytes (h : s.holdsSomeEntries sch b) (hdxt : s.dxtFormat) :
    b.bytes.length = s.bpb := by
  obtain ⟨ei, si, -, hbytes⟩ := h
  rw [hbytes, length_blockOf hdxt]

/-- Blocks at places that differ lie apart. -/
theorem pairwise_apart_of_nodup (h : (bs.map PlacedBlock.place).Nodup) : bs.Pairwise PlacedBlock.Apart := by
  refine (List.pairwise_map.1 h).imp fun {a b} hne => ?_
  simp only [PlacedBlock.place, ne_eq, Prod.mk.injEq, not_and_or] at hne
  exact hne

/-- After a run over different places of the level each visible block holds its bytes. -/
theorem dstHolds_unpacking (hchecks : s.firstCheck sch = none) (hdxt : s.dxtFormat)
    (hnodup : (bs.map PlacedBlock.place).Nodup) (hfaces : ∀ b ∈ bs, b.f < s.faces.toNat)
    (hentries : ∀ b ∈ bs, s.holdsSomeEntries sch b) (hb : b ∈ bs) (hvisible : s.visible b.x b.y = true) :
    (s.unpacking n bs .idle).dstHolds (s.blockAddr b.f b.x b.y) b.bytes :=
  fun _ hj => read_writeAll_of_mem hchecks (fun c hc => ⟨hfaces c hc, (hentries c hc).length_bytes hdxt⟩)
    (pairwise_apart_of_nodup hnodup) hb hvisible hj

/-- A run over every place of the level once leaves what a successful unpack leaves. -/
theorem unpackResult_unpacking (hidle : s.activity = .idle) (hchecks : s.firstCheck sch = none) (hdxt : s.dxtFormat)
    (hnodup : (bs.map PlacedBlock.place).Nodup) (hfaces : ∀ b ∈ bs, b.f < s.faces.toNat)
    (hentries : ∀ b ∈ bs, s.holdsSomeEntries sch b)
    (hcover : ∀ f x y, f < s.faces.toNat → x < s.bx → y < s.by' → (f, x, y) ∈ bs.map PlacedBlock.place) :
    UnpackResult sch s (s.unpacking n bs .idle) := by
  refine ⟨by rw [← hidle]; rfl, Nat.le_add_right _ n, fun a ha => read_writeAll fun b hb hvisible => ?_,
    fun f x y hf hx hy => ?_⟩
  · simp only [State.visible, Bool.and_eq_true, decide_eq_true_eq] at hvisible
    have hout : ¬ (s.blockAddr b.f b.x b.y ≤ a ∧ a < s.blockAddr b.f b.x b.y + s.bpb) :=
      fun h => ha ⟨b.f, b.x, b.y, hfaces b hb, hvisible.1, hvisible.2, h.1, h.2⟩
    rw [(hentries b hb).length_bytes hdxt]
    omega
  · obtain ⟨b, hb, hplace⟩ := List.mem_map.1 (hcover f x y hf hx hy)
    cases hplace
    obtain ⟨ei, si, hlt, hbytes⟩ := hentries b hb
    have hvisible : s.visible b.x b.y = true := by simp [State.visible, hx, hy]
    exact ⟨ei, si, hlt, hbytes ▸ dstHolds_unpacking hchecks hdxt hnodup hfaces hentries hb hvisible⟩

end

end Sys2Proof.Machine
end

