-- ==== Sys2Proof/Proofs/ChunkLevel.lean ====
section
/-! PROOFS. `UNPACK_CHUNK` over a whole level (spec/43_unpack_chunk.md R221, R230 to R236). -/

namespace Sys2Proof.Machine

/-! ### The places of the chunks' blocks (R222, R232) -/

/-- The places of a chunk's four sub-blocks. -/
def subPlaces (pos : ChunkPos) : List (Nat × Nat × Nat) :=
  (List.range 4).map fun k => (pos.f, 2 * pos.cx + k % 2, 2 * pos.cy + k / 2)

theorem mem_subPlaces {pos : ChunkPos} {f x y : Nat} :
    (f, x, y) ∈ subPlaces pos ↔ f = pos.f ∧ x / 2 = pos.cx ∧ y / 2 = pos.cy := by
  simp only [subPlaces, List.mem_map, List.mem_range, Prod.mk.injEq]
  constructor
  · rintro ⟨k, hk, rfl, rfl, rfl⟩
    omega
  · rintro ⟨rfl, hx, hy⟩
    exact ⟨2 * (y % 2) + x % 2, by omega, rfl, by omega, by omega⟩

theorem nodup_subPlaces (pos : ChunkPos) : (subPlaces pos).Nodup := by
  refine List.pairwise_map.2 (List.pairwise_lt_range.imp fun {i j} hij => ?_)
  simp only [ne_eq, Prod.mk.injEq]
  omega

section
variable {s : State}

/-- Every block of the level has one place in the scan. -/
theorem nodup_chunkPlaces : (s.chunks.flatMap subPlaces).Nodup := by
  refine List.nodup_flatMap.2 ⟨fun pos _ => nodup_subPlaces pos, (pairwise_chunkScan _ _ _).imp fun {a b} hab => ?_⟩
  have hne : a.f ≠ b.f ∨ a.cy ≠ b.cy ∨ a.cx ≠ b.cx := by split_ifs at hab <;> omega
  rintro ⟨f, x, y⟩ ha hb
  rw [mem_subPlaces] at ha hb
  omega

theorem mem_chunkPlaces {f x y : Nat} (hf : f < s.faces.toNat) (hx : x < s.bx) (hy : y < s.by') :
    (f, x, y) ∈ s.chunks.flatMap subPlaces := by
  refine List.mem_flatMap.2 ⟨⟨f, y / 2, x / 2⟩, (mem_chunkScan _ _ _ _).2 ⟨hf, ?_, ?_⟩, mem_subPlaces.2 ⟨rfl, rfl, rfl⟩⟩
  · simp only [State.cy, ceilDiv]
    omega
  · simp only [State.cx, ceilDiv]
    omega

theorem face_lt_of_mem_chunks {pos : ChunkPos} (h : pos ∈ s.chunks) : pos.f < s.faces.toNat :=
  ((mem_chunkScan _ _ _ _).1 h).1

end

/-! ### One chunk inside the command -/

section
variable {s u : State} {j n m l e : Nat} {bs : List PlacedBlock} {c c1 : ChunkState} {pos : ChunkPos}
  {rest : List ChunkPos} {syms : List Nat}

theorem place_rebuiltBlock (k : Nat) :
    (s.rebuiltBlock c pos e syms k).place = (pos.f, 2 * pos.cx + k % 2, 2 * pos.cy + k / 2) := by
  rw [PlacedBlock.place, State.rebuiltBlock]

theorem bytes_rebuiltBlock (k : Nat) : (s.rebuiltBlock c pos e syms k).bytes = s.blockOf
    (fun p => tileEndpoint s c (s.planes .chunk) (s.cfg.tileCount.getD e 0) syms p
      ((s.cfg.tilePattern.getD e []).getD k 0))
    fun p => blockSelector s c (s.planes .chunk) (s.cfg.tileCount.getD e 0) syms p k := by
  rw [State.rebuiltBlock]

theorem map_place_rebuiltBlocks : ((List.range 4).map (s.rebuiltBlock c pos e syms)).map PlacedBlock.place = subPlaces pos := by
  rw [List.map_map, subPlaces]
  exact List.map_congr_left fun k _ => place_rebuiltBlock k

theorem retireChunk_of_scan (hscan : c.scan = pos :: rest) :
    retireChunk c s = .ok (s.setActivity (if rest = [] then .idle else .chunk { c with scan := rest })) := by
  rw [retireChunk, hscan, List.tail_cons]
  cases rest <;> rfl

theorem tileEndpoint_lt {ps : List Plane} {tiles i : Nat} {p : Plane} (hpos : 0 < s.epCount p) :
    tileEndpoint s c ps tiles syms p i < s.epCount p := by
  rw [tileEndpoint]
  exact Nat.mod_lt _ hpos

theorem blockSelector_lt {ps : List Plane} {tiles k : Nat} {p : Plane} (hpos : 0 < s.selCount p) :
    blockSelector s c ps tiles syms p k < s.selCount p := by
  rw [blockSelector]
  exact Nat.mod_lt _ hpos

/-- What the sub-blocks of a rebuilt chunk hold. -/
theorem holdsSomeEntries_rebuiltBlock (hchecks : s.firstCheck .chunk = none) (k : Nat) :
    s.holdsSomeEntries .chunk (s.rebuiltBlock c pos e syms k) := by
  refine ⟨_, _, fun p hp => ?_, bytes_rebuiltBlock k⟩
  obtain ⟨hep, hsel⟩ := counts_pos_of_firstCheck hchecks hp
  exact ⟨tileEndpoint_lt hep, blockSelector_lt hsel⟩

/-- One event, once the encoding is fetched. -/
theorem oneEvent_of_record (he : e < 8) (hwf : s.cfg.wf = true) (hdxt : s.dxtFormat) (hchecks : s.firstCheck .chunk = none)
    (hwritten : ∀ p ∈ s.planes .chunk, s.palettesWritten p)
    (hfetch : fetchChunk c (s.unpacking n bs (.chunk c)) = .ok (tileInstr e, s.unpacking m bs (.chunk c1)))
    (hscan : c1.scan = pos :: rest) (hfull : c1.tep.full) (hf : pos.f < s.faces.toNat)
    (hdecode : decodeSeq (s.advance m) (chunkSlots (s.planes .chunk) (s.cfg.tileCount.getD e 0)) =
      .ok (syms, s.advance l)) :
    ∃ c', s.ChunkRebuilt c1 c' (s.planes .chunk) (s.cfg.tileCount.getD e 0) syms ∧
      oneEvent (s.unpacking n bs (.chunk c)) = .ok (s.unpacking l (bs ++ (List.range 4).map (s.rebuiltBlock c1 pos e syms))
        (if rest = [] then .idle else .chunk { c' with scan := rest })) := by
  obtain ⟨c', hrebuilt, hrun⟩ := runTile_of_symbols (s := s.unpacking m bs (.chunk c1)) he rfl hscan hfull hf hwf hdxt
    hchecks hwritten (decodeSeq_unpacking hdecode)
  have hscan' : c'.scan = pos :: rest := hrebuilt.1.trans hscan
  refine ⟨c', hrebuilt, (oneEvent_ok _ _).2 ⟨_, _, _, hfetch, (eventBody_tileInstr he).trans hrun,
    (retireChunk_of_scan hscan').trans ?_⟩⟩
  exact congrArg (fun d => Except.ok (((s.advance l).setDst d).setActivity _)) (State.writeAll_append s s.dst bs _).symm

end

/-! ### The states after the first chunks -/

/-- Inside the command, or at its end, `j` chunks done: the cursor, the blocks written, the registers. -/
structure State.AfterChunks (s : State) (j n : Nat) (bs : List PlacedBlock) (c : ChunkState) (u : State) : Prop where
  state : u = s.unpacking n bs (if s.chunks.drop j = [] then .idle else .chunk c)
  scan : c.scan = s.chunks.drop j
  full : c.tep.full
  places : bs.map PlacedBlock.place = (s.chunks.take j).flatMap subPlaces
  entries : ∀ b ∈ bs, s.holdsSomeEntries .chunk b

section
variable {s u : State} {j n m l e : Nat} {bs : List PlacedBlock} {c c1 : ChunkState} {syms : List Nat}

theorem afterChunks_zero (hchecks : s.firstCheck .chunk = none) :
    s.AfterChunks 0 0 [] (initChunk s) (s.startUnpack .chunk) where
  state := by
    have hproper : s.chunks ≠ [] := by
      rcases startUnpack_proper hchecks with h | h
      · cases h
      · exact List.ne_nil_of_length_pos h
    rw [List.drop_zero, if_neg hproper]
    rfl
  scan := rfl
  full := ⟨rfl, rfl, rfl⟩
  places := rfl
  entries := by simp

theorem State.AfterChunks.faces (h : s.AfterChunks j n bs c u) : ∀ b ∈ bs, b.f < s.faces.toNat := by
  intro b hb
  have hplace := List.mem_map_of_mem (f := PlacedBlock.place) hb
  rw [h.places] at hplace
  obtain ⟨pos, hpos, hb⟩ := List.mem_flatMap.1 hplace
  rw [(mem_subPlaces.1 hb).1]
  exact face_lt_of_mem_chunks (List.mem_of_mem_take hpos)

theorem State.AfterChunks.running (h : s.AfterChunks j n bs c u) (hj : j < s.chunks.length) :
    u = s.unpacking n bs (.chunk c) := by
  have hne : s.chunks.drop j ≠ [] := List.ne_nil_of_length_pos (by rw [List.length_drop]; omega)
  rw [h.state, if_neg hne]

theorem State.AfterChunks.ended (h : s.AfterChunks s.chunks.length n bs c u) : u = s.unpacking n bs .idle := by
  rw [h.state, List.drop_length, if_pos rfl]

/-- At the end the places are those of the level. -/
theorem State.AfterChunks.nodup (h : s.AfterChunks s.chunks.length n bs c u) : (bs.map PlacedBlock.place).Nodup := by
  rw [h.places, List.take_length]
  exact nodup_chunkPlaces

theorem State.AfterChunks.unpackResult (h : s.AfterChunks s.chunks.length n bs c u) (hidle : s.activity = .idle)
    (hchecks : s.firstCheck .chunk = none) (hdxt : s.dxtFormat) : UnpackResult .chunk s u := by
  rw [h.ended]
  refine unpackResult_unpacking hidle hchecks hdxt h.nodup h.faces h.entries fun f x y hf hx hy => ?_
  rw [h.places, List.take_length]
  exact mem_chunkPlaces hf hx hy

/-- The next chunk, once its encoding is fetched. -/
theorem State.AfterChunks.next (h : s.AfterChunks j n bs c u) (hj : j < s.chunks.length) (he : e < 8)
    (hwf : s.cfg.wf = true) (hdxt : s.dxtFormat) (hchecks : s.firstCheck .chunk = none)
    (hwritten : ∀ p ∈ s.planes .chunk, s.palettesWritten p)
    (hfetch : fetchChunk c (s.unpacking n bs (.chunk c)) = .ok (tileInstr e, s.unpacking m bs (.chunk c1)))
    (hc1 : ∃ ceb, c1 = { c with ceb := ceb })
    (hdecode : decodeSeq (s.advance m) (chunkSlots (s.planes .chunk) (s.cfg.tileCount.getD e 0)) =
      .ok (syms, s.advance l)) :
    ∃ c' v, oneEvent u = .ok v ∧ s.ChunkRebuilt c { c' with ceb := c.ceb, scan := c.scan } (s.planes .chunk)
        (s.cfg.tileCount.getD e 0) syms ∧ c'.ceb = c1.ceb ∧
      s.AfterChunks (j + 1) l (bs ++ (List.range 4).map (s.rebuiltBlock c s.chunks[j] e syms)) c' v := by
  obtain ⟨ceb, rfl⟩ := hc1
  have hdrop : s.chunks.drop j = s.chunks[j] :: s.chunks.drop (j + 1) := List.drop_eq_getElem_cons hj
  obtain ⟨c', ⟨hscan, hceb, hk, hfull, hplanes, hothers⟩, hevent⟩ := oneEvent_of_record he hwf hdxt hchecks hwritten hfetch
    (h.scan.trans hdrop) h.full (face_lt_of_mem_chunks (List.getElem_mem hj)) hdecode
  rw [h.running hj]
  refine ⟨{ c' with scan := s.chunks.drop (j + 1) }, _, hevent, ⟨rfl, rfl, hk, hfull, hplanes, hothers⟩, hceb,
    ⟨rfl, rfl, hfull, ?_, ?_⟩⟩
  · rw [List.map_append, h.places, List.take_succ_eq_append_getElem hj, List.flatMap_append, List.flatMap_singleton]
    exact congrArg _ map_place_rebuiltBlocks
  · exact List.forall_mem_append.2 ⟨h.entries, List.forall_mem_map.2 fun k _ => holdsSomeEntries_rebuiltBlock hchecks k⟩

end

/-! ### Any decodable stream (R221) -/

section
variable {s u : State} {n : Nat} {bs : List PlacedBlock} {c : ChunkState}

/-- An encoding is fetched from a decodable slot 0. -/
theorem fetchChunk_of_decodable (hsource : s.sourceWritten) (hdecodable : s.decodable 0 512) :
    ∃ e m ceb, e < 8 ∧ fetchChunk c (s.unpacking n bs (.chunk c)) =
      .ok (tileInstr e, s.unpacking m bs (.chunk { c with ceb := ceb })) := by
  by_cases hceb : c.ceb = 1
  · obtain ⟨v, m, hv, hlt⟩ := decodeSlot_of_decodable hsource hdecodable n
    refine ⟨v % 8, m, BitVec.ofNat 10 ((v + 512) / 8), Nat.mod_lt _ (by decide), ?_⟩
    rw [fetchChunk_of_refill hceb (decodeSlot_unpacking hv) hlt, State.setActivity_unpacking]
  · exact ⟨c.ceb.toNat % 8, n, _, Nat.mod_lt _ (by decide), fetchChunk_of_ne hceb⟩

theorem mem_chunkSlots {ps : List Plane} {tiles k : Nat} (h : k ∈ chunkSlots ps tiles) :
    ∃ p ∈ ps, k = p.epSlot ∨ k = p.selSlot := by
  rcases List.mem_append.1 h with h | h
  · obtain ⟨p, hp, h⟩ := List.mem_flatMap.1 h
    exact ⟨p, hp, .inl (List.eq_of_mem_replicate h)⟩
  · obtain ⟨i, -, h⟩ := List.mem_flatMap.1 h
    obtain ⟨p, hp, rfl⟩ := List.mem_map.1 h
    exact ⟨p, hp, .inr rfl⟩

theorem exec_unpackChunk_of_decodable (herr : s.err = false) (hidle : s.activity = .idle) (hwf : s.cfg.wf = true)
    (hdxt : s.dxtFormat) (hchecks : s.firstCheck .chunk = none) (hsource : s.sourceWritten) (hcodes : s.decodable 0 512)
    (hplanes : ∀ p ∈ s.planes .chunk, s.decodable p.epSlot 8192 ∧ s.decodable p.selSlot 8192 ∧ s.palettesWritten p) :
    ∃ t, exec .unpackChunk s = .next t ∧ UnpackResult .chunk s t := by
  obtain ⟨t, ht, n, bs, c, hafter⟩ := exec_unpackInstr_of_positions (len := s.chunks.length)
    (P := fun j u => ∃ n bs c, s.AfterChunks j n bs c u) herr hdxt hchecks ⟨0, [], initChunk s, afterChunks_zero hchecks⟩
    (fun u ⟨n, bs, c, h⟩ => by rw [h.ended]; rfl)
    (fun j hj u ⟨n, bs, c, h⟩ => by
      obtain ⟨e, m, ceb, he, hfetch⟩ := fetchChunk_of_decodable (n := n) (bs := bs) (c := c) hsource hcodes
      obtain ⟨syms, l, hdecode, -⟩ := decodeSeq_of_decodable (slot := id) (bnd := fun _ => 8192) hsource
        (xs := chunkSlots (s.planes .chunk) (s.cfg.tileCount.getD e 0)) (fun k hk => by
          obtain ⟨p, hp, rfl | rfl⟩ := mem_chunkSlots hk
          · exact (hplanes p hp).1
          · exact (hplanes p hp).2.1) m
      rw [List.map_id] at hdecode
      obtain ⟨c', v, hv, -, -, hnext⟩ := h.next hj he hwf hdxt hchecks (fun p hp => (hplanes p hp).2.2) hfetch ⟨ceb, rfl⟩
        hdecode
      exact ⟨by rw [h.running hj]; exact Activity.noConfusion, v, hv, l, _, c', hnext⟩)
  exact ⟨t, ht, hafter.unpackResult hidle hchecks hdxt⟩

end

/-! ### The symbols of a level, chunk by chunk (R230 to R236) -/

/-- What is left of the symbol of slot 0 before chunk `j`: bit 9 and the fields still to use (R233). -/
def encodingsLeft (code : Nat → Nat) (j : Nat) : Nat := if j % 3 = 0 then 1 else (code (j / 3) + 512) / 8 ^ (j % 3)

/-- The endpoint deltas of plane `p` in the first `j` chunks. -/
def State.endpointSum (s : State) (code : Nat → Nat) (records : Nat → List Nat) (p : Plane) (j : Nat) : Nat :=
  ((List.range j).map fun l =>
    endpointDeltas (s.planes .chunk) (s.chunkTiles code l) (records l) p (s.chunkTiles code l)).sum

/-- The selector deltas of plane `p` in the first `j` chunks. -/
def State.selectorSum (s : State) (code : Nat → Nat) (records : Nat → List Nat) (p : Plane) (j : Nat) : Nat :=
  ((List.range j).map fun l => selectorDeltas (s.planes .chunk) (s.chunkTiles code l) (records l) p 4).sum

/-- Sub-block `k` of chunk `j`, at `pos`, by the level's symbols. -/
def State.levelBlock (s : State) (code : Nat → Nat) (records : Nat → List Nat) (j : Nat) (pos : ChunkPos) (k : Nat) :
    PlacedBlock where
  f := pos.f
  x := 2 * pos.cx + k % 2
  y := 2 * pos.cy + k / 2
  bytes := s.blockOf
    (fun p => s.levelEndpoint code records p j ((s.cfg.tilePattern.getD (chunkEncoding code j) []).getD k 0))
    fun p => s.levelSelector code records p j k

/-- The slots of chunk `j`: every third chunk has a symbol of slot 0 first. -/
def State.slotsOf (s : State) (code : Nat → Nat) (j : Nat) : List Nat :=
  (if j % 3 = 0 then [0] else []) ++ chunkSlots (s.planes .chunk) (s.chunkTiles code j)

/-- The symbols of chunk `j`. -/
def symbolsOf (code : Nat → Nat) (records : Nat → List Nat) (j : Nat) : List Nat :=
  (if j % 3 = 0 then [code (j / 3)] else []) ++ records j

/-- From position `j` on, the first and the others. -/
theorem flatMap_range'_of_lt (g : Nat → List Nat) {j len : Nat} (hj : j < len) :
    (List.range' j (len - j)).flatMap g = g j ++ (List.range' (j + 1) (len - (j + 1))).flatMap g := by
  obtain ⟨m, hm⟩ : ∃ m, len - j = m + 1 := ⟨len - j - 1, by omega⟩
  have hm' : len - (j + 1) = m := by omega
  rw [hm, hm', List.range'_succ, List.flatMap_cons]

section
variable {s u v : State} {code : Nat → Nat} {records : Nat → List Nat} {j k n : Nat} {c c' : ChunkState} {p : Plane}

theorem endpointSum_succ : s.endpointSum code records p (j + 1) = s.endpointSum code records p j +
    endpointDeltas (s.planes .chunk) (s.chunkTiles code j) (records j) p (s.chunkTiles code j) := by
  rw [State.endpointSum, List.range_succ, List.map_append, List.sum_append, List.map_singleton, List.sum_singleton]
  rfl

theorem selectorSum_succ : s.selectorSum code records p (j + 1) = s.selectorSum code records p j +
    selectorDeltas (s.planes .chunk) (s.chunkTiles code j) (records j) p 4 := by
  rw [State.selectorSum, List.range_succ, List.map_append, List.sum_append, List.map_singleton, List.sum_singleton]
  rfl

/-- What is left of a symbol fits the register. -/
theorem encodingsLeft_lt (hcode : ∀ g, code g < 512) (j : Nat) : encodingsLeft code j < 2 ^ 10 := by
  rw [encodingsLeft]
  split
  · decide
  · have hle : (code (j / 3) + 512) / 8 ^ (j % 3) ≤ code (j / 3) + 512 := Nat.div_le_self _ _
    have := hcode (j / 3)
    omega

/-- The symbol of slot 0 serves three chunks, its low field first. -/
theorem fetchChunk_of_encodingsLeft (hcode : code (j / 3) < 512) (hceb : c.ceb.toNat = encodingsLeft code j)
    (hdecode : decodeSeq s (if j % 3 = 0 then [0] else []) = .ok (if j % 3 = 0 then [code (j / 3)] else [], u)) :
    fetchChunk c s = .ok (tileInstr (chunkEncoding code j),
      u.setActivity (.chunk { c with ceb := BitVec.ofNat 10 (encodingsLeft code (j + 1)) })) := by
  have hthird : j % 3 = 0 ∨ j % 3 = 1 ∨ j % 3 = 2 := by omega
  rcases hthird with h | h | h
  · have hnext : (j + 1) % 3 = 1 ∧ (j + 1) / 3 = j / 3 := by omega
    have hone : c.ceb = 1 := BitVec.eq_of_toNat_eq (by rw [hceb, encodingsLeft, if_pos h]; rfl)
    rw [if_pos h, if_pos h] at hdecode
    obtain ⟨d, ds, t, hd, hnil, heq⟩ := decodeSeq_cons_ok.1 hdecode
    cases hnil
    cases heq
    rw [fetchChunk_of_refill hone hd hcode, chunkEncoding, encodingsLeft, h, hnext.1, hnext.2, Nat.pow_zero,
      Nat.div_one]
    rfl
  · have hnext : (j + 1) % 3 = 2 ∧ (j + 1) / 3 = j / 3 := by omega
    have hleft : c.ceb.toNat = (code (j / 3) + 512) / 8 := by rw [hceb, encodingsLeft, h]; rfl
    have hne : c.ceb ≠ 1 := fun hone => by rw [hone] at hleft; change 1 = _ at hleft; omega
    rw [if_neg (by omega), if_neg (by omega)] at hdecode
    cases hdecode
    have hfield : (code (j / 3) + 512) / 8 % 8 = code (j / 3) / 8 % 8 := by omega
    have hshift : (code (j / 3) + 512) / 8 / 8 = (code (j / 3) + 512) / 64 := by omega
    rw [fetchChunk_of_ne hne, chunkEncoding, encodingsLeft, h, hnext.1, hnext.2, hleft, hfield, hshift]
    rfl
  · have hnext : (j + 1) % 3 = 0 := by omega
    have hleft : c.ceb.toNat = (code (j / 3) + 512) / 64 := by rw [hceb, encodingsLeft, h]; rfl
    have hne : c.ceb ≠ 1 := fun hone => by rw [hone] at hleft; change 1 = _ at hleft; omega
    rw [if_neg (by omega), if_neg (by omega)] at hdecode
    cases hdecode
    have hfield : (code (j / 3) + 512) / 64 % 8 = code (j / 3) / 64 % 8 := by omega
    have hshift : (code (j / 3) + 512) / 64 / 8 = 1 := by omega
    rw [fetchChunk_of_ne hne, chunkEncoding, encodingsLeft, h, if_pos hnext, hleft, hfield, hshift] <;> rfl

/-- A tile's index of a chunk, when the register holds the sum over the chunks before. -/
theorem tileEndpoint_eq_levelEndpoint {i : Nat} (hep : (c.ep.get p).toNat = s.endpointSum code records p j % s.epCount p) :
    tileEndpoint s c (s.planes .chunk) (s.chunkTiles code j) (records j) p i = s.levelEndpoint code records p j i := by
  rw [tileEndpoint, hep, Nat.mod_add_mod]
  rfl

theorem blockSelector_eq_levelSelector (hsp : (c.sp.get p).toNat = s.selectorSum code records p j % s.selCount p) :
    blockSelector s c (s.planes .chunk) (s.chunkTiles code j) (records j) p k = s.levelSelector code records p j k := by
  rw [blockSelector, hsp, Nat.mod_add_mod]
  rfl

end

/-- The registers, the blocks and the stream after `j` chunks, by the level's symbols. -/
structure State.ChunksRead (s : State) (code : Nat → Nat) (records : Nat → List Nat) (final : State) (j n : Nat)
    (bs : List PlacedBlock) (c : ChunkState) : Prop where
  encodings : c.ceb.toNat = encodingsLeft code j
  endpoints : ∀ p ∈ s.planes .chunk, (c.ep.get p).toNat = s.endpointSum code records p j % s.epCount p
  selectors : ∀ p ∈ s.planes .chunk, (c.sp.get p).toNat = s.selectorSum code records p j % s.selCount p
  blocks : ∀ l pos k, l < j → s.chunks[l]? = some pos → k < 4 → s.levelBlock code records l pos k ∈ bs
  stream : decodeSeq (s.advance n) ((List.range' j (s.chunks.length - j)).flatMap (s.slotsOf code)) =
    .ok ((List.range' j (s.chunks.length - j)).flatMap (symbolsOf code records), final)

section
variable {s u v final : State} {code : Nat → Nat} {records : Nat → List Nat} {j k n : Nat} {bs : List PlacedBlock}
  {c c' : ChunkState} {p : Plane}

theorem chunksRead_zero
    (hdecode : decodeSeq s (s.chunkLevelSlots code) = .ok (s.chunkLevelSymbols code records, final)) :
    s.ChunksRead code records final 0 0 [] (initChunk s) where
  encodings := rfl
  endpoints p _ := by cases p <;> exact (Nat.zero_mod _).symm
  selectors p _ := by cases p <;> exact (Nat.zero_mod _).symm
  blocks _ _ _ hl := absurd hl (Nat.not_lt_zero _)
  stream := by
    rw [Nat.sub_zero, ← List.range_eq_range']
    exact hdecode

/-- A sub-block of a chunk is the block of the level. -/
theorem State.ChunksRead.rebuiltBlock_eq (h : s.ChunksRead code records final j n bs c) (hwf : s.cfg.wf = true)
    (hdxt : s.dxtFormat) (pos : ChunkPos) (k : Nat) {c1 : ChunkState} (hep : c1.ep = c.ep) (hsp : c1.sp = c.sp) :
    s.rebuiltBlock c1 pos (chunkEncoding code j) (records j) k = s.levelBlock code records j pos k := by
  have hbytes := blockOf_congr hdxt fun p hp => by
    have hp := (blockPlanes_perm_planes hwf hdxt .chunk).mem_iff.1 hp
    exact ⟨tileEndpoint_eq_levelEndpoint (c := c1) (i := (s.cfg.tilePattern.getD (chunkEncoding code j) []).getD k 0)
      (by rw [hep]; exact h.endpoints p hp), blockSelector_eq_levelSelector (c := c1) (k := k)
      (by rw [hsp]; exact h.selectors p hp)⟩
  rw [State.rebuiltBlock, State.levelBlock, ← hbytes]
  rfl

/-- One chunk read. -/
theorem State.ChunksRead.next (h : s.ChunksRead code records final j n bs c) (hafter : s.AfterChunks j n bs c u)
    (hj : j < s.chunks.length) (hwf : s.cfg.wf = true) (hdxt : s.dxtFormat) (hchecks : s.firstCheck .chunk = none)
    (hwritten : ∀ p ∈ s.planes .chunk, s.palettesWritten p) (hcode : ∀ g, code g < 512)
    (hrecord : (records j).length = (chunkSlots (s.planes .chunk) (s.chunkTiles code j)).length) :
    ∃ v l bs' c', oneEvent u = .ok v ∧ s.AfterChunks (j + 1) l bs' c' v ∧
      s.ChunksRead code records final (j + 1) l bs' c' := by
  have he : chunkEncoding code j < 8 := Nat.mod_lt _ (by decide)
  obtain ⟨hone, -, -⟩ := tiles_of_wf hwf he
  have hstream := h.stream
  rw [flatMap_range'_of_lt _ hj, flatMap_range'_of_lt _ hj, State.slotsOf, symbolsOf, List.append_assoc,
    List.append_assoc] at hstream
  obtain ⟨t1, hfirst, hstream⟩ := decodeSeq_append_of_length hstream (by split <;> rfl)
  obtain ⟨t2, hsecond, hstream⟩ := decodeSeq_append_of_length hstream hrecord
  obtain ⟨m, rfl⟩ := decodeSeq_advance hfirst
  rw [State.advance_advance] at hfirst hsecond
  obtain ⟨l, rfl⟩ := decodeSeq_advance hsecond
  rw [State.advance_advance] at hsecond hstream
  have hfetch := fetchChunk_of_encodingsLeft (hcode _) h.encodings (decodeSeq_unpacking (bs := bs) (a := .chunk c) hfirst)
  obtain ⟨c', v, hv, ⟨-, -, -, -, hplanes, -⟩, hceb, hnext⟩ :=
    hafter.next hj he hwf hdxt hchecks hwritten hfetch ⟨_, rfl⟩ hsecond
  refine ⟨v, _, _, c', hv, hnext, ⟨?_, fun p hp => ?_, fun p hp => ?_, fun i pos k hi hpos hk => ?_, hstream⟩⟩
  · rw [hceb, BitVec.toNat_ofNat, Nat.mod_eq_of_lt (encodingsLeft_lt hcode _)]
  · rw [(hplanes p hp).1, tileEndpoint, Nat.sub_add_cancel hone, h.endpoints p hp, Nat.mod_add_mod, endpointSum_succ]
    rfl
  · rw [(hplanes p hp).2.1, blockSelector, h.selectors p hp, Nat.mod_add_mod, selectorSum_succ]
    rfl
  · rcases Nat.lt_succ_iff_lt_or_eq.1 hi with hlt | rfl
    · exact List.mem_append_left _ (h.blocks i pos k hlt hpos hk)
    · obtain ⟨-, rfl⟩ := List.getElem?_eq_some_iff.1 hpos
      refine List.mem_append_right _ (List.mem_map.2 ⟨k, List.mem_range.2 hk, ?_⟩)
      exact h.rebuiltBlock_eq hwf hdxt _ k rfl rfl

theorem exec_unpackChunk_of_symbols (herr : s.err = false) (hidle : s.activity = .idle) (hwf : s.cfg.wf = true)
    (hdxt : s.dxtFormat) (hchecks : s.firstCheck .chunk = none) (hwritten : ∀ p ∈ s.planes .chunk, s.palettesWritten p)
    (hcode : ∀ g, code g < 512)
    (hrecords : ∀ j, j < s.chunks.length →
      (records j).length = (chunkSlots (s.planes .chunk) (s.chunkTiles code j)).length)
    (hdecode : decodeSeq s (s.chunkLevelSlots code) = .ok (s.chunkLevelSymbols code records, final)) :
    ∃ t, exec .unpackChunk s = .next t ∧ t = { s with br := final.br, dst := t.dst } ∧
      (∀ a, ¬ s.inVisibleBlock a → Memory.read t.dst a = Memory.read s.dst a) ∧
      ∀ j pos k, s.chunks[j]? = some pos → k < 4 →
        s.visible (2 * pos.cx + k % 2) (2 * pos.cy + k / 2) = true →
        t.dstHolds (s.blockAddr pos.f (2 * pos.cx + k % 2) (2 * pos.cy + k / 2))
          (s.blockOf
            (fun p => s.levelEndpoint code records p j ((s.cfg.tilePattern.getD (chunkEncoding code j) []).getD k 0))
            (fun p => s.levelSelector code records p j k)) := by
  obtain ⟨t, ht, n, bs, c, hafter, hread⟩ := exec_unpackInstr_of_positions (len := s.chunks.length)
    (P := fun j u => ∃ n bs c, s.AfterChunks j n bs c u ∧ s.ChunksRead code records final j n bs c) herr hdxt hchecks
    ⟨0, [], initChunk s, afterChunks_zero hchecks, chunksRead_zero hdecode⟩
    (fun u ⟨n, bs, c, h, _⟩ => by rw [h.ended]; rfl)
    (fun j hj u ⟨n, bs, c, hafter, hread⟩ => by
      obtain ⟨v, l, bs', c', hv, hafter', hread'⟩ :=
        hread.next hafter hj hwf hdxt hchecks hwritten hcode (hrecords j hj)
      exact ⟨by rw [hafter.running hj]; exact Activity.noConfusion, v, hv, l, bs', c', hafter', hread'⟩)
  obtain ⟨hstate, -, hframe, -⟩ := hafter.unpackResult hidle hchecks hdxt
  have hfinal : s.advance n = final := by
    have hstream := hread.stream
    rw [Nat.sub_self] at hstream
    cases hstream
    rfl
  refine ⟨t, ht, ?_, hframe, fun j pos k hpos hk hvisible => ?_⟩
  · rw [hafter.ended, ← hfinal, ← hidle]
    rfl
  · rw [hafter.ended]
    exact dstHolds_unpacking hchecks hdxt hafter.nodup hafter.faces hafter.entries
      (hread.blocks j pos k (List.getElem?_eq_some_iff.1 hpos).1 hpos hk) hvisible

end

/-- Settles O43: any decodable stream takes the command through all chunks, and a given one writes the sums of its
deltas. -/
theorem unpackChunkRebuildsTheLevel : Obligations.UnpackChunkRebuildsTheLevel :=
  ⟨fun _ => exec_unpackChunk_of_decodable, fun _ _ _ _ => exec_unpackChunk_of_symbols⟩

end Sys2Proof.Machine
end

