-- ==== Sys2Proof/Proofs/RefBlocks.lean ====
section
/-! PROOFS. The blocks of a reference-group level one after another: the scan, the column cache, and one event
(spec/44_unpack_refgroup.md R261 to R270). -/

namespace Sys2Proof.Machine

/-! ### The scan by its positions (R270) -/

/-- Rows of the same length, counted through. -/
theorem flatMap_range_map_range {α : Type} (g : Nat → Nat → α) (a b : Nat) :
    (List.range a).flatMap (fun i => (List.range b).map (g i)) = (List.range (a * b)).map fun j => g (j / b) (j % b) := by
  induction a with
  | zero => simp
  | succ a ih =>
    rw [List.range_succ, List.flatMap_append, ih, List.flatMap_singleton, Nat.succ_mul, List.range_add, List.map_append,
      List.map_map]
    refine congrArg _ (List.map_congr_left fun i hi => ?_)
    have hi := List.mem_range.1 hi
    rw [Function.comp, Nat.mul_comm a b, Nat.mul_add_div (by omega), Nat.div_eq_of_lt hi, Nat.mul_add_mod,
      Nat.mod_eq_of_lt hi, Nat.add_zero]

theorem blockScan_eq (faces rows columns : Nat) : blockScan faces rows columns =
    (List.range (faces * (rows * columns))).map fun j =>
      ⟨j / (rows * columns), j % (rows * columns) / columns, j % (rows * columns) % columns⟩ := by
  rw [← flatMap_range_map_range fun f i => (⟨f, i / columns, i % columns⟩ : BlockPos)]
  refine List.flatMap_congr fun f _ => ?_
  exact flatMap_range_map_range (fun y x => (⟨f, y, x⟩ : BlockPos)) rows columns

/-- Block `j` of the scan. -/
theorem getElem?_blockScan {faces rows columns j : Nat} {pos : BlockPos}
    (h : (blockScan faces rows columns)[j]? = some pos) :
    pos.y < rows ∧ pos.x < columns ∧ j = (pos.f * rows + pos.y) * columns + pos.x := by
  rw [blockScan_eq, List.getElem?_map] at h
  obtain ⟨i, hi, rfl⟩ := Option.map_eq_some_iff.1 h
  obtain ⟨hlt, rfl⟩ := List.getElem?_eq_some_iff.1 hi
  rw [List.getElem_range, List.length_range] at *
  have hpos : 0 < rows * columns := Nat.pos_of_ne_zero fun h => by simp [h] at hlt
  have hcolumns : 0 < columns := Nat.pos_of_mul_pos_left hpos
  refine ⟨Nat.div_lt_of_lt_mul ((Nat.mod_lt _ hpos).trans_eq (Nat.mul_comm _ _)), Nat.mod_lt _ hcolumns, ?_⟩
  have hface := Nat.div_add_mod j (rows * columns)
  have hrow := Nat.div_add_mod (j % (rows * columns)) columns
  calc j = rows * columns * (j / (rows * columns)) + (columns * (j % (rows * columns) / columns)
        + j % (rows * columns) % columns) := by rw [hrow, hface]
    _ = _ := by ring

/-- The block after a block: its right-hand neighbour, the first of the next row, or the first of a face. -/
theorem next_blockScan {faces rows columns j : Nat} {pos pos' : BlockPos}
    (h : (blockScan faces rows columns)[j]? = some pos) (h' : (blockScan faces rows columns)[j + 1]? = some pos') :
    (pos'.f = pos.f ∧ pos'.y = pos.y ∧ pos'.x = pos.x + 1) ∨
    (pos'.f = pos.f ∧ pos'.y = pos.y + 1 ∧ pos'.x = 0 ∧ pos.x + 1 = columns) ∨ (pos'.y = 0 ∧ pos'.x = 0) := by
  obtain ⟨hy, hx, hj⟩ := getElem?_blockScan h
  obtain ⟨hy', hx', hj'⟩ := getElem?_blockScan h'
  have hunique : ∀ {n a b c d : Nat}, b < n → d < n → a * n + b = c * n + d → a = c ∧ b = d := fun {n a b c d} hb hd heq => by
    have hdiv := congrArg (· / n) heq
    have hmod := congrArg (· % n) heq
    simp only [Nat.mul_comm _ n, Nat.mul_add_div (Nat.zero_lt_of_lt hb), Nat.mul_add_mod, Nat.div_eq_of_lt hb,
      Nat.div_eq_of_lt hd, Nat.mod_eq_of_lt hb, Nat.mod_eq_of_lt hd, Nat.add_zero] at hdiv hmod
    exact ⟨hdiv, hmod⟩
  by_cases hright : pos.x + 1 < columns
  · obtain ⟨hrow, hcolumn⟩ := hunique (a := pos.f * rows + pos.y) (b := pos.x + 1) (c := pos'.f * rows + pos'.y) hright hx'
      (by omega)
    obtain ⟨hf, hy⟩ := hunique hy hy' hrow
    exact .inl ⟨hf.symm, hy.symm, hcolumn.symm⟩
  · have hlast : pos.x + 1 = columns := by omega
    obtain ⟨hrow, hcolumn⟩ := hunique (a := pos.f * rows + pos.y + 1) (b := 0) (c := pos'.f * rows + pos'.y) (by omega) hx'
      (by rw [Nat.succ_mul]; omega)
    by_cases hbelow : pos.y + 1 < rows
    · obtain ⟨hf, hy⟩ := hunique (a := pos.f) (b := pos.y + 1) (c := pos'.f) hbelow hy' (by omega)
      exact .inr (.inl ⟨hf.symm, hy.symm, hcolumn.symm, hlast⟩)
    · obtain ⟨hf, hy⟩ := hunique (a := pos.f + 1) (b := 0) (c := pos'.f) (by omega) hy' (by rw [Nat.succ_mul]; omega)
      exact .inr (.inr ⟨hy.symm, hcolumn.symm⟩)

/-! ### The column cache (R264, R266) -/

section
variable {s : State} {g g1 : RefState} {ps : List Plane} {x x' : Nat} {e : ColEntry} {pos : BlockPos} {p : Plane}

theorem column_set (hx : x < g.col.length) : RefState.column { g with col := g.col.set x e } x' =
    if x' = x then e else g.column x' := by
  rw [RefState.column, RefState.column, List.getD_eq_getElem?_getD, List.getD_eq_getElem?_getD, List.getElem?_set]
  by_cases hxx : x = x'
  · subst hxx
    simp [hx]
  · simp [hxx, Ne.symm hxx]

theorem column_zeroColumns {rg : BitVec 8} {ep sp : PlaneRegs} {diag : Nat} {scan : List BlockPos} :
    RefState.column ⟨rg, ep, sp, zeroColumns, diag, scan⟩ x = ColEntry.zero := by
  rw [RefState.column, zeroColumns, List.getD_eq_getElem?_getD, List.getElem?_replicate]
  split <;> rfl

/-- What a fetch keeps: it may set the group register and the kind that the block's own column keeps (R264, R265). -/
structure RefState.FetchedTo (g : RefState) (pos : BlockPos) (g1 : RefState) : Prop where
  scan : g1.scan = g.scan
  ep : g1.ep = g.ep
  sp : g1.sp = g.sp
  length : g.col.length = colSize → g1.col.length = colSize
  idx : ∀ x, (g1.column x).idx = ((enterFace pos g).column x).idx
  kind : ∀ x, x ≠ pos.x → (g1.column x).kind = ((enterFace pos g).column x).kind

theorem length_enterFace (h : g.col.length = colSize) : (enterFace pos g).col.length = colSize := by
  rw [enterFace]
  split
  · exact List.length_replicate ..
  · exact h

theorem fetchedTo_enterFace : g.FetchedTo pos (enterFace pos g) := by
  refine ⟨?_, ?_, ?_, length_enterFace, fun _ => rfl, fun _ _ => rfl⟩
  all_goals
    rw [enterFace]
    split <;> rfl

/-- A column whose kind alone is set. -/
theorem column_set_kind {kind : BitVec 2} {rg : BitVec 8} :
    (RefState.column { g with rg := rg, col := g.col.set x { g.column x with kind := kind } } x').idx = (g.column x').idx ∧
    (x' ≠ x → (RefState.column { g with rg := rg, col := g.col.set x { g.column x with kind := kind } } x').kind =
      (g.column x').kind) := by
  by_cases hx : x < g.col.length
  · have hset := column_set (g := { g with rg := rg }) (x' := x') (e := { g.column x with kind := kind }) hx
    rw [hset]
    by_cases hxx : x' = x
    · rw [if_pos hxx, hxx]
      exact ⟨rfl, fun hne => absurd rfl hne⟩
    · rw [if_neg hxx]
      exact ⟨rfl, fun _ => rfl⟩
  · rw [List.set_eq_of_length_le (Nat.not_lt.1 hx)]
    exact ⟨rfl, fun _ => rfl⟩

/-- On an even row the block's column keeps a kind. -/
theorem RefState.FetchedTo.keepKind (h : g.FetchedTo pos g1) (rg : BitVec 8) (kind : BitVec 2) :
    g.FetchedTo pos { g1 with rg := rg, col := g1.col.set pos.x { g1.column pos.x with kind := kind } } where
  scan := h.scan
  ep := h.ep
  sp := h.sp
  length hlength := List.length_set.trans (h.length hlength)
  idx x := (column_set_kind (x' := x)).1.trans (h.idx x)
  kind x hx := ((column_set_kind (x' := x)).2 hx).trans (h.kind x hx)

end

/-! ### One block inside the command -/

section
variable {s u : State} {j n m m' l : Nat} {bs : List PlacedBlock} {g g1 g2 : RefState} {pos : BlockPos}
  {rest : List BlockPos} {syms : List Nat} {i : Instr} {p : Plane}

theorem w2_le (s : State) : s.w2 ≤ colSize := by
  have hlt := s.lvlW.isLt
  simp only [State.w2, State.bx, ceilDiv, colSize]
  omega

/-- The block at `pos` by the running indices of its endpoints and the symbols of its selectors. -/
def State.refBlock (s : State) (ep sp : PlaneRegs) (pos : BlockPos) (syms : List Nat) : PlacedBlock where
  f := pos.f
  x := pos.x
  y := pos.y
  bytes := s.blockRG ep (s.runningSelectorsRG (s.planes .refgrp) syms sp) syms

theorem place_refBlock {ep sp : PlaneRegs} : (s.refBlock ep sp pos syms).place = (pos.f, pos.x, pos.y) := by
  rw [PlacedBlock.place, State.refBlock]

/-- What the block holds: indices below the counts. -/
theorem holdsSomeEntries_refBlock {ep sp : PlaneRegs} (hchecks : s.firstCheck .refgrp = none)
    (hep : ∀ p ∈ s.planes .refgrp, (ep.get p).toNat < s.epCount p)
    (hrange : ∀ p ∈ s.planes .refgrp, s.selectorInRange p (planeSymbol (s.planes .refgrp) syms p)) :
    s.holdsSomeEntries .refgrp (s.refBlock ep sp pos syms) := by
  refine ⟨fun p => (ep.get p).toNat, fun p => if s.cfg.rgSelDelta
    then ((s.runningSelectorsRG (s.planes .refgrp) syms sp).get p).toNat else planeSymbol (s.planes .refgrp) syms p,
    fun p hp => ⟨hep p hp, ?_⟩, by rw [State.refBlock, State.blockRG]⟩
  obtain ⟨-, hpos⟩ := counts_pos_of_firstCheck hchecks hp
  have hlt := blockSelectorsRG_lt sp PlaneRegs.zero hp hpos (hrange p hp)
  rwa [blockSelectorsRG_toNat sp PlaneRegs.zero hp (hrange p hp)] at hlt

/-- One event, by its fetch and its sub-code. -/
theorem oneEvent_of_reference (hwf : s.cfg.wf = true) (hdxt : s.dxtFormat) (hchecks : s.firstCheck .refgrp = none)
    (hwritten : ∀ p ∈ s.planes .refgrp, s.palettesWritten p) (hf : pos.f < s.faces.toNat)
    (hfetch : fetchRef g (s.unpacking n bs (.refgrp g)) = .ok (i, s.unpacking m bs (.refgrp g1)))
    (hbody : eventBody i (s.unpacking m bs (.refgrp g1)) = .ok (s.unpacking m' bs (.refgrp g2)))
    (hscan : g2.scan = pos :: rest) (hep : ∀ p ∈ s.planes .refgrp, (g2.ep.get p).toNat < s.epCount p)
    (hdecode : decodeSeq (s.advance m') ((s.planes .refgrp).map Plane.selSlot) = .ok (syms, s.advance l))
    (hrange : ∀ p ∈ s.planes .refgrp, s.selectorInRange p (planeSymbol (s.planes .refgrp) syms p)) :
    oneEvent (s.unpacking n bs (.refgrp g)) = .ok (s.unpacking l (bs ++ [s.refBlock g2.ep g2.sp pos syms])
      (if rest = [] then .idle
        else .refgrp { g2 with sp := s.runningSelectorsRG (s.planes .refgrp) syms g2.sp, scan := rest })) := by
  have hretire := retireRef_of_inRange (s := s.unpacking m' bs (.refgrp g2)) hscan hwf hdxt hchecks hf
    (fun p hp => ⟨hwritten p hp, hep p hp⟩) (decodeSeq_unpacking hdecode) hrange
  refine (oneEvent_ok _ _).2 ⟨_, _, _, hfetch, hbody, hretire.trans ?_⟩
  exact congrArg (fun d => Except.ok (((s.advance l).setDst d).setActivity _)) 
    (State.writeAll_append s s.dst bs [s.refBlock g2.ep g2.sp pos syms]).symm

end

/-! ### The states after the first blocks -/

/-- Inside the command, or at its end, `j` blocks done: the cursor, the blocks written, the registers. -/
structure State.AfterBlocks (s : State) (j n : Nat) (bs : List PlacedBlock) (g : RefState) (u : State) : Prop where
  state : u = s.unpacking n bs (if s.blocks.drop j = [] then .idle else .refgrp g)
  scan : g.scan = s.blocks.drop j
  places : bs.map PlacedBlock.place = (s.blocks.take j).map fun pos => (pos.f, pos.x, pos.y)
  entries : ∀ b ∈ bs, s.holdsSomeEntries .refgrp b

section
variable {s u : State} {j n m m' l : Nat} {bs : List PlacedBlock} {g g1 g2 : RefState} {syms : List Nat} {i : Instr}

theorem afterBlocks_zero (hchecks : s.firstCheck .refgrp = none) :
    s.AfterBlocks 0 0 [] (initRefgrp s) (s.startUnpack .refgrp) where
  state := by
    have hproper : s.blocks ≠ [] := by
      rcases startUnpack_proper hchecks with h | h
      · cases h
      · exact List.ne_nil_of_length_pos h
    rw [List.drop_zero, if_neg hproper]
    rfl
  scan := rfl
  places := rfl
  entries := by simp

theorem face_lt_of_mem_blocks {pos : BlockPos} (h : pos ∈ s.blocks) : pos.f < s.faces.toNat :=
  ((mem_blockScan _ _ _ _).1 h).1

theorem nodup_blockPlaces : (s.blocks.map fun pos => (pos.f, pos.x, pos.y)).Nodup := by
  refine List.pairwise_map.2 ((pairwise_blockScan _ _ _).imp fun {a b} hab => ?_)
  simp only [ne_eq, Prod.mk.injEq]
  omega

theorem State.AfterBlocks.faces (h : s.AfterBlocks j n bs g u) : ∀ b ∈ bs, b.f < s.faces.toNat := by
  intro b hb
  have hplace := List.mem_map_of_mem (f := PlacedBlock.place) hb
  rw [h.places] at hplace
  obtain ⟨pos, hpos, heq⟩ := List.mem_map.1 hplace
  have hf : pos.f = b.f := congrArg Prod.fst heq
  rw [← hf]
  exact face_lt_of_mem_blocks (List.mem_of_mem_take hpos)

theorem State.AfterBlocks.running (h : s.AfterBlocks j n bs g u) (hj : j < s.blocks.length) :
    u = s.unpacking n bs (.refgrp g) := by
  have hne : s.blocks.drop j ≠ [] := List.ne_nil_of_length_pos (by rw [List.length_drop]; omega)
  rw [h.state, if_neg hne]

theorem State.AfterBlocks.ended (h : s.AfterBlocks s.blocks.length n bs g u) : u = s.unpacking n bs .idle := by
  rw [h.state, List.drop_length, if_pos rfl]

theorem State.AfterBlocks.nodup (h : s.AfterBlocks s.blocks.length n bs g u) : (bs.map PlacedBlock.place).Nodup := by
  rw [h.places, List.take_length]
  exact nodup_blockPlaces

theorem State.AfterBlocks.unpackResult (h : s.AfterBlocks s.blocks.length n bs g u) (hidle : s.activity = .idle)
    (hchecks : s.firstCheck .refgrp = none) (hdxt : s.dxtFormat) : UnpackResult .refgrp s u := by
  rw [h.ended]
  refine unpackResult_unpacking hidle hchecks hdxt h.nodup h.faces h.entries fun f x y hf hx hy => ?_
  rw [h.places, List.take_length]
  refine List.mem_map.2 ⟨⟨f, y, x⟩, (mem_blockScan _ _ _ _).2 ⟨hf, ?_, ?_⟩, rfl⟩
  · simp only [State.h2, ceilDiv]
    omega
  · simp only [State.w2, ceilDiv]
    omega

/-- The next block, by its fetch and its sub-code. -/
theorem State.AfterBlocks.next (h : s.AfterBlocks j n bs g u) (hj : j < s.blocks.length) (hwf : s.cfg.wf = true)
    (hdxt : s.dxtFormat) (hchecks : s.firstCheck .refgrp = none)
    (hwritten : ∀ p ∈ s.planes .refgrp, s.palettesWritten p)
    (hfetch : fetchRef g (s.unpacking n bs (.refgrp g)) = .ok (i, s.unpacking m bs (.refgrp g1)))
    (hbody : eventBody i (s.unpacking m bs (.refgrp g1)) = .ok (s.unpacking m' bs (.refgrp g2)))
    (hscan : g2.scan = g.scan) (hep : ∀ p ∈ s.planes .refgrp, (g2.ep.get p).toNat < s.epCount p)
    (hdecode : decodeSeq (s.advance m') ((s.planes .refgrp).map Plane.selSlot) = .ok (syms, s.advance l))
    (hrange : ∀ p ∈ s.planes .refgrp, s.selectorInRange p (planeSymbol (s.planes .refgrp) syms p)) :
    ∃ v, oneEvent u = .ok v ∧ s.AfterBlocks (j + 1) l (bs ++ [s.refBlock g2.ep g2.sp s.blocks[j] syms])
      { g2 with sp := s.runningSelectorsRG (s.planes .refgrp) syms g2.sp, scan := s.blocks.drop (j + 1) } v := by
  have hdrop : s.blocks.drop j = s.blocks[j] :: s.blocks.drop (j + 1) := List.drop_eq_getElem_cons hj
  have hevent := oneEvent_of_reference hwf hdxt hchecks hwritten (face_lt_of_mem_blocks (List.getElem_mem hj)) hfetch hbody
    ((hscan.trans h.scan).trans hdrop) hep hdecode hrange
  rw [h.running hj]
  refine ⟨_, hevent, rfl, rfl, ?_, ?_⟩
  · rw [List.map_append, h.places, List.take_succ_eq_append_getElem hj, List.map_append]
    exact congrArg _ (congrArg (fun x => [x]) place_refBlock)
  · exact List.forall_mem_append.2 ⟨h.entries,
      List.forall_mem_singleton.2 (holdsSomeEntries_refBlock hchecks hep hrange)⟩

end

end Sys2Proof.Machine
end

