-- ==== Sys2Proof/Proofs/RefLevel.lean ====
section
/-! PROOFS. `UNPACK_REFGRP` over a whole level (spec/44_unpack_refgroup.md R261 to R270). -/

namespace Sys2Proof.Machine

/-! ### Symbols plane by plane -/

section
variable {ps : List Plane} {syms : List Nat} {p : Plane}

theorem planeSymbol_of_forall₂ {R : Plane → Nat → Prop} (h : List.Forall₂ R ps syms) (hp : p ∈ ps) :
    R p (planeSymbol ps syms p) := by
  induction h with
  | nil => simp at hp
  | @cons q d rest ds hq _ ih =>
    by_cases hqp : q = p
    · subst hqp
      rwa [planeSymbol_cons_self]
    · rw [planeSymbol_cons_of_ne hqp]
      exact ih (List.mem_of_ne_of_mem (Ne.symm hqp) hp)

theorem planeSymbol_map (v : Plane → Nat) (hp : p ∈ ps) : planeSymbol ps (ps.map v) p = v p :=
  planeSymbol_of_forall₂ (R := fun q d => d = v q)
    (List.forall₂_map_right_iff.2 (List.forall₂_same.2 fun _ _ => rfl)) hp

end

/-! ### The registers after a sub-code -/

section
variable {s u : State} {g g1 : RefState} {pos : BlockPos} {rest : List BlockPos} {x x' : Nat} {ep sp : PlaneRegs}
  {diag n m : Nat} {bs : List PlacedBlock} {p : Plane} {ps : List Plane} {i : Instr} {k : Nat}

/-- The registers after a block: the running indices, and the block's column keeping them. -/
def RefState.afterBlock (g : RefState) (ps : List Plane) (x : Nat) (ep sp : PlaneRegs) (diag : Nat)
    (scan : List BlockPos) : RefState :=
  { referenced ps x g ep with diag := diag, sp := sp, scan := scan }

theorem column_afterBlock {scan : List BlockPos} (hx : x < g.col.length) :
    (g.afterBlock ps x ep sp diag scan).column x' =
      if x' = x then { g.column x with idx := setPlanes ps (g.column x).idx ep.get } else g.column x' :=
  column_set hx

/-- The block's column keeps the running indices. -/
theorem idx_column_afterBlock {scan : List BlockPos} (hx : x < g.col.length) (hp : p ∈ ps) :
    ((g.afterBlock ps x ep sp diag scan).column x).idx.get p = ep.get p := by
  rw [column_afterBlock hx, if_pos rfl, get_setPlanes, if_pos hp]

theorem kind_column_afterBlock {scan : List BlockPos} (hx : x < g.col.length) :
    ((g.afterBlock ps x ep sp diag scan).column x').kind = (g.column x').kind := by
  rw [column_afterBlock hx]
  split_ifs with h
  · rw [h]
  · rfl

theorem idx_column_afterBlock_of_ne {scan : List BlockPos} (hx : x < g.col.length) (hne : x' ≠ x) :
    ((g.afterBlock ps x ep sp diag scan).column x').idx = (g.column x').idx := by
  rw [column_afterBlock hx, if_neg hne]

end

/-! ### Any decodable stream (R261) -/

/-- The running indices and those that the columns keep are below their palettes' counts. -/
structure State.IndicesInRange (s : State) (g : RefState) : Prop where
  length : g.col.length = colSize
  running : ∀ p ∈ s.planes .refgrp, (g.ep.get p).toNat < s.epCount p
  kept : ∀ x, ∀ p ∈ s.planes .refgrp, ((g.column x).idx.get p).toNat < s.epCount p

section
variable {s u : State} {g g1 : RefState} {pos : BlockPos} {rest : List BlockPos} {j n m l k : Nat} {bs : List PlacedBlock}
  {i : Instr}

theorem zeroRegs_get (p : Plane) : (PlaneRegs.zero.get p).toNat = 0 := by
  cases p <;> rfl

theorem indicesInRange_init (hcounts : ∀ p ∈ s.planes .refgrp, 0 < s.epCount p) : s.IndicesInRange (initRefgrp s) where
  length := List.length_replicate ..
  running p hp := by
    rw [initRefgrp, zeroRegs_get]
    exact hcounts p hp
  kept x p hp := by
    rw [initRefgrp, column_zeroColumns, ColEntry.zero, zeroRegs_get]
    exact hcounts p hp

theorem State.IndicesInRange.fetched (h : s.IndicesInRange g) (hcounts : ∀ p ∈ s.planes .refgrp, 0 < s.epCount p)
    (hfetched : g.FetchedTo pos g1) : s.IndicesInRange g1 where
  length := hfetched.length h.length
  running := hfetched.ep ▸ h.running
  kept x p hp := by
    rw [hfetched.idx, enterFace]
    split
    · rw [column_zeroColumns, ColEntry.zero, zeroRegs_get]
      exact hcounts p hp
    · exact h.kept x p hp

theorem State.IndicesInRange.afterBlock {ep sp : PlaneRegs} {diag : Nat} {scan : List BlockPos} {x : Nat}
    (h : s.IndicesInRange g) (hep : ∀ p ∈ s.planes .refgrp, (ep.get p).toNat < s.epCount p) (hx : x < s.w2) :
    s.IndicesInRange (g.afterBlock (s.planes .refgrp) x ep sp diag scan) where
  length := List.length_set.trans h.length
  running := hep
  kept x' p hp := by
    have hin : x < g.col.length := h.length ▸ hx.trans_le (w2_le s)
    by_cases hxx : x' = x
    · rw [hxx, idx_column_afterBlock hin hp]
      exact hep p hp
    · rw [idx_column_afterBlock_of_ne hin hxx]
      exact h.kept x' p hp

/-- A sub-code is fetched where slot 0 is decodable. -/
theorem fetchRef_of_decodable (hscan : g.scan = pos :: rest) (hsource : s.sourceWritten) (hcodes : s.decodable 0 256) :
    ∃ k i m g1, k < 4 ∧ decode .subcode k = some i ∧
      fetchRef g (s.unpacking n bs (.refgrp g)) = .ok (i, s.unpacking m bs (.refgrp g1)) ∧ g.FetchedTo pos g1 := by
  rcases Nat.mod_two_eq_zero_or_one pos.y with hy | hy
  · rcases Nat.mod_two_eq_zero_or_one pos.x with hx | hx
    · obtain ⟨v, m, hv, hlt⟩ := decodeSlot_of_decodable hsource hcodes n
      obtain ⟨i, hi, hfetch⟩ := fetchRef_of_topLeft hscan hy hx (decodeSlot_unpacking (bs := bs) (a := .refgrp g) hv) hlt
      exact ⟨_, i, m, _, Nat.mod_lt _ (by decide), hi, hfetch, fetchedTo_enterFace.keepKind _ _⟩
    · obtain ⟨i, hi, hfetch⟩ := fetchRef_of_topRight (s := s.unpacking n bs (.refgrp g)) hscan hy hx
      have henter : enterFace pos g = g := enterFace_of_inside (.inr hx)
      exact ⟨_, i, n, _, Nat.mod_lt _ (by decide), hi, hfetch, (henter ▸ fetchedTo_enterFace).keepKind _ _⟩
  · obtain ⟨i, hi, hfetch⟩ := fetchRef_of_bottom (s := s.unpacking n bs (.refgrp g)) hscan hy
    have henter : enterFace pos g = g := enterFace_of_inside (.inl hy)
    have hfetched := fetchedTo_enterFace (g := g) (pos := pos)
    rw [henter] at hfetched
    exact ⟨_, i, n, g, (g.column pos.x).kind.isLt, hi, hfetch, hfetched⟩

/-- The sub-codes inside the command. -/
theorem refFreshDelta_unpacking {syms : List Nat} (hscan : g.scan = pos :: rest) (hnodup : (s.planes .refgrp).Nodup)
    (hdecode : decodeSeq (s.advance n) ((s.planes .refgrp).map Plane.epSlot) = .ok (syms, s.advance m)) :
    refFreshDelta (s.unpacking n bs (.refgrp g)) = .ok (s.unpacking m bs (.refgrp
      { referenced (s.planes .refgrp) pos.x g (s.freshIndices (s.planes .refgrp) syms g.ep) with diag := g.diag })) :=
  refFreshDelta_of_decodeSeq (u := s.unpacking m bs (.refgrp g)) rfl hscan hnodup (decodeSeq_unpacking hdecode)

theorem refFromAbove_unpacking (hscan : g.scan = pos :: rest) :
    refFromAbove (s.unpacking n bs (.refgrp g)) = .ok (s.unpacking n bs (.refgrp { referenced (s.planes .refgrp) pos.x g
      (setPlanes (s.planes .refgrp) g.ep fun p => (g.column pos.x).idx.get p) with diag := g.diag })) :=
  refFromAbove_of_scan rfl hscan

theorem refKeepRunning_unpacking (hscan : g.scan = pos :: rest) :
    refKeepRunning (s.unpacking n bs (.refgrp g)) =
      .ok (s.unpacking n bs (.refgrp { referenced (s.planes .refgrp) pos.x g g.ep with diag := g.diag })) :=
  refKeepRunning_of_scan rfl hscan

/-- A sub-code leaves indices below the counts. -/
theorem eventBody_subcode_of_decodable (hwf : s.cfg.wf = true) (hdxt : s.dxtFormat) (hgiven : s.cfg.diagRuleGiven = true)
    (hcounts : ∀ p ∈ s.planes .refgrp, 0 < s.epCount p) (hsource : s.sourceWritten)
    (hdeltas : ∀ p ∈ s.planes .refgrp, s.decodable p.epSlot 8192) (hrange : s.IndicesInRange g)
    (hscan : g.scan = pos :: rest) (hk : k < 4) (hi : decode .subcode k = some i) :
    ∃ m ep diag, eventBody i (s.unpacking n bs (.refgrp g)) =
        .ok (s.unpacking m bs (.refgrp { referenced (s.planes .refgrp) pos.x g ep with diag := diag })) ∧
      ∀ p ∈ s.planes .refgrp, (ep.get p).toNat < s.epCount p := by
  interval_cases k
  · cases hi
    obtain ⟨syms, m, hdecode, -⟩ := decodeSeq_of_decodable (slot := Plane.epSlot) (bnd := fun _ => 8192) hsource hdeltas n
    refine ⟨m, _, g.diag, refFreshDelta_unpacking hscan (nodup_planes hwf hdxt .refgrp) hdecode, fun p hp => ?_⟩
    rw [State.freshIndices, get_setPlanes, if_pos hp, deltaIndex_toNat _ _ (hcounts p hp) (epCount_le s p)]
    exact Nat.mod_lt _ (hcounts p hp)
  · cases hi
    refine ⟨n, _, g.diag, refFromAbove_unpacking hscan, fun p hp => ?_⟩
    rw [get_setPlanes, if_pos hp]
    exact hrange.kept pos.x p hp
  · cases hi
    exact ⟨n, _, _, refDiagonal_of_scan rfl hscan hgiven,
      fun p hp => (get_diagonalAnswers (s.unpacking n bs (.refgrp g)) pos g hcounts).1 hp⟩
  · cases hi
    exact ⟨n, _, g.diag, refKeepRunning_unpacking hscan, hrange.running⟩

theorem exec_unpackRefgrp_of_decodable (herr : s.err = false) (hidle : s.activity = .idle) (hwf : s.cfg.wf = true)
    (hgiven : s.cfg.diagRuleGiven = true) (hdxt : s.dxtFormat) (hchecks : s.firstCheck .refgrp = none)
    (hsource : s.sourceWritten) (hcodes : s.decodable 0 256)
    (hplanes : ∀ p ∈ s.planes .refgrp, s.decodable p.epSlot 8192 ∧ s.palettesWritten p ∧
      s.decodable p.selSlot (if s.cfg.rgSelDelta then 8192 else s.selCount p)) :
    ∃ t, exec .unpackRefgrp s = .next t ∧ UnpackResult .refgrp s t := by
  have hcounts : ∀ p ∈ s.planes .refgrp, 0 < s.epCount p := fun p hp => (counts_pos_of_firstCheck hchecks hp).1
  obtain ⟨t, ht, n, bs, g, hafter, -⟩ := exec_unpackInstr_of_positions (len := s.blocks.length)
    (P := fun j u => ∃ n bs g, s.AfterBlocks j n bs g u ∧ s.IndicesInRange g) herr hdxt hchecks
    ⟨0, [], initRefgrp s, afterBlocks_zero hchecks, indicesInRange_init hcounts⟩
    (fun u ⟨n, bs, g, h, _⟩ => by rw [h.ended]; rfl)
    (fun j hj u ⟨n, bs, g, hafter, hrange⟩ => by
      have hscan : g.scan = s.blocks[j] :: s.blocks.drop (j + 1) := hafter.scan.trans (List.drop_eq_getElem_cons hj)
      obtain ⟨k, i, m, g1, hk, hi, hfetch, hfetched⟩ := fetchRef_of_decodable (n := n) (bs := bs) hscan hsource hcodes
      have hrange1 := hrange.fetched hcounts hfetched
      obtain ⟨m', ep, diag, hbody, hep⟩ := eventBody_subcode_of_decodable (n := m) (bs := bs) hwf hdxt hgiven hcounts hsource
        (fun p hp => (hplanes p hp).1) hrange1 (hfetched.scan.trans hscan) hk hi
      obtain ⟨syms, l, hdecode, hsyms⟩ := decodeSeq_of_decodable (slot := Plane.selSlot) hsource
        (fun p hp => (hplanes p hp).2.2) m'
      obtain ⟨v, hv, hnext⟩ := hafter.next hj hwf hdxt hchecks (fun p hp => (hplanes p hp).2.1) hfetch hbody hfetched.scan hep
        hdecode fun p hp hmode => by
          have hlt := planeSymbol_of_forall₂ hsyms hp
          rwa [if_neg (by simp [hmode])] at hlt
      have hx : s.blocks[j].x < s.w2 := ((mem_blockScan _ _ _ _).1 (List.getElem_mem hj)).2.2
      exact ⟨by rw [hafter.running hj]; exact Activity.noConfusion, v, hv, l, _, _, hnext,
        hrange1.afterBlock (diag := diag) hep hx⟩)
  exact ⟨t, ht, hafter.unpackResult hidle hchecks hdxt⟩

end

/-! ### The symbols of a level, block by block (R263 to R268) -/

/-- Column `x` keeps what block `l`, in row `y` of face `f`, left there: its indices and, on an even row, the kind of the
block below. -/
def State.columnKeeps (s : State) (code : Nat → Nat → Nat → Nat) (idx : Nat → Plane → Nat) (g : RefState)
    (l f y x : Nat) : Prop :=
  (∀ p ∈ s.planes .refgrp, ((g.column x).idx.get p).toNat = idx l p) ∧
    (y % 2 = 0 → (g.column x).kind.toNat = blockSubcode code ⟨f, y + 1, x⟩)

/-- The columns before block `j`, at `pos`: those to its left keep the blocks of its row, the others those of the row
above, or 0 in a face's first row. -/
def State.columnsBefore (s : State) (code : Nat → Nat → Nat → Nat) (idx : Nat → Plane → Nat) (j : Nat) (pos : BlockPos)
    (g : RefState) : Prop :=
  ∀ x, x < s.w2 →
    (x < pos.x → s.columnKeeps code idx g (j - pos.x + x) pos.f pos.y x) ∧
    (pos.x ≤ x → (pos.y = 0 → ∀ p ∈ s.planes .refgrp, ((g.column x).idx.get p).toNat = 0) ∧
      ∀ y, pos.y = y + 1 → s.columnKeeps code idx g (j - pos.x + x - s.w2) pos.f y x)

/-- The slots of a block. -/
def State.slotsAt (s : State) (code : Nat → Nat → Nat → Nat) (pos : BlockPos) : List Nat :=
  (if pos.y % 2 = 0 ∧ pos.x % 2 = 0 then [0] else [])
    ++ (if blockSubcode code pos = 0 then (s.planes .refgrp).map Plane.epSlot else [])
    ++ (s.planes .refgrp).map Plane.selSlot

/-- The symbols of a block. -/
def State.symbolsAt (s : State) (code : Nat → Nat → Nat → Nat) (deltas sels : BlockPos → Plane → Nat) (pos : BlockPos) :
    List Nat :=
  (if pos.y % 2 = 0 ∧ pos.x % 2 = 0 then [code pos.f (pos.y / 2) (pos.x / 2)] else [])
    ++ (if blockSubcode code pos = 0 then (s.planes .refgrp).map (deltas pos) else [])
    ++ (s.planes .refgrp).map (sels pos)

section
variable {s u : State} {g g1 : RefState} {pos pos' : BlockPos} {rest : List BlockPos} {j n m l k f x x' y : Nat}
  {bs : List PlacedBlock} {i : Instr} {code : Nat → Nat → Nat → Nat} {idx : Nat → Plane → Nat}
  {deltas : BlockPos → Plane → Nat}

theorem cursor_of_decodeSeq_nil {syms : List Nat} (h : decodeSeq (s.advance n) [] = .ok (syms, s.advance m)) : n = m := by
  obtain ⟨-, heq⟩ := Prod.mk.inj (Except.ok.inj h)
  exact Nat.add_left_cancel (congrArg (fun u : State => u.br.bitpos) heq)

/-- A face starts with its columns at 0. -/
theorem columnsBefore_enterFace (h : ¬ (pos.y = 0 ∧ pos.x = 0) → s.columnsBefore code idx j pos g) :
    s.columnsBefore code idx j pos (enterFace pos g) := by
  rw [enterFace]
  split
  case isTrue hstart =>
    refine fun x _ => ⟨fun hx => by omega, fun _ => ⟨fun _ p _ => ?_, fun y hy => by omega⟩⟩
    rw [column_zeroColumns, ColEntry.zero, zeroRegs_get]
  case isFalse hinside => exact h hinside

/-- The group code's fields: the low one is the block's own on an even row, and the next is kept for the block below. -/
theorem fetchRef_of_symbols (hscan : g.scan = pos :: rest) (hcode : ∀ f y x, code f y x < 256)
    (hlength : g.col.length = colSize) (hx : pos.x < s.w2)
    (hregister : pos.y % 2 = 0 → pos.x % 2 = 1 → g.rg.toNat = code pos.f (pos.y / 2) (pos.x / 2) / 16)
    (hkind : pos.y % 2 = 1 → ((enterFace pos g).column pos.x).kind.toNat = blockSubcode code pos)
    (hdecode : decodeSeq (s.advance n) (if pos.y % 2 = 0 ∧ pos.x % 2 = 0 then [0] else []) =
      .ok (if pos.y % 2 = 0 ∧ pos.x % 2 = 0 then [code pos.f (pos.y / 2) (pos.x / 2)] else [], s.advance m)) :
    ∃ i g1, decode .subcode (blockSubcode code pos) = some i ∧
      fetchRef g (s.unpacking n bs (.refgrp g)) = .ok (i, s.unpacking m bs (.refgrp g1)) ∧ g.FetchedTo pos g1 ∧
      (pos.y % 2 = 0 → (g1.column pos.x).kind.toNat = blockSubcode code ⟨pos.f, pos.y + 1, pos.x⟩) ∧
      (pos.y % 2 = 0 → pos.x % 2 = 0 → g1.rg.toNat = code pos.f (pos.y / 2) (pos.x / 2) / 16) := by
  have hcol : pos.x < colSize := hx.trans_le (w2_le s)
  have hv := hcode pos.f (pos.y / 2) (pos.x / 2)
  rcases Nat.mod_two_eq_zero_or_one pos.y with hy | hy
  · have hbelow : (pos.y + 1) % 2 = 1 ∧ (pos.y + 1) / 2 = pos.y / 2 := by omega
    rcases Nat.mod_two_eq_zero_or_one pos.x with hx2 | hx2
    · rw [if_pos ⟨hy, hx2⟩, if_pos ⟨hy, hx2⟩] at hdecode
      obtain ⟨d, ds, t, hd, hnil, heq⟩ := decodeSeq_cons_ok.1 hdecode
      cases hnil
      cases heq
      obtain ⟨i, hi, hfetch⟩ := fetchRef_of_topLeft hscan hy hx2 (decodeSlot_unpacking (bs := bs) (a := .refgrp g) hd) hv
      refine ⟨i, _, ?_, hfetch, fetchedTo_enterFace.keepKind _ _, fun _ => ?_, fun _ _ => ?_⟩
      · rw [blockSubcode, hy, hx2, Nat.mul_zero, Nat.add_zero, Nat.pow_zero, Nat.div_one]
        exact hi
      · rw [column_set (g := { enterFace pos g with rg := _ }) (by rw [length_enterFace hlength]; exact hcol), if_pos rfl,
          blockSubcode, hbelow.1, hbelow.2, hx2]
        exact BitVec.toNat_ofNat _ _
      · exact Nat.mod_eq_of_lt (by omega)
    · rw [if_neg (by omega), if_neg (by omega)] at hdecode
      obtain rfl := cursor_of_decodeSeq_nil hdecode
      have henter : enterFace pos g = g := enterFace_of_inside (.inr hx2)
      have hrg := hregister hy hx2
      obtain ⟨i, hi, hfetch⟩ := fetchRef_of_topRight (s := s.unpacking n bs (.refgrp g)) hscan hy hx2
      refine ⟨i, _, ?_, hfetch, (henter ▸ fetchedTo_enterFace).keepKind _ _, fun _ => ?_, fun _ hx2' => by omega⟩
      · rw [hrg] at hi
        rw [blockSubcode, hy, hx2]
        exact hi
      · rw [column_set (g := { g with rg := _ }) (by rw [hlength]; exact hcol), if_pos rfl, blockSubcode, hbelow.1, hbelow.2,
          hx2, hrg]
        exact (BitVec.toNat_ofNat _ _).trans (congrArg (· % 4) (Nat.div_div_eq_div_mul _ _ _))
  · rw [if_neg (by omega), if_neg (by omega)] at hdecode
    obtain rfl := cursor_of_decodeSeq_nil hdecode
    have henter : enterFace pos g = g := enterFace_of_inside (.inl hy)
    have hfetched := fetchedTo_enterFace (g := g) (pos := pos)
    rw [henter] at hfetched hkind
    obtain ⟨i, hi, hfetch⟩ := fetchRef_of_bottom (s := s.unpacking n bs (.refgrp g)) hscan hy
    exact ⟨i, g, hkind hy ▸ hi, hfetch, hfetched, fun h => by omega, fun h => by omega⟩

/-- Each sub-code but 2 leaves the indices that the symbols give. -/
theorem eventBody_subcode_of_symbols (hwf : s.cfg.wf = true) (hdxt : s.dxtFormat)
    (hcounts : ∀ p ∈ s.planes .refgrp, 0 < s.epCount p) (hscan : g.scan = pos :: rest)
    (hk : k < 4) (hne : k ≠ 2) (hi : decode .subcode k = some i) {idx' : Plane → Nat}
    (hfresh : k = 0 → ∀ p ∈ s.planes .refgrp, idx' p = ((g.ep.get p).toNat + deltas pos p) % s.epCount p)
    (habove : k = 1 → ∀ p ∈ s.planes .refgrp, idx' p = ((g.column pos.x).idx.get p).toNat)
    (hkept : k = 3 → ∀ p ∈ s.planes .refgrp, idx' p = (g.ep.get p).toNat)
    (hdecode : decodeSeq (s.advance n) (if k = 0 then (s.planes .refgrp).map Plane.epSlot else []) =
      .ok (if k = 0 then (s.planes .refgrp).map (deltas pos) else [], s.advance m)) :
    ∃ ep, eventBody i (s.unpacking n bs (.refgrp g)) =
        .ok (s.unpacking m bs (.refgrp { referenced (s.planes .refgrp) pos.x g ep with diag := g.diag })) ∧
      ∀ p ∈ s.planes .refgrp, (ep.get p).toNat = idx' p := by
  interval_cases k
  · cases hi
    rw [if_pos rfl, if_pos rfl] at hdecode
    refine ⟨_, refFreshDelta_unpacking hscan (nodup_planes hwf hdxt .refgrp) hdecode, fun p hp => ?_⟩
    rw [State.freshIndices, get_setPlanes, if_pos hp, deltaIndex_toNat _ _ (hcounts p hp) (epCount_le s p),
      planeSymbol_map _ hp, hfresh rfl p hp]
  · cases hi
    obtain rfl := cursor_of_decodeSeq_nil hdecode
    refine ⟨_, refFromAbove_unpacking hscan, fun p hp => ?_⟩
    rw [get_setPlanes, if_pos hp, habove rfl p hp]
  · exact absurd rfl hne
  · cases hi
    obtain rfl := cursor_of_decodeSeq_nil hdecode
    exact ⟨_, refKeepRunning_unpacking hscan, fun p hp => (hkept rfl p hp).symm⟩

/-- The columns before the next block. -/
theorem columnsBefore_next {ep sp : PlaneRegs} {diag : Nat} {scan : List BlockPos}
    (h : s.columnsBefore code idx j pos (enterFace pos g)) (hfetched : g.FetchedTo pos g1)
    (hlength : g.col.length = colSize) (hj : s.blocks[j]? = some pos) (hj' : s.blocks[j + 1]? = some pos')
    (hkind : pos.y % 2 = 0 → (g1.column pos.x).kind.toNat = blockSubcode code ⟨pos.f, pos.y + 1, pos.x⟩)
    (hep : ∀ p ∈ s.planes .refgrp, (ep.get p).toNat = idx j p) (hinside : ¬ (pos'.y = 0 ∧ pos'.x = 0)) :
    s.columnsBefore code idx (j + 1) pos' (g1.afterBlock (s.planes .refgrp) pos.x ep sp diag scan) := by
  obtain ⟨-, hx, hpos⟩ := getElem?_blockScan hj
  have hle : pos.x ≤ j := by omega
  have hin : pos.x < g1.col.length := hfetched.length hlength ▸ hx.trans_le (w2_le s)
  have hown : s.columnKeeps code idx (g1.afterBlock (s.planes .refgrp) pos.x ep sp diag scan) j pos.f pos.y pos.x :=
    ⟨fun p hp => by rw [idx_column_afterBlock hin hp, hep p hp], fun hy => by rw [kind_column_afterBlock hin, hkind hy]⟩
  have hother : ∀ {l y x}, x ≠ pos.x → s.columnKeeps code idx (enterFace pos g) l pos.f y x →
      s.columnKeeps code idx (g1.afterBlock (s.planes .refgrp) pos.x ep sp diag scan) l pos.f y x := by
    rintro l y x hne ⟨hidx, hkinds⟩
    refine ⟨fun p hp => ?_, fun hy => ?_⟩
    · rw [idx_column_afterBlock_of_ne hin hne, hfetched.idx]
      exact hidx p hp
    · rw [kind_column_afterBlock hin, hfetched.kind x hne]
      exact hkinds hy
  rcases next_blockScan hj hj' with ⟨hf, hy, hx'⟩ | ⟨hf, hy, hx', hlast⟩ | hstart
  · intro x hxw
    obtain ⟨hleft, hright⟩ := h x hxw
    rw [hf, hy, hx', Nat.add_sub_add_right]
    refine ⟨fun hlt => ?_, fun hge => ⟨fun hzero p hp => ?_, fun y hy' => ?_⟩⟩
    · rcases Nat.lt_succ_iff_lt_or_eq.1 hlt with hlt | rfl
      · exact hother hlt.ne (hleft hlt)
      · rw [Nat.sub_add_cancel hle]
        exact hown
    · rw [idx_column_afterBlock_of_ne hin (by omega), hfetched.idx]
      exact (hright (by omega)).1 hzero p hp
    · exact hother (by omega) ((hright (by omega)).2 y hy')
  · intro x hxw
    obtain ⟨hleft, -⟩ := h x hxw
    refine ⟨fun hlt => by omega, fun _ => ⟨fun hzero => by omega, fun y hy' => ?_⟩⟩
    obtain rfl : y = pos.y := by omega
    have hw : s.w2 = pos.x + 1 := hlast.symm
    rcases Nat.lt_or_ge x pos.x with hlt | hge
    · have hindex : j + 1 - pos'.x + x - s.w2 = j - pos.x + x := by omega
      rw [hf, hindex]
      exact hother hlt.ne (hleft hlt)
    · obtain rfl : x = pos.x := by omega
      have hindex : j + 1 - pos'.x + pos.x - s.w2 = j := by omega
      rw [hf, hindex]
      exact hown
  · exact absurd hstart hinside

end

/-- The registers, the blocks and the stream after `j` blocks, by the level's symbols. -/
structure State.BlocksRead (s : State) (code : Nat → Nat → Nat → Nat) (deltas sels : BlockPos → Plane → Nat)
    (idx sel : Nat → Plane → Nat) (final : State) (j n : Nat) (bs : List PlacedBlock) (g : RefState) : Prop where
  length : g.col.length = colSize
  endpoints : ∀ p ∈ s.planes .refgrp, (g.ep.get p).toNat = if j = 0 then 0 else idx (j - 1) p
  selectors : s.cfg.rgSelDelta = true →
    ∀ p ∈ s.planes .refgrp, (g.sp.get p).toNat = if j = 0 then 0 else sel (j - 1) p
  register : ∀ pos, s.blocks[j]? = some pos → pos.y % 2 = 0 → pos.x % 2 = 1 →
    g.rg.toNat = code pos.f (pos.y / 2) (pos.x / 2) / 16
  columns : ∀ pos, s.blocks[j]? = some pos → ¬ (pos.y = 0 ∧ pos.x = 0) → s.columnsBefore code idx j pos g
  blocks : ∀ l pos, l < j → s.blocks[l]? = some pos →
    (⟨pos.f, pos.x, pos.y, s.blockOf (idx l) (sel l)⟩ : PlacedBlock) ∈ bs
  stream : decodeSeq (s.advance n) ((s.blocks.drop j).flatMap (s.slotsAt code)) =
    .ok ((s.blocks.drop j).flatMap (s.symbolsAt code deltas sels), final)

section
variable {s u final : State} {g : RefState} {pos : BlockPos} {j n : Nat} {bs : List PlacedBlock}
  {code : Nat → Nat → Nat → Nat} {idx sel : Nat → Plane → Nat} {deltas sels : BlockPos → Plane → Nat}

theorem blocksRead_zero
    (hdecode : decodeSeq s (s.refLevelSlots code) = .ok (s.refLevelSymbols code deltas sels, final)) :
    s.BlocksRead code deltas sels idx sel final 0 0 [] (initRefgrp s) where
  length := List.length_replicate ..
  endpoints p _ := zeroRegs_get p
  selectors _ p _ := zeroRegs_get p
  register pos hpos _ hx := by
    obtain ⟨-, -, hj⟩ := getElem?_blockScan hpos
    omega
  columns pos hpos hinside := by
    obtain ⟨-, hx, hj⟩ := getElem?_blockScan hpos
    obtain ⟨hrow, hx0⟩ := Nat.add_eq_zero_iff.1 hj.symm
    have hrow := (Nat.mul_eq_zero.1 hrow).resolve_right (by omega)
    omega
  blocks _ _ hl := absurd hl (Nat.not_lt_zero _)
  stream := hdecode

/-- The level's endpoint indices are below their palettes' counts. -/
theorem idx_lt_of_isEndpoints (h : s.IsEndpoints code deltas idx) (hne : ∀ pos ∈ s.blocks, blockSubcode code pos ≠ 2)
    {p : Plane} (hp : p ∈ s.planes .refgrp) (hpos : 0 < s.epCount p) (hj : j < s.blocks.length) : idx j p < s.epCount p := by
  induction j using Nat.strong_induction_on with
  | _ j ih =>
    have hget : s.blocks[j]? = some s.blocks[j] := List.getElem?_eq_getElem hj
    obtain ⟨hfresh, habove, hkept⟩ := h j _ p hget hp
    obtain ⟨-, hx, hindex⟩ := getElem?_blockScan hget
    have hne := hne _ (List.getElem_mem hj)
    have hlt : blockSubcode code s.blocks[j] < 4 := Nat.mod_lt _ (by decide)
    have hsub : blockSubcode code s.blocks[j] = 0 ∨ blockSubcode code s.blocks[j] = 1 ∨ blockSubcode code s.blocks[j] = 3 := by
      omega
    rcases hsub with hsub | hsub | hsub
    · rw [hfresh hsub]
      exact Nat.mod_lt _ hpos
    · rw [habove hsub]
      split_ifs with hy
      · exact hpos
      · have hj0 : 0 < j := by
          rw [hindex]
          exact Nat.add_pos_left (Nat.mul_pos (by omega) (by omega)) _
        exact ih (j - s.w2) (by omega) (by omega)
    · rw [hkept hsub]
      split_ifs with hj0
      · exact hpos
      · exact ih (j - 1) (by omega) (by omega)

/-- A block by the level's symbols. -/
theorem refBlock_eq_of_symbols {ep sp : PlaneRegs} (hwf : s.cfg.wf = true) (hdxt : s.dxtFormat)
    (hpos : s.blocks[j]? = some pos) (hep : ∀ p ∈ s.planes .refgrp, (ep.get p).toNat = idx j p)
    (hsel : s.cfg.rgSelDelta = true → ∀ p ∈ s.planes .refgrp,
      ((s.runningSelectorsRG (s.planes .refgrp) ((s.planes .refgrp).map (sels pos)) sp).get p).toNat = sel j p)
    (hselectors : s.IsSelectors sels sel) :
    s.refBlock ep sp pos ((s.planes .refgrp).map (sels pos)) = ⟨pos.f, pos.x, pos.y, s.blockOf (idx j) (sel j)⟩ := by
  rw [State.refBlock, State.blockRG]
  congr 1
  refine blockOf_congr hdxt fun p hp => ?_
  have hp := (blockPlanes_perm_planes hwf hdxt .refgrp).mem_iff.1 hp
  refine ⟨hep p hp, ?_⟩
  split_ifs with hmode
  · exact hsel hmode p hp
  · rw [planeSymbol_map _ hp]
    exact ((hselectors j pos p hpos hp).1 (by simpa using hmode)).1.symm

/-- The symbols of a block: its group code, its deltas, its selectors. -/
theorem decodeSeq_slotsAt {ks syms : List Nat}
    (h : decodeSeq (s.advance n) (s.slotsAt code pos ++ ks) = .ok (s.symbolsAt code deltas sels pos ++ syms, final)) :
    ∃ m m' l,
      decodeSeq (s.advance n) (if pos.y % 2 = 0 ∧ pos.x % 2 = 0 then [0] else []) =
        .ok (if pos.y % 2 = 0 ∧ pos.x % 2 = 0 then [code pos.f (pos.y / 2) (pos.x / 2)] else [], s.advance m) ∧
      decodeSeq (s.advance m) (if blockSubcode code pos = 0 then (s.planes .refgrp).map Plane.epSlot else []) =
        .ok (if blockSubcode code pos = 0 then (s.planes .refgrp).map (deltas pos) else [], s.advance m') ∧
      decodeSeq (s.advance m') ((s.planes .refgrp).map Plane.selSlot) =
        .ok ((s.planes .refgrp).map (sels pos), s.advance l) ∧
      decodeSeq (s.advance l) ks = .ok (syms, final) := by
  rw [State.slotsAt, State.symbolsAt] at h
  simp only [List.append_assoc] at h
  obtain ⟨t1, hfirst, h⟩ := decodeSeq_append_of_length h (by split <;> rfl)
  obtain ⟨t2, hsecond, h⟩ := decodeSeq_append_of_length h (by split <;> simp)
  obtain ⟨t3, hthird, h⟩ := decodeSeq_append_of_length h (by simp)
  obtain ⟨m, rfl⟩ := decodeSeq_advance hfirst
  obtain ⟨m', rfl⟩ := decodeSeq_advance hsecond
  obtain ⟨l, rfl⟩ := decodeSeq_advance hthird
  simp only [State.advance_advance] at hfirst hsecond hthird h
  exact ⟨_, _, _, hfirst, hsecond, hthird, h⟩

/-- One block read. -/
theorem State.BlocksRead.next (h : s.BlocksRead code deltas sels idx sel final j n bs g)
    (hafter : s.AfterBlocks j n bs g u) (hj : j < s.blocks.length) (hwf : s.cfg.wf = true) (hdxt : s.dxtFormat)
    (hchecks : s.firstCheck .refgrp = none) (hwritten : ∀ p ∈ s.planes .refgrp, s.palettesWritten p)
    (hcode : ∀ f y x, code f y x < 256) (hne : ∀ pos ∈ s.blocks, blockSubcode code pos ≠ 2)
    (hendpoints : s.IsEndpoints code deltas idx) (hselectors : s.IsSelectors sels sel) :
    ∃ v l bs' g', oneEvent u = .ok v ∧ s.AfterBlocks (j + 1) l bs' g' v ∧
      s.BlocksRead code deltas sels idx sel final (j + 1) l bs' g' := by
  have hcounts : ∀ p ∈ s.planes .refgrp, 0 < s.epCount p ∧ 0 < s.selCount p :=
    fun p hp => counts_pos_of_firstCheck hchecks hp
  obtain ⟨pos, hget⟩ : ∃ pos, s.blocks[j] = pos := ⟨_, rfl⟩
  have hdrop : s.blocks.drop j = pos :: s.blocks.drop (j + 1) := hget ▸ List.drop_eq_getElem_cons hj
  have hpos : s.blocks[j]? = some pos := hget ▸ List.getElem?_eq_getElem hj
  obtain ⟨hy, hx, hindex⟩ := getElem?_blockScan hpos
  have hstream := h.stream
  rw [hdrop, List.flatMap_cons, List.flatMap_cons] at hstream
  obtain ⟨m, m', l, hfirst, hsecond, hthird, hstream⟩ := decodeSeq_slotsAt hstream
  have hbefore := columnsBefore_enterFace (h.columns pos hpos)
  have hkind : pos.y % 2 = 1 → ((enterFace pos g).column pos.x).kind.toNat = blockSubcode code pos := fun hodd => by
    obtain ⟨y, hy'⟩ : ∃ y, pos.y = y + 1 := ⟨pos.y - 1, by omega⟩
    rw [(((hbefore pos.x hx).2 le_rfl).2 y hy').2 (by omega), ← hy']
  obtain ⟨i, g1, hi, hfetch, hfetched, hbelow, hregister⟩ := fetchRef_of_symbols (bs := bs) (hafter.scan.trans hdrop) hcode
    h.length hx (h.register pos hpos) hkind hfirst
  obtain ⟨ep, hbody, hep⟩ := eventBody_subcode_of_symbols (bs := bs) (g := g1) (idx' := idx j) hwf hdxt
    (fun p hp => (hcounts p hp).1) (hfetched.scan.trans (hafter.scan.trans hdrop)) (Nat.mod_lt _ (by decide))
    (hne pos (hget ▸ List.getElem_mem hj)) hi
    (fun hsub p hp => by rw [hfetched.ep, h.endpoints p hp, (hendpoints j pos p hpos hp).1 hsub])
    (fun hsub p hp => by
      obtain ⟨hzero, hrow⟩ := (hbefore pos.x hx).2 le_rfl
      rw [hfetched.idx, (hendpoints j pos p hpos hp).2.1 hsub]
      split_ifs with hy0
      · rw [hzero hy0 p hp]
      · rw [(hrow (pos.y - 1) (by omega)).1 p hp, Nat.sub_add_cancel (by omega)])
    (fun hsub p hp => by rw [hfetched.ep, h.endpoints p hp, (hendpoints j pos p hpos hp).2.2 hsub])
    hsecond
  obtain ⟨v, hv, hnext⟩ := hafter.next hj hwf hdxt hchecks hwritten hfetch hbody hfetched.scan
    (fun p hp => by
      change (ep.get p).toNat < _
      rw [hep p hp]
      exact idx_lt_of_isEndpoints hendpoints hne hp (hcounts p hp).1 hj)
    hthird fun p hp hmode => by
      rw [planeSymbol_map _ hp]
      exact ((hselectors j pos p hpos hp).1 hmode).2
  have hsel : s.cfg.rgSelDelta = true → ∀ p ∈ s.planes .refgrp,
      ((s.runningSelectorsRG (s.planes .refgrp) ((s.planes .refgrp).map (sels pos)) g1.sp).get p).toNat = sel j p :=
    fun hmode p hp => by
      rw [runningSelectorsRG_toNat _ hp (hcounts p hp).2, if_pos hmode, planeSymbol_map _ hp, hfetched.sp,
        h.selectors hmode p hp, (hselectors j pos p hpos hp).2 hmode]
  refine ⟨v, _, _, g1.afterBlock (s.planes .refgrp) pos.x ep
    (s.runningSelectorsRG (s.planes .refgrp) ((s.planes .refgrp).map (sels pos)) g1.sp) g1.diag (s.blocks.drop (j + 1)), hv,
    hnext, ⟨List.length_set.trans (hfetched.length h.length), hep, hsel, fun pos' hpos' hy' hx' => ?_,
      fun pos' hpos' => columnsBefore_next hbefore hfetched h.length hpos hpos' hbelow hep, fun i pos' hi hpos' => ?_,
      hstream⟩⟩
  · rcases next_blockScan hpos hpos' with ⟨hf, hrow, hcolumn⟩ | ⟨-, -, hcolumn, -⟩ | ⟨-, hcolumn⟩
    · have hhalf : pos'.x / 2 = pos.x / 2 := by omega
      rw [hf, hrow, hhalf]
      exact hregister (by omega) (by omega)
    · omega
    · omega
  · rcases Nat.lt_succ_iff_lt_or_eq.1 hi with hlt | rfl
    · exact List.mem_append_left _ (h.blocks i pos' hlt hpos')
    · obtain rfl : pos' = pos := Option.some.inj (hpos'.symm.trans hpos)
      refine List.mem_append_right _ (List.mem_singleton.2 ?_)
      rw [hget]
      exact (refBlock_eq_of_symbols hwf hdxt hpos hep hsel hselectors).symm

theorem exec_unpackRefgrp_of_symbols (herr : s.err = false) (hidle : s.activity = .idle) (hwf : s.cfg.wf = true)
    (hdxt : s.dxtFormat) (hchecks : s.firstCheck .refgrp = none) (hwritten : ∀ p ∈ s.planes .refgrp, s.palettesWritten p)
    (hcode : ∀ f y x, code f y x < 256) (hne : ∀ pos ∈ s.blocks, blockSubcode code pos ≠ 2)
    (hendpoints : s.IsEndpoints code deltas idx) (hselectors : s.IsSelectors sels sel)
    (hdecode : decodeSeq s (s.refLevelSlots code) = .ok (s.refLevelSymbols code deltas sels, final)) :
    ∃ t, exec .unpackRefgrp s = .next t ∧ t = { s with br := final.br, dst := t.dst } ∧
      (∀ a, ¬ s.inVisibleBlock a → Memory.read t.dst a = Memory.read s.dst a) ∧
      ∀ j pos, s.blocks[j]? = some pos → s.visible pos.x pos.y = true →
        t.dstHolds (s.blockAddr pos.f pos.x pos.y) (s.blockOf (idx j) (sel j)) := by
  obtain ⟨t, ht, n, bs, g, hafter, hread⟩ := exec_unpackInstr_of_positions (len := s.blocks.length)
    (P := fun j u => ∃ n bs g, s.AfterBlocks j n bs g u ∧ s.BlocksRead code deltas sels idx sel final j n bs g) herr hdxt
    hchecks ⟨0, [], initRefgrp s, afterBlocks_zero hchecks, blocksRead_zero hdecode⟩
    (fun u ⟨n, bs, g, h, _⟩ => by rw [h.ended]; rfl)
    (fun j hj u ⟨n, bs, g, hafter, hread⟩ => by
      obtain ⟨v, l, bs', g', hv, hafter', hread'⟩ :=
        hread.next hafter hj hwf hdxt hchecks hwritten hcode hne hendpoints hselectors
      exact ⟨by rw [hafter.running hj]; exact Activity.noConfusion, v, hv, l, bs', g', hafter', hread'⟩)
  obtain ⟨-, -, hframe, -⟩ := hafter.unpackResult hidle hchecks hdxt
  have hfinal : s.advance n = final := by
    have hstream := hread.stream
    rw [List.drop_length] at hstream
    exact (Prod.mk.inj (Except.ok.inj hstream)).2
  refine ⟨t, ht, ?_, hframe, fun j pos hpos hvisible => ?_⟩
  · rw [hafter.ended, ← hfinal, ← hidle]
    rfl
  · rw [hafter.ended]
    exact dstHolds_unpacking hchecks hdxt hafter.nodup hafter.faces hafter.entries
      (hread.blocks j pos (List.getElem?_eq_some_iff.1 hpos).1 hpos) hvisible

end

/-- Settles O44: any decodable stream takes the command through all blocks, and a given one writes the entries at the
indices of its sub-codes. -/
theorem unpackRefgrpRebuildsTheLevel : Obligations.UnpackRefgrpRebuildsTheLevel :=
  ⟨fun _ => exec_unpackRefgrp_of_decodable, fun _ _ _ _ _ _ _ => exec_unpackRefgrp_of_symbols⟩

end Sys2Proof.Machine
end

