-- ==== Sys2Proof/Proofs/ReceivedModel.lean ====
section
/-! PROOFS. `MODEL_RX` receives what an encoder sends (spec/30_encoding.md R108, R109; spec/42_model_rx.md R191 to R204). -/

namespace Sys2Proof.Machine

/-! ### The code lengths received so far (R198 to R202) -/

/-- `CL` holds the code lengths received so far, 0 behind them up to `n`, and what it held from `n` on. -/
def HoldsLens (base l : Memory 8) (n : Nat) (ls : List Nat) : Prop :=
  ∀ a, Memory.read l a = if a < n then some (BitVec.ofNat 8 (ls.getD a 0)) else Memory.read base a

section
variable {base l : Memory 8} {n m v a : Nat} {ls ls' : List Nat} {e : Nat × Nat}

theorem getD_append_replicate (ls : List Nat) (m v a : Nat) : (ls ++ List.replicate m v).getD a 0 =
    if ls.length ≤ a ∧ a < ls.length + m then v else ls.getD a 0 := by
  rcases Nat.lt_or_ge a ls.length with hlt | hge
  · rw [List.getD_append _ _ _ _ hlt, if_neg (by omega)]
  · rw [List.getD_append_right _ _ _ _ hge, List.getD_eq_getElem?_getD, List.getElem?_replicate,
      List.getD_eq_default _ _ hge]
    by_cases hm : a - ls.length < m
    · rw [if_pos hm, if_pos ⟨hge, by omega⟩]
      rfl
    · rw [if_neg hm, if_neg (by omega)]
      rfl

theorem HoldsLens.start (base : Memory 8) (n : Nat) : HoldsLens base (Memory.fillBelow base n fun _ => 0) n [] :=
  fun a => by
    rw [Memory.read_fillBelow]
    rfl

/-- A run of one value behind the entries. -/
theorem HoldsLens.run (h : HoldsLens base l n ls) (hroom : ls.length + m ≤ n) (v : Nat) :
    HoldsLens base (Memory.writeList l ls.length (List.replicate m (BitVec.ofNat 8 v))) n (ls ++ List.replicate m v) := by
  intro a
  rw [Memory.read_writeList_replicate, getD_append_replicate, h a]
  by_cases hin : ls.length ≤ a ∧ a < ls.length + m
  · rw [if_pos hin, if_pos hin, if_pos (by omega)]
  · rw [if_neg hin, if_neg hin]

theorem HoldsLens.literal (h : HoldsLens base l n ls) (hroom : ls.length + 1 ≤ n) (v : Nat) :
    HoldsLens base (Memory.write l ls.length (BitVec.ofNat 8 v)) n (ls ++ [v]) :=
  h.run (m := 1) hroom v

/-- Entries behind those received are 0. -/
theorem HoldsLens.zeros (h : HoldsLens base l n ls) (m : Nat) : HoldsLens base l n (ls ++ List.replicate m 0) := by
  intro a
  rw [h a, getD_append_replicate]
  congr 2
  split_ifs with hin
  · rw [List.getD_eq_default _ _ hin.1]
  · rfl

/-- The array read back. -/
theorem HoldsLens.readLens {s : State} (h : HoldsLens base s.cl n ls) (hlength : ls.length = n) (hle : ∀ v ∈ ls, v ≤ 16) :
    readLens s 0 n = .ok ls := by
  have hread : ∀ i, i < n → Memory.read s.cl (0 + i) = some (BitVec.ofNat 8 (ls.getD i 0)) := fun i hi => by
    rw [Nat.zero_add, h i, if_pos hi]
  rw [readLens_written s 0 n fun i hi => by rw [hread i hi]; rfl]
  congr 1
  refine List.ext_getElem (by simp [hlength]) fun i hi hi' => ?_
  have hsmall := hle _ (List.getElem_mem hi')
  rw [List.getElem_map, List.getElem_range, hread i (by omega), Option.getD_some, BitVec.toNat_ofNat,
    List.getD_eq_getElem _ _ hi', Nat.mod_eq_of_lt (by omega)]

/-- The four ways an event adds: a literal, a run of zeros, a run of copies of the last length. -/
theorem applyEvent_cases (h : applyEvent ls e = some ls') (he : e.1 ≤ 20) :
    (e.1 ≤ 16 ∧ ls' = ls ++ [e.1]) ∨
    (∃ i least, ((i, least, eventExtraBits e.1) = (.bootZeroRunSmall, 3, 3) ∨
        (i, least, eventExtraBits e.1) = (.bootZeroRunLarge, 11, 7)) ∧
      decode .bootsym e.1 = some i ∧ ls' = ls ++ List.replicate (least + e.2) 0) ∨
    (∃ i least prev, ((i, least, eventExtraBits e.1) = (.bootRepeatSmall, 3, 2) ∨
        (i, least, eventExtraBits e.1) = (.bootRepeatLarge, 7, 6)) ∧
      decode .bootsym e.1 = some i ∧ ls.getLast? = some prev ∧ prev ≠ 0 ∧
      ls' = ls ++ List.replicate (least + e.2) prev) := by
  obtain ⟨c, x⟩ := e
  unfold applyEvent at h
  simp only at h he ⊢
  split_ifs at h with hlit h17 h18 h19 h20
  · cases h
    exact .inl ⟨hlit, rfl⟩
  · cases h
    subst h17
    exact .inr (.inl ⟨_, _, .inl rfl, rfl, rfl⟩)
  · cases h
    subst h18
    exact .inr (.inl ⟨_, _, .inr rfl, rfl, rfl⟩)
  · split at h
    · cases h
    · next prev hprev =>
      obtain ⟨hne, h⟩ := Option.ite_none_left_eq_some.1 h
      cases h
      subst h19
      exact .inr (.inr ⟨_, _, prev, .inl rfl, rfl, hprev, hne, rfl⟩)
  · split at h
    · cases h
    · next prev hprev =>
      obtain ⟨hne, h⟩ := Option.ite_none_left_eq_some.1 h
      cases h
      subst h20
      exact .inr (.inr ⟨_, _, prev, .inr rfl, rfl, hprev, hne, rfl⟩)
  · omega

/-- An event adds to the code lengths. -/
theorem applyEvent_append (h : applyEvent ls e = some ls') (he : e.1 ≤ 20) : ∃ new, ls' = ls ++ new ∧ 0 < new.length := by
  rcases applyEvent_cases h he with ⟨-, rfl⟩ | ⟨i, least, hrow, -, rfl⟩ | ⟨i, least, prev, hrow, -, -, -, rfl⟩
  · exact ⟨_, rfl, by simp⟩
  · refine ⟨_, rfl, ?_⟩
    simp only [Prod.mk.injEq] at hrow
    rw [List.length_replicate]
    rcases hrow with ⟨-, rfl, -⟩ | ⟨-, rfl, -⟩ <;> omega
  · refine ⟨_, rfl, ?_⟩
    simp only [Prod.mk.injEq] at hrow
    rw [List.length_replicate]
    rcases hrow with ⟨-, rfl, -⟩ | ⟨-, rfl, -⟩ <;> omega

theorem foldlM_applyEvent_append {es : List (Nat × Nat)} (h : es.foldlM applyEvent ls = some ls')
    (hes : ∀ e ∈ es, e.1 ≤ 20) : ∃ new, ls' = ls ++ new ∧ es.length ≤ new.length := by
  induction es generalizing ls with
  | nil =>
    cases h
    exact ⟨[], (List.append_nil _).symm, le_rfl⟩
  | cons e rest ih =>
    obtain ⟨he, hrest⟩ := List.forall_mem_cons.1 hes
    rw [List.foldlM_cons] at h
    obtain ⟨mid, hmid, h⟩ := Option.bind_eq_some_iff.1 h
    obtain ⟨new, rfl, hpos⟩ := applyEvent_append hmid he
    obtain ⟨new', rfl, hle⟩ := ih h hrest
    exact ⟨new ++ new', List.append_assoc _ _ _, by simp only [List.length_cons, List.length_append]; omega⟩

theorem decode_bootsym_literal (h : v ≤ 16) : ∃ i, decode .bootsym v = some i ∧ i.fmt ≠ .cw ∧
    ∀ s, eventBody i s = bootLiteral v s := by
  rcases h.eq_or_lt with rfl | hlt
  · exact ⟨_, rfl, by decide, fun _ => rfl⟩
  · exact ⟨_, if_pos hlt, nofun, fun _ => rfl⟩

end

/-! ### The events (R198 to R203) -/

/-- The bits of an event in the stream. -/
def eventBits (bl : List Nat) (e : Nat × Nat) : List Nat := codeBits bl e.1 ++ natBits (eventExtraBits e.1) e.2

theorem length_eventBits (bl : List Nat) (e : Nat × Nat) :
    (eventBits bl e).length = bl.getD e.1 0 + eventExtraBits e.1 := by
  rw [eventBits, List.length_append, length_codeBits, length_natBits]

/-- The state inside `MODEL_RX`: the cursor `b` bits on, the code lengths received in `CL`. -/
def State.receiving (s : State) (b : Nat) (l : Memory 8) (k n : Nat) (boot : Model) (ofs : Nat) : State :=
  ((s.advance b).setCl l).setActivity (.rx ⟨k, n, boot, ofs⟩)

section
variable {s : State} {b k n ofs : Nat} {l base : Memory 8} {boot m : Model} {ls ls' bl lens : List Nat} {e : Nat × Nat}

theorem State.receiving_advance (c : Nat) :
    (s.receiving b l k n boot ofs).advance c = s.receiving (b + c) l k n boot ofs := by
  rw [State.receiving, State.receiving, ← State.advance_advance]
  rfl

/-- An event by its fetch and its body. -/
theorem oneEvent_of_bootsym {u u1 v : State} {r r' : RxState} {c len : Nat} {i : Instr} (hrx : u.activity = .rx r)
    (hdecode : decodeSym r.boot u = .ok ((c, len), u1)) (hi : decode .bootsym c = some i) (hbody : eventBody i u1 = .ok v)
    (hv : v.activity = .rx r') : oneEvent u = retireBoot r' v := by
  have hfetch : fetchEvent u = .ok (i, u1) := by
    simp only [fetchEvent, hrx, fetchBoot, hdecode, attempt_ok_bind, hi]
  rw [oneEvent, hfetch, attempt_ok_bind]
  simp only
  rw [hbody, attempt_ok_bind, retireEvent, hv]

/-- The extra value of an event. -/
theorem peek_receiving {w x : Nat} (hholds : s.holds (s.br.bitpos + b) (natBits w x)) (hx : x < 2 ^ w)
    (hwritten : s.bitsWritten (s.br.bitpos + b) w) : peek (s.receiving b l k n boot ofs) w = .ok x := by
  have hpeek := peekAt_of_bitsWritten (s := s) hwritten
  rw [State.bitsAt_of_holds hholds hx] at hpeek
  have hsame : peekAt (s.receiving b l k n boot ofs) (s.br.bitpos + b) w = peekAt s (s.br.bitpos + b) w :=
    peekAt_congr s _ _ _ rfl rfl rfl
  exact hsame.trans hpeek

theorem getLast?_eq_getD {prev : Nat} (h : ls.getLast? = some prev) : ls.getD (ls.length - 1) 0 = prev ∧ ls.length ≠ 0 := by
  obtain ⟨init, rfl⟩ := List.getLast?_eq_some_iff.1 h
  simp

/-- The body of an event: what it adds to the code lengths. -/
theorem eventBody_receiving (he : e.1 ≤ 20) (hextra : e.2 < 2 ^ eventExtraBits e.1)
    (happly : applyEvent ls e = some ls') (hroom : ls'.length ≤ n) (hsmall : ∀ v ∈ ls, v ≤ 16)
    (hl : HoldsLens base l n ls) (hholds : s.holds (s.br.bitpos + b) (natBits (eventExtraBits e.1) e.2))
    (hwritten : s.bitsWritten (s.br.bitpos + b) (eventExtraBits e.1)) :
    ∃ i l', decode .bootsym e.1 = some i ∧ HoldsLens base l' n ls' ∧
      eventBody i (s.receiving b l k n boot ls.length) =
        .ok (s.receiving (b + eventExtraBits e.1) l' k n boot ls'.length) := by
  have hpeek := peek_receiving (l := l) (k := k) (n := n) (boot := boot) (ofs := ls.length) hholds hextra hwritten
  rcases applyEvent_cases happly he with ⟨hlit, rfl⟩ | ⟨i, least, hrow, hi, rfl⟩ | ⟨i, least, prev, hrow, hi, hprev, hne, rfl⟩
  · rw [List.length_append, List.length_singleton] at hroom
    obtain ⟨i, hi, -, hbody⟩ := decode_bootsym_literal hlit
    have hbits : eventExtraBits e.1 = 0 := by
      simp only [eventExtraBits]
      split_ifs <;> omega
    refine ⟨i, _, hi, hl.literal hroom e.1, ?_⟩
    rw [hbody, (bootLiteral_ok _ _ _).2 ⟨_, rfl, rfl⟩, hbits, List.length_append, List.length_singleton]
    rfl
  · rw [List.length_append, List.length_replicate] at hroom
    refine ⟨i, l, hi, hl.zeros _, ?_⟩
    rw [(eventBody_of_zeroRun hrow).2, (bootZeroRun_ok _ _ _ _).2 ⟨_, _, rfl, hpeek, Nat.le_sub_of_add_le' hroom, rfl⟩,
      State.receiving_advance, List.length_append, List.length_replicate]
    rfl
  · rw [List.length_append, List.length_replicate] at hroom
    obtain ⟨hget, hofs⟩ := getLast?_eq_getD hprev
    have hprev16 := hsmall prev (List.mem_of_getLast? hprev)
    have hread : Memory.read l (ls.length - 1) = some (BitVec.ofNat 8 prev) := by
      rw [hl, if_pos (by omega), hget]
    have hprev0 : BitVec.ofNat 8 prev ≠ 0 := fun h0 => hne (by
      have := congrArg BitVec.toNat h0
      rwa [BitVec.toNat_ofNat, Nat.mod_eq_of_lt (by omega)] at this)
    refine ⟨i, _, hi, hl.run hroom prev, ?_⟩
    rw [(eventBody_of_repeat hrow).2, (bootRepeat_ok _ _ _ _).2
      ⟨⟨k, n, boot, ls.length⟩, _, BitVec.ofNat 8 prev, rfl, hpeek, hofs, Nat.le_sub_of_add_le' hroom, hread, hprev0,
        rfl⟩, State.receiving_advance,
      List.length_append, List.length_replicate]
    rfl

/-- One event: its bootstrap code, its extra bits, and what it adds to the code lengths. -/
theorem oneEvent_receiving (hboot : build 21 bl = .ok boot) (hlength : bl.length = 21) (he : e.1 ≤ 20)
    (hcode : bl.getD e.1 0 ≠ 0) (hextra : e.2 < 2 ^ eventExtraBits e.1)
    (happly : applyEvent ls e = some ls') (hroom : ls'.length ≤ n) (hsmall : ∀ v ∈ ls, v ≤ 16)
    (hl : HoldsLens base l n ls)
    (hholds : s.holds (s.br.bitpos + b) (eventBits bl e))
    (hwritten : s.bitsWritten (s.br.bitpos + b) (bl.getD e.1 0 + eventExtraBits e.1 + 16)) :
    ∃ l', HoldsLens base l' n ls' ∧ oneEvent (s.receiving b l k n boot ls.length) = retireBoot ⟨k, n, boot, ls'.length⟩
      (s.receiving (b + (bl.getD e.1 0 + eventExtraBits e.1)) l' k n boot ls'.length) := by
  obtain ⟨hfirst, hlast⟩ := State.holds_append.1 hholds
  rw [length_codeBits, Nat.add_assoc] at hlast
  have hpeeked : s.bitsWritten (s.br.bitpos + b) 16 := hwritten.mono le_rfl (by omega)
  have hdecode := decodeSym_of_holds (s := s.receiving b l k n boot ls.length) hboot (by omega) hcode hfirst hpeeked
  rw [State.receiving_advance] at hdecode
  obtain ⟨i, l', hi, hl', hbody⟩ := eventBody_receiving (b := b + bl.getD e.1 0) (k := k) (boot := boot) he hextra happly
    hroom hsmall hl hlast (hwritten.mono (by omega) (by omega))
  refine ⟨l', hl', ?_⟩
  rw [← Nat.add_assoc]
  exact oneEvent_of_bootsym rfl hdecode hi hbody rfl

/-- The end: the model of the code lengths received is built. -/
theorem retireBoot_of_full {u : State} {r : RxState} (hfull : r.ofs = r.n) (hl : HoldsLens base u.cl r.n lens)
    (hlength : lens.length = r.n) (hbuild : build r.n lens = .ok m) :
    retireBoot r u = .ok ((u.install r.slot r.n m).setActivity .idle) := by
  obtain ⟨-, hmax, hcodes, -⟩ := (build_ok _ _ _).1 hbuild
  have hread := hl.readLens hlength hcodes
  have hbuilt : buildFromCl r.n u = .ok m := by
    rw [buildFromCl, lensFromCl, if_pos hmax, hread, attempt_ok_bind, hbuild]
    rfl
  rw [retireBoot, if_neg (by omega), finishModelRx, hbuilt, attempt_ok_bind]

/-- The events of a transmission, from any of them on, up to the final build. -/
theorem eventRun_receiving {es : List (Nat × Nat)} (hboot : build 21 bl = .ok boot) (hbootLength : bl.length = 21)
    (hes : ∀ e ∈ es, e.1 ≤ 20 ∧ bl.getD e.1 0 ≠ 0 ∧ e.2 < 2 ^ eventExtraBits e.1) (hne : es ≠ [])
    (hlens : es.foldlM applyEvent ls = some lens) (hlength : lens.length = n) (hbuild : build n lens = .ok m)
    (hl : HoldsLens base l n ls)
    (hholds : s.holds (s.br.bitpos + b) (es.flatMap (eventBits bl)))
    (hwritten : s.bitsWritten (s.br.bitpos + b)
      ((es.flatMap (eventBits bl)).length + 16)) :
    ∃ l', HoldsLens base l' n lens ∧ EventRun (s.receiving b l k n boot ls.length) (((s.receiving
      (b + (es.flatMap (eventBits bl)).length) l' k n boot n).install k n
        m).setActivity .idle) := by
  induction es generalizing b l ls with
  | nil => exact absurd rfl hne
  | cons e rest ih =>
    obtain ⟨⟨he, hcode, hextra⟩, hrest⟩ := List.forall_mem_cons.1 hes
    rw [List.foldlM_cons] at hlens
    obtain ⟨mid, happly, hlens⟩ := Option.bind_eq_some_iff.1 hlens
    obtain ⟨new, hnew, hmany⟩ := foldlM_applyEvent_append hlens fun e he => (hrest e he).1
    obtain ⟨add, hadd, -⟩ := applyEvent_append happly he
    obtain ⟨-, -, hcodes, -⟩ := (build_ok _ _ _).1 hbuild
    have hsplit : lens.length = mid.length + new.length := by rw [hnew, List.length_append]
    rw [List.flatMap_cons] at hholds hwritten ⊢
    obtain ⟨hfirst, hothers⟩ := State.holds_append.1 hholds
    rw [List.length_append, length_eventBits] at hwritten ⊢
    rw [length_eventBits, Nat.add_assoc] at hothers
    obtain ⟨l1, hl1, hevent⟩ := oneEvent_receiving (k := k) hboot hbootLength he hcode hextra happly (by omega)
      (fun v hv => hcodes v (hnew ▸ hadd ▸ List.mem_append_left _ (List.mem_append_left _ hv))) hl hfirst
      (hwritten.mono le_rfl (by omega))
    rw [← Nat.add_assoc]
    cases rest with
    | nil =>
      cases hlens
      rw [retireBoot_of_full hlength hl1 hlength hbuild] at hevent
      exact ⟨l1, hl1, .event _ _ _ Activity.noConfusion hevent (.ended _ rfl)⟩
    | cons e' rest =>
      rw [List.length_cons] at hmany
      rw [retireBoot, if_pos (show mid.length < n by omega)] at hevent
      obtain ⟨l', hl', hrun⟩ := ih hrest (List.cons_ne_nil _ _) hlens hl1 hothers (hwritten.mono (by omega) (by omega))
      exact ⟨l', hl', .event _ _ _ Activity.noConfusion hevent hrun⟩

end

/-! ### The header (R192 to R197) -/

section
variable {s : State} {k n : Nat} {fields order bl : List Nat} {boot m : Model} {x : Transmission} {lens : List Nat}

theorem length_clOrder {cfg : Config} (hwf : cfg.wf = true) : cfg.clOrder.length = 21 := by
  simp only [Config.wf, Config.isPermOfRange, Bool.and_eq_true, beq_iff_eq] at hwf
  obtain ⟨⟨⟨⟨⟨⟨⟨⟨⟨⟨-, hlength, -⟩, -⟩, -⟩, -⟩, -⟩, -⟩, -⟩, -⟩, -⟩, -⟩ := hwf
  exact hlength

theorem length_foldl_set (es : List (Nat × Nat)) (bl : List Nat) :
    (es.foldl (fun bl e => bl.set e.1 e.2) bl).length = bl.length := by
  induction es generalizing bl with
  | nil => rfl
  | cons e rest ih => rw [List.foldl_cons, ih, List.length_set]

/-- The bootstrap lengths, one field after another. -/
theorem readBootLens_of_holds (hfields : ∀ v ∈ fields, v < 8) (hlength : fields.length ≤ order.length)
    (hholds : s.holds s.br.bitpos (fields.flatMap (natBits 3)))
    (hwritten : s.bitsWritten s.br.bitpos (fields.flatMap (natBits 3)).length) :
    readBootLens bl s (order.take fields.length) = .ok ((order.zip fields).foldl (fun bl e => bl.set e.1 e.2) bl,
      s.advance (fields.flatMap (natBits 3)).length) := by
  induction fields generalizing s order bl with
  | nil =>
    rw [List.length_nil, List.take_zero, List.zip_nil_right]
    rfl
  | cons v rest ih =>
    obtain ⟨sym, syms, rfl⟩ := List.exists_cons_of_length_pos (Nat.zero_lt_of_lt hlength)
    obtain ⟨hv, hrest⟩ := List.forall_mem_cons.1 hfields
    rw [List.flatMap_cons] at hholds hwritten ⊢
    obtain ⟨hfirst, hothers⟩ := State.holds_append.1 hholds
    rw [length_natBits] at hothers
    rw [List.length_append, length_natBits] at hwritten ⊢
    have hfield : s.bitsWritten s.br.bitpos 3 := hwritten.mono le_rfl (by omega)
    have htake := take_of_bitsWritten hfield
    rw [State.bitsAt_of_holds hfirst hv] at htake
    rw [List.length_cons, List.take_succ_cons, readBootLens, clLenBits, htake, attempt_ok_bind]
    have hlater : (s.advance 3).bitsWritten (s.advance 3).br.bitpos (rest.flatMap (natBits 3)).length :=
      hwritten.mono (Nat.le_add_right _ _) (Nat.add_assoc _ _ _).le
    rw [← State.advance_advance]
    exact ih hrest (Nat.le_of_succ_le_succ hlength) hothers hlater

/-- The header of a transmission. -/
theorem startModelRx_of_holds (hpos : 1 ≤ n) (hmax : n ≤ 8192) (hwf : s.cfg.wf = true) (hx : x.wf s.cfg.clOrder)
    (hboot : build 21 (x.bootLens s.cfg.clOrder) = .ok boot)
    (hholds : s.holds s.br.bitpos
      (natBits 14 n ++ natBits 5 x.bootFields.length ++ x.bootFields.flatMap (natBits 3)))
    (hwritten : s.bitsWritten s.br.bitpos
      (natBits 14 n ++ natBits 5 x.bootFields.length ++ x.bootFields.flatMap (natBits 3)).length) :
    startModelRx k s = .ok (s.receiving
      (natBits 14 n ++ natBits 5 x.bootFields.length ++ x.bootFields.flatMap (natBits 3)).length
      (Memory.fillBelow s.cl n fun _ => 0) k n boot 0) := by
  obtain ⟨hone, htwentyone, hfields, -⟩ := hx
  have hfive : x.bootFields.length < 2 ^ 5 := Nat.lt_of_le_of_lt htwentyone (by decide)
  obtain ⟨hhead, hboots⟩ := State.holds_append.1 hholds
  obtain ⟨hn, hk⟩ := State.holds_append.1 hhead
  simp only [List.length_append, length_natBits] at hboots hk hwritten ⊢
  have hcount : readCount s = .ok (n, s.advance 14) := by
    have hbits := State.bitsAt_of_holds hn (by omega)
    have hread := readCount_of_le (s := s) (hwritten.mono le_rfl (by omega)) (by omega) (by omega)
    rwa [hbits] at hread
  have hcodes : readNumCodes (s.advance 14) = .ok (x.bootFields.length, (s.advance 14).advance 5) := by
    have hwrittenFive : s.bitsWritten (s.br.bitpos + 14) 5 := hwritten.mono (by omega) (by omega)
    have hpeek : peek (s.advance 14) 5 = .ok x.bootFields.length := by
      have hpeek := peekAt_of_bitsWritten (s := s.advance 14) hwrittenFive
      rwa [State.bitsAt_of_holds (s := s.advance 14) hk hfive] at hpeek
    exact (readNumCodes_ok _ _ _).2 ⟨hpeek, hone, htwentyone, rfl⟩
  have hboots' : s.bitsWritten (s.br.bitpos + 14 + 5) (x.bootFields.flatMap (natBits 3)).length :=
    hwritten.mono (by omega) (by omega)
  have hlens := readBootLens_of_holds (s := (s.advance 14).advance 5) (bl := List.replicate numClSyms 0)
    (order := s.cfg.clOrder) hfields (by rw [length_clOrder hwf]; exact htwentyone) hboots hboots'
  have hbuilt : readBootstrap x.bootFields.length ((s.advance 14).advance 5) =
      .ok (boot, ((s.advance 14).advance 5).advance (x.bootFields.flatMap (natBits 3)).length) := by
    have hbuild : orError (build numClSyms (x.bootLens s.cfg.clOrder)) = .ok boot := congrArg orError hboot
    rw [readBootstrap]
    simp only [State.advance_cfg, hlens, attempt_ok_bind]
    rw [Transmission.bootLens] at hbuild
    rw [hbuild, attempt_ok_bind]
  rw [startModelRx, hcount, attempt_ok_bind]
  simp only
  rw [hcodes, attempt_ok_bind]
  simp only
  rw [hbuilt, attempt_ok_bind, State.advance_advance, State.advance_advance, Nat.add_assoc]
  rfl

end

/-- Settles O38: the header gives the bootstrap model, each event adds its code lengths, and the last one builds the
model of them all. -/
theorem modelRxReceivesTheModel : Obligations.ModelRxReceivesTheModel := by
  intro s k n x boot m lens herr hidle hk hvalid hwf hpos hmax hx hlens hlength hboot hbuild hholds hwritten
  have hbits : x.bits s.cfg.clOrder n =
      (natBits 14 n ++ natBits 5 x.bootFields.length ++ x.bootFields.flatMap (natBits 3)) ++
        x.events.flatMap (eventBits (x.bootLens s.cfg.clOrder)) := rfl
  rw [hbits] at hholds hwritten ⊢
  generalize hhead : natBits 14 n ++ natBits 5 x.bootFields.length ++ x.bootFields.flatMap (natBits 3) = header at *
  obtain ⟨hheader, hevents⟩ := State.holds_append.1 hholds
  rw [List.length_append] at hwritten ⊢
  have hstart : startModelRx k (s.setModel k none) = .ok ((s.setModel k none).receiving header.length
      (Memory.fillBelow s.cl n fun _ => 0) k n boot 0) := by
    have hfirst : s.bitsWritten s.br.bitpos header.length := hwritten.mono le_rfl (by omega)
    subst hhead
    exact startModelRx_of_holds (s := s.setModel k none) hpos hmax hwf hx hboot hheader hfirst
  have hne : x.events ≠ [] := by
    rintro hnil
    rw [Transmission.lens, hnil] at hlens
    cases hlens
    simp at hlength
    omega
  have hbootLength : (x.bootLens s.cfg.clOrder).length = 21 := (length_foldl_set _ _).trans (List.length_replicate ..)
  have hlast : s.bitsWritten (s.br.bitpos + header.length)
      ((x.events.flatMap (eventBits (x.bootLens s.cfg.clOrder))).length + 16) := hwritten.mono (by omega) (by omega)
  obtain ⟨l, hl, hrun⟩ := eventRun_receiving (s := s.setModel k none) (k := k) hboot hbootLength hx.2.2.2 hne hlens hlength
    hbuild (HoldsLens.start s.cl n) hevents hlast
  refine ⟨_, ((exec_modelRx_iff_eventRun herr hk hvalid hstart).2 hrun).1, ?_, hl⟩
  have hslot : (s.models.setIfInBounds k none).setIfInBounds k (some m) = s.models.setIfInBounds k (some m) :=
    Vector.setIfInBounds_setIfInBounds ..
  simp only [State.receiving, State.install, State.setModel, State.setCl, State.advance, State.setActivity, hslot]
  rw [← hidle]

end Sys2Proof.Machine
end

