-- ==== Sys2Proof/Proofs/AlikeRuns.lean ====
section
/-! PROOFS. Runs that do not tell two states apart (spec/10_state.md R49, R50): what an unpack command reads is the stream,
the configuration, slots 0 to 4, the palettes and its own transient state, and nothing else. -/

namespace Sys2Proof.Machine

/-! ### Attempts and outcomes of two states -/

/-- Two attempts halt alike, or go on with values that `Q` relates. -/
def AlikeAttempt {α : Type} (Q : α → α → Prop) : Attempt α → Attempt α → Prop
  | .ok a, .ok b => Q a b
  | .error e, .error e' => e = e'
  | .ok _, .error _ => False
  | .error _, .ok _ => False

/-- Two outcomes stop alike, or are next states that `R` relates. -/
def AlikeOutcome (R : State → State → Prop) :
    Host.Outcome State Fault Refusal → Host.Outcome State Fault Refusal → Prop
  | .next s, .next t => R s t
  | .fault f, .fault f' => f = f'
  | .refused r, .refused r' => r = r'
  | _, _ => False

/-- The same value beside related ones. -/
def Beside {α β : Type} (Q : β → β → Prop) (a b : α × β) : Prop := a.1 = b.1 ∧ Q a.2 b.2

section
variable {α β : Type} {Q : α → α → Prop} {Q' : β → β → Prop} {R : State → State → Prop}

theorem AlikeAttempt.same (x : Attempt α) : AlikeAttempt Eq x x := by
  cases x <;> rfl

theorem AlikeAttempt.error (e : Halt) : AlikeAttempt Q (.error e) (.error e) := rfl

theorem AlikeAttempt.mono {Q₁ : α → α → Prop} {x y : Attempt α} (h : AlikeAttempt Q x y)
    (hQ : ∀ a b, Q a b → Q₁ a b) : AlikeAttempt Q₁ x y := by
  cases x <;> cases y
  case error.error => exact h
  case ok.ok => exact hQ _ _ h
  case error.ok => exact h.elim
  case ok.error => exact h.elim

theorem AlikeAttempt.bind {x y : Attempt α} {f g : α → Attempt β} (h : AlikeAttempt Q x y)
    (hfg : ∀ a b, Q a b → AlikeAttempt Q' (f a) (g b)) : AlikeAttempt Q' (x >>= f) (y >>= g) := by
  cases x <;> cases y
  case error.error e e' =>
    cases h
    exact rfl
  case ok.ok a b => exact hfg a b h
  case error.ok => exact h.elim
  case ok.error => exact h.elim

/-- The same value, then steps of related states. -/
theorem AlikeAttempt.bindSame {x y : Attempt α} {f g : α → Attempt β} (h : y = x)
    (hfg : ∀ a, AlikeAttempt Q' (f a) (g a)) : AlikeAttempt Q' (x >>= f) (y >>= g) := by
  subst h
  exact (AlikeAttempt.same y).bind fun a b hab => hab ▸ hfg a

/-- A value and a state, then steps that depend on both. -/
theorem AlikeAttempt.bindBeside {γ : Type} {x y : Attempt (α × β)} {f g : α × β → Attempt γ} {Q'' : γ → γ → Prop}
    (h : AlikeAttempt (Beside Q') x y) (hfg : ∀ a s t, Q' s t → AlikeAttempt Q'' (f (a, s)) (g (a, t))) :
    AlikeAttempt Q'' (x >>= f) (y >>= g) :=
  h.bind fun ⟨a, s⟩ ⟨b, t⟩ ⟨hab, hst⟩ => by
    cases hab
    exact hfg a s t hst

theorem AlikeAttempt.settle {x y : Attempt State} {f g : ErrCode → State} (h : AlikeAttempt R x y)
    (hfg : ∀ c, R (f c) (g c)) : AlikeOutcome R (settle f x) (settle g y) := by
  cases x <;> cases y
  case error.error e e' =>
    cases h
    cases e with
    | error c => exact hfg c
    | fault f => exact rfl
    | refuse r => exact rfl
  case ok.ok a b => exact h
  case error.ok => exact h.elim
  case ok.error => exact h.elim

theorem AlikeOutcome.clauses {x y : Host.Outcome State Fault Refusal} (h : AlikeOutcome R x y) :
    (∀ s, x = .next s → ∃ t, y = .next t ∧ R s t) ∧ (∀ f, x = .fault f → y = .fault f) ∧
      ∀ r, x = .refused r → y = .refused r := by
  cases x <;> cases y
  case next.next s t => exact ⟨fun _ hs => by cases hs; exact ⟨t, rfl, h⟩, fun _ => nofun, fun _ => nofun⟩
  case fault.fault f f' => exact ⟨fun _ => nofun, fun _ hf => by cases hf; exact congrArg _ h.symm, fun _ => nofun⟩
  case refused.refused r r' => exact ⟨fun _ => nofun, fun _ => nofun, fun _ hr => by cases hr; exact congrArg _ h.symm⟩
  all_goals exact h.elim

end

/-! ### What the core looks at -/

/-- `t` is `s` but for what an unpack command does not read. -/
def State.LooksLike (s t : State) : Prop :=
  ∃ a0 a1 r n models cl dst, t = { s with
      arg0 := a0, arg1 := a1, result := r, clCount := n, models := models, cl := cl, dst := dst } ∧
    ∀ k, k < 5 → t.model k = s.model k

section
variable {s t : State}

theorem State.LooksLike.br (h : s.LooksLike t) : t.br = s.br := by
  obtain ⟨_, _, _, _, _, _, _, rfl, -⟩ := h
  rfl

theorem State.LooksLike.cfg (h : s.LooksLike t) : t.cfg = s.cfg := by
  obtain ⟨_, _, _, _, _, _, _, rfl, -⟩ := h
  rfl

theorem State.LooksLike.err (h : s.LooksLike t) : t.err = s.err := by
  obtain ⟨_, _, _, _, _, _, _, rfl, -⟩ := h
  rfl

theorem State.LooksLike.fmt (h : s.LooksLike t) : t.fmt = s.fmt := by
  obtain ⟨_, _, _, _, _, _, _, rfl, -⟩ := h
  rfl

theorem State.LooksLike.faces (h : s.LooksLike t) : t.faces = s.faces := by
  obtain ⟨_, _, _, _, _, _, _, rfl, -⟩ := h
  rfl

theorem State.LooksLike.activity (h : s.LooksLike t) : t.activity = s.activity := by
  obtain ⟨_, _, _, _, _, _, _, rfl, -⟩ := h
  rfl

theorem State.LooksLike.planes (h : s.LooksLike t) : t.planes = s.planes := by
  obtain ⟨_, _, _, _, _, _, _, rfl, -⟩ := h
  rfl

theorem State.LooksLike.epCount (h : s.LooksLike t) : t.epCount = s.epCount := by
  obtain ⟨_, _, _, _, _, _, _, rfl, -⟩ := h
  funext p
  cases p <;> rfl

theorem State.LooksLike.selCount (h : s.LooksLike t) : t.selCount = s.selCount := by
  obtain ⟨_, _, _, _, _, _, _, rfl, -⟩ := h
  funext p
  cases p <;> rfl

theorem State.LooksLike.model (h : s.LooksLike t) {k : Nat} (hk : k < 5) : t.model k = s.model k := by
  obtain ⟨_, _, _, _, _, _, _, -, hmodel⟩ := h
  exact hmodel k hk

theorem State.LooksLike.peek (h : s.LooksLike t) (n : Nat) : peek t n = peek s n := by
  obtain ⟨_, _, _, _, _, _, _, rfl, -⟩ := h
  exact peekAt_congr s _ _ _ rfl rfl rfl

theorem State.LooksLike.visible (h : s.LooksLike t) : t.visible = s.visible := by
  obtain ⟨_, _, _, _, _, _, _, rfl, -⟩ := h
  rfl

theorem State.LooksLike.blockAddr (h : s.LooksLike t) : t.blockAddr = s.blockAddr := by
  obtain ⟨_, _, _, _, _, _, _, rfl, -⟩ := h
  rfl

theorem State.LooksLike.bpb (h : s.LooksLike t) : t.bpb = s.bpb := by
  obtain ⟨_, _, _, _, _, _, _, rfl, -⟩ := h
  rfl

theorem State.LooksLike.planePart (h : s.LooksLike t) : planePart t = planePart s := by
  obtain ⟨_, _, _, _, _, _, _, rfl, -⟩ := h
  funext p
  cases p <;> rfl

theorem State.LooksLike.partsOf (h : s.LooksLike t) (ei si : PlaneRegs) (ps : List Plane) :
    partsOf t ei si ps = partsOf s ei si ps := by
  induction ps with
  | nil => rfl
  | cons p rest ih => simp only [Machine.partsOf, h.planePart, ih]

theorem State.LooksLike.blockBytes (h : s.LooksLike t) (ei si : PlaneRegs) : blockBytes t ei si = blockBytes s ei si := by
  rw [Machine.blockBytes, h.partsOf, h.fmt, Machine.blockBytes]

theorem State.LooksLike.paletteSize (h : s.LooksLike t) : paletteSize t = paletteSize s := by
  obtain ⟨_, _, _, _, _, _, _, rfl, -⟩ := h
  funext pal
  cases pal <;> rfl

theorem State.LooksLike.readPalette (h : s.LooksLike t) : readPalette t = readPalette s := by
  obtain ⟨_, _, _, _, _, _, _, rfl, -⟩ := h
  funext pal
  cases pal <;> rfl

theorem State.LooksLike.etcQuery (h : s.LooksLike t) (sch : Scheme) : etcQuery sch t = etcQuery sch s := by
  obtain ⟨_, _, _, _, _, _, _, rfl, -⟩ := h
  rfl

theorem State.LooksLike.initChunk (h : s.LooksLike t) : initChunk t = initChunk s := by
  obtain ⟨_, _, _, _, _, _, _, rfl, -⟩ := h
  rfl

theorem State.LooksLike.initRefgrp (h : s.LooksLike t) : initRefgrp t = initRefgrp s := by
  obtain ⟨_, _, _, _, _, _, _, rfl, -⟩ := h
  rfl

/-- The checks look at slots 0 to 4 alone. -/
theorem State.LooksLike.checkUnpack (h : s.LooksLike t) (sch : Scheme) : checkUnpack sch t = checkUnpack sch s := by
  have hslots : ∀ k ∈ needSlots (s.planes sch), k < 5 := by
    intro k hk
    rcases List.mem_cons.1 hk with rfl | hk
    · decide
    · obtain ⟨p, -, hk⟩ := List.mem_flatMap.1 hk
      cases p <;> simp [Plane.epSlot, Plane.selSlot] at hk <;> omega
  have hvalid : (needSlots (s.planes sch)).any (fun k => !t.modelValid k) =
      (needSlots (s.planes sch)).any (fun k => !s.modelValid k) := by
    rw [Bool.eq_iff_iff, List.any_eq_true, List.any_eq_true]
    exact exists_congr fun k => and_congr_right fun hk => by
      rw [State.modelValid, State.modelValid, h.model (hslots k hk)]
  obtain ⟨_, _, _, _, _, _, _, rfl, -⟩ := h
  rw [Machine.checkUnpack, Machine.checkUnpack, ← hvalid]
  rfl

theorem State.LooksLike.diagonalPlane (h : s.LooksLike t) : diagonalPlane t = diagonalPlane s := by
  funext pos p g
  simp only [Machine.diagonalPlane, h.fmt, h.epCount]

theorem State.LooksLike.diagonal (h : s.LooksLike t) : diagonal t = diagonal s := by
  funext pos ps g
  simp only [Machine.diagonal, h.diagonalPlane]

end

/-- A relation between states that look alike, kept by everything an unpack command does. -/
structure KeptByUnpack (R : State → State → Prop) : Prop where
  looksLike : ∀ {s t}, R s t → s.LooksLike t
  advance : ∀ {s t}, R s t → ∀ n, R (s.advance n) (t.advance n)
  idle : ∀ {s t}, R s t → R (s.setActivity .idle) (t.setActivity .idle)
  chunk : ∀ {s t}, R s t → ∀ c, R (s.setActivity (.chunk c)) (t.setActivity (.chunk c))
  refgrp : ∀ {s t}, R s t → ∀ g, R (s.setActivity (.refgrp g)) (t.setActivity (.refgrp g))
  writeDst : ∀ {s t}, R s t → ∀ a bytes,
    R (s.setDst (Memory.writeList s.dst a bytes)) (t.setDst (Memory.writeList t.dst a bytes))

section
variable {R : State → State → Prop} (hR : KeptByUnpack R) {s t : State}
include hR

/-! ### Decodes and writes -/

theorem alike_decodeSym (m : Model) (h : R s t) : AlikeAttempt (Beside R) (decodeSym m s) (decodeSym m t) :=
  .bindSame ((hR.looksLike h).peek 16) fun _ => .bindSame rfl fun r => ⟨rfl, hR.advance h r.2⟩

theorem alike_decodeSlot {k : Nat} (hk : k < 5) (h : R s t) :
    AlikeAttempt (Beside R) (decodeSlot k s) (decodeSlot k t) := by
  rw [decodeSlot, decodeSlot, (hR.looksLike h).model hk]
  split
  · exact rfl
  · exact (alike_decodeSym hR _ h).bindBeside fun r s t h => ⟨rfl, h⟩

theorem alike_decodeEndpoint (p : Plane) (ep : PlaneRegs) (h : R s t) :
    AlikeAttempt (Beside R) (decodeEndpoint p ep s) (decodeEndpoint p ep t) :=
  (alike_decodeSlot hR (by cases p <;> decide) h).bindBeside fun d s t h => by
    refine ⟨?_, h⟩
    simp only [(hR.looksLike h).epCount]

theorem alike_decodeSelectorDelta (p : Plane) (sp : PlaneRegs) (h : R s t) :
    AlikeAttempt (Beside R) (decodeSelectorDelta p sp s) (decodeSelectorDelta p sp t) :=
  (alike_decodeSlot hR (by cases p <;> decide) h).bindBeside fun d s t h => by
    refine ⟨?_, h⟩
    simp only [(hR.looksLike h).selCount]

theorem alike_writeDst (a : Nat) (bytes : List Byte) (h : R s t) :
    AlikeAttempt R (Machine.writeDst a bytes s) (Machine.writeDst a bytes t) := by
  rw [Machine.writeDst, Machine.writeDst, (hR.looksLike h).cfg]
  split
  · exact rfl
  · exact hR.writeDst h a bytes

theorem alike_writeBlock (f x y : Nat) (ei si : PlaneRegs) (h : R s t) :
    AlikeAttempt R (writeBlock f x y ei si s) (writeBlock f x y ei si t) := by
  rw [writeBlock, writeBlock, (hR.looksLike h).visible]
  split
  · refine .bindSame ((hR.looksLike h).blockBytes ei si) fun bytes => ?_
    rw [(hR.looksLike h).blockAddr]
    exact alike_writeDst hR _ bytes h
  · exact h

/-! ### The chunk scheme -/

theorem alike_fetchChunk (c : ChunkState) (h : R s t) :
    AlikeAttempt (Beside R) (fetchChunk c s) (fetchChunk c t) := by
  have hrefill : AlikeAttempt (Beside R) (refillEncodings c s) (refillEncodings c t) := by
    rw [refillEncodings, refillEncodings]
    split
    · refine (alike_decodeSlot hR (by decide) h).bindBeside fun v s t h => ?_
      simp only
      split
      · exact rfl
      · exact ⟨rfl, h⟩
    · exact ⟨rfl, h⟩
  refine hrefill.bindBeside fun ceb s t h => ?_
  simp only
  split
  · exact ⟨rfl, hR.chunk h _⟩
  · exact rfl

theorem alike_decodeTiles (p : Plane) (todo i : Nat) (c : ChunkState) (h : R s t) :
    AlikeAttempt (Beside R) (decodeTiles p i c s todo) (decodeTiles p i c t todo) := by
  induction todo generalizing i c s t with
  | zero => exact ⟨rfl, h⟩
  | succ todo ih => exact (alike_decodeEndpoint hR p c.ep h).bindBeside fun ep s t h => ih (i + 1) _ h

theorem alike_decodeTileEndpoints (tiles : Nat) (ps : List Plane) (c : ChunkState) (h : R s t) :
    AlikeAttempt (Beside R) (decodeTileEndpoints tiles c s ps) (decodeTileEndpoints tiles c t ps) := by
  induction ps generalizing c s t with
  | nil => exact ⟨rfl, h⟩
  | cons p rest ih => exact (alike_decodeTiles hR p tiles 0 c h).bindBeside fun c s t h => ih c h

theorem alike_decodeSelectors (ps : List Plane) (sp : PlaneRegs) (h : R s t) :
    AlikeAttempt (Beside R) (decodeSelectors sp s ps) (decodeSelectors sp t ps) := by
  induction ps generalizing sp s t with
  | nil => exact ⟨rfl, h⟩
  | cons p rest ih => exact (alike_decodeSelectorDelta hR p sp h).bindBeside fun sp s t h => ih sp h

theorem alike_subBlock (pattern : List Nat) (pos : ChunkPos) (k : Nat) (c : ChunkState) (h : R s t) :
    AlikeAttempt (Beside R) (subBlock pattern pos k c s) (subBlock pattern pos k c t) := by
  rw [subBlock, subBlock, (hR.looksLike h).planes]
  exact (alike_decodeSelectors hR _ c.sp h).bindBeside fun sp s t h =>
    (alike_writeBlock hR _ _ _ _ sp h).bind fun s t h => ⟨rfl, h⟩

theorem alike_subBlocks (pattern : List Nat) (pos : ChunkPos) (ks : List Nat) (c : ChunkState) (h : R s t) :
    AlikeAttempt (Beside R) (subBlocks pattern pos c s ks) (subBlocks pattern pos c t ks) := by
  induction ks generalizing c s t with
  | nil => exact ⟨rfl, h⟩
  | cons k rest ih => exact (alike_subBlock hR pattern pos k c h).bindBeside fun c s t h => ih c h

theorem alike_runTile (e : Nat) (h : R s t) : AlikeAttempt R (runTile e s) (runTile e t) := by
  rw [runTile, runTile, (hR.looksLike h).activity]
  split
  · exact rfl
  · exact rfl
  · exact rfl
  · split
    · exact rfl
    · rw [(hR.looksLike h).cfg, (hR.looksLike h).planes]
      refine (alike_decodeTileEndpoints hR _ _ _ h).bindBeside fun c s t h => ?_
      simp only
      rw [(hR.looksLike h).cfg]
      exact (alike_subBlocks hR _ _ _ c h).bindBeside fun c s t h => hR.chunk h c

theorem alike_retireChunk (c : ChunkState) (h : R s t) : AlikeAttempt R (retireChunk c s) (retireChunk c t) := by
  rw [retireChunk, retireChunk]
  split
  · exact hR.idle h
  · exact hR.chunk h _

/-! ### The reference-group scheme -/

theorem alike_fetchRef (g : RefState) (h : R s t) : AlikeAttempt (Beside R) (fetchRef g s) (fetchRef g t) := by
  have hload : ∀ pos g, AlikeAttempt (Beside R) (loadGroup pos g s) (loadGroup pos g t) := fun pos g => by
    rw [loadGroup, loadGroup]
    split
    · refine (alike_decodeSlot hR (by decide) h).bindBeside fun v s t h => ?_
      simp only
      split
      · exact rfl
      · exact ⟨rfl, h⟩
    · exact ⟨rfl, h⟩
  rw [fetchRef, fetchRef]
  split
  · exact rfl
  · refine (hload _ _).bindBeside fun g s t h => ?_
    simp only
    split
    · exact ⟨rfl, hR.refgrp h _⟩
    · exact rfl

theorem alike_freshDelta (ps : List Plane) (g : RefState) (h : R s t) :
    AlikeAttempt (Beside R) (freshDelta g s ps) (freshDelta g t ps) := by
  induction ps generalizing g s t with
  | nil => exact ⟨rfl, h⟩
  | cons p rest ih => exact (alike_decodeEndpoint hR p g.ep h).bindBeside fun ep s t h => ih _ h

theorem alike_applyReference {change : BlockPos → List Plane → RefState → State → Attempt (RefState × State)}
    (hchange : ∀ pos ps g s t, R s t → AlikeAttempt (Beside R) (change pos ps g s) (change pos ps g t)) (h : R s t) :
    AlikeAttempt R (applyReference change s) (applyReference change t) := by
  rw [applyReference, applyReference, (hR.looksLike h).activity]
  split
  · exact rfl
  · exact rfl
  · exact rfl
  · split
    · exact rfl
    · rw [(hR.looksLike h).planes]
      refine (hchange _ _ _ _ _ h).bindBeside fun g s t h => ?_
      simp only [(hR.looksLike h).planes]
      exact hR.refgrp h _

theorem alike_refFreshDelta (h : R s t) : AlikeAttempt R (refFreshDelta s) (refFreshDelta t) :=
  alike_applyReference hR (fun _ ps g _ _ h => alike_freshDelta hR ps g h) h

theorem alike_refFromAbove (h : R s t) : AlikeAttempt R (refFromAbove s) (refFromAbove t) :=
  alike_applyReference hR (fun _ _ _ _ _ h => ⟨rfl, h⟩) h

theorem alike_refDiagonal (h : R s t) : AlikeAttempt R (refDiagonal s) (refDiagonal t) :=
  alike_applyReference hR (fun pos ps g s t h => by
    rw [(hR.looksLike h).cfg, (hR.looksLike h).diagonal]
    split
    · exact ⟨rfl, h⟩
    · exact rfl) h

theorem alike_refKeepRunning (h : R s t) : AlikeAttempt R (refKeepRunning s) (refKeepRunning t) :=
  alike_applyReference hR (fun _ _ _ _ _ h => ⟨rfl, h⟩) h

theorem alike_decodeSelectorRG (p : Plane) (sp si : PlaneRegs) (h : R s t) :
    AlikeAttempt (Beside (Beside R)) (decodeSelectorRG p sp si s) (decodeSelectorRG p sp si t) := by
  rw [decodeSelectorRG, decodeSelectorRG, (hR.looksLike h).cfg]
  split
  · exact (alike_decodeSelectorDelta hR p sp h).bindBeside fun sp s t h => ⟨rfl, rfl, h⟩
  · refine (alike_decodeSlot hR (by cases p <;> decide) h).bindBeside fun v s t h => ?_
    simp only [(hR.looksLike h).selCount]
    split
    · exact rfl
    · exact ⟨rfl, rfl, h⟩

theorem alike_decodeSelectorsRG (ps : List Plane) (sp si : PlaneRegs) (h : R s t) :
    AlikeAttempt (Beside (Beside R)) (decodeSelectorsRG sp si s ps) (decodeSelectorsRG sp si t ps) := by
  induction ps generalizing sp si s t with
  | nil => exact ⟨rfl, rfl, h⟩
  | cons p rest ih =>
    exact (alike_decodeSelectorRG hR p sp si h).bind fun ⟨_, _, _⟩ ⟨_, _, _⟩ ⟨hsp, hsi, h⟩ => by
      cases hsp
      cases hsi
      exact ih _ _ h

theorem alike_retireRef (g : RefState) (h : R s t) : AlikeAttempt R (retireRef g s) (retireRef g t) := by
  have hnext : ∀ {s t} (g : RefState), R s t → R (nextBlock g s) (nextBlock g t) := fun g h => by
    rw [nextBlock, nextBlock]
    split
    · exact hR.idle h
    · exact hR.refgrp h _
  rw [retireRef, retireRef]
  split
  · exact rfl
  · rw [(hR.looksLike h).planes]
    exact (alike_decodeSelectorsRG hR _ _ _ h).bind fun ⟨_, _, _⟩ ⟨_, _, _⟩ ⟨hsp, hsi, h⟩ => by
      cases hsp
      cases hsi
      exact (alike_writeBlock hR _ _ _ _ _ h).bind fun s t h => hnext _ h

/-! ### The programs of an `EtcUnpack` (log 9) -/

theorem alike_runProgram (prog : EtcProgram) (h : R s t) : AlikeAttempt R (runProgram prog s) (runProgram prog t) := by
  induction prog generalizing s t with
  | done => exact h
  | fail e => exact rfl
  | decode k next ih => exact (alike_decodeSlot hR k.isLt h).bindBeside fun v s t h => ih v h
  | peek n next ih => exact .bindSame ((hR.looksLike h).peek n) fun v => ih v h
  | skip n next ih => exact ih (hR.advance h n)
  | entry pal i next ih =>
    rw [runProgram, runProgram, (hR.looksLike h).paletteSize]
    split
    · exact rfl
    · exact .bindSame (by rw [(hR.looksLike h).readPalette]) fun v => ih v h
  | block f x y bytes next ih =>
    refine AlikeAttempt.bind (Q := R) ?_ fun s t h => ih h
    rw [writeEtcBlock, writeEtcBlock, (hR.looksLike h).faces, (hR.looksLike h).visible, (hR.looksLike h).blockAddr,
      (hR.looksLike h).bpb]
    split
    · exact alike_writeDst hR _ _ h
    · exact h

end

/-! ### Events and runs -/

/-- A relation kept by the events of `MODEL_RX` too. -/
structure KeptByEvents (R : State → State → Prop) : Prop extends KeptByUnpack R where
  boot : ∀ {s t} {i : Instr}, R s t → i.fmt = .bootsym → AlikeAttempt R (eventBody i s) (eventBody i t)
  retireBoot : ∀ {s t} {r : RxState}, R s t → s.activity = .rx r → AlikeAttempt R (retireBoot r s) (retireBoot r t)

section
variable {R : State → State → Prop} (hR : KeptByEvents R) {s t : State}
include hR

theorem alike_eventBody (i : Instr) (h : R s t) : AlikeAttempt R (eventBody i s) (eventBody i t) := by
  cases i
  case refFreshDelta => exact alike_refFreshDelta hR.toKeptByUnpack h
  case refFromAbove => exact alike_refFromAbove hR.toKeptByUnpack h
  case refDiagonal => exact alike_refDiagonal hR.toKeptByUnpack h
  case refKeepRunning => exact alike_refKeepRunning hR.toKeptByUnpack h
  case tilePattern0 => exact alike_runTile hR.toKeptByUnpack 0 h
  case tilePattern1 => exact alike_runTile hR.toKeptByUnpack 1 h
  case tilePattern2 => exact alike_runTile hR.toKeptByUnpack 2 h
  case tilePattern3 => exact alike_runTile hR.toKeptByUnpack 3 h
  case tilePattern4 => exact alike_runTile hR.toKeptByUnpack 4 h
  case tilePattern5 => exact alike_runTile hR.toKeptByUnpack 5 h
  case tilePattern6 => exact alike_runTile hR.toKeptByUnpack 6 h
  case tilePattern7 => exact alike_runTile hR.toKeptByUnpack 7 h
  case bootLiteral015 => exact hR.boot h rfl
  case bootLiteral16 => exact hR.boot h rfl
  case bootZeroRunSmall => exact hR.boot h rfl
  case bootZeroRunLarge => exact hR.boot h rfl
  case bootRepeatSmall => exact hR.boot h rfl
  case bootRepeatLarge => exact hR.boot h rfl
  all_goals exact rfl

theorem alike_fetchEvent (h : R s t) : AlikeAttempt (Beside R) (fetchEvent s) (fetchEvent t) := by
  rw [fetchEvent, fetchEvent, (hR.looksLike h).activity]
  split
  · exact rfl
  · refine (alike_decodeSym hR.toKeptByUnpack _ h).bindBeside fun sym s t h => ?_
    simp only
    split
    · exact ⟨rfl, h⟩
    · exact rfl
  · exact alike_fetchChunk hR.toKeptByUnpack _ h
  · exact alike_fetchRef hR.toKeptByUnpack _ h

theorem alike_retireEvent (h : R s t) : AlikeAttempt R (retireEvent s) (retireEvent t) := by
  rw [retireEvent, retireEvent, (hR.looksLike h).activity]
  split
  · exact h
  · next hrx => exact hR.retireBoot h hrx
  · exact alike_retireChunk hR.toKeptByUnpack _ h
  · exact alike_retireRef hR.toKeptByUnpack _ h

theorem alike_oneEvent (h : R s t) : AlikeAttempt R (oneEvent s) (oneEvent t) :=
  (alike_fetchEvent hR h).bindBeside fun i _ _ h => (alike_eventBody hR i h).bind fun _ _ h => alike_retireEvent hR h

theorem alike_runEvents (bound : Nat) (h : R s t) : AlikeAttempt R (runEvents s bound) (runEvents t bound) := by
  induction bound generalizing s t with
  | zero => exact h
  | succ b ih =>
    rw [runEvents, runEvents, (hR.looksLike h).activity]
    split
    · exact h
    all_goals exact (alike_oneEvent hR h).bind fun _ _ h => ih h

theorem alike_runToEnd (h : R s t) : AlikeAttempt R (runToEnd s) (runToEnd t) := by
  have hbound : eventBound t = eventBound s := by rw [eventBound, eventBound, (hR.looksLike h).activity]
  rw [runToEnd, runToEnd, hbound]
  exact alike_runEvents hR _ h

end

/-! ### The unpack commands -/

section
variable {R : State → State → Prop} (hR : KeptByUnpack R) {s t : State}
include hR

theorem alike_startUnpack (sch : Scheme) (h : R s t) : R (s.startUnpack sch) (t.startUnpack sch) := by
  cases sch with
  | chunk =>
    rw [State.startUnpack, State.startUnpack, (hR.looksLike h).initChunk]
    exact hR.chunk h _
  | refgrp =>
    rw [State.startUnpack, State.startUnpack, (hR.looksLike h).initRefgrp]
    exact hR.refgrp h _

/-- An unpack command does not tell related states apart when its run does not. -/
theorem alike_exec_unpackInstr (sch : Scheme) (hraise : ∀ w c, R (s.raiseError w c) (t.raiseError w c))
    (hfail : ∀ i c, R (failUnpack i s c) (failUnpack i t c))
    (hrun : AlikeAttempt R (runToEnd (s.startUnpack sch)) (runToEnd (t.startUnpack sch))) (h : R s t) :
    AlikeOutcome R (exec (unpackInstr sch) s) (exec (unpackInstr sch) t) := by
  have hlook := hR.looksLike h
  rw [exec_unpackInstr, exec_unpackInstr, gate, gate, hlook.err, hlook.checkUnpack]
  split
  · exact h
  · split
    · exact hraise _ _
    · rw [hlook.fmt]
      refine AlikeAttempt.settle ?_ (hfail _)
      split
      · rw [runEtc, runEtc, hlook.etcQuery]
        exact alike_runProgram hR _ h
      · exact hrun

end

end Sys2Proof.Machine
end

