-- ==== Sys2Proof/Proofs/NeverReadDst.lean ====
section
/-! PROOFS. No command reads `DST`, and an unpack command reads only its row of the summary (spec/10_state.md R49, R50;
spec/20_memory.md R76). -/

namespace Sys2Proof.Machine

/-! ### States that differ in `DST` alone -/

/-- `t` is `s` with another `DST`. -/
def OtherDst (s t : State) : Prop := ∃ d, t = s.setDst d

section
variable {s t : State}

theorem keptByUnpack_otherDst : KeptByUnpack OtherDst where
  looksLike := by
    rintro s _ ⟨d, rfl⟩
    exact ⟨_, _, _, _, _, _, d, rfl, fun _ _ => rfl⟩
  advance := by
    rintro s _ ⟨d, rfl⟩ n
    exact ⟨d, rfl⟩
  idle := by
    rintro s _ ⟨d, rfl⟩
    exact ⟨d, rfl⟩
  chunk := by
    rintro s _ ⟨d, rfl⟩ c
    exact ⟨d, rfl⟩
  refgrp := by
    rintro s _ ⟨d, rfl⟩ g
    exact ⟨d, rfl⟩
  writeDst := by
    rintro s _ ⟨d, rfl⟩ a bytes
    exact ⟨_, rfl⟩

/-- The reads of the stream. -/
theorem alike_take (n : Nat) (h : OtherDst s t) : AlikeAttempt (Beside OtherDst) (take s n) (take t n) :=
  .bindSame ((keptByUnpack_otherDst.looksLike h).peek n) fun _ => ⟨rfl, keptByUnpack_otherDst.advance h n⟩

theorem alike_takeLong (n : Nat) (h : OtherDst s t) : AlikeAttempt (Beside OtherDst) (takeLong s n) (takeLong t n) := by
  rw [takeLong, takeLong]
  split
  · exact alike_take n h
  · exact (alike_take _ h).bindBeside fun hi s t h => (alike_take 16 h).bindBeside fun lo s t h => ⟨rfl, h⟩

theorem alike_buildFromCl (n : Nat) (h : OtherDst s t) : buildFromCl n t = buildFromCl n s := by
  obtain ⟨d, rfl⟩ := h
  have hread : ∀ n a, readLens (s.setDst d) a n = readLens s a n := fun n => by
    induction n with
    | zero => exact fun _ => rfl
    | succ n ih =>
      intro a
      rw [readLens, readLens, ih]
      rfl
  rw [buildFromCl, buildFromCl, lensFromCl, lensFromCl, hread]

/-! ### The events of `MODEL_RX` -/

theorem alike_bootLiteral (v : Nat) (h : OtherDst s t) : AlikeAttempt OtherDst (bootLiteral v s) (bootLiteral v t) := by
  obtain ⟨d, rfl⟩ := h
  exact .bindSame rfl fun r => ⟨d, rfl⟩

theorem alike_bootZeroRun (least bits : Nat) (h : OtherDst s t) :
    AlikeAttempt OtherDst (bootZeroRun least bits s) (bootZeroRun least bits t) := by
  have hrx : runningRx t = runningRx s := by
    obtain ⟨d, rfl⟩ := h
    rfl
  refine .bindSame hrx fun r => (alike_take bits h).bindBeside fun extra s t h => ?_
  obtain ⟨d, rfl⟩ := h
  simp only
  split
  · exact rfl
  · exact ⟨d, rfl⟩

theorem alike_bootRepeat (least bits : Nat) (h : OtherDst s t) :
    AlikeAttempt OtherDst (bootRepeat least bits s) (bootRepeat least bits t) := by
  have hrx : runningRx t = runningRx s := by
    obtain ⟨d, rfl⟩ := h
    rfl
  refine .bindSame hrx fun r => (alike_take bits h).bindBeside fun extra s t h => ?_
  obtain ⟨d, rfl⟩ := h
  simp only
  split
  · exact rfl
  · split
    · exact rfl
    · refine .bindSame rfl fun prev => ?_
      split
      · exact rfl
      · exact ⟨d, rfl⟩

theorem keptByEvents_otherDst : KeptByEvents OtherDst where
  toKeptByUnpack := keptByUnpack_otherDst
  boot {s t i} h hi := by
    cases i
    case bootLiteral015 v => exact alike_bootLiteral v h
    case bootLiteral16 => exact alike_bootLiteral 16 h
    case bootZeroRunSmall => exact alike_bootZeroRun 3 3 h
    case bootZeroRunLarge => exact alike_bootZeroRun 11 7 h
    case bootRepeatSmall => exact alike_bootRepeat 3 2 h
    case bootRepeatLarge => exact alike_bootRepeat 7 6 h
    all_goals cases hi
  retireBoot {s t r} h _ := by
    rw [retireBoot, retireBoot]
    split
    · exact h
    · refine .bindSame (alike_buildFromCl r.n h) fun m => ?_
      obtain ⟨d, rfl⟩ := h
      exact ⟨d, rfl⟩

/-! ### The header of `MODEL_RX` -/

theorem alike_readBootLens (bl : List Nat) (syms : List Nat) (h : OtherDst s t) :
    AlikeAttempt (Beside OtherDst) (readBootLens bl s syms) (readBootLens bl t syms) := by
  induction syms generalizing bl s t with
  | nil => exact ⟨rfl, h⟩
  | cons sym rest ih => exact (alike_take clLenBits h).bindBeside fun v s t h => ih _ h

theorem alike_startModelRx (k : Nat) (h : OtherDst s t) :
    AlikeAttempt OtherDst (startModelRx k s) (startModelRx k t) := by
  have hcount : AlikeAttempt (Beside OtherDst) (readCount s) (readCount t) :=
    (alike_take countBits h).bindBeside fun n s t h => by
      simp only
      split
      · exact rfl
      · split
        · exact rfl
        · exact ⟨rfl, h⟩
  refine hcount.bindBeside fun n s t h => ?_
  have hcodes : AlikeAttempt (Beside OtherDst) (readNumCodes s) (readNumCodes t) :=
    (alike_take numClCodesBits h).bindBeside fun n s t h => by
      simp only
      split
      · exact rfl
      · exact ⟨rfl, h⟩
  refine hcodes.bindBeside fun codes s t h => ?_
  have hboot : AlikeAttempt (Beside OtherDst) (readBootstrap codes s) (readBootstrap codes t) := by
    rw [readBootstrap, readBootstrap, (keptByUnpack_otherDst.looksLike h).cfg]
    exact (alike_readBootLens _ _ h).bindBeside fun bl s t h => .bindSame rfl fun boot => ⟨rfl, h⟩
  refine hboot.bindBeside fun boot s t h => ?_
  obtain ⟨d, rfl⟩ := h
  exact ⟨d, rfl⟩

/-! ### The commands -/

theorem alike_raiseError (h : OtherDst s t) (w : Word) (c : ErrCode) : OtherDst (s.raiseError w c) (t.raiseError w c) := by
  obtain ⟨d, rfl⟩ := h
  exact ⟨d, rfl⟩

theorem alike_failUnpack (h : OtherDst s t) (i : Instr) (c : ErrCode) : OtherDst (failUnpack i s c) (failUnpack i t c) := by
  obtain ⟨d, rfl⟩ := h
  exact ⟨_, rfl⟩

theorem alike_abortRunning (h : OtherDst s t) (c : ErrCode) : OtherDst (abortRunning s c) (abortRunning t c) := by
  rw [abortRunning, abortRunning, (keptByUnpack_otherDst.looksLike h).activity]
  split
  · exact alike_raiseError h _ _
  · obtain ⟨d, rfl⟩ := h
    exact ⟨d, rfl⟩
  · exact alike_failUnpack h _ _
  · exact alike_failUnpack h _ _

theorem alike_raiseBy (h : OtherDst s t) (i : Instr) (c : ErrCode) : AlikeOutcome OtherDst (raiseBy i c s) (raiseBy i c t) :=
  alike_raiseError h _ c

theorem alike_failDecode (h : OtherDst s t) (i : Instr) (c : ErrCode) : OtherDst (failDecode i s c) (failDecode i t c) := by
  obtain ⟨d, rfl⟩ := h
  exact ⟨d, rfl⟩

theorem alike_setResult (h : OtherDst s t) (v : Nat) : OtherDst (s.setResult v) (t.setResult v) := by
  obtain ⟨d, rfl⟩ := h
  exact ⟨d, rfl⟩

theorem alike_gate {run : State → Host.Outcome State Fault Refusal} (h : OtherDst s t)
    (hrun : AlikeOutcome OtherDst (run s) (run t)) : AlikeOutcome OtherDst (gate s run) (gate t run) := by
  rw [gate, gate, (keptByUnpack_otherDst.looksLike h).err]
  split
  · exact h
  · exact hrun

theorem alike_exec_brStart (h : OtherDst s t) : AlikeOutcome OtherDst (exec .brStart s) (exec .brStart t) := by
  rw [exec, exec, execBrStart, execBrStart]
  refine alike_gate h ?_
  have hraise := alike_raiseBy h .brStart
  obtain ⟨d, rfl⟩ := h
  by_cases hempty : s.arg1 = 0
  · have hempty' : (s.setDst d).arg1 = 0 := hempty
    rw [if_pos hempty, if_pos hempty']
    exact hraise .srcEmpty
  have hempty' : ¬ (s.setDst d).arg1 = 0 := hempty
  rw [if_neg hempty, if_neg hempty']
  by_cases hbig : s.cfg.srcSize < s.arg0.toNat + s.arg1.toNat
  · have hbig' : (s.setDst d).cfg.srcSize < (s.setDst d).arg0.toNat + (s.setDst d).arg1.toNat := hbig
    rw [if_pos hbig, if_pos hbig']
    exact hraise .operand
  · have hbig' : ¬ (s.setDst d).cfg.srcSize < (s.setDst d).arg0.toNat + (s.setDst d).arg1.toNat := hbig
    rw [if_neg hbig, if_neg hbig']
    exact ⟨d, rfl⟩

theorem alike_exec_getbits (n : Nat) (h : OtherDst s t) :
    AlikeOutcome OtherDst (exec (.getbits n) s) (exec (.getbits n) t) := by
  rw [exec, exec, execGetbits, execGetbits]
  refine alike_gate h ?_
  simp only [(keptByUnpack_otherDst.looksLike h).br]
  split
  · exact alike_raiseBy h _ _
  · split
    · exact alike_raiseBy h _ _
    · refine AlikeAttempt.settle (R := OtherDst) ?_ (alike_failDecode h _)
      exact (alike_take n h).bindBeside fun v s t h => alike_setResult h v

theorem alike_exec_readbits (n : Nat) (h : OtherDst s t) :
    AlikeOutcome OtherDst (exec (.readbits n) s) (exec (.readbits n) t) := by
  rw [exec, exec, execReadbits, execReadbits]
  refine alike_gate h ?_
  simp only [(keptByUnpack_otherDst.looksLike h).br]
  split
  · exact alike_raiseBy h _ _
  · split
    · exact alike_raiseBy h _ _
    · refine AlikeAttempt.settle (R := OtherDst) ?_ (alike_failDecode h _)
      exact (alike_takeLong n h).bindBeside fun v s t h => alike_setResult h v

theorem alike_exec_huffBuild (k n : Nat) (h : OtherDst s t) :
    AlikeOutcome OtherDst (exec (.huffBuild k n) s) (exec (.huffBuild k n) t) := by
  rw [exec, exec, execHuffBuild, execHuffBuild]
  refine alike_gate h ?_
  split
  · exact alike_raiseBy h _ _
  · have hbuild := alike_buildFromCl n h
    obtain ⟨d, rfl⟩ := h
    refine AlikeAttempt.settle ?_ fun c => ⟨d, rfl⟩
    exact .bindSame hbuild fun m => ⟨d, rfl⟩

theorem alike_exec_huffDecode (k : Nat) (h : OtherDst s t) :
    AlikeOutcome OtherDst (exec (.huffDecode k) s) (exec (.huffDecode k) t) := by
  rw [exec, exec, execHuffDecode, execHuffDecode]
  refine alike_gate h ?_
  have hmodel : t.model k = s.model k := by
    obtain ⟨d, rfl⟩ := h
    rfl
  simp only [(keptByUnpack_otherDst.looksLike h).br, hmodel]
  split
  · exact alike_raiseBy h _ _
  · split
    · exact alike_raiseBy h _ _
    · split
      · exact alike_raiseBy h _ _
      · refine AlikeAttempt.settle (R := OtherDst) ?_ (alike_failDecode h _)
        exact (alike_decodeSym keptByUnpack_otherDst _ h).bindBeside fun r s t h => alike_setResult h _

theorem alike_exec_modelRx (k : Nat) (h : OtherDst s t) :
    AlikeOutcome OtherDst (exec (.modelRx k) s) (exec (.modelRx k) t) := by
  rw [exec, exec, execModelRx, execModelRx]
  refine alike_gate h ?_
  have hempty : OtherDst (s.setModel k none) (t.setModel k none) := by
    obtain ⟨d, rfl⟩ := h
    exact ⟨d, rfl⟩
  have hreject : ∀ c, OtherDst (rejectModelRx k s c) (rejectModelRx k t c) := fun c => by
    obtain ⟨d, rfl⟩ := h
    exact ⟨d, rfl⟩
  have hfail : ∀ c, OtherDst (failModelRx k s c) (failModelRx k t c) := fun c => by
    obtain ⟨d, rfl⟩ := h
    exact ⟨d, rfl⟩
  simp only [(keptByUnpack_otherDst.looksLike h).br]
  split
  · exact hreject _
  · split
    · exact hreject _
    · exact ((alike_startModelRx k hempty).bind fun s t h => alike_runToEnd keptByEvents_otherDst h).settle hfail

theorem alike_exec_unpack (sch : Scheme) (h : OtherDst s t) :
    AlikeOutcome OtherDst (exec (unpackInstr sch) s) (exec (unpackInstr sch) t) :=
  alike_exec_unpackInstr keptByUnpack_otherDst sch (alike_raiseError h) (alike_failUnpack h)
    (alike_runToEnd keptByEvents_otherDst (alike_startUnpack keptByUnpack_otherDst sch h)) h

theorem alike_exec (i : Instr) (h : OtherDst s t) : AlikeOutcome OtherDst (exec i s) (exec i t) := by
  by_cases hfmt : i.fmt = .cw
  · cases i
    case brStart => exact alike_exec_brStart h
    case getbits n => exact alike_exec_getbits n h
    case readbits n => exact alike_exec_readbits n h
    case huffBuild k n => exact alike_exec_huffBuild k n h
    case huffDecode k => exact alike_exec_huffDecode k h
    case modelRx k => exact alike_exec_modelRx k h
    case unpackChunk =>
      exact alike_exec_unpack .chunk h
    case unpackRefgrp =>
      exact alike_exec_unpack .refgrp h
    case nop => exact alike_gate h h
    case clrErr =>
      obtain ⟨d, rfl⟩ := h
      exact ⟨d, rfl⟩
    case softReset =>
      obtain ⟨d, rfl⟩ := h
      exact ⟨d, rfl⟩
    all_goals cases hfmt
  · rw [exec_event i s hfmt, exec_event i t hfmt]
    exact (alike_eventBody keptByEvents_otherDst i h).settle (alike_abortRunning h)

end

/-! ### What an unpack command's row does not name -/

/-- `s` with other operands, another `RESULT`, `CL` and `CL_COUNT`, and another model in slot `k`: nothing of it stands in
the row of an unpack command when `k` is 5 or more. -/
def State.changeUnnamed (a0 a1 r : Word) (lens : Memory 8) (n : BitVec 14) (k : Nat) (m : Option Model) (s : State) : State :=
  { s with arg0 := a0, arg1 := a1, result := r, cl := lens, clCount := n, models := s.models.setIfInBounds k m }

section
variable {a0 a1 r : Word} {lens : Memory 8} {n : BitVec 14} {k : Nat} {m : Option Model}

theorem State.model_changeUnnamed (s : State) {j : Nat} (hj : j ≠ k) :
    (s.changeUnnamed a0 a1 r lens n k m).model j = s.model j := by
  have hget : (s.models.setIfInBounds k m)[j]? = s.models[j]? := Vector.getElem?_setIfInBounds_ne hj.symm
  exact congrArg Option.join hget

theorem State.looksLike_changeUnnamed (hk : 5 ≤ k) (s : State) :
    s.LooksLike (s.changeUnnamed a0 a1 r lens n k m) :=
  ⟨_, _, _, _, _, _, _, rfl, fun _ hj => s.model_changeUnnamed (by omega)⟩

theorem keptByUnpack_changeUnnamed (hk : 5 ≤ k) :
    KeptByUnpack fun s t => t = s.changeUnnamed a0 a1 r lens n k m where
  looksLike := by
    rintro s _ rfl
    exact s.looksLike_changeUnnamed hk
  advance := by
    rintro s _ rfl n
    rfl
  idle := by
    rintro s _ rfl
    rfl
  chunk := by
    rintro s _ rfl c
    rfl
  refgrp := by
    rintro s _ rfl g
    rfl
  writeDst := by
    rintro s _ rfl a bytes
    rfl

/-- An event of `MODEL_RX` outside a `MODEL_RX` is refused whatever the state is. -/
theorem eventBody_bootsym_of_not_rx {s : State} {i : Instr} (hact : ∀ x, s.activity ≠ .rx x) (hi : i.fmt = .bootsym) :
    eventBody i s = refuseWith .outOfContext := by
  have hrx : runningRx s = refuseWith .outOfContext := by
    rw [runningRx]
    split
    · next x hx => exact absurd hx (hact x)
    all_goals rfl
  have hliteral : ∀ v, bootLiteral v s = refuseWith .outOfContext := fun v => by
    rw [bootLiteral, hrx]
    rfl
  have hzero : ∀ a b, bootZeroRun a b s = refuseWith .outOfContext := fun a b => by
    rw [bootZeroRun, hrx]
    rfl
  have hrepeat : ∀ a b, bootRepeat a b s = refuseWith .outOfContext := fun a b => by
    rw [bootRepeat, hrx]
    rfl
  cases i
  case bootLiteral015 v => exact hliteral v
  case bootLiteral16 => exact hliteral 16
  case bootZeroRunSmall => exact hzero 3 3
  case bootZeroRunLarge => exact hzero 11 7
  case bootRepeatSmall => exact hrepeat 3 2
  case bootRepeatLarge => exact hrepeat 7 6
  all_goals cases hi

/-- Inside an unpack command no `MODEL_RX` is running. -/
theorem keptByEvents_changeUnnamed (hk : 5 ≤ k) :
    KeptByEvents fun s t => t = s.changeUnnamed a0 a1 r lens n k m ∧ ∀ x, s.activity ≠ .rx x where
  looksLike h := (keptByUnpack_changeUnnamed hk).looksLike h.1
  advance h n := ⟨(keptByUnpack_changeUnnamed hk).advance h.1 n, h.2⟩
  idle h := ⟨(keptByUnpack_changeUnnamed hk).idle h.1, fun _ => Activity.noConfusion⟩
  chunk h c := ⟨(keptByUnpack_changeUnnamed hk).chunk h.1 c, fun _ => Activity.noConfusion⟩
  refgrp h g := ⟨(keptByUnpack_changeUnnamed hk).refgrp h.1 g, fun _ => Activity.noConfusion⟩
  writeDst h a bytes := ⟨(keptByUnpack_changeUnnamed hk).writeDst h.1 a bytes, h.2⟩
  boot {s t i} h hi := by
    have hs := eventBody_bootsym_of_not_rx h.2 hi
    have ht : ∀ x, t.activity ≠ .rx x := by
      rw [h.1]
      exact h.2
    rw [hs, eventBody_bootsym_of_not_rx ht hi]
    exact .error _
  retireBoot h hrx := absurd hrx (h.2 _)

theorem alike_exec_changeUnnamed (hk : 5 ≤ k) (sch : Scheme) (s : State) :
    AlikeOutcome (fun s t => t = s.changeUnnamed a0 a1 r lens n k m) (exec (unpackInstr sch) s)
      (exec (unpackInstr sch) (s.changeUnnamed a0 a1 r lens n k m)) := by
  have hstart : ∀ x, (s.startUnpack sch).activity ≠ .rx x := by
    cases sch with
    | chunk => exact fun _ => Activity.noConfusion
    | refgrp => exact fun _ => Activity.noConfusion
  have halike : (s.changeUnnamed a0 a1 r lens n k m).startUnpack sch =
      (s.startUnpack sch).changeUnnamed a0 a1 r lens n k m :=
    alike_startUnpack (keptByUnpack_changeUnnamed hk) sch rfl
  have hrun := alike_runToEnd (keptByEvents_changeUnnamed hk) ⟨halike, hstart⟩
  have hfail : ∀ i c, failUnpack i (s.changeUnnamed a0 a1 r lens n k m) c =
      (failUnpack i s c).changeUnnamed a0 a1 r lens n k m := fun i c => by
    rw [failUnpack, failUnpack]
    rfl
  exact alike_exec_unpackInstr (keptByUnpack_changeUnnamed hk) sch (fun _ _ => rfl) hfail
    (hrun.mono fun _ _ h => h.1) rfl

end

/-! ### The obligation -/

/-- Settles O56: two runs of a command from alike states stay alike event by event. -/
theorem commandsNeverReadDst : Obligations.CommandsNeverReadDst := by
  refine ⟨fun i s d => ?_, ?_⟩
  · obtain ⟨hnext, hfault, hrefused⟩ := (alike_exec i (⟨d, rfl⟩ : OtherDst s (s.setDst d))).clauses
    refine ⟨fun t ht => ?_, hfault, hrefused⟩
    obtain ⟨_, ht', d', rfl⟩ := hnext t ht
    exact ⟨d', ht'⟩
  · rintro i s a0 a1 r lens n k m _ hi hk rfl
    have hcommand : ∃ sch, i = unpackInstr sch := by
      rcases hi with rfl | rfl
      · exact ⟨.chunk, rfl⟩
      · exact ⟨.refgrp, rfl⟩
    obtain ⟨sch, rfl⟩ := hcommand
    obtain ⟨hnext, hfault, hrefused⟩ := (alike_exec_changeUnnamed hk sch s).clauses
    refine ⟨fun t ht => ?_, hfault, hrefused⟩
    obtain ⟨_, ht', rfl⟩ := hnext t ht
    exact ht'

end Sys2Proof.Machine
end

