-- ==== Sys2Proof/Proofs/AnswerRules.lean ====
section
/-! PROOFS. What a piece of a command may stop at (spec/10_state.md R49; spec/44_unpack_refgroup.md R267): an error of the
core, a read of unwritten memory, and a sub-code 2 with no `DiagRule` given. -/

namespace Sys2Proof.Machine

/-! ### Halts -/

/-- The halts of a command: errors, reads of unwritten memory, and, where `norule` holds, the refusal of a sub-code 2. -/
def AllowedHalt (norule : Prop) : Halt → Prop
  | .error _ => True
  | .fault (.unwrittenRead sp _) => sp ≠ .dst ∧ sp ≠ .reg
  | .fault (.noSuchAddress _ _) => False
  | .refuse .diagRuleNotGiven => norule
  | .refuse _ => False

/-- A piece of a command goes on, or stops at what a command may stop at. -/
def Answers (norule : Prop) {α : Type} (x : Attempt α) : Prop := ∀ e, x = .error e → AllowedHalt norule e

/-- A command answers a next state, or stops at what it may stop at. -/
def OutcomeAnswers (norule : Prop) (o : Host.Outcome State Fault Refusal) : Prop :=
  (∃ t, o = .next t) ∨ (∃ sp a, sp ≠ .dst ∧ sp ≠ .reg ∧ o = .fault (.unwrittenRead sp a)) ∨
    (norule ∧ o = .refused .diagRuleNotGiven)

section
variable {α β : Type} {norule : Prop}

theorem Answers.ok (a : α) : Answers norule (.ok a : Attempt α) := nofun

theorem Answers.fail (c : ErrCode) : Answers norule (failWith c : Attempt α) := by
  rintro _ ⟨⟩
  trivial

theorem Answers.refuseRule (h : norule) : Answers norule (refuseWith .diagRuleNotGiven : Attempt α) := by
  rintro _ ⟨⟩
  exact h

theorem Answers.orError (r : Except ErrCode α) : Answers norule (orError r) := by
  cases r with
  | ok a => exact .ok a
  | error c => exact .fail c

/-- The second piece starts from what the first answers. -/
theorem Answers.bind {x : Attempt α} {f : α → Attempt β} (hx : Answers norule x)
    (hf : ∀ a, x = .ok a → Answers norule (f a)) : Answers norule (x >>= f) := by
  cases x with
  | ok a => exact hf a rfl
  | error e =>
    rintro _ ⟨⟩
    exact hx e rfl

/-- The second piece answers from everywhere. -/
theorem Answers.bindAll {x : Attempt α} {f : α → Attempt β} (hx : Answers norule x) (hf : ∀ a, Answers norule (f a)) :
    Answers norule (x >>= f) := hx.bind fun a _ => hf a

theorem Answers.map {x : Attempt α} {f : α → β} (hx : Answers norule x) : Answers norule (x.map f) := by
  cases x with
  | ok a => exact .ok (f a)
  | error e =>
    rintro _ ⟨⟩
    exact hx e rfl

theorem Answers.settle {x : Attempt State} {f : ErrCode → State} (hx : Answers norule x) :
    OutcomeAnswers norule (settle f x) := by
  match x, hx with
  | .ok t, _ => exact .inl ⟨t, rfl⟩
  | .error (.error c), _ => exact .inl ⟨f c, rfl⟩
  | .error (.fault (.unwrittenRead sp a)), hx =>
    obtain ⟨hdst, hreg⟩ := hx _ rfl
    exact .inr (.inl ⟨sp, a, hdst, hreg, rfl⟩)
  | .error (.fault (.noSuchAddress sp a)), hx => exact (hx _ rfl).elim
  | .error (.refuse .diagRuleNotGiven), hx => exact .inr (.inr ⟨hx _ rfl, rfl⟩)
  | .error (.refuse (.notModelled m)), hx => exact (hx _ rfl).elim
  | .error (.refuse (.hostAccessUndefined sp a w)), hx => exact (hx _ rfl).elim
  | .error (.refuse .outOfContext), hx => exact (hx _ rfl).elim

theorem OutcomeAnswers.next (t : State) : OutcomeAnswers norule (.next t) := .inl ⟨t, rfl⟩

theorem OutcomeAnswers.raiseBy (i : Instr) (c : ErrCode) (s : State) : OutcomeAnswers norule (raiseBy i c s) :=
  .next _

theorem OutcomeAnswers.gate {s : State} {run : State → Host.Outcome State Fault Refusal}
    (h : OutcomeAnswers norule (run s)) : OutcomeAnswers norule (gate s run) := by
  cases herr : s.err with
  | true =>
    rw [gate_shut _ _ herr]
    exact .next s
  | false => rwa [gate_open _ _ herr]

end

section
variable {norule : Prop} {s : State}

/-! ### The stream -/

theorem answers_readEntry {w : Nat} {sp : Space} (hdst : sp ≠ .dst) (hreg : sp ≠ .reg) (m : Memory w) (a : Nat) :
    Answers norule (readEntry sp m a) := by
  rw [readEntry]
  split
  · exact .ok _
  · rintro _ ⟨⟩
    exact ⟨hdst, hreg⟩

theorem answers_peekAt (s : State) (pos n : Nat) : Answers norule (peekAt s pos n) := by
  have hbit : ∀ p, Answers norule (streamBit s p) := fun p => by
    rw [streamBit]
    split
    · exact (answers_readEntry (by decide) (by decide) _ _).bindAll fun _ => .ok _
    · exact .ok _
  induction n with
  | zero => exact .ok _
  | succ n ih => exact ih.bindAll fun _ => (hbit _).bindAll fun _ => .ok _

theorem answers_take (s : State) (n : Nat) : Answers norule (take s n) :=
  (answers_peekAt s _ n).bindAll fun _ => .ok _

theorem answers_takeLong (s : State) (n : Nat) : Answers norule (takeLong s n) := by
  rw [takeLong]
  split
  · exact answers_take s n
  · exact (answers_take s _).bindAll fun _ => (answers_take _ 16).bindAll fun _ => .ok _

/-! ### Models -/

theorem answers_decodeSym (m : Model) (s : State) : Answers norule (decodeSym m s) :=
  (answers_peekAt s _ 16).bindAll fun _ => (Answers.orError _).bindAll fun _ => .ok _

theorem answers_decodeSlot (k : Nat) (s : State) : Answers norule (decodeSlot k s) := by
  rw [decodeSlot]
  split
  · exact .fail _
  · exact (answers_decodeSym _ s).bindAll fun _ => .ok _

theorem answers_buildFromCl (n : Nat) (s : State) : Answers norule (buildFromCl n s) := by
  have hread : ∀ n a, Answers norule (readLens s a n) := fun n => by
    induction n with
    | zero => exact fun _ => .ok _
    | succ n ih =>
      exact fun a => (answers_readEntry (by decide) (by decide) _ _).bindAll fun _ => (ih (a + 1)).bindAll fun _ => .ok _
  have hlens : Answers norule (lensFromCl n s) := by
    rw [lensFromCl]
    split
    · exact hread _ _
    · exact .ok _
  exact hlens.bindAll fun _ => .orError _

/-- A symbol that a built model decodes is one of its own. -/
theorem decodePeek_lt_of_build {n p sym L : Nat} {lens : List Nat} {m : Model} (hbuild : build n lens = .ok m)
    (hdec : decodePeek m p = .ok (sym, L)) : sym < lens.length := by
  obtain ⟨-, -, -, -, hused, rfl⟩ := ladder_ok _ _ _ _ _ hdec
  rw [build_used hbuild, ← length_sortedSymbols] at hused
  rw [build_sorted hbuild, List.getD_eq_getElem _ _ hused]
  exact (mem_sortedSymbols.1 (List.getElem_mem hused)).1

/-! ### `MODEL_RX` -/

theorem answers_readBootLens (bl : List Nat) (s : State) (order : List Nat) : Answers norule (readBootLens bl s order) := by
  induction order generalizing bl s with
  | nil => exact .ok _
  | cons sym rest ih => exact (answers_take s _).bindAll fun _ => ih _ _

theorem answers_startModelRx (k : Nat) (s : State) : Answers norule (startModelRx k s) := by
  have hcount : Answers norule (readCount s) := (answers_take s _).bindAll fun _ => by
    simp only
    split
    · exact .fail _
    · split
      · exact .fail _
      · exact .ok _
  have hcodes : ∀ s, Answers norule (readNumCodes s) := fun s => (answers_take s _).bindAll fun _ => by
    simp only
    split
    · exact .fail _
    · exact .ok _
  have hboot : ∀ k s, Answers norule (readBootstrap k s) := fun k s =>
    (answers_readBootLens _ s _).bindAll fun _ => (Answers.orError _).bindAll fun _ => .ok _
  exact hcount.bindAll fun _ => (hcodes _).bindAll fun _ => (hboot _ _).bindAll fun _ => .ok _

/-- The events of a running `MODEL_RX`. -/
theorem answers_eventBody_of_rx {r : RxState} {w : Nat} {i : Instr} (hdec : decode .bootsym w = some i)
    (hrx : s.activity = .rx r) : Answers norule (eventBody i s) := by
  have hrunning : runningRx s = .ok r := by rw [runningRx, hrx]
  have hliteral : ∀ v, Answers norule (bootLiteral v s) := fun v => by
    rw [bootLiteral, hrunning]
    exact .ok _
  have hzero : ∀ least bits, Answers norule (bootZeroRun least bits s) := fun least bits => by
    rw [bootZeroRun, hrunning, attempt_ok_bind]
    refine (answers_take s _).bindAll fun _ => ?_
    simp only
    split
    · exact .fail _
    · exact .ok _
  have hrepeat : ∀ least bits, Answers norule (bootRepeat least bits s) := fun least bits => by
    rw [bootRepeat, hrunning, attempt_ok_bind]
    refine (answers_take s _).bindAll fun _ => ?_
    simp only
    split
    · exact .fail _
    split
    · exact .fail _
    refine (answers_readEntry (by decide) (by decide) _ _).bindAll fun _ => ?_
    split
    · exact .fail _
    · exact .ok _
  simp only [decode, decodeBootSym] at hdec
  split at hdec
  case isTrue =>
    cases hdec
    exact hliteral w
  case isFalse =>
    split at hdec <;> cases hdec
    · exact hliteral 16
    · exact hzero 3 3
    · exact hzero 11 7
    · exact hrepeat 3 2
    · exact hrepeat 7 6

theorem answers_retireBoot (r : RxState) (s : State) : Answers norule (retireBoot r s) := by
  rw [retireBoot]
  split
  · exact .ok _
  · exact (answers_buildFromCl _ s).bindAll fun _ => .ok _

/-! ### Deltas and blocks -/

theorem answers_decodeEndpoint (p : Plane) (ep : PlaneRegs) (s : State) : Answers norule (decodeEndpoint p ep s) :=
  (answers_decodeSlot _ s).bindAll fun _ => .ok _

theorem answers_decodeSelectorDelta (p : Plane) (sp : PlaneRegs) (s : State) :
    Answers norule (decodeSelectorDelta p sp s) :=
  (answers_decodeSlot _ s).bindAll fun _ => .ok _

theorem answers_blockBytes (s : State) (ei si : PlaneRegs) : Answers norule (blockBytes s ei si) := by
  have hcolor : ∀ a b, Answers norule (colorPart s a b) := fun a b =>
    (answers_readEntry (by decide) (by decide) _ _).bindAll fun _ =>
      (answers_readEntry (by decide) (by decide) _ _).bindAll fun _ => .ok _
  have halpha : ∀ a b, Answers norule (alphaPart s a b) := fun a b =>
    (answers_readEntry (by decide) (by decide) _ _).bindAll fun _ =>
      (answers_readEntry (by decide) (by decide) _ _).bindAll fun _ =>
        (answers_readEntry (by decide) (by decide) _ _).bindAll fun _ =>
          (answers_readEntry (by decide) (by decide) _ _).bindAll fun _ => .ok _
  have hpart : ∀ p, Answers norule (planePart s p ei si) := fun p => by
    cases p with
    | c => exact hcolor _ _
    | a0 => exact halpha _ _
    | a1 => exact halpha _ _
  rw [blockBytes]
  induction blockPlanes s.fmt with
  | nil => exact .ok _
  | cons p rest ih => exact (hpart p).bindAll fun _ => ih.bindAll fun _ => .ok _

/-- The visible blocks of face `f` stand inside the memory. -/
def State.blocksFit (s : State) (f : Nat) : Prop :=
  ∀ x y, s.visible x y = true → s.blockAddr f x y + 8 * (blockPlanes s.fmt).length ≤ s.cfg.dstMemSize

@[simp] theorem State.advance_blocksFit (n : Nat) : (s.advance n).blocksFit = s.blocksFit := rfl
@[simp] theorem State.setActivity_blocksFit (a : Activity) : (s.setActivity a).blocksFit = s.blocksFit := rfl

theorem answers_writeBlock {f : Nat} (hfit : s.blocksFit f) (x y : Nat) (ei si : PlaneRegs) :
    Answers norule (writeBlock f x y ei si s) := by
  rw [writeBlock]
  split
  · next hvisible =>
    refine (answers_blockBytes s ei si).bind fun bytes hbytes => ?_
    have hinside := hfit x y hvisible
    rw [← partsOf_length _ _ _ _ _ hbytes] at hinside
    rw [writeDst, if_neg (Nat.not_lt.2 hinside)]
    exact .ok _
  · exact .ok _

/-- A reconstruction by an `EtcUnpack` (log 9). -/
theorem answers_runProgram (prog : EtcProgram)
    (hfit : ∀ f x y, f < s.faces.toNat → s.visible x y = true → s.blockAddr f x y + s.bpb ≤ s.cfg.dstMemSize) :
    Answers norule (runProgram prog s) := by
  induction prog generalizing s with
  | done => exact .ok _
  | fail e => exact .fail _
  | decode k next ih =>
    refine (answers_decodeSlot _ s).bind fun ⟨v, u⟩ hu => ?_
    obtain ⟨n, rfl⟩ := decodeSlot_advance _ _ _ _ hu
    exact ih v hfit
  | peek n next ih => exact (answers_peekAt s _ n).bindAll fun v => ih v hfit
  | skip n next ih => exact ih hfit
  | entry pal i next ih =>
    have hread : Answers norule (readPalette s pal i) := by
      cases pal <;> exact (answers_readEntry (by decide) (by decide) _ _).map
    rw [runProgram]
    split
    · exact .fail _
    · exact hread.bindAll fun v => ih v hfit
  | block f x y bytes next ih =>
    have hwrite : Answers norule (writeEtcBlock f x y bytes s) := by
      rw [writeEtcBlock]
      split
      · next hblock =>
        obtain ⟨hf, hvisible⟩ := Bool.and_eq_true_iff.1 hblock
        have hinside := hfit f x y (of_decide_eq_true hf) hvisible
        rw [writeDst, if_neg (by simpa using hinside)]
        exact .ok _
      · exact .ok _
    refine hwrite.bind fun u hu => ?_
    rcases (writeEtcBlock_ok _ _ _ _ _ _).1 hu with ⟨-, rfl⟩ | ⟨-, -, -, rfl⟩
    · exact ih hfit
    · exact ih hfit

/-! ### The chunk scheme -/

theorem answers_fetchChunk (c : ChunkState) (s : State) : Answers norule (fetchChunk c s) := by
  have hrefill : Answers norule (refillEncodings c s) := by
    rw [refillEncodings]
    split
    · refine (answers_decodeSlot 0 s).bindAll fun _ => ?_
      simp only
      split
      · exact .fail _
      · exact .ok _
    · exact .ok _
  refine hrefill.bindAll fun ⟨ceb, u⟩ => ?_
  have hfield : (ceb &&& 7).toNat < 8 := by
    rw [BitVec.toNat_and]
    exact Nat.lt_of_le_of_lt Nat.and_le_right (by decide)
  simp only [decode_chunkenc_tileInstr hfield]
  exact .ok _

/-- A chunk whose blocks fit the memory. -/
theorem answers_runTile {c : ChunkState} {pos : ChunkPos} {rest : List ChunkPos} (hchunk : s.activity = .chunk c)
    (hscan : c.scan = pos :: rest) (hfit : s.blocksFit pos.f) (e : Nat) : Answers norule (runTile e s) := by
  have htiles : ∀ p todo i c s, Answers norule (decodeTiles p i c s todo) := fun p todo => by
    induction todo with
    | zero => exact fun _ _ _ => .ok _
    | succ todo ih => exact fun i c s => (answers_decodeEndpoint p _ s).bindAll fun _ => ih _ _ _
  have hendpoints : ∀ tiles ps c s, Answers norule (decodeTileEndpoints tiles c s ps) := fun tiles ps => by
    induction ps with
    | nil => exact fun _ _ => .ok _
    | cons p rest ih => exact fun c s => (htiles p tiles 0 c s).bindAll fun _ => ih _ _
  have hselectors : ∀ ps sp s, Answers norule (decodeSelectors sp s ps) := fun ps => by
    induction ps with
    | nil => exact fun _ _ => .ok _
    | cons p rest ih => exact fun sp s => (answers_decodeSelectorDelta p sp s).bindAll fun _ => ih _ _
  have hblock : ∀ pattern k c s, s.blocksFit pos.f → Answers norule (subBlock pattern pos k c s) := by
    intro pattern k c s hfit
    refine (hselectors _ _ s).bind fun ⟨sp, u⟩ hu => ?_
    obtain ⟨n, rfl⟩ := decodeSelectors_ok _ _ _ _ _ hu
    exact (answers_writeBlock (s := s.advance n) hfit _ _ _ _).bindAll fun _ => .ok _
  have hblocks : ∀ pattern ks c s, s.blocksFit pos.f → Answers norule (subBlocks pattern pos c s ks) := by
    intro pattern ks
    induction ks with
    | nil => exact fun _ _ _ => .ok _
    | cons k rest ih =>
      intro c s hfit
      refine (hblock pattern k c s hfit).bind fun ⟨c', u⟩ hu => ?_
      obtain ⟨n, sp, -, -, hwrite⟩ := subBlock_ok _ _ _ _ _ _ _ hu
      obtain ⟨d, rfl⟩ := writeBlock_setDst _ _ _ _ _ _ _ hwrite
      exact ih _ _ hfit
  rw [runTile, hchunk]
  simp only [hscan]
  refine (hendpoints _ _ c s).bind fun ⟨c', u⟩ hu => ?_
  obtain ⟨⟨n, rfl⟩, -⟩ := decodeTileEndpoints_ok _ _ _ _ _ _ hu
  exact (hblocks _ _ c' (s.advance n) hfit).bindAll fun _ => .ok _

/-! ### The reference-group scheme -/

theorem answers_fetchRef {g : RefState} (hscan : g.scan ≠ []) (s : State) : Answers norule (fetchRef g s) := by
  have hload : ∀ pos g, Answers norule (loadGroup pos g s) := fun pos g => by
    rw [loadGroup]
    split
    · refine (answers_decodeSlot 0 s).bindAll fun _ => ?_
      simp only
      split
      · exact .fail _
      · exact .ok _
    · exact .ok _
  have hcode : ∀ pos g, (subCode pos g).1 < 4 := fun pos g => by
    rcases Nat.mod_two_eq_zero_or_one pos.y with hy | hy
    · rw [subCode_of_even hy]
      exact Nat.mod_lt _ (by decide)
    · rw [subCode_of_odd hy]
      exact (g.column pos.x).kind.isLt
  obtain ⟨pos, rest, hpos⟩ := List.exists_cons_of_ne_nil hscan
  rw [fetchRef, hpos]
  refine (hload _ _).bindAll fun ⟨g', u⟩ => ?_
  obtain ⟨i, hi⟩ := exists_decode_subcode (hcode pos g')
  simp only [hi]
  exact .ok _

/-- The sub-codes: only a sub-code 2 asks for the `DiagRule`. -/
theorem answers_eventBody_of_refgrp {g : RefState} {w : Nat} {i : Instr} (hdec : decode .subcode w = some i)
    (hg : s.activity = .refgrp g) (hscan : g.scan ≠ []) (hrule : s.cfg.diagRuleGiven = false → norule) :
    Answers norule (eventBody i s) := by
  have happly : ∀ change, (∀ pos ps, Answers norule (change pos ps g s)) → Answers norule (applyReference change s) := by
    intro change hchange
    obtain ⟨pos, rest, hpos⟩ := List.exists_cons_of_ne_nil hscan
    rw [applyReference, hg]
    simp only [hpos]
    exact (hchange _ _).bindAll fun _ => .ok _
  have hfresh : ∀ ps g s, Answers norule (freshDelta g s ps) := fun ps => by
    induction ps with
    | nil => exact fun _ _ => .ok _
    | cons p rest ih => exact fun g s => (answers_decodeEndpoint p _ s).bindAll fun _ => ih _ _
  have hdelta : Answers norule (refFreshDelta s) := happly _ fun _ ps => hfresh ps g s
  have habove : Answers norule (refFromAbove s) := happly _ fun _ _ => .ok _
  have hkeep : Answers norule (refKeepRunning s) := happly _ fun _ _ => .ok _
  have hdiagonal : Answers norule (refDiagonal s) := happly _ fun _ _ => by
    split
    · exact .ok _
    · next hnone => exact .refuseRule (hrule (eq_false_of_ne_true hnone))
  simp only [decode, decodeSubcode] at hdec
  split at hdec <;> cases hdec
  · exact hdelta
  · exact habove
  · exact hdiagonal
  · exact hkeep

theorem answers_retireRef {g : RefState} {pos : BlockPos} {rest : List BlockPos} (hscan : g.scan = pos :: rest)
    (hfit : s.blocksFit pos.f) : Answers norule (retireRef g s) := by
  have hselector : ∀ p sp si s, Answers norule (decodeSelectorRG p sp si s) := fun p sp si s => by
    rw [decodeSelectorRG]
    split
    · exact (answers_decodeSelectorDelta p sp s).bindAll fun _ => .ok _
    · refine (answers_decodeSlot _ s).bindAll fun _ => ?_
      simp only
      split
      · exact .fail _
      · exact .ok _
  have hselectors : ∀ ps sp si s, Answers norule (decodeSelectorsRG sp si s ps) := fun ps => by
    induction ps with
    | nil => exact fun _ _ _ => .ok _
    | cons p rest ih => exact fun sp si s => (hselector p sp si s).bindAll fun _ => ih _ _ _
  rw [retireRef, hscan]
  refine (hselectors _ _ _ s).bind fun ⟨sp, si, u⟩ hu => ?_
  obtain ⟨n, rfl⟩ := decodeSelectorsRG_ok _ _ _ _ _ _ _ hu
  exact (answers_writeBlock (s := s.advance n) hfit _ _ _ _).bindAll fun _ => .ok _

end

end Sys2Proof.Machine
end

