-- ==== Sys2Proof/Proofs/CommandAnswers.lean ====
section
/-! PROOFS. A command always answers, but for a read of unwritten memory or a sub-code 2 with no `DiagRule`
(spec/10_state.md R49; spec/44_unpack_refgroup.md R267; spec/70_reset_and_hazards.md R396). -/

namespace Sys2Proof.Machine

/-- No command is running, or the running one stands where its next event has a meaning: its bootstrap model is a built one,
its scan has a position left and stays where the blocks fit the memory, and a missing `DiagRule` is allowed for. -/
def State.runsOn (norule : Prop) (s : State) : Prop :=
  match s.activity with
  | .idle => True
  | .rx r => ∃ bl, bl.length = numClSyms ∧ build numClSyms bl = .ok r.boot
  | .chunk c => c.scan ≠ [] ∧ ∀ pos ∈ c.scan, s.blocksFit pos.f
  | .refgrp g => g.scan ≠ [] ∧ (∀ pos ∈ g.scan, s.blocksFit pos.f) ∧ (s.cfg.diagRuleGiven = false → norule)

section
variable {norule : Prop} {s u : State}

theorem runsOn_idle (hidle : s.activity = .idle) : s.runsOn norule := by
  rw [State.runsOn, hidle]
  trivial

theorem runsOn_rx {r : RxState} (hrx : s.activity = .rx r) :
    s.runsOn norule ↔ ∃ bl, bl.length = numClSyms ∧ build numClSyms bl = .ok r.boot := by
  rw [State.runsOn, hrx]

theorem runsOn_chunk {c : ChunkState} (hchunk : s.activity = .chunk c) :
    s.runsOn norule ↔ c.scan ≠ [] ∧ ∀ pos ∈ c.scan, s.blocksFit pos.f := by
  rw [State.runsOn, hchunk]

theorem runsOn_refgrp {g : RefState} (hrefgrp : s.activity = .refgrp g) : s.runsOn norule ↔
    g.scan ≠ [] ∧ (∀ pos ∈ g.scan, s.blocksFit pos.f) ∧ (s.cfg.diagRuleGiven = false → norule) := by
  rw [State.runsOn, hrefgrp]

/-! ### One event -/

theorem exists_decode_bootsym {sym : Nat} (hsym : sym < numClSyms) : ∃ i, decode .bootsym sym = some i := by
  unfold numClSyms at hsym
  interval_cases sym <;> exact ⟨_, rfl⟩

theorem answers_oneEvent_rx {r : RxState} (hrx : s.activity = .rx r)
    (hboot : ∃ bl, bl.length = numClSyms ∧ build numClSyms bl = .ok r.boot) : Answers norule (oneEvent s) := by
  obtain ⟨bl, hlength, hbuild⟩ := hboot
  have hfetch : Answers norule (fetchBoot r s) := by
    refine (answers_decodeSym r.boot s).bind fun ⟨sym, u⟩ hu => ?_
    obtain ⟨p, -, hdec, -⟩ := (decodeSym_ok _ _ _ _).1 hu
    obtain ⟨i, hi⟩ := exists_decode_bootsym (hlength ▸ decodePeek_lt_of_build hbuild hdec)
    simp only [hi]
    exact .ok _
  rw [oneEvent, fetchEvent, hrx]
  refine hfetch.bind fun ⟨i, u⟩ hu => ?_
  obtain ⟨p, sym, len, -, -, hdec, rfl⟩ := fetchBoot_ok _ _ _ _ hu
  refine (answers_eventBody_of_rx (s := s.advance len) hdec hrx).bind fun v hv => ?_
  obtain ⟨n, k, vs, -, -, -, rfl⟩ := eventBody_of_decode_bootsym (s := s.advance len) hdec hrx hv
  exact answers_retireBoot _ _

theorem answers_oneEvent_chunk {c : ChunkState} (hchunk : s.activity = .chunk c) (hscan : c.scan ≠ [])
    (hfit : ∀ pos ∈ c.scan, s.blocksFit pos.f) : Answers norule (oneEvent s) := by
  obtain ⟨pos, rest, hpos⟩ := List.exists_cons_of_ne_nil hscan
  have hfirst : s.blocksFit pos.f := hfit pos (hpos ▸ List.mem_cons_self)
  rw [oneEvent, fetchEvent, hchunk]
  refine (answers_fetchChunk c s).bind fun ⟨i, u⟩ hu => ?_
  obtain ⟨ceb, n, -, hdec, rfl⟩ := fetchChunk_ok _ _ _ _ hu
  obtain ⟨e, -, hbody⟩ := eventBody_of_decode_chunkenc hdec
  simp only [hbody]
  have hfit : ((s.advance n).setActivity (.chunk { c with ceb := ceb >>> 3 })).blocksFit pos.f := hfirst
  have htile := answers_runTile (norule := norule) (c := { c with ceb := ceb >>> 3 }) rfl hpos hfit e
  refine htile.bind fun v hv => ?_
  obtain ⟨c', pos', rest', m, d, c'', hc', hscan', hkeep, -, rfl⟩ := runTile_writtenBy hv
  rw [retireEvent]
  simp only [State.setActivity_activity, retireChunk_of_scan (hkeep.trans hscan')]
  exact .ok _

theorem answers_oneEvent_refgrp {g : RefState} (hrefgrp : s.activity = .refgrp g) (hscan : g.scan ≠ [])
    (hfit : ∀ pos ∈ g.scan, s.blocksFit pos.f) (hrule : s.cfg.diagRuleGiven = false → norule) :
    Answers norule (oneEvent s) := by
  obtain ⟨pos, rest, hpos⟩ := List.exists_cons_of_ne_nil hscan
  have hfirst : s.blocksFit pos.f := hfit pos (hpos ▸ List.mem_cons_self)
  rw [oneEvent, fetchEvent, hrefgrp]
  refine (answers_fetchRef hscan s).bind fun ⟨i, u⟩ hu => ?_
  obtain ⟨w, n, g1, hdec, hscan1, rfl⟩ := fetchRef_decode hu
  have hscans : g1.scan ≠ [] := by rwa [hscan1]
  have hbody : Answers norule (eventBody i ((s.advance n).setActivity (.refgrp g1))) :=
    answers_eventBody_of_refgrp hdec rfl hscans hrule
  refine hbody.bind fun v hv => ?_
  obtain ⟨g2, m, g3, hg2, hscan3, rfl⟩ := eventBody_of_decode_subcode hdec hv
  obtain rfl : g1 = g2 := by simpa using hg2
  rw [retireEvent]
  simp only [State.setActivity_activity]
  refine answers_retireRef (hscan3.trans (hscan1.trans hpos)) ?_
  simpa only [State.advance_blocksFit, State.setActivity_blocksFit] using hfirst

theorem answers_oneEvent (hruns : s.runsOn norule) (hrunning : s.activity ≠ .idle) : Answers norule (oneEvent s) := by
  cases hs : s.activity with
  | idle => exact absurd hs hrunning
  | rx r => exact answers_oneEvent_rx hs ((runsOn_rx hs).1 hruns)
  | chunk c =>
    obtain ⟨hscan, hfit⟩ := (runsOn_chunk hs).1 hruns
    exact answers_oneEvent_chunk hs hscan hfit
  | refgrp g =>
    obtain ⟨hscan, hfit, hrule⟩ := (runsOn_refgrp hs).1 hruns
    exact answers_oneEvent_refgrp hs hscan hfit hrule

theorem oneEvent_runsOn (hruns : s.runsOn norule) (hrunning : s.activity ≠ .idle) (h : oneEvent s = .ok u) :
    u.runsOn norule := by
  cases hs : s.activity with
  | idle => exact absurd hs hrunning
  | rx r =>
    obtain ⟨n, k, vs, -, -, -, ⟨-, rfl⟩ | ⟨-, lens, m, -, -, rfl⟩⟩ := oneEvent_rx_ok hs h
    · exact (runsOn_rx (State.setActivity_activity _ _)).2 ((runsOn_rx hs).1 hruns)
    · exact runsOn_idle rfl
  | chunk c =>
    obtain ⟨-, hfit⟩ := (runsOn_chunk hs).1 hruns
    obtain ⟨pos, rest, n, d, c', hscan, rfl, -, rfl⟩ := oneEvent_chunk_ok hs h
    by_cases hlast : c'.scan = []
    · exact runsOn_idle (if_pos hlast)
    · exact (runsOn_chunk (if_neg hlast)).2 ⟨hlast, fun pos hpos => hfit pos (hscan ▸ List.mem_cons_of_mem _ hpos)⟩
  | refgrp g =>
    obtain ⟨-, hfit, hrule⟩ := (runsOn_refgrp hs).1 hruns
    obtain ⟨pos, rest, n, d, g', hscan, rfl, -, rfl⟩ := oneEvent_refgrp_ok hs h
    by_cases hlast : g'.scan = []
    · exact runsOn_idle (if_pos hlast)
    · exact (runsOn_refgrp (if_neg hlast)).2
        ⟨hlast, fun pos hpos => hfit pos (hscan ▸ List.mem_cons_of_mem _ hpos), hrule⟩

/-! ### Runs -/

theorem answers_runEvents (bound : Nat) (hruns : s.runsOn norule) : Answers norule (runEvents s bound) := by
  induction bound generalizing s with
  | zero => exact .ok _
  | succ b ih =>
    by_cases hidle : s.activity = .idle
    · rw [runEvents_of_idle _ hidle]
      exact .ok _
    · rw [runEvents_of_running _ hidle]
      exact (answers_oneEvent hruns hidle).bind fun u hu => ih (oneEvent_runsOn hruns hidle hu)

/-- Behind the checks the blocks of every face fit the memory. -/
theorem blocksFit_of_firstCheck {sch : Scheme} (hchecks : s.firstCheck sch = none) (hdxt : s.dxtFormat) {f : Nat}
    (hf : f < s.faces.toNat) : s.blocksFit f := fun x y hvisible => by
  rw [← bpb_eq_of_dxtFormat hdxt]
  exact blockAddr_add_bpb_le hchecks hf hvisible

theorem runsOn_startUnpack {sch : Scheme} (hchecks : s.firstCheck sch = none) (hdxt : s.dxtFormat)
    (hrule : sch = .refgrp → s.cfg.diagRuleGiven = false → norule) : (s.startUnpack sch).runsOn norule := by
  have hproper := (startUnpack_proper hchecks).resolve_left (by cases sch <;> exact Activity.noConfusion)
  have hscan := startUnpack_scansLevel s sch
  cases sch with
  | chunk =>
    exact (runsOn_chunk rfl).2
      ⟨List.length_pos_iff.1 hproper, fun pos hpos => blocksFit_of_firstCheck hchecks hdxt (hscan pos hpos)⟩
  | refgrp =>
    exact (runsOn_refgrp rfl).2
      ⟨List.length_pos_iff.1 hproper, fun pos hpos => blocksFit_of_firstCheck hchecks hdxt (hscan pos hpos), hrule rfl⟩

/-! ### The commands -/

theorem answers_exec_unpackInstr (sch : Scheme) (s : State)
    (hrule : sch = .refgrp → s.cfg.diagRuleGiven = false → norule) :
    OutcomeAnswers norule (exec (unpackInstr sch) s) := by
  rw [exec_unpackInstr]
  refine .gate ?_
  split
  · exact .raiseBy _ _ s
  · next hc =>
    have hchecks := checkUnpack_eq_none_iff.1 hc
    refine Answers.settle ?_
    cases hetc : isEtc s.fmt with
    | true =>
      rw [if_pos rfl]
      exact answers_runProgram _ fun f x y hf hvisible => blockAddr_add_bpb_le hchecks hf hvisible
    | false =>
      rw [if_neg Bool.false_ne_true]
      exact answers_runEvents _ (runsOn_startUnpack hchecks (dxtFormat_of_not_isEtc hchecks hetc) hrule)

theorem answers_exec_modelRx (k : Nat) (s : State) : OutcomeAnswers norule (exec (.modelRx k) s) := by
  rw [exec, execModelRx]
  refine .gate ?_
  split
  · exact .next _
  split
  · exact .next _
  refine Answers.settle ((answers_startModelRx k _).bind fun u hu => ?_)
  obtain ⟨n, boot, bits, bl, -, -, hlength, hbuild, rfl⟩ := startModelRx_ok _ _ _ hu
  exact answers_runEvents _ ((runsOn_rx rfl).2 ⟨bl, hlength, hbuild⟩)

/-- The commands that are no unpack command. -/
theorem answers_exec (i : Instr) (s : State) (hcw : i.fmt = .cw) (hchunk : i ≠ .unpackChunk)
    (hrefgrp : i ≠ .unpackRefgrp) : OutcomeAnswers norule (exec i s) := by
  cases i
  case brStart =>
    rw [exec, execBrStart]
    refine .gate ?_
    split
    · exact .raiseBy _ _ _
    split
    · exact .raiseBy _ _ _
    · exact .next _
  case getbits n =>
    rw [exec, execGetbits]
    refine .gate ?_
    split
    · exact .raiseBy _ _ _
    split
    · exact .raiseBy _ _ _
    · exact Answers.settle ((answers_take _ n).bindAll fun _ => .ok _)
  case readbits n =>
    rw [exec, execReadbits]
    refine .gate ?_
    split
    · exact .raiseBy _ _ _
    split
    · exact .raiseBy _ _ _
    · exact Answers.settle ((answers_takeLong _ n).bindAll fun _ => .ok _)
  case huffBuild k n =>
    rw [exec, execHuffBuild]
    refine .gate ?_
    split
    · exact .raiseBy _ _ _
    · exact Answers.settle ((answers_buildFromCl n _).bindAll fun _ => .ok _)
  case huffDecode k =>
    rw [exec, execHuffDecode]
    refine .gate ?_
    split
    · exact .raiseBy _ _ _
    split
    · exact .raiseBy _ _ _
    split
    · exact .raiseBy _ _ _
    · exact Answers.settle ((answers_decodeSym _ _).bindAll fun _ => .ok _)
  case modelRx k => exact answers_exec_modelRx k s
  case unpackChunk => exact absurd rfl hchunk
  case unpackRefgrp => exact absurd rfl hrefgrp
  case nop => exact .gate (.next s)
  case clrErr => exact .next _
  case softReset => exact .next _
  all_goals cases hcw

end

/-- Settles O13: every piece of a command goes on, raises an error or reads what nothing has written, and along a run the
scan, the built bootstrap model and the fit of the blocks are kept. -/
theorem commandsStopOnlyAtUnwrittenMemory : Obligations.CommandsStopOnlyAtUnwrittenMemory := by
  intro i s _ hcw
  by_cases hchunk : i = .unpackChunk
  · subst hchunk
    refine (answers_exec_unpackInstr (norule := False) .chunk s nofun).imp_right (Or.imp_right ?_)
    exact fun h => h.1.elim
  by_cases hrefgrp : i = .unpackRefgrp
  · subst hrefgrp
    refine (answers_exec_unpackInstr (norule := s.cfg.diagRuleGiven = false) .refgrp s fun _ h => h).imp_right
      (Or.imp_right ?_)
    exact fun h => ⟨rfl, h⟩
  · refine (answers_exec (norule := False) i s hcw hchunk hrefgrp).imp_right (Or.imp_right ?_)
    exact fun h => h.1.elim

end Sys2Proof.Machine
end
